-- ==== Sys2Proof/Word.lean ====
section
/-!
DEFINITION. Sys2Proof/Word.lean: the words of the machine and the fixed sets of names the manual uses
(lane types R32, formats R246, scopes R94). Bit 0 is the least significant bit (R5).
-/
namespace Sys2Proof

/-- One byte of memory. -/
abbrev Byte := BitVec 8
/-- One lane value or one instruction word, 32 bits. -/
abbrev Word := BitVec 32
/-- One uniform register or one memory doubleword, 64 bits. -/
abbrev DWord := BitVec 64
/-- A code address, 48 bits (R48). -/
abbrev CodeAddr := BitVec 48
/-- The six sticky exception flags of FX: NV 0, DZ 1, OF 2, UF 3, NX 4, DN 5 (R231). -/
abbrev Fx := BitVec 6

/-- The lane types of R32. -/
inductive Ty where
  | i32 | n32 | i64 | n64 | f32 | f64 | f16x2 | bf16x2 | i16x2 | n16x2 | i8x4 | n8x4
  deriving DecidableEq, Repr

/-- A floating-point format of R224: exponent bits, fraction bits, and whether it is E4M3. -/
structure FFmt where
  ew : Nat
  fw : Nat
  e4m3 : Bool
  deriving DecidableEq, Repr

/-- What one element of a lane is: an integer of a width, signed or not, or a float of a format. -/
inductive EK where
  | int (signed : Bool) (w : Nat)
  | flt (f : FFmt)
  deriving DecidableEq, Repr

/-- Rounding modes of R226; `sr` carries the 32-bit random word of R242. -/
inductive RM where
  | rne | rtz | rup | rdn | rto
  | sr (rnd : Nat)
  deriving DecidableEq, Repr

/-- The value of a float code: a NaN (signalling or not), an infinity, or (-1)^neg * m * 2^e. -/
inductive FVal where
  | nan (sig : Bool)
  | inf (neg : Bool)
  | fin (neg : Bool) (m : Nat) (e : Int)
  deriving DecidableEq, Repr

/-- Two-operand generic arithmetic of R118. -/
inductive AOp where
  | add | sub | mul | min | max | mulhi | div | rem
  deriving DecidableEq, Repr

/-- One-operand generic arithmetic of R125. -/
inductive UOp where
  | abs | neg | sat
  deriving DecidableEq, Repr

/-- The floating-point functions of R129. -/
inductive FOp where
  | sqrt | rcp | rsq | exp2 | log2
  deriving DecidableEq, Repr

/-- Atomic operations of R94. -/
inductive AtOp where
  | add | min | max | and | or | xor | xchg | cas
  deriving DecidableEq, Repr

/-- Reduction operations of R103 (gred). -/
inductive ROp where
  | add | min | max | and | or | xor
  deriving DecidableEq, Repr

/-- Packed-pixel operations of group PX1 (R153). -/
inductive POp where
  | sad | avg | dot4 | dot2
  deriving DecidableEq, Repr

/-- The type tag of a 256-byte accumulator row (R276). -/
inductive AccTag where
  | f32 | i32 | f64 | i64
  deriving DecidableEq, Repr

/-- Why a stored unit is poisoned: an error under a margin offset, or one without (R459). -/
inductive Poison where
  | margin | plain
  deriving DecidableEq, Repr

/-- A byte is two hexadecimal digits; the plainest conversions. -/
def wordOfNat (n : Nat) : Word := BitVec.ofNat 32 n
/-- A doubleword of a number, modulo 2^64. -/
def dwordOfNat (n : Nat) : DWord := BitVec.ofNat 64 n

/-- `bits(x, hi, lo)` of R8 on a number. -/
def bitsOf (x hi lo : Nat) : Nat := (x >>> lo) % 2 ^ (hi + 1 - lo)

end Sys2Proof
end

