-- ==== Sys2Proof/Machine/Float.lean ====
section
/-!
DEFINITION. Sys2Proof/Machine/Float.lean: number formats and exact arithmetic (08_numbers, R223-R243). Every float
result is an exact real value, held as a sign, a natural number, a power of two and a sticky bit, rounded once (R226).
-/
namespace Sys2Proof

/-! ## Formats (R224) -/

def fF16 : FFmt := ⟨5, 10, false⟩
def fBF16 : FFmt := ⟨8, 7, false⟩
def fF32 : FFmt := ⟨8, 23, false⟩
def fF64 : FFmt := ⟨11, 52, false⟩
def fE4M3 : FFmt := ⟨4, 3, true⟩
def fE5M2 : FFmt := ⟨5, 2, false⟩

/-- Exponent bias of R224. -/
def FFmt.bias (f : FFmt) : Nat := 2 ^ (f.ew - 1) - 1
/-- Width of a code in bits. -/
def FFmt.width (f : FFmt) : Nat := 1 + f.ew + f.fw
/-- Exponent of the least subnormal (smin of R239 for the lane types). -/
def FFmt.qmin (f : FFmt) : Int := 1 - (f.bias : Int) - f.fw
/-- Magnitude code of the infinity (of the NaN, for E4M3). -/
def FFmt.infMag (f : FFmt) : Nat := if f.e4m3 then 0x7F else (2 ^ f.ew - 1) <<< f.fw
/-- Magnitude code of the largest finite value. -/
def FFmt.maxMag (f : FFmt) : Nat := f.infMag - 1
/-- The canonical NaN of R225. -/
def FFmt.canon (f : FFmt) : Nat := if f.e4m3 then 0x7F else f.infMag + 2 ^ (f.fw - 1)
/-- The sign bit in place. -/
def FFmt.signBit (f : FFmt) (neg : Bool) : Nat := if neg then 2 ^ (f.ew + f.fw) else 0

/-! ## FX flags (R231) -/

def fxNV : Fx := 1#6
def fxDZ : Fx := 2#6
def fxOF : Fx := 4#6
def fxUF : Fx := 8#6
def fxNX : Fx := 16#6
def fxDN : Fx := 32#6
/-- A flag word when a condition holds. -/
def fxIf (c : Bool) (x : Fx) : Fx := if c then x else 0#6

/-! ## From a code to its value -/

/-- The value of code `c` in format `f` (R224, R225). -/
def fdec (f : FFmt) (c : Nat) : FVal :=
  let neg := (c >>> (f.ew + f.fw)) % 2 == 1
  let mag := c % 2 ^ (f.ew + f.fw)
  let x := mag >>> f.fw
  let fr := mag % 2 ^ f.fw
  if f.e4m3 && mag == 0x7F then .nan false
  else if !f.e4m3 && mag ≥ f.infMag then
    (if fr == 0 then .inf neg else .nan (fr >>> (f.fw - 1) == 0))
  else if x == 0 then .fin neg fr f.qmin
  else .fin neg (2 ^ f.fw + fr) (f.qmin + ((x : Int) - 1))

/-- The operand of a computing instruction: with FTZ a subnormal reads as a zero of its sign and raises DN (R229). -/
def fin (f : FFmt) (ftz : Bool) (c : Nat) : FVal × Fx :=
  match fdec f c with
  | .fin neg m e =>
    if ftz && m != 0 && m < 2 ^ f.fw && e == f.qmin then (.fin neg 0 f.qmin, fxDN) else (.fin neg m e, 0#6)
  | v => (v, 0#6)

/-- Is the operand a signalling NaN? -/
def FVal.isSig : FVal → Bool
  | .nan s => s
  | _ => false
/-- Is the operand a NaN? -/
def FVal.isNan : FVal → Bool
  | .nan _ => true
  | _ => false
/-- Is the operand a zero? -/
def FVal.isZero : FVal → Bool
  | .fin _ 0 _ => true
  | _ => false
/-- The sign of a number (of a NaN: false). -/
def FVal.neg? : FVal → Bool
  | .nan _ => false
  | .inf n => n
  | .fin n _ _ => n

/-! ## Rounding (R226-R228) -/

/-- Rounds (-1)^neg * m * 2^e (a little more in magnitude when `sticky`) to a multiple of 2^q: the multiple and
whether it differs from the exact value. -/
def roundGrid (mode : RM) (neg : Bool) (m : Nat) (e : Int) (sticky : Bool) (q : Int) : Nat × Bool :=
  if q ≤ e then (m <<< (e - q).toNat, sticky)
  else
    let k := (q - e).toNat
    let lo := m >>> k
    let r := m % 2 ^ k
    if r == 0 && !sticky then (lo, false)
    else
      let up := match mode with
        | .rne => 2 * r > 2 ^ k || (2 * r == 2 ^ k && (sticky || lo % 2 == 1))
        | .rtz => false
        | .rup => !neg
        | .rdn => neg
        | .rto => lo % 2 == 0
        | .sr rnd => rnd < (r <<< 32) >>> k
      (if up then lo + 1 else lo, true)

/-- Result of an overflow (R227). -/
def overflowCode (f : FFmt) (mode : RM) (sat neg : Bool) : Nat :=
  if f.e4m3 || f == fE5M2 then
    (if sat then f.signBit neg + f.maxMag else f.canon)
  else match mode with
    | .rtz | .rto => f.signBit neg + f.maxMag
    | .rup => if neg then f.signBit neg + f.maxMag else f.infMag
    | .rdn => if neg then f.signBit neg + f.infMag else f.maxMag
    | _ => f.signBit neg + f.infMag

/-- Rounds an exact nonzero magnitude to format `f` keeping `p` significand bits at most (p is `fw + 1` but for the
reduced-precision functions of R239). -/
def froundP (f : FFmt) (p : Nat) (mode : RM) (sat neg : Bool) (m : Nat) (e : Int) (sticky : Bool) : Nat × Fx :=
  if m == 0 && !sticky then (f.signBit neg, 0#6)
  else
    let lg : Int := (Nat.log2 m : Int) + e
    let q0 : Int := max (lg - ((p : Int) - 1)) f.qmin
    let (n0, inexact) := roundGrid mode neg m e sticky q0
    -- the grid position, brought to the full significand of the format
    let sh := (q0 - max (lg - f.fw) f.qmin).toNat
    let n := n0 <<< sh
    let q : Int := q0 - sh
    let mag := ((q - f.qmin).toNat <<< f.fw) + n
    if mag > f.maxMag then (overflowCode f mode sat neg, fxOF ||| fxNX)
    else (f.signBit neg + mag, fxIf inexact fxNX ||| fxIf (inexact && mag < 2 ^ f.fw) fxUF)

/-- `rnd` of R117 without FTZ: an exact magnitude rounded to the format. -/
def fround (f : FFmt) (mode : RM) (neg : Bool) (m : Nat) (e : Int) (sticky : Bool) : Nat × Fx :=
  froundP f (f.fw + 1) mode false neg m e sticky

/-- The output side of FTZ: a subnormal result becomes a zero of its sign and raises UF and NX (R229). -/
def ftzOut (f : FFmt) (ftz : Bool) (r : Nat × Fx) : Nat × Fx :=
  let mag := r.1 % 2 ^ (f.ew + f.fw)
  if ftz && mag != 0 && mag < 2 ^ f.fw then (r.1 - mag, r.2 ||| fxUF ||| fxNX) else r

/-- What a float instruction of a team computes under: FMT.RM and FMT.FTZ (R226, R229). -/
structure FEnv where
  rm : RM
  ftz : Bool
  deriving DecidableEq, Repr

/-- The environment of the matrix array and of comparisons that ignore FMT. -/
def envRne : FEnv := ⟨.rne, false⟩

/-! ## Exact sums -/

/-- One finite term of an exact sum. -/
abbrev FTerm := Bool × Nat × Int

/-- The least exponent of the terms. -/
def minExp : List FTerm → Int
  | [] => 0
  | [t] => t.2.2
  | t :: ts => min t.2.2 (minExp ts)

/-- The exact integer sum of terms at exponent `e`. -/
def sumAt (e : Int) : List FTerm → Int
  | [] => 0
  | (neg, m, x) :: ts =>
    let v : Int := (m <<< (x - e).toNat : Nat)
    (if neg then -v else v) + sumAt e ts

/-- An exact sum of finite terms rounded once. A zero sum of terms that are all zeros of one sign keeps that sign;
any other exact zero is +0, or -0 under RDN (R120, R228). -/
def fsum (f : FFmt) (env : FEnv) (ts : List FTerm) : Nat × Fx :=
  let e := minExp ts
  let s := sumAt e ts
  if s == 0 then
    let allNeg := ts.all (fun t => t.2.1 == 0 && t.1)
    let allPos := ts.all (fun t => t.2.1 == 0 && !t.1)
    (f.signBit (if allNeg then true else if allPos then false else env.rm == .rdn), 0#6)
  else ftzOut f env.ftz (fround f env.rm (s < 0) s.natAbs e false)

/-! ## Operations on codes -/

/-- The canonical NaN, with NV when the condition holds. -/
def nanRes (f : FFmt) (nv : Bool) : Nat × Fx := (f.canon, fxIf nv fxNV)

/-- Adds two values (R120). -/
def faddV (f : FFmt) (env : FEnv) : FVal → FVal → Nat × Fx
  | .nan a, .nan b => nanRes f (a || b)
  | .nan a, _ => nanRes f a
  | _, .nan b => nanRes f b
  | .inf a, .inf b => if a == b then (f.signBit a + f.infMag, 0#6) else nanRes f true
  | .inf a, _ => (f.signBit a + f.infMag, 0#6)
  | _, .inf b => (f.signBit b + f.infMag, 0#6)
  | .fin a m x, .fin b n y => fsum f env [(a, m, x), (b, n, y)]

/-- The negation of a value (the sign only). -/
def FVal.negate : FVal → FVal
  | .nan s => .nan s
  | .inf n => .inf (!n)
  | .fin n m e => .fin (!n) m e

/-- Multiplies two values (R120). -/
def fmulV (f : FFmt) (env : FEnv) : FVal → FVal → Nat × Fx
  | .nan a, .nan b => nanRes f (a || b)
  | .nan a, _ => nanRes f a
  | _, .nan b => nanRes f b
  | .inf a, .inf b => (f.signBit (a != b) + f.infMag, 0#6)
  | .inf a, .fin b n _ => if n == 0 then nanRes f true else (f.signBit (a != b) + f.infMag, 0#6)
  | .fin a m _, .inf b => if m == 0 then nanRes f true else (f.signBit (a != b) + f.infMag, 0#6)
  | .fin a m x, .fin b n y =>
    ftzOut f env.ftz (fround f env.rm (a != b) (m * n) (x + y) false)

/-- The product of two values as a value: an infinity times zero is an invalid NaN (first component true). -/
def fprod : FVal → FVal → Bool × FVal
  | .inf a, .inf b => (false, .inf (a != b))
  | .inf a, .fin b n _ => if n == 0 then (true, .nan false) else (false, .inf (a != b))
  | .fin a m _, .inf b => if m == 0 then (true, .nan false) else (false, .inf (a != b))
  | .fin a m x, .fin b n y => (false, .fin (a != b) (m * n) (x + y))
  | a, b => (a.isSig || b.isSig, .nan false)

/-- Adds a list of exact values and rounds once; `nv` says that an operand has raised NV already. DESIGN CHOICE (log entry 129): beside a
quiet NaN, infinities of both signs raise no NV. -/
def fsumV (f : FFmt) (env : FEnv) (nv : Bool) (vs : List FVal) : Nat × Fx :=
  if nv || vs.any FVal.isNan then nanRes f (nv || vs.any FVal.isSig)
  else
    let pinf := vs.any (· == .inf false)
    let ninf := vs.any (· == .inf true)
    if pinf && ninf then nanRes f true
    else if pinf then (f.infMag, 0#6)
    else if ninf then (f.signBit true + f.infMag, 0#6)
    else fsum f env (vs.filterMap fun
      | .fin a m e => some (a, m, e)
      | _ => none)

/-- x * y + z with one rounding (R124, R197). -/
def fmaV (f : FFmt) (env : FEnv) (x y z : FVal) : Nat × Fx :=
  let (nv, p) := fprod x y
  fsumV f env nv [p, z]

/-- Divides two values (R120, R123). -/
def fdivV (f : FFmt) (env : FEnv) : FVal → FVal → Nat × Fx
  | .nan a, .nan b => nanRes f (a || b)
  | .nan a, _ => nanRes f a
  | _, .nan b => nanRes f b
  | .inf _, .inf _ => nanRes f true
  | .inf a, .fin b _ _ => (f.signBit (a != b) + f.infMag, 0#6)
  | .fin a _ _, .inf b => (f.signBit (a != b), 0#6)
  | .fin a m x, .fin b n y =>
    if n == 0 then
      if m == 0 then nanRes f true else (f.signBit (a != b) + f.infMag, fxDZ)
    else if m == 0 then (f.signBit (a != b), 0#6)
    else
      let s := f.fw + 5 + Nat.log2 n - Nat.log2 m
      let num := m <<< s
      ftzOut f env.ftz (fround f env.rm (a != b) (num / n) (x - s - y) (num % n != 0))

/-- One Newton step of the integer square root; structural on the fuel. -/
def isqrtLoop (n : Nat) : Nat → Nat → Nat
  | 0, x => x
  | fuel + 1, x =>
    let y := (x + n / x) / 2
    if y < x then isqrtLoop n fuel y else x

/-- The greatest r with r * r at most n. -/
def isqrt (n : Nat) : Nat :=
  if n == 0 then 0 else isqrtLoop n (Nat.log2 n + 2) (2 ^ (Nat.log2 n / 2 + 1))

/-- The square root (R130). -/
def fsqrtV (f : FFmt) (env : FEnv) : FVal → Nat × Fx
  | .nan s => nanRes f s
  | .inf n => if n then nanRes f true else (f.infMag, 0#6)
  | .fin n m e =>
    if m == 0 then (f.signBit n, 0#6)
    else if n then nanRes f true
    else
      let s0 := 2 * (f.fw + 5)
      let s := if (e - s0) % 2 == 0 then s0 else s0 + 1
      let w := m <<< s
      let r := isqrt w
      ftzOut f env.ftz (fround f env.rm false r ((e - s) / 2) (r * r != w))

/-! ## The reduced-precision functions (R131, R132, R239) -/

/-- p of R131, counting the leading bit. -/
def FFmt.redP (f : FFmt) : Nat :=
  if f == fF32 then 12 else if f == fF64 then 26 else f.fw + 1

/-- Rounds an exact magnitude under R239 and lets FTZ act. -/
def redRound (f : FFmt) (ftz neg : Bool) (m : Nat) (e : Int) (sticky : Bool) : Nat × Fx :=
  ftzOut f ftz (froundP f f.redP .rne false neg m e sticky)

/-- 2^fr for 0 ≤ fr < 1, as a number at `prec` fraction bits, not above the exact value: the product of the roots
2^(2^-i) over the set bits of `fr` (whose first bit is bit `t - 1`). `c` is the present root. -/
def exp2Loop (prec : Nat) (fr : Nat) : Nat → Nat → Nat → Nat → Nat
  | 0, _, _, acc => acc
  | fuel + 1, t, c, acc =>
    match t with
    | 0 => acc
    | t' + 1 =>
      let acc' := if fr.testBit t' then (acc * c) >>> prec else acc
      exp2Loop prec fr fuel t' (isqrt (c <<< prec)) acc'

/-- Working precision of the transcendental functions, in fraction bits. -/
def tprec : Nat := 192

/-- 2^x for a finite x (R239): exact for an integer x. -/
def exp2Fin (f : FFmt) (ftz : Bool) (neg : Bool) (m : Nat) (e : Int) : Nat × Fx :=
  let lg : Int := (Nat.log2 m : Int) + e
  if m == 0 then redRound f ftz false 1 0 false
  else if lg ≥ 20 then
    -- far beyond any exponent of the format: an overflow, or a value below half the least subnormal
    (if neg then redRound f ftz false 1 (f.qmin - 8) true else redRound f ftz false 1 (2 ^ f.ew : Nat) false)
  else
    let v : Int := if neg then -(m : Int) else m
    if e ≥ 0 then redRound f ftz false 1 (v * 2 ^ e.toNat) false
    else
      let t := (-e).toNat
      let n := v >>> t
      let fr := (v - n * 2 ^ t).toNat
      if fr == 0 then redRound f ftz false 1 n false
      else
        let root2 := isqrt (2 <<< (2 * tprec))
        let r := exp2Loop tprec fr tprec t root2 (1 <<< tprec)
        redRound f ftz false r (n - tprec) true

/-- The first `k` bits of log2 of a number in [1, 2) held at `prec` fraction bits, by repeated squaring. -/
def log2Loop (prec : Nat) : Nat → Nat → Nat → Nat
  | 0, _, acc => acc
  | k + 1, x, acc =>
    let y := (x * x) >>> prec
    if y ≥ 2 <<< prec then log2Loop prec k (y >>> 1) (2 * acc + 1)
    else log2Loop prec k y (2 * acc)

/-- log2 of a positive finite number (R239): exact for a power of two. DESIGN CHOICE (log entry 116): the zero that 1.0 gives is
positive. -/
def log2Fin (f : FFmt) (ftz : Bool) (m : Nat) (e : Int) : Nat × Fx :=
  let l := Nat.log2 m
  let n : Int := (l : Int) + e
  if m == 2 ^ l then redRound f ftz (n < 0) n.natAbs 0 false
  else
    let prec := 2 * tprec
    let x := (m <<< prec) >>> l
    let b := tprec
    let fr := log2Loop prec b x 0
    let v : Int := n * 2 ^ b + fr
    if v ≥ 0 then redRound f ftz false v.toNat (-(b : Int)) true
    else redRound f ftz true ((-v).toNat - 1) (-(b : Int)) true

/-- vrcp, vrsq, vexp2, vlog2 and vsqrt on one value. -/
def ffunV (op : FOp) (f : FFmt) (env : FEnv) (v : FVal) : Nat × Fx :=
  match op, v with
  | .sqrt, v => fsqrtV f env v
  | _, .nan s => nanRes f s
  | .rcp, .inf n => (f.signBit n, 0#6)
  | .rcp, .fin n m e =>
    if m == 0 then (f.signBit n + f.infMag, fxDZ)
    else
      let s := f.fw + 5 + Nat.log2 m
      redRound f env.ftz n (2 ^ s / m) (-(s : Int) - e) (2 ^ s % m != 0)
  | .rsq, .inf n => if n then nanRes f true else (0, 0#6)
  | .rsq, .fin n m e =>
    if m == 0 then (f.signBit n + f.infMag, fxDZ)
    else if n then nanRes f true
    else
      -- 1 / sqrt(m * 2^e) with an even exponent
      let m' := if e % 2 == 0 then m else 2 * m
      let e' := if e % 2 == 0 then e else e - 1
      let k := f.fw + 5 + Nat.log2 m'
      let r := isqrt (2 ^ (2 * k) / m')
      redRound f env.ftz false r (-(k : Int) - e' / 2) (r * r * m' != 2 ^ (2 * k))
  | .exp2, .inf n => if n then (0, 0#6) else (f.infMag, 0#6)
  | .exp2, .fin n m e => exp2Fin f env.ftz n m e
  | .log2, .inf n => if n then nanRes f true else (f.infMag, 0#6)
  | .log2, .fin n m e =>
    if m == 0 then (f.signBit true + f.infMag, fxDZ)
    else if n then nanRes f true
    else log2Fin f env.ftz m e

/-! ## Comparison, minimum and maximum -/

/-- A finite number as an integer at exponent `e0`. -/
def scaled (e0 : Int) (neg : Bool) (m : Nat) (e : Int) : Int :=
  let v : Int := (m <<< (e - e0).toNat : Nat)
  if neg then -v else v

/-- IEEE order of two values that are not NaN: less, equal, greater; -0 equals +0. -/
def fcmpV : FVal → FVal → Ordering
  | .inf a, .inf b => if a == b then .eq else if a then .lt else .gt
  | .inf a, _ => if a then .lt else .gt
  | _, .inf b => if b then .gt else .lt
  | .fin a m x, .fin b n y =>
    let e := min x y
    compare (scaled e a m x) (scaled e b n y)
  | _, _ => .eq

/-- Clears a subnormal code to the zero of its sign under FTZ. -/
def flushCode (f : FFmt) (ftz : Bool) (c : Nat) : Nat :=
  let mag := c % 2 ^ (f.ew + f.fw)
  if ftz && mag != 0 && mag < 2 ^ f.fw then c - mag else c

/-- vmin (`isMax` false) and vmax of R121 on codes: an operand bit for bit, the canonical NaN, or a flushed zero. -/
def fminmax (f : FFmt) (ftz isMax : Bool) (a b : Nat) : Nat × Fx :=
  let (va, fa) := fin f ftz a
  let (vb, fb) := fin f ftz b
  let fl := fa ||| fb ||| fxIf (va.isSig || vb.isSig) fxNV
  let pick (c : Nat) : Nat × Fx := (flushCode f ftz c, fl)
  match va.isNan, vb.isNan with
  | true, true => (f.canon, fl)
  | true, false => pick b
  | false, true => pick a
  | false, false =>
    let aLess := match fcmpV va vb with
      | .lt => true
      | .gt => false
      | .eq => va.neg? && !vb.neg?
    let bLess := match fcmpV va vb with
      | .lt => false
      | .gt => true
      | .eq => vb.neg? && !va.neg?
    if isMax then (if aLess then pick b else pick a) else (if bLess then pick b else pick a)

/-! ## Integers (R223) -/

/-- A code of width `w` read as an integer. -/
def toI (signed : Bool) (w c : Nat) : Int :=
  let v := c % 2 ^ w
  if signed && v ≥ 2 ^ (w - 1) then (v : Int) - 2 ^ w else v
/-- Least value of an integer type. -/
def minI (signed : Bool) (w : Nat) : Int := if signed then -(2 ^ (w - 1) : Nat) else 0
/-- Greatest value of an integer type. -/
def maxI (signed : Bool) (w : Nat) : Int := if signed then (2 ^ (w - 1) : Nat) - 1 else (2 ^ w : Nat) - 1
/-- The code of an integer modulo 2^w (`wrap` of R117). -/
def wrapI (w : Nat) (x : Int) : Nat := (x % (2 ^ w : Nat)).toNat
/-- `sat` of R117. -/
def satI (signed : Bool) (w : Nat) (x : Int) : Int := max (minI signed w) (min (maxI signed w) x)
/-- `fit` of R117, as a code. -/
def fitI (sat signed : Bool) (w : Nat) (x : Int) : Nat :=
  wrapI w (if sat then satI signed w x else x)

/-! ## Conversions (R134, R279, R389) -/

/-- An exact value rounded to an integer in a mode: the integer and whether it differs. -/
def roundInt (mode : RM) (neg : Bool) (m : Nat) (e : Int) : Int × Bool :=
  let (n, x) := roundGrid mode neg m e false 0
  (if neg then -(n : Int) else n, x)

/-- Float to integer of R134: always saturates. -/
def ftoiV (mode : RM) (signed : Bool) (w : Nat) : FVal → Nat × Fx
  | .nan _ => (0, fxNV)
  | .inf n => (wrapI w (if n then minI signed w else maxI signed w), fxNV)
  | .fin n m e =>
    let (y, x) := roundInt mode n m e
    if y < minI signed w || y > maxI signed w then (wrapI w (satI signed w y), fxNV)
    else (wrapI w y, fxIf x fxNX)

/-- Integer to float, rounded once. -/
def itof (f : FFmt) (env : FEnv) (x : Int) : Nat × Fx :=
  ftzOut f env.ftz (fround f env.rm (x < 0) x.natAbs 0 false)

/-- Float to float of R134: NaN to the canonical NaN (invalid when signalling). -/
def ftofV (g : FFmt) (env : FEnv) : FVal → Nat × Fx
  | .nan s => nanRes g s
  | .inf n => (g.signBit n + g.infMag, 0#6)
  | .fin n m e => ftzOut g env.ftz (fround g env.rm n m e false)

/-- Converts one element from a kind to a kind (R134). `sat` is FMT.SAT, `env` FMT.RM and FMT.FTZ. -/
def cvtElem (src dst : EK) (env : FEnv) (sat : Bool) (c : Nat) : Nat × Fx :=
  match src, dst with
  | .int s w, .int s' w' => (fitI sat s' w' (toI s w c), 0#6)
  | .int s w, .flt g => itof g env (toI s w c)
  | .flt f, .int s' w' =>
    let (v, fl) := fin f env.ftz c
    let (r, fl') := ftoiV env.rm s' w' v
    (r, fl ||| fl' ||| fxIf v.isSig fxNV)
  | .flt f, .flt g =>
    let (v, fl) := fin f env.ftz c
    let (r, fl') := ftofV g env v
    (r, fl ||| fl')

/-! ## PSW8 (R236-R238) -/

/-- One signed power-of-two term in units of 2^-6. -/
def pswTerm (s e : Nat) : Int := if e == 7 then 0 else (if s == 1 then -(2 ^ (6 - e) : Nat) else (2 ^ (6 - e) : Nat))
/-- The value of a PSW8 code in units of 2^-6 (R236). -/
def pswVal (c : Nat) : Int :=
  pswTerm (bitsOf c 7 7) (bitsOf c 6 4) + pswTerm (bitsOf c 3 3) (bitsOf c 2 0)
/-- Is the code canonical (R237)? -/
def pswCanonical (c : Nat) : Bool :=
  let s1 := bitsOf c 7 7; let e1 := bitsOf c 6 4; let s2 := bitsOf c 3 3; let e2 := bitsOf c 2 0
  e1 ≤ e2 && (e1 != 7 || c == 0x77) && (e2 != 7 || s2 == 0) &&
  (e1 == 7 || e2 == 7 ||
    ((e1 != e2 || (e1 == 0 && s1 == s2)) && (e2 != e1 + 1 || s1 == s2) && (e2 != e1 + 2 || s1 == s2)))
/-- The canonical codes. -/
def pswCodes : List Nat := (List.range 256).filter pswCanonical
/-- Distance of a candidate from an exact value (-1)^neg * m * 2^e, both scaled by 2^(s+6). -/
def pswDist (neg : Bool) (m : Nat) (e : Int) (s : Nat) (c : Nat) : Nat :=
  (scaled (-(s : Int) - 6) neg m e - pswVal c * 2 ^ s).natAbs
/-- Is candidate `c` better than `best`: nearer, or as near and smaller in magnitude (R238)? -/
def pswBetter (neg : Bool) (m : Nat) (e : Int) (s c best : Nat) : Bool :=
  let dc := pswDist neg m e s c
  let db := pswDist neg m e s best
  dc < db || (dc == db && (pswVal c).natAbs < (pswVal best).natAbs)
/-- Conversion of an exact finite value into PSW8 (R238). -/
def pswOf (neg : Bool) (m : Nat) (e : Int) : Nat :=
  if m == 0 then 0x77
  else if (Nat.log2 m : Int) + e ≥ 2 then (if neg then 0x88 else 0x00)
  else
    let s := (-e - 6).toNat
    pswCodes.foldl (fun best c => if pswBetter neg m e s c best then c else best) 0x77

end Sys2Proof
end

