-- ==== Sys2Proof/Machine/Convert.lean ====
section
/-!
DEFINITION. Sys2Proof/Machine/Convert.lean: exact values of the engines' formats and their conversion into a format (R235,
R238, R279, R389), and the random words of stochastic rounding (R242).
-/
namespace Sys2Proof

/-- The float format of a code of R246, if it is one. -/
def codeFlt : Nat → Option FFmt
  | 0 => some fE4M3
  | 1 => some fE5M2
  | 4 => some fBF16
  | 5 => some fF16
  | 7 | 10 => some fF64
  | 8 => some fF32
  | _ => none

/-- Bits of an integer format of R246. -/
def codeInt : Nat → Nat
  | 2 => 8
  | 6 => 16
  | 9 => 32
  | _ => 64

/-- The exact value of an integer. -/
def intVal (x : Int) : FVal := .fin (x < 0) x.natAbs 0

/-- The exact value of a code in a format (R223, R224, R236). -/
def codeVal (fmt c : Nat) : FVal :=
  match codeFlt fmt with
  | some f => fdec f c
  | none => if fmt == 3 then .fin (pswVal c < 0) (pswVal c).natAbs (-6) else intVal (toI true (codeInt fmt) c)

/-- A converted value: the code, and what the status words report (R280, R387): a NaN was written, it differs from the
exact value, it was out of range, it was no value an integer format has. -/
structure Conv where
  code : Nat
  nan : Bool
  inexact : Bool
  range : Bool
  noInt : Bool
  deriving DecidableEq, Repr

/-- Conversion into a float format. An overflow that becomes a NaN counts as a NaN alone (R280, R387). DESIGN CHOICE
(log entry 115): an infinity that becomes the greatest finite value counts as range, one that becomes the NaN of E4M3 as a NaN and
inexact alone. -/
def convFlt (f : FFmt) (mode : RM) (sat : Bool) : FVal → Conv
  | .nan _ => ⟨f.canon, true, false, false, false⟩
  | .inf n =>
    if f.e4m3 || f == fE5M2 then
      if sat then ⟨f.signBit n + f.maxMag, false, true, true, false⟩
      else if f.e4m3 then ⟨f.canon, true, true, false, false⟩
      else ⟨f.signBit n + f.infMag, false, false, false, false⟩
    else ⟨f.signBit n + f.infMag, false, false, false, false⟩
  | .fin n m e =>
    let r := froundP f (f.fw + 1) mode sat n m e false
    let nan := (fdec f r.1).isNan
    ⟨r.1, nan, r.2.getLsbD 4, r.2.getLsbD 2 && !nan, false⟩

/-- Conversion into PSW8 (R238). DESIGN CHOICE (log entry 115): an infinity, which becomes the greatest value, counts as range; a NaN,
which has no exact value, is not inexact. -/
def convPsw : FVal → Conv
  | .nan _ => ⟨0x77, false, false, false, false⟩
  | .inf n => ⟨if n then 0x88 else 0x00, false, true, true, false⟩
  | .fin n m e =>
    let c := pswOf n m e
    let big := 2 ≤ (Nat.log2 m : Int) + e || ((Nat.log2 m : Int) + e == 1 && m != 2 ^ Nat.log2 m)
    let exact := scaled (min e (-6)) n m e == scaled (min e (-6)) (pswVal c < 0) (pswVal c).natAbs (-6)
    ⟨c, false, !exact, m != 0 && big, false⟩

/-- Conversion into a signed integer format of `w` bits. DESIGN CHOICE (log entry 115): a NaN, which has no exact value, is not
inexact. -/
def convInt (w : Nat) (mode : RM) (sat : Bool) : FVal → Conv
  | .nan _ => ⟨0, false, false, false, true⟩
  | .inf n => ⟨wrapI w (if n then minI true w else maxI true w), false, true, true, true⟩
  | .fin n m e =>
    let r := roundInt mode n m e
    let out := r.1 < minI true w || maxI true w < r.1
    ⟨fitI sat true w r.1, false, r.2 || out, out, out⟩

/-- Conversion of an exact value into a format of R246. -/
def convert (fmt : Nat) (mode : RM) (sat : Bool) (x : FVal) : Conv :=
  match codeFlt fmt with
  | some f => convFlt f mode sat x
  | none => if fmt == 3 then convPsw x else convInt (codeInt fmt) mode sat x

/-- The 32-bit random word of an element (R242). -/
def rndWord (seed n : Nat) : Nat :=
  let h : BitVec 32 := BitVec.ofNat 32 seed ^^^ BitVec.ofNat 32 (n * 0x9E3779B9)
  let h := h ^^^ (h >>> 16)
  let h := h * 0x85EBCA6B#32
  let h := h ^^^ (h >>> 13)
  let h := h * 0xC2B2AE35#32
  (h ^^^ (h >>> 16)).toNat

end Sys2Proof
end

