-- ==== Sys2Proof/Config.lean ====
section
/-!
DEFINITION. Sys2Proof/Config.lean: the counts the manual fixes for the Cargor 9 (R2), and the free values: what
the manual leaves open and the machine goes on from. A free value has no body, so no proof can see which it is.
-/
namespace Sys2Proof.Config

/-- Slots of a partition's pool (R39, R40). -/
def poolSlots : Nat := 1536
/-- Uniform registers of a partition (R40). -/
def poolUniform : Nat := 4096
/-- Entries of a reservation table (R252). -/
def tableEntries : Nat := 32
/-- Bytes of scratch of a core (R2). -/
def scratchBytes : Nat := 1048576
/-- Bytes of accumulator store of a core (R264). -/
def accBytes : Nat := 1572864
/-- Paddocks of the part (R2). -/
def paddocks : Nat := 32
/-- Contexts (R474). -/
def contexts : Nat := 64
/-- Entries of a pasture's L2 TLB (R433). -/
def tlbEntries : Nat := 16384
/-- Entries of a core's L1 TLB (R433). -/
def tlbCore : Nat := 256
/-- The part number (R470). -/
def partNumber : Nat := 9384
/-- Capability groups present on the Cargor 9: PX1 (1), WSTR (3), F64C (4); PX2 (2) is absent (R105, R471). -/
def groupPresent (id : Nat) : Bool := id == 1 || id == 3 || id == 4

/-- Base of the on-chip space (R314). -/
def onChipBase : Nat := 0x8000000000000
/-- Base of the control space (R477). -/
def controlBase : Nat := 0x4000000000000

/-- FREE VALUE: a lane read from, or left in, an accumulator region whose engine work is still counted (R188);
log entry 6. The first argument is the count of steps taken (log entry 5), the second the byte's address. -/
opaque freeByte : Nat → Nat → Byte

/-- FREE VALUE: whether an engine that reads bytes written without a mopfence sees the old byte (R262, R359);
log entry 7. -/
opaque freeOld : Nat → Nat → Bool

/-- FREE VALUE: the bytes of a signature, a digest or a certificate the shepherd port answers with (R481): the
manual names the algorithms and not the keys; log entry 8. -/
opaque freeMgmt : Nat → Nat → Byte

/-- FREE VALUE: the serial number in words 2 and 3 of the identity record (R470); log entry 9. -/
opaque serial : Nat → DWord

/-- FREE VALUE: the silicon revision in the identity record (R470); log entry 9. -/
opaque revision : BitVec 8

/-- FREE VALUE: the form in the identity record, set for the bare package (R470); log entry 9. -/
opaque form : Bool

/-- FREE VALUE: what a configuration request reads once bring-up is complete (R485 says that it is answered;
the configuration space of the function is PCI Express's); log entry 10. -/
opaque configWord : Nat → Nat → Word

/-- FREE VALUE: how far a piece of engine work has got when its fold is pre-empted (R310, R424: the manual fixes
where it stops, at a K-block or a 64-byte line, and not after how many of them); log entry 65. The first argument
is the count of steps taken (log entry 5), the second the number of the operation or entry. -/
opaque freeLines : Nat → Nat → Nat

/-- FREE VALUE: the NVMe queue pairs that the resident OS assigns to a context (R394 says that it does, and not which); log entry 112.
The first argument is the count of steps taken (log entry 5), the second the context. -/
opaque freePairs : Nat → Nat → BitVec 16

/-- FREE VALUE: the sectors beyond the first that a compressible line of the L2 takes, modulo 8 (R326, whose method is not
architectural), by the count of steps and the line; log entry 98. -/
opaque freeSectors : Nat → Nat → Nat

/-- FREE VALUE: how many codewords a link port's FEC has corrected since it last received (R381); log entry 94. The first argument
is the count of steps taken (log entry 5), the second the port. -/
opaque freeCount : Nat → Nat → Nat

/-- FREE VALUE: readings of module sensors that the manual names without a layout (R480); log entry 11. -/
opaque sensorReading : Nat → Nat → Int

end Sys2Proof.Config
end

