-- ==== Sys2Proof/Syntax.lean ====
section
/-!
DEFINITION. Sys2Proof/Syntax.lean: the steps of the part, one constructor per row of spec/opcode_table.json. Rows 0 to
241 are the instructions of the L and G sets (04_encoding); the rest are the operations and events of the other agents,
which carry what the agent brings (log entry 1). Fields of instructions: `sv` the S variant (R99), `d` destination,
`a` `b` `c` sources, `g` a uniform register, `i` an index register or an immediate, `wa` `wb` `wc` wait bits (R28),
`k` the keep form (R22), `sq` SEQ (R46), `sc` a scope code (R94).
-/
namespace Sys2Proof

/-- One step of the part. -/
inductive Instr where
  /-- `VADD_LA` (R120): Adds two vector registers lane by lane in the type of the selected FMT slot. -/
  | vaddLa (sv : Bool) (d : BitVec 7) (a : BitVec 7) (b : BitVec 7) (wa : Bool) (wb : Bool) (k : Bool)
  /-- `VADD_LU` (R120): Adds a uniform register to every lane of a vector register. -/
  | vaddLu (sv : Bool) (d : BitVec 7) (a : BitVec 7) (g : BitVec 7) (wa : Bool) (wb : Bool) (k : Bool)
  /-- `VADD_LI` (R120): Adds a signed 8-bit immediate to every lane of a vector register. -/
  | vaddLi (sv : Bool) (d : BitVec 7) (a : BitVec 7) (wa : Bool) (k : Bool) (i : BitVec 8)
  /-- `VADD_LX` (R120): Adds a 32-bit immediate from an extension word to every lane. -/
  | vaddLx (sv : Bool) (d : BitVec 7) (a : BitVec 7) (wa : Bool) (k : Bool) (i : BitVec 32)
  /-- `VMUL_LA` (R120): Multiplies two vector registers lane by lane. -/
  | vmulLa (sv : Bool) (d : BitVec 7) (a : BitVec 7) (b : BitVec 7) (wa : Bool) (wb : Bool) (k : Bool)
  /-- `VMUL_LU` (R120): Multiplies a vector register by a uniform register. -/
  | vmulLu (sv : Bool) (d : BitVec 7) (a : BitVec 7) (g : BitVec 7) (wa : Bool) (wb : Bool) (k : Bool)
  /-- `VMUL_LI` (R120): Multiplies a vector register by an 8-bit immediate. -/
  | vmulLi (sv : Bool) (d : BitVec 7) (a : BitVec 7) (wa : Bool) (k : Bool) (i : BitVec 8)
  /-- `VMUL_LX` (R120): Multiplies a vector register by a 32-bit immediate. -/
  | vmulLx (sv : Bool) (d : BitVec 7) (a : BitVec 7) (wa : Bool) (k : Bool) (i : BitVec 32)
  /-- `VSUB_LA` (R120): Subtracts one vector register from another lane by lane. -/
  | vsubLa (sv : Bool) (d : BitVec 7) (a : BitVec 7) (b : BitVec 7) (wa : Bool) (wb : Bool) (k : Bool)
  /-- `VSUB_LU` (R120): Subtracts a uniform register from every lane. -/
  | vsubLu (sv : Bool) (d : BitVec 7) (a : BitVec 7) (g : BitVec 7) (wa : Bool) (wb : Bool) (k : Bool)
  /-- `VSUB_LI` (R120): Subtracts an 8-bit immediate from every lane. -/
  | vsubLi (sv : Bool) (d : BitVec 7) (a : BitVec 7) (wa : Bool) (k : Bool) (i : BitVec 8)
  /-- `VMIN_LA` (R121): Takes the lane-wise minimum of two vector registers. -/
  | vminLa (sv : Bool) (d : BitVec 7) (a : BitVec 7) (b : BitVec 7) (wa : Bool) (wb : Bool) (k : Bool)
  /-- `VMIN_LU` (R121): Takes the minimum of each lane and a uniform register. -/
  | vminLu (sv : Bool) (d : BitVec 7) (a : BitVec 7) (g : BitVec 7) (wa : Bool) (wb : Bool) (k : Bool)
  /-- `VMIN_LI` (R121): Takes the minimum of each lane and an immediate. -/
  | vminLi (sv : Bool) (d : BitVec 7) (a : BitVec 7) (wa : Bool) (k : Bool) (i : BitVec 8)
  /-- `VMAX_LA` (R121): Takes the lane-wise maximum of two vector registers. -/
  | vmaxLa (sv : Bool) (d : BitVec 7) (a : BitVec 7) (b : BitVec 7) (wa : Bool) (wb : Bool) (k : Bool)
  /-- `VMAX_LU` (R121): Takes the maximum of each lane and a uniform register. -/
  | vmaxLu (sv : Bool) (d : BitVec 7) (a : BitVec 7) (g : BitVec 7) (wa : Bool) (wb : Bool) (k : Bool)
  /-- `VMAX_LI` (R121): Takes the maximum of each lane and an immediate. -/
  | vmaxLi (sv : Bool) (d : BitVec 7) (a : BitVec 7) (wa : Bool) (k : Bool) (i : BitVec 8)
  /-- `VMULHI_LA` (R122): Returns the high half of the lane-wise product of two vector registers. -/
  | vmulhiLa (sv : Bool) (d : BitVec 7) (a : BitVec 7) (b : BitVec 7) (wa : Bool) (wb : Bool) (k : Bool)
  /-- `VMULHI_LU` (R122): Returns the high half of each lane times a uniform register. -/
  | vmulhiLu (sv : Bool) (d : BitVec 7) (a : BitVec 7) (g : BitVec 7) (wa : Bool) (wb : Bool) (k : Bool)
  /-- `VDIV_LA` (R123): Divides two vector registers lane by lane. -/
  | vdivLa (sv : Bool) (d : BitVec 7) (a : BitVec 7) (b : BitVec 7) (wa : Bool) (wb : Bool) (k : Bool)
  /-- `VDIV_LU` (R123): Divides each lane by a uniform register. -/
  | vdivLu (sv : Bool) (d : BitVec 7) (a : BitVec 7) (g : BitVec 7) (wa : Bool) (wb : Bool) (k : Bool)
  /-- `VREM_LA` (R123): Takes the lane-wise integer remainder of two vector registers. -/
  | vremLa (sv : Bool) (d : BitVec 7) (a : BitVec 7) (b : BitVec 7) (wa : Bool) (wb : Bool) (k : Bool)
  /-- `VREM_LU` (R123): Takes the remainder of each lane by a uniform register. -/
  | vremLu (sv : Bool) (d : BitVec 7) (a : BitVec 7) (g : BitVec 7) (wa : Bool) (wb : Bool) (k : Bool)
  /-- `VMAD_VECTOR_C` (R124): Computes a fused multiply-add with a vector third source. -/
  | vmadVectorC (sv : Bool) (d : BitVec 7) (a : BitVec 7) (b : BitVec 7) (wa : Bool) (wb : Bool) (k : Bool) (c : BitVec 7) (wc : Bool)
  /-- `VMAD_UNIFORM_C` (R124): Computes a fused multiply-add with a uniform third source. -/
  | vmadUniformC (sv : Bool) (d : BitVec 7) (a : BitVec 7) (b : BitVec 7) (wa : Bool) (wb : Bool) (k : Bool) (c : BitVec 7) (wc : Bool)
  /-- `VCLAMP_VECTOR_C` (R124): Clamps lanes between two bounds, the upper one a vector register. -/
  | vclampVectorC (sv : Bool) (d : BitVec 7) (a : BitVec 7) (b : BitVec 7) (wa : Bool) (wb : Bool) (k : Bool) (c : BitVec 7) (wc : Bool)
  /-- `VCLAMP_UNIFORM_C` (R124): Clamps lanes between two bounds, the upper one a uniform register. -/
  | vclampUniformC (sv : Bool) (d : BitVec 7) (a : BitVec 7) (b : BitVec 7) (wa : Bool) (wb : Bool) (k : Bool) (c : BitVec 7) (wc : Bool)
  /-- `VABS` (R125): Takes the absolute value of each lane. -/
  | vabs (sv : Bool) (d : BitVec 7) (a : BitVec 7) (wa : Bool) (k : Bool)
  /-- `VNEG` (R125): Negates each lane. -/
  | vneg (sv : Bool) (d : BitVec 7) (a : BitVec 7) (wa : Bool) (k : Bool)
  /-- `VSAT` (R125): Saturates each lane to its non-negative or unit range. -/
  | vsat (sv : Bool) (d : BitVec 7) (a : BitVec 7) (wa : Bool) (k : Bool)
  /-- `VAND_LA` (R127): Bitwise AND of two vector registers. -/
  | vandLa (d : BitVec 7) (a : BitVec 7) (b : BitVec 7) (wa : Bool) (wb : Bool) (k : Bool)
  /-- `VAND_LU` (R127): Bitwise AND of each lane with a uniform register. -/
  | vandLu (d : BitVec 7) (a : BitVec 7) (g : BitVec 7) (wa : Bool) (wb : Bool) (k : Bool)
  /-- `VAND_LX` (R127): Bitwise AND of each lane with a 32-bit immediate. -/
  | vandLx (d : BitVec 7) (a : BitVec 7) (wa : Bool) (k : Bool) (i : BitVec 32)
  /-- `VOR_LA` (R127): Bitwise OR of two vector registers. -/
  | vorLa (d : BitVec 7) (a : BitVec 7) (b : BitVec 7) (wa : Bool) (wb : Bool) (k : Bool)
  /-- `VOR_LU` (R127): Bitwise OR of each lane with a uniform register. -/
  | vorLu (d : BitVec 7) (a : BitVec 7) (g : BitVec 7) (wa : Bool) (wb : Bool) (k : Bool)
  /-- `VOR_LX` (R127): Bitwise OR of each lane with a 32-bit immediate. -/
  | vorLx (d : BitVec 7) (a : BitVec 7) (wa : Bool) (k : Bool) (i : BitVec 32)
  /-- `VXOR_LA` (R127): Bitwise XOR of two vector registers. -/
  | vxorLa (d : BitVec 7) (a : BitVec 7) (b : BitVec 7) (wa : Bool) (wb : Bool) (k : Bool)
  /-- `VXOR_LU` (R127): Bitwise XOR of each lane with a uniform register. -/
  | vxorLu (d : BitVec 7) (a : BitVec 7) (g : BitVec 7) (wa : Bool) (wb : Bool) (k : Bool)
  /-- `VXOR_LX` (R127): Bitwise XOR of each lane with a 32-bit immediate. -/
  | vxorLx (d : BitVec 7) (a : BitVec 7) (wa : Bool) (k : Bool) (i : BitVec 32)
  /-- `VNOT` (R127): Bitwise NOT of each lane. -/
  | vnot (d : BitVec 7) (a : BitVec 7) (wa : Bool) (k : Bool)
  /-- `VSHL_LA` (R127): Shifts each lane left by the amount in a vector register. -/
  | vshlLa (d : BitVec 7) (a : BitVec 7) (b : BitVec 7) (wa : Bool) (wb : Bool) (k : Bool)
  /-- `VSHL_LI` (R127): Shifts each lane left by an immediate amount. -/
  | vshlLi (d : BitVec 7) (a : BitVec 7) (wa : Bool) (k : Bool) (i : BitVec 8)
  /-- `VSHR_LA` (R127): Shifts each lane right, zero-filled, by a vector amount. -/
  | vshrLa (d : BitVec 7) (a : BitVec 7) (b : BitVec 7) (wa : Bool) (wb : Bool) (k : Bool)
  /-- `VSHR_LI` (R127): Shifts each lane right, zero-filled, by an immediate. -/
  | vshrLi (d : BitVec 7) (a : BitVec 7) (wa : Bool) (k : Bool) (i : BitVec 8)
  /-- `VSRA_LA` (R127): Shifts each lane right arithmetically by a vector amount. -/
  | vsraLa (d : BitVec 7) (a : BitVec 7) (b : BitVec 7) (wa : Bool) (wb : Bool) (k : Bool)
  /-- `VSRA_LI` (R127): Shifts each lane right arithmetically by an immediate. -/
  | vsraLi (d : BitVec 7) (a : BitVec 7) (wa : Bool) (k : Bool) (i : BitVec 8)
  /-- `VROT_LA` (R127): Rotates each lane left by a vector amount. -/
  | vrotLa (d : BitVec 7) (a : BitVec 7) (b : BitVec 7) (wa : Bool) (wb : Bool) (k : Bool)
  /-- `VROT_LI` (R127): Rotates each lane left by an immediate amount. -/
  | vrotLi (d : BitVec 7) (a : BitVec 7) (wa : Bool) (k : Bool) (i : BitVec 8)
  /-- `VPOPC` (R127): Counts the set bits of each lane. -/
  | vpopc (d : BitVec 7) (a : BitVec 7) (wa : Bool) (k : Bool)
  /-- `VCLZ` (R127): Counts the leading zeros of each lane. -/
  | vclz (d : BitVec 7) (a : BitVec 7) (wa : Bool) (k : Bool)
  /-- `VBREV` (R127): Reverses the bits of each lane. -/
  | vbrev (d : BitVec 7) (a : BitVec 7) (wa : Bool) (k : Bool)
  /-- `VBFX` (R127): Extracts a bit field from each lane. -/
  | vbfx (d : BitVec 7) (a : BitVec 7) (wa : Bool) (k : Bool) (pos : BitVec 5) (len : BitVec 6)
  /-- `VBFI` (R127): Inserts a bit field into each lane of a base register. -/
  | vbfi (d : BitVec 7) (a : BitVec 7) (b : BitVec 7) (wa : Bool) (wb : Bool) (k : Bool) (pos : BitVec 5) (len : BitVec 6)
  /-- `VSQRT` (R130): Computes the correctly rounded square root of each lane. -/
  | vsqrt (sv : Bool) (d : BitVec 7) (a : BitVec 7) (wa : Bool) (k : Bool)
  /-- `VRCP` (R131): Computes a reduced-precision reciprocal of each lane. -/
  | vrcp (sv : Bool) (d : BitVec 7) (a : BitVec 7) (wa : Bool) (k : Bool)
  /-- `VRSQ` (R131): Computes a reduced-precision reciprocal square root of each lane. -/
  | vrsq (sv : Bool) (d : BitVec 7) (a : BitVec 7) (wa : Bool) (k : Bool)
  /-- `VEXP2` (R131): Computes a reduced-precision base-2 exponential of each lane. -/
  | vexp2 (sv : Bool) (d : BitVec 7) (a : BitVec 7) (wa : Bool) (k : Bool)
  /-- `VLOG2` (R131): Computes a reduced-precision base-2 logarithm of each lane. -/
  | vlog2 (sv : Bool) (d : BitVec 7) (a : BitVec 7) (wa : Bool) (k : Bool)
  /-- `VCVT` (R134): Converts each lane from the slot's type to a target type. -/
  | vcvt (sv : Bool) (d : BitVec 7) (a : BitVec 7) (t : BitVec 7) (wa : Bool) (k : Bool)
  /-- `VPACK` (R135): Packs two registers into a packed type read from FMT.P. -/
  | vpack (d : BitVec 7) (a : BitVec 7) (b : BitVec 7) (wa : Bool) (wb : Bool) (k : Bool)
  /-- `VUNPK` (R136): Widens one element of a packed lane exactly. -/
  | vunpk (d : BitVec 7) (a : BitVec 7) (e : BitVec 2) (t : BitVec 4) (wa : Bool) (k : Bool)
  /-- `VSPLIT_VECTOR` (R138): Splits lanes into two destinations by a condition against a vector register. -/
  | vsplitVector (sv : Bool) (d : BitVec 7) (a : BitVec 7) (b : BitVec 7) (wa : Bool) (wb : Bool) (k : Bool) (cond : BitVec 4)
  /-- `VSPLIT_UNIFORM` (R138): Splits lanes into two destinations by a condition against a uniform register. -/
  | vsplitUniform (sv : Bool) (d : BitVec 7) (a : BitVec 7) (g : BitVec 7) (wa : Bool) (wb : Bool) (k : Bool) (cond : BitVec 4)
  /-- `VSPLIT_IMMEDIATE` (R138): Splits lanes by a condition against an immediate, or by a bit test. -/
  | vsplitImmediate (sv : Bool) (d : BitVec 7) (a : BitVec 7) (wa : Bool) (k : Bool) (cond : BitVec 4) (i : BitVec 26)
  /-- `VMERGE` (R140): Joins two registers into the union of their maps. -/
  | vmerge (d : BitVec 7) (a : BitVec 7) (b : BitVec 7) (wa : Bool) (wb : Bool) (k : Bool)
  /-- `VMASK` (R141): Restricts a register to the map of another. -/
  | vmask (d : BitVec 7) (a : BitVec 7) (b : BitVec 7) (wa : Bool) (wb : Bool) (k : Bool)
  /-- `VCOMPRESS` (R144): Moves occupied lanes to the lowest lanes. -/
  | vcompress (d : BitVec 7) (a : BitVec 7) (wa : Bool) (k : Bool)
  /-- `VEXPAND` (R145): Places values in lane order into the occupied lanes of a map source. -/
  | vexpand (d : BitVec 7) (a : BitVec 7) (b : BitVec 7) (wa : Bool) (wb : Bool) (k : Bool)
  /-- `VFILL_LU` (R142): Extends a register to all lanes with a uniform constant. -/
  | vfillLu (d : BitVec 7) (a : BitVec 7) (g : BitVec 7) (wa : Bool) (wb : Bool)
  /-- `VFILL_LX` (R142): Extends a register to all lanes with a 32-bit immediate. -/
  | vfillLx (d : BitVec 7) (a : BitVec 7) (wa : Bool) (i : BitVec 32)
  /-- `VFIRST_LU` (R143): Keeps the first n occupied lanes, n from a uniform register. -/
  | vfirstLu (d : BitVec 7) (a : BitVec 7) (g : BitVec 7) (wa : Bool) (wb : Bool) (k : Bool)
  /-- `VFIRST_LI` (R143): Keeps the first n occupied lanes, n an immediate. -/
  | vfirstLi (d : BitVec 7) (a : BitVec 7) (wa : Bool) (k : Bool) (n : BitVec 8)
  /-- `VLANE` (R146): Writes each lane's index into a full register. -/
  | vlane (d : BitVec 7)
  /-- `VMOV` (R147): Copies a register's map and values. -/
  | vmov (d : BitVec 7) (a : BitVec 7) (wa : Bool) (k : Bool)
  /-- `VKEY` (R148): Maps f32 lane bits to order-preserving unsigned keys. -/
  | vkey (d : BitVec 7) (a : BitVec 7) (wa : Bool) (k : Bool)
  /-- `VBCAST_LU` (R149): Broadcasts the lane named by a uniform register to every occupied lane. -/
  | vbcastLu (d : BitVec 7) (a : BitVec 7) (g : BitVec 7) (wa : Bool) (wb : Bool) (k : Bool)
  /-- `VBCAST_LI` (R149): Broadcasts the lane named by an immediate to every occupied lane. -/
  | vbcastLi (d : BitVec 7) (a : BitVec 7) (wa : Bool) (k : Bool) (n : BitVec 8)
  /-- `VPERM` (R150): Gathers values by lane numbers held in a vector register. -/
  | vperm (d : BitVec 7) (a : BitVec 7) (b : BitVec 7) (wa : Bool) (wb : Bool) (k : Bool)
  /-- `VSHFL_LA` (R151): Takes each lane's value from the lane found by XOR with a vector value. -/
  | vshflLa (d : BitVec 7) (a : BitVec 7) (b : BitVec 7) (wa : Bool) (wb : Bool) (k : Bool)
  /-- `VSHFL_LI` (R151): Takes each lane's value from the lane found by XOR with an immediate. -/
  | vshflLi (d : BitVec 7) (a : BitVec 7) (wa : Bool) (k : Bool) (n : BitVec 8)
  /-- `VSCAN_ADD` (R152): Inclusive prefix sum over occupied lanes. -/
  | vscanAdd (sv : Bool) (d : BitVec 7) (a : BitVec 7) (wa : Bool) (k : Bool)
  /-- `VSCAN_MIN` (R152): Inclusive prefix minimum over occupied lanes. -/
  | vscanMin (sv : Bool) (d : BitVec 7) (a : BitVec 7) (wa : Bool) (k : Bool)
  /-- `VSCAN_MAX` (R152): Inclusive prefix maximum over occupied lanes. -/
  | vscanMax (sv : Bool) (d : BitVec 7) (a : BitVec 7) (wa : Bool) (k : Bool)
  /-- `VSCAN_ADD_X` (R152): Exclusive prefix sum over occupied lanes. -/
  | vscanAddX (sv : Bool) (d : BitVec 7) (a : BitVec 7) (wa : Bool) (k : Bool)
  /-- `VSCAN_MIN_X` (R152): Exclusive prefix minimum over occupied lanes. -/
  | vscanMinX (sv : Bool) (d : BitVec 7) (a : BitVec 7) (wa : Bool) (k : Bool)
  /-- `VSCAN_MAX_X` (R152): Exclusive prefix maximum over occupied lanes. -/
  | vscanMaxX (sv : Bool) (d : BitVec 7) (a : BitVec 7) (wa : Bool) (k : Bool)
  /-- `VSAD` (R153): Sums absolute element differences of packed lanes. -/
  | vsad (sv : Bool) (d : BitVec 7) (a : BitVec 7) (b : BitVec 7) (wa : Bool) (wb : Bool) (k : Bool)
  /-- `VAVG` (R153): Takes the rounded-up average of elements. -/
  | vavg (sv : Bool) (d : BitVec 7) (a : BitVec 7) (b : BitVec 7) (wa : Bool) (wb : Bool) (k : Bool)
  /-- `VDOT4` (R154): Accumulates a four-element dot product into the destination. -/
  | vdot4 (sv : Bool) (d : BitVec 7) (a : BitVec 7) (b : BitVec 7) (wa : Bool) (wb : Bool)
  /-- `VDOT2` (R154): Accumulates a two-element dot product into the destination. -/
  | vdot2 (sv : Bool) (d : BitVec 7) (a : BitVec 7) (b : BitVec 7) (wa : Bool) (wb : Bool)
  /-- `VMED3_VECTOR_C` (R153): Takes the median of three with a vector third source. -/
  | vmed3VectorC (sv : Bool) (d : BitVec 7) (a : BitVec 7) (b : BitVec 7) (wa : Bool) (wb : Bool) (k : Bool) (c : BitVec 7) (wc : Bool)
  /-- `VMED3_UNIFORM_C` (R153): Takes the median of three with a uniform third source. -/
  | vmed3UniformC (sv : Bool) (d : BitVec 7) (a : BitVec 7) (b : BitVec 7) (wa : Bool) (wb : Bool) (k : Bool) (c : BitVec 7) (wc : Bool)
  /-- `VLAND` (R156): Binds a landing window to a register and marks it empty. -/
  | vland (d : BitVec 7) (g : BitVec 7) (wb : Bool)
  /-- `VLD` (R170): Loads one element per lane from a record. -/
  | vld (d : BitVec 7) (i : BitVec 7) (g : BitVec 7) (wa : Bool) (k : Bool)
  /-- `VLD_R` (R176): Loads with soft residency, reporting missing lanes in a miss register. -/
  | vldR (d : BitVec 7) (i : BitVec 7) (g : BitVec 7) (wa : Bool) (k : Bool)
  /-- `VST` (R170): Stores one element per lane to a record. -/
  | vst (s : BitVec 7) (i : BitVec 7) (g : BitVec 7) (wa : Bool) (wb : Bool)
  /-- `VLDW_X2` (R172): Loads two consecutive elements per lane. -/
  | vldwX2 (d : BitVec 7) (i : BitVec 7) (g : BitVec 7) (wa : Bool) (k : Bool)
  /-- `VLDW_X4` (R172): Loads four consecutive elements per lane. -/
  | vldwX4 (d : BitVec 7) (i : BitVec 7) (g : BitVec 7) (wa : Bool) (k : Bool)
  /-- `VSTW_X2` (R172): Stores two consecutive elements per lane. -/
  | vstwX2 (s : BitVec 7) (i : BitVec 7) (g : BitVec 7) (wa : Bool) (wb : Bool)
  /-- `VSTW_X4` (R172): Stores four consecutive elements per lane. -/
  | vstwX4 (s : BitVec 7) (i : BitVec 7) (g : BitVec 7) (wa : Bool) (wb : Bool)
  /-- `VLD_ACQ` (R173): Loads with acquire at a scope. -/
  | vldAcq (d : BitVec 7) (i : BitVec 7) (g : BitVec 7) (wa : Bool) (k : Bool) (sc : BitVec 3)
  /-- `VST_REL` (R173): Stores with release at a scope. -/
  | vstRel (s : BitVec 7) (i : BitVec 7) (g : BitVec 7) (wa : Bool) (wb : Bool) (sc : BitVec 3)
  /-- `VATOM_ADD` (R179): Atomic add per lane at the home slice. -/
  | vatomAdd (s : BitVec 7) (i : BitVec 7) (g : BitVec 7) (wa : Bool) (wb : Bool) (k : Bool) (sc : BitVec 3) (ret : Bool)
  /-- `VATOM_MIN` (R179): Atomic minimum per lane at the home slice. -/
  | vatomMin (s : BitVec 7) (i : BitVec 7) (g : BitVec 7) (wa : Bool) (wb : Bool) (k : Bool) (sc : BitVec 3) (ret : Bool) (u : Bool)
  /-- `VATOM_MAX` (R179): Atomic maximum per lane at the home slice. -/
  | vatomMax (s : BitVec 7) (i : BitVec 7) (g : BitVec 7) (wa : Bool) (wb : Bool) (k : Bool) (sc : BitVec 3) (ret : Bool) (u : Bool)
  /-- `VATOM_AND` (R179): Atomic AND per lane at the home slice. -/
  | vatomAnd (s : BitVec 7) (i : BitVec 7) (g : BitVec 7) (wa : Bool) (wb : Bool) (k : Bool) (sc : BitVec 3) (ret : Bool)
  /-- `VATOM_OR` (R179): Atomic OR per lane at the home slice. -/
  | vatomOr (s : BitVec 7) (i : BitVec 7) (g : BitVec 7) (wa : Bool) (wb : Bool) (k : Bool) (sc : BitVec 3) (ret : Bool)
  /-- `VATOM_XOR` (R179): Atomic XOR per lane at the home slice. -/
  | vatomXor (s : BitVec 7) (i : BitVec 7) (g : BitVec 7) (wa : Bool) (wb : Bool) (k : Bool) (sc : BitVec 3) (ret : Bool)
  /-- `VATOM_XCHG` (R179): Atomic exchange per lane at the home slice. -/
  | vatomXchg (s : BitVec 7) (i : BitVec 7) (g : BitVec 7) (wa : Bool) (wb : Bool) (k : Bool) (sc : BitVec 3) (ret : Bool)
  /-- `VATOM_CAS` (R179): Atomic compare-and-swap per lane at the home slice. -/
  | vatomCas (s : BitVec 7) (i : BitVec 7) (g : BitVec 7) (wa : Bool) (wb : Bool) (k : Bool) (sc : BitVec 3) (ret : Bool)
  /-- `VPREF` (R174): Prefetches resident in-bounds lines into the core's L1. -/
  | vpref (i : BitVec 7) (g : BitVec 7) (wa : Bool)
  /-- `VLDS` (R185): Loads lanes from scratch at per-lane offsets. -/
  | vlds (d : BitVec 7) (i : BitVec 7) (g : BitVec 7) (wa : Bool) (k : Bool)
  /-- `VSTS` (R185): Stores lanes to scratch at per-lane offsets. -/
  | vsts (s : BitVec 7) (i : BitVec 7) (g : BitVec 7) (wa : Bool) (wb : Bool)
  /-- `VBLD` (R185): Broadcasts one scratch element to every lane of a map. -/
  | vbld (d : BitVec 7) (i : BitVec 7) (g : BitVec 7) (wa : Bool) (k : Bool)
  /-- `VLDACC` (R185): Loads lanes from accumulator store. -/
  | vldacc (d : BitVec 7) (i : BitVec 7) (g : BitVec 7) (wa : Bool) (k : Bool)
  /-- `VSTACC` (R185): Stores lanes to accumulator store. -/
  | vstacc (s : BitVec 7) (i : BitVec 7) (g : BitVec 7) (wa : Bool) (wb : Bool)
  /-- `GADD_GA` (R192): Adds two uniform registers and sets the flags. -/
  | gaddGa (sq : BitVec 3) (d : BitVec 7) (a : BitVec 7) (b : BitVec 7)
  /-- `GADD_GI` (R192): Adds a 7-bit immediate to a uniform register. -/
  | gaddGi (sq : BitVec 3) (d : BitVec 7) (a : BitVec 7) (i : BitVec 7)
  /-- `GSUB_GA` (R192): Subtracts two uniform registers and sets the flags. -/
  | gsubGa (sq : BitVec 3) (d : BitVec 7) (a : BitVec 7) (b : BitVec 7)
  /-- `GSUB_GI` (R192): Subtracts a 7-bit immediate from a uniform register. -/
  | gsubGi (sq : BitVec 3) (d : BitVec 7) (a : BitVec 7) (i : BitVec 7)
  /-- `GMUL_GA` (R192): Multiplies two uniform registers, low 64 bits. -/
  | gmulGa (sq : BitVec 3) (d : BitVec 7) (a : BitVec 7) (b : BitVec 7)
  /-- `GMUL_GI` (R192): Multiplies a uniform register by an immediate. -/
  | gmulGi (sq : BitVec 3) (d : BitVec 7) (a : BitVec 7) (i : BitVec 7)
  /-- `GMULHI_GA` (R194): Takes the unsigned high half of a uniform product. -/
  | gmulhiGa (sq : BitVec 3) (d : BitVec 7) (a : BitVec 7) (b : BitVec 7)
  /-- `GMULHI_GI` (R194): Takes the unsigned high half of a product with an immediate. -/
  | gmulhiGi (sq : BitVec 3) (d : BitVec 7) (a : BitVec 7) (i : BitVec 7)
  /-- `GDIV_GA` (R194): Divides two uniform registers signed. -/
  | gdivGa (sq : BitVec 3) (d : BitVec 7) (a : BitVec 7) (b : BitVec 7)
  /-- `GDIV_GI` (R194): Divides a uniform register by an immediate. -/
  | gdivGi (sq : BitVec 3) (d : BitVec 7) (a : BitVec 7) (i : BitVec 7)
  /-- `GAND_GA` (R192): Bitwise AND of two uniform registers. -/
  | gandGa (sq : BitVec 3) (d : BitVec 7) (a : BitVec 7) (b : BitVec 7)
  /-- `GAND_GI` (R192): Bitwise AND with an immediate. -/
  | gandGi (sq : BitVec 3) (d : BitVec 7) (a : BitVec 7) (i : BitVec 7)
  /-- `GOR_GA` (R192): Bitwise OR of two uniform registers. -/
  | gorGa (sq : BitVec 3) (d : BitVec 7) (a : BitVec 7) (b : BitVec 7)
  /-- `GOR_GI` (R192): Bitwise OR with an immediate. -/
  | gorGi (sq : BitVec 3) (d : BitVec 7) (a : BitVec 7) (i : BitVec 7)
  /-- `GXOR_GA` (R192): Bitwise XOR of two uniform registers. -/
  | gxorGa (sq : BitVec 3) (d : BitVec 7) (a : BitVec 7) (b : BitVec 7)
  /-- `GXOR_GI` (R192): Bitwise XOR with an immediate. -/
  | gxorGi (sq : BitVec 3) (d : BitVec 7) (a : BitVec 7) (i : BitVec 7)
  /-- `GSHL_GA` (R193): Shifts a uniform register left by a register amount. -/
  | gshlGa (sq : BitVec 3) (d : BitVec 7) (a : BitVec 7) (b : BitVec 7)
  /-- `GSHL_GI` (R193): Shifts a uniform register left by an immediate. -/
  | gshlGi (sq : BitVec 3) (d : BitVec 7) (a : BitVec 7) (i : BitVec 7)
  /-- `GSHR_GA` (R193): Shifts a uniform register right, zero-filled. -/
  | gshrGa (sq : BitVec 3) (d : BitVec 7) (a : BitVec 7) (b : BitVec 7)
  /-- `GSHR_GI` (R193): Shifts right, zero-filled, by an immediate. -/
  | gshrGi (sq : BitVec 3) (d : BitVec 7) (a : BitVec 7) (i : BitVec 7)
  /-- `GSRA_GA` (R193): Shifts a uniform register right arithmetically. -/
  | gsraGa (sq : BitVec 3) (d : BitVec 7) (a : BitVec 7) (b : BitVec 7)
  /-- `GSRA_GI` (R193): Shifts right arithmetically by an immediate. -/
  | gsraGi (sq : BitVec 3) (d : BitVec 7) (a : BitVec 7) (i : BitVec 7)
  /-- `GMIN_GA` (R192): Signed minimum of two uniform registers. -/
  | gminGa (sq : BitVec 3) (d : BitVec 7) (a : BitVec 7) (b : BitVec 7)
  /-- `GMIN_GI` (R192): Signed minimum with an immediate. -/
  | gminGi (sq : BitVec 3) (d : BitVec 7) (a : BitVec 7) (i : BitVec 7)
  /-- `GMAX_GA` (R192): Signed maximum of two uniform registers. -/
  | gmaxGa (sq : BitVec 3) (d : BitVec 7) (a : BitVec 7) (b : BitVec 7)
  /-- `GMAX_GI` (R192): Signed maximum with an immediate. -/
  | gmaxGi (sq : BitVec 3) (d : BitVec 7) (a : BitVec 7) (i : BitVec 7)
  /-- `GCMP_GA` (R192): Compares two uniform registers and sets the flags only. -/
  | gcmpGa (sq : BitVec 3) (a : BitVec 7) (b : BitVec 7)
  /-- `GCMP_GI` (R192): Compares a uniform register with an immediate. -/
  | gcmpGi (sq : BitVec 3) (a : BitVec 7) (i : BitVec 7)
  /-- `GSEL` (R195): Selects one of two uniform registers by a condition on the flags. -/
  | gsel (sq : BitVec 3) (d : BitVec 7) (a : BitVec 7) (b : BitVec 7) (cond : BitVec 4)
  /-- `GMOV` (R196): Copies one uniform register to another. -/
  | gmov (sq : BitVec 3) (d : BitVec 10) (s : BitVec 10)
  /-- `GLI` (R196): Loads a sign-extended 14-bit immediate. -/
  | gli (sq : BitVec 3) (d : BitVec 7) (i : BitVec 14)
  /-- `GLIW` (R196): Loads a sign-extended 32-bit immediate from an extension word. -/
  | gliw (sq : BitVec 3) (d : BitVec 10) (i : BitVec 32)
  /-- `GFADD_F32` (R197): Adds two uniform f32 values. -/
  | gfaddF32 (sq : BitVec 3) (d : BitVec 7) (a : BitVec 7) (b : BitVec 7)
  /-- `GFADD_F64` (R197): Adds two uniform f64 values. -/
  | gfaddF64 (sq : BitVec 3) (d : BitVec 7) (a : BitVec 7) (b : BitVec 7)
  /-- `GFMUL_F32` (R197): Multiplies two uniform f32 values. -/
  | gfmulF32 (sq : BitVec 3) (d : BitVec 7) (a : BitVec 7) (b : BitVec 7)
  /-- `GFMUL_F64` (R197): Multiplies two uniform f64 values. -/
  | gfmulF64 (sq : BitVec 3) (d : BitVec 7) (a : BitVec 7) (b : BitVec 7)
  /-- `GFMA_F32` (R197): Fused multiply-add of uniform f32 values. -/
  | gfmaF32 (sq : BitVec 3) (d : BitVec 7) (a : BitVec 7) (b : BitVec 7) (c : BitVec 7)
  /-- `GFMA_F64` (R197): Fused multiply-add of uniform f64 values. -/
  | gfmaF64 (sq : BitVec 3) (d : BitVec 7) (a : BitVec 7) (b : BitVec 7) (c : BitVec 7)
  /-- `GFCVT_F64_F32` (R198): Converts uniform f32 to f64 exactly. -/
  | gfcvtF64F32 (sq : BitVec 3) (d : BitVec 7) (a : BitVec 7)
  /-- `GFCVT_F32_F64` (R198): Converts uniform f64 to f32 with rounding. -/
  | gfcvtF32F64 (sq : BitVec 3) (d : BitVec 7) (a : BitVec 7)
  /-- `GFCVT_F64_I64` (R198): Converts uniform i64 to f64. -/
  | gfcvtF64I64 (sq : BitVec 3) (d : BitVec 7) (a : BitVec 7)
  /-- `GFCVT_I64_F64` (R198): Converts uniform f64 to i64, saturating. -/
  | gfcvtI64F64 (sq : BitVec 3) (d : BitVec 7) (a : BitVec 7)
  /-- `GFCVT_F32_I64` (R198): Converts uniform i64 to f32. -/
  | gfcvtF32I64 (sq : BitVec 3) (d : BitVec 7) (a : BitVec 7)
  /-- `GFCVT_I64_F32` (R198): Converts uniform f32 to i64, saturating. -/
  | gfcvtI64F32 (sq : BitVec 3) (d : BitVec 7) (a : BitVec 7)
  /-- `GFCVT_F64_N64` (R198): Converts uniform n64 to f64. -/
  | gfcvtF64N64 (sq : BitVec 3) (d : BitVec 7) (a : BitVec 7)
  /-- `GFCVT_N64_F64` (R198): Converts uniform f64 to n64, saturating. -/
  | gfcvtN64F64 (sq : BitVec 3) (d : BitVec 7) (a : BitVec 7)
  /-- `GLD_GA` (R199): Loads one record element into a uniform register at a register index. -/
  | gldGa (sq : BitVec 3) (d : BitVec 7) (a : BitVec 7) (b : BitVec 7)
  /-- `GLD_GI` (R199): Loads one record element into a uniform register at an immediate index. -/
  | gldGi (sq : BitVec 3) (d : BitVec 7) (a : BitVec 7) (i : BitVec 7)
  /-- `GST_GA` (R199): Stores a uniform register to a record element at a register index. -/
  | gstGa (sq : BitVec 3) (s : BitVec 7) (a : BitVec 7) (b : BitVec 7)
  /-- `GST_GI` (R199): Stores a uniform register to a record element at an immediate index. -/
  | gstGi (sq : BitVec 3) (s : BitVec 7) (a : BitVec 7) (i : BitVec 7)
  /-- `GATOM_ADD` (R201): Uniform atomic add at the home slice. -/
  | gatomAdd (sq : BitVec 3) (d : BitVec 7) (a : BitVec 7) (b : BitVec 7) (c : BitVec 7) (sc : BitVec 3) (ret : Bool)
  /-- `GATOM_MIN` (R201): Uniform atomic minimum at the home slice. -/
  | gatomMin (sq : BitVec 3) (d : BitVec 7) (a : BitVec 7) (b : BitVec 7) (c : BitVec 7) (sc : BitVec 3) (ret : Bool) (u : Bool)
  /-- `GATOM_MAX` (R201): Uniform atomic maximum at the home slice. -/
  | gatomMax (sq : BitVec 3) (d : BitVec 7) (a : BitVec 7) (b : BitVec 7) (c : BitVec 7) (sc : BitVec 3) (ret : Bool) (u : Bool)
  /-- `GATOM_AND` (R201): Uniform atomic AND at the home slice. -/
  | gatomAnd (sq : BitVec 3) (d : BitVec 7) (a : BitVec 7) (b : BitVec 7) (c : BitVec 7) (sc : BitVec 3) (ret : Bool)
  /-- `GATOM_OR` (R201): Uniform atomic OR at the home slice. -/
  | gatomOr (sq : BitVec 3) (d : BitVec 7) (a : BitVec 7) (b : BitVec 7) (c : BitVec 7) (sc : BitVec 3) (ret : Bool)
  /-- `GATOM_XOR` (R201): Uniform atomic XOR at the home slice. -/
  | gatomXor (sq : BitVec 3) (d : BitVec 7) (a : BitVec 7) (b : BitVec 7) (c : BitVec 7) (sc : BitVec 3) (ret : Bool)
  /-- `GATOM_XCHG` (R201): Uniform atomic exchange at the home slice. -/
  | gatomXchg (sq : BitVec 3) (d : BitVec 7) (a : BitVec 7) (b : BitVec 7) (c : BitVec 7) (sc : BitVec 3) (ret : Bool)
  /-- `GATOM_CAS` (R201): Uniform atomic compare-and-swap at the home slice. -/
  | gatomCas (sq : BitVec 3) (d : BitVec 7) (a : BitVec 7) (b : BitVec 7) (c : BitVec 7) (sc : BitVec 3) (ret : Bool)
  /-- `GTGT_GX` (R48): Sets a target slot to a PC-relative address and a condition. -/
  | gtgtGx (sq : BitVec 3) (s : BitVec 2) (cond : BitVec 4) (off : BitVec 30)
  /-- `GTGT_GA` (R48): Sets a target slot to an address from a register and a condition. -/
  | gtgtGa (sq : BitVec 3) (s : BitVec 2) (c : BitVec 4) (a : BitVec 7)
  /-- `GCALL_GX` (R49): Pushes the return address and jumps to a PC-relative target. -/
  | gcallGx (off : BitVec 30)
  /-- `GCALL_GA` (R49): Pushes the return address and jumps to a register target. -/
  | gcallGa (a : BitVec 7)
  /-- `GEND` (R54): Ends the team, trapping if arms are pending. -/
  | gend
  /-- `GEND_DROP` (R54): Discards pending arms and ends the team. -/
  | gendDrop
  /-- `BCASE` (R50): Gives lanes to guards, pushes arm entries and jumps to the first arm. -/
  | bcase (n : BitVec 3) (g0 : BitVec 7) (g1 : BitVec 7) (g2 : BitVec 7) (g3 : BitVec 7)
  /-- `GNOP` (R203): Does nothing except apply its SEQ. -/
  | gnop (sq : BitVec 3)
  /-- `MAPCNT` (R205): Counts the occupied lanes of a vector register. -/
  | mapcnt (sq : BitVec 3) (d : BitVec 7) (a : BitVec 7)
  /-- `MAPGET` (R205): Reads one map word of a vector register. -/
  | mapget (sq : BitVec 3) (d : BitVec 7) (a : BitVec 7) (k : BitVec 7)
  /-- `MAPSET` (R206): Replaces one map word of a vector register and recompacts it. -/
  | mapset (sq : BitVec 3) (s : BitVec 7) (a : BitVec 7) (k : BitVec 7)
  /-- `MAPCLR` (R206): Gives a vector register an empty map and returns its slots. -/
  | mapclr (sq : BitVec 3) (a : BitVec 7)
  /-- `GBALLOT` (R205): Counts occupied lanes whose value has bit n set. -/
  | gballot (sq : BitVec 3) (d : BitVec 7) (a : BitVec 7) (n : BitVec 7)
  /-- `GFIRST` (R205): Returns the lowest occupied lane of a register. -/
  | gfirst (sq : BitVec 3) (d : BitVec 7) (a : BitVec 7)
  /-- `GRED_ADD` (R207): Reduces occupied lanes by sum in a pairwise tree. -/
  | gredAdd (sv : Bool) (sq : BitVec 3) (d : BitVec 7) (a : BitVec 7)
  /-- `GRED_MIN` (R207): Reduces occupied lanes by minimum. -/
  | gredMin (sv : Bool) (sq : BitVec 3) (d : BitVec 7) (a : BitVec 7)
  /-- `GRED_MAX` (R207): Reduces occupied lanes by maximum. -/
  | gredMax (sv : Bool) (sq : BitVec 3) (d : BitVec 7) (a : BitVec 7)
  /-- `GRED_AND` (R207): Reduces occupied lanes by bitwise AND. -/
  | gredAnd (sv : Bool) (sq : BitVec 3) (d : BitVec 7) (a : BitVec 7)
  /-- `GRED_OR` (R207): Reduces occupied lanes by bitwise OR. -/
  | gredOr (sv : Bool) (sq : BitVec 3) (d : BitVec 7) (a : BitVec 7)
  /-- `GRED_XOR` (R207): Reduces occupied lanes by bitwise XOR. -/
  | gredXor (sv : Bool) (sq : BitVec 3) (d : BitVec 7) (a : BitVec 7)
  /-- `SETFMT_GK` (R208): Writes FMT from an immediate. -/
  | setfmtGk (sq : BitVec 3) (i : BitVec 14)
  /-- `SETFMT_GA` (R208): Writes FMT from a uniform register. -/
  | setfmtGa (sq : BitVec 3) (a : BitVec 7)
  /-- `GETFMT` (R208): Reads FMT into a uniform register. -/
  | getfmt (sq : BitVec 3) (d : BitVec 7)
  /-- `GROW` (R209): Raises the vector or uniform allotment, reporting failure in Z. -/
  | grow (sq : BitVec 3) (s : BitVec 7) (n : BitVec 14)
  /-- `SHRINK` (R210): Lowers the vector or uniform allotment once the released registers are full. -/
  | shrink (sq : BitVec 3) (s : BitVec 7) (n : BitVec 14)
  /-- `FBAR` (R211): Arrives at the fold barrier with release and acquire at fold scope. -/
  | fbar (sq : BitVec 3)
  /-- `FENCE` (R212): Orders the team's earlier accesses before its later ones at a scope. -/
  | fence (sq : BitVec 3) (s : BitVec 3)
  /-- `WAITLT` (R213): Waits until a completion counter falls below n. -/
  | waitlt (sq : BitVec 3) (c : BitVec 3) (n : BitVec 14)
  /-- `CCADD` (R213): Adds a signed value to a completion counter. -/
  | ccadd (sq : BitVec 3) (c : BitVec 3) (n : BitVec 14)
  /-- `EMIT` (R214): Sends one record per lane to a work-graph node. -/
  | emit (sq : BitVec 3) (d : BitVec 7) (a : BitVec 7)
  /-- `LAUNCH` (R215): Submits a job from a command block to the device launch queue. -/
  | launch (sq : BitVec 3) (g : BitVec 10)
  /-- `PHASE` (R216): Arrives at the fold barrier that selects a schedule. -/
  | phase (sq : BitVec 3) (d : BitVec 7)
  /-- `FMOVE` (R217): Asks to move the fold to another paddock. -/
  | fmove (sq : BitVec 3) (d : BitVec 7) (a : BitVec 7) (m : BitVec 7)
  /-- `GSYS_RD` (R218): Reads a special register. -/
  | gsysRd (sq : BitVec 3) (d : BitVec 7) (n : BitVec 12)
  /-- `GSYS_WR` (R218): Writes a special register. -/
  | gsysWr (sq : BitVec 3) (s : BitVec 7) (n : BitVec 12)
  /-- `GSYS_CALL` (R219): Posts a system call to the resident operating system and waits for its answer. -/
  | gsysCall (sq : BitVec 3) (d : BitVec 7) (n : BitVec 12)
  /-- `GTRAP` (R220): Traps with the software-trap cause. -/
  | gtrap (sq : BitVec 3) (c : BitVec 14)
  /-- `GBRK` (R220): Traps with the breakpoint cause. -/
  | gbrk (sq : BitVec 3) (c : BitVec 14)
  /-- `SRET` (R400): Leaves stray mode and continues past the stray. -/
  | sret
  /-- `SRET_AGAIN` (R400): Leaves stray mode and re-executes the stray. -/
  | sretAgain
  /-- `SRET_TRAP` (R418): Leaves stray mode and delivers a trap cause for the stray. -/
  | sretTrap (c : BitVec 6)
  /-- `PWCLAIM` (R222): Claims or withdraws a boost slot for the paddock. -/
  | pwclaim (sq : BitVec 3) (d : BitVec 7) (a : BitVec 7)
  /-- `PWSTAT` (R221): Reports the paddock's power state. -/
  | pwstat (sq : BitVec 3) (d : BitVec 7)
  /-- `MMA` (R272): Posts a matrix product to the reservation table. -/
  | mma (sq : BitVec 3) (g : BitVec 10) (c : BitVec 3)
  /-- `MMA_J` (R255): Posts a joint matrix product matched by tag. -/
  | mmaJ (sq : BitVec 3) (g : BitVec 10) (c : BitVec 3)
  /-- `MMA_R` (R256): Posts a ragged matrix product fed from a paddock queue. -/
  | mmaR (sq : BitVec 3) (g : BitVec 10) (c : BitVec 3)
  /-- `MTRANS` (R273): Posts a transpose into accumulator store. -/
  | mtrans (sq : BitVec 3) (g : BitVec 10) (c : BitVec 3)
  /-- `MPERM` (R273): Posts a row permutation into accumulator store. -/
  | mperm (sq : BitVec 3) (g : BitVec 10) (c : BitVec 3)
  /-- `MRSUM` (R273): Posts a row sum into accumulator store. -/
  | mrsum (sq : BitVec 3) (g : BitVec 10) (c : BitVec 3)
  /-- `MZERO` (R277): Zeros accumulator rows and clears the sticky overflow bit. -/
  | mzero (sq : BitVec 3) (g : BitVec 10) (c : BitVec 3)
  /-- `MDRAIN` (R278): Converts accumulator values and writes them to scratch or a record. -/
  | mdrain (sq : BitVec 3) (g : BitVec 10) (c : BitVec 3)
  /-- `MOPFENCE` (R282): Makes the team's scratch and accumulator writes visible to the array. -/
  | mopfence (sq : BitVec 3)
  /-- `WTAB` (R283): Loads a decoder table from a frequency record. -/
  | wtab (sq : BitVec 3) (g : BitVec 10) (c : BitVec 3)
  /-- `COPY` (R284): Queues a byte copy on a copy channel. -/
  | copy (sq : BitVec 3) (g : BitVec 10) (c : BitVec 3)
  /-- `CWP` (R287): Reads a channel write pointer of the own core. -/
  | cwp (sq : BitVec 3) (d : BitVec 7) (n : BitVec 2)
  /-- `CWP_CORE` (R287): Reads a channel write pointer of a named core of the paddock. -/
  | cwpCore (sq : BitVec 3) (d : BitVec 7) (c : BitVec 2) (n : BitVec 2)
  /-- `CWAIT` (R287): Waits until an own-core channel write pointer reaches a value. -/
  | cwait (sq : BitVec 3) (a : BitVec 7) (n : BitVec 2)
  /-- `CWAIT_CORE` (R287): Waits until a named core's channel write pointer reaches a value. -/
  | cwaitCore (sq : BitVec 3) (a : BitVec 7) (c : BitVec 2) (n : BitVec 2)
  /-- `XPOST` (R288): Appends a shearer request to a request ring. -/
  | xpost (sq : BitVec 3) (g : BitVec 10) (c : BitVec 3) (r : BitVec 2)
  /-- `NSEND` (R289): Sends a scratch row as cells to a paddock queue on another device. -/
  | nsend (sq : BitVec 3) (g : BitVec 10) (c : BitVec 3)
  /-- `QRES` (R293): Reserves queue slots, waiting for room. -/
  | qres (sq : BitVec 3) (d : BitVec 7) (a : BitVec 7) (n : BitVec 4)
  /-- `QRES_TRY` (R293): Reserves queue slots only if room exists now. -/
  | qresTry (sq : BitVec 3) (d : BitVec 7) (a : BitVec 7) (n : BitVec 4)
  /-- `QPUB` (R294): Publishes a reserved queue slot with paddock-scope release. -/
  | qpub (sq : BitVec 3) (a : BitVec 7) (n : BitVec 4)
  /-- `QTAKE` (R295): Takes arrived queue slots with acquire, waiting for arrivals. -/
  | qtake (sq : BitVec 3) (d : BitVec 7) (a : BitVec 7) (n : BitVec 4)
  /-- `QREL` (R295): Releases taken queue slots to the head. -/
  | qrel (sq : BitVec 3) (a : BitVec 7) (n : BitVec 4)
  /-- `QWAIT` (R295): Waits until enough slots have arrived or the queue closes. -/
  | qwait (sq : BitVec 3) (a : BitVec 7) (n : BitVec 4)
  /-- `QCLOSE` (R295): Closes a queue at its tail. -/
  | qclose (sq : BitVec 3) (n : BitVec 4)
  /-- `QOPEN` (R292): Opens a paddock queue for the fold. -/
  | qopen (sq : BitVec 3) (a : BitVec 7) (n : BitVec 4)
  /-- `STRAY` (R106): Issue of a word that is not an instruction of the part, entering stray mode or trapping. -/
  | stray (w0 : BitVec 32) (w1 : BitVec 32)
  /-- `HALT_ARRIVAL` (R410): A sibling team receives the fold halt and stops within its skid. -/
  | haltArrival (team : Nat) (skid : Nat)
  /-- `FAULT_RUN_WRITE` (R414): The records of a halt are written to the fault queue once room and translation allow. -/
  | faultRunWrite (ctx : Nat)
  /-- `INSTRUCTION_COMPLETE` (R27): An instruction's result is complete and its destinations are marked full. -/
  | instructionComplete (team : Nat)
  /-- `LOAD_LINE_ARRIVAL` (R166): Data of a load line arrives and is checked for poison and mixed size. -/
  | loadLineArrival (team : Nat)
  /-- `ISSUE_SELECT` (R452): Each clock the partition issues from the ready active team whose last issue is oldest. -/
  | issueSelect (place : Nat) (clocks : Nat)
  /-- `SWAP_TO_PENDING` (R451): An active team blocked 33 cycles is replaced by the oldest ready pending team. -/
  | swapToPending (place : Nat)
  /-- `SLOT_SPILL` (R43): When all teams wait and one waits on slots, other teams are spilled youngest first. -/
  | slotSpill (place : Nat)
  /-- `SPILL_RESTORE` (R43): A spilled team is restored when the pool can hold its registers. -/
  | spillRestore (place : Nat)
  /-- `TEAM_END` (R55): An ended team releases its registers and slots after its L-set work completes. -/
  | teamEnd (team : Nat)
  /-- `FOLD_END` (R55): The fold ends when all teams have ended and engine work has completed. -/
  | foldEnd (fold : Nat)
  /-- `QUEUE_RELEASE` (R56): A paddock queue held by an ended fold is released once no link row is open into it. -/
  | queueRelease (paddock : Nat) (q : Nat)
  /-- `FMOVE_TRANSFER` (R66): Once every counter is zero the fold's state crosses the mesh to the target paddock. -/
  | fmoveTransfer (fold : Nat)
  /-- `COALESCER_LAUNCH` (R59): The coalescer launches a node team once a batch has gathered and a batch slot is free. -/
  | coalescerLaunch (job : Nat) (node : Nat)
  /-- `JOB_FLUSH_LAUNCH` (R59): At job flush the coalescer launches a partial team for remaining records. -/
  | jobFlushLaunch (job : Nat) (node : Nat)
  /-- `STREAM_HEADER_READ` (R307): The decoder port reads a stream-fed entry's index entry, header and restart table. -/
  | streamHeaderRead (paddock : Nat) (entry : Nat)
  /-- `SLICE_GRANT` (R253): At a slice boundary the arbiter grants the next slice to an eligible entry. -/
  | sliceGrant (paddock : Nat)
  /-- `STREAM_DECODE` (R303): The decoder port decodes a tile into the array's B buffer. -/
  | streamDecode (paddock : Nat)
  /-- `SLICE_COMPLETE` (R250): A slice commits its D rows and the poster's counter may fall. -/
  | sliceComplete (paddock : Nat)
  /-- `MZERO_COMPLETE` (R277): The zeroed rows are written and the counter falls. -/
  | mzeroComplete (op : Nat)
  /-- `MDRAIN_COMPLETE` (R280): The drained outputs and status word are written and the counter falls. -/
  | mdrainComplete (op : Nat)
  /-- `WTAB_LOAD_COMPLETE` (R283): The engine checks the table sum and replaces the decoder table in one step. -/
  | wtabLoadComplete (op : Nat)
  /-- `COPY_LINE_DELIVER` (R286): A copy delivers a line in offset order and advances the channel write pointer. -/
  | copyLineDeliver (op : Nat)
  /-- `COPY_COMPLETE` (R320): A copy's last byte is delivered and its counter falls. -/
  | copyComplete (op : Nat)
  /-- `ENGINE_FAULT` (R269): A fault found by an engine abandons the work at its next boundary and halts the fold. -/
  | engineFault (op : Nat)
  /-- `BLOCK_MERGE` (R341): The home slice merges a partial store into a coded block by decode, merge and encode. -/
  | blockMerge (ctx : Nat) (pa : Nat) (rate : Nat) (set : Nat) (elems : List (Nat × BitVec 64))
  /-- `DECODED_BLOCK_ENCODE` (R342): A decoded-resident block is encoded on leaving the L2 or before a plain access. -/
  | decodedBlockEncode (pa : Nat)
  /-- `SHEARER_TAKE_REQUEST` (R386): A shearer takes the next request from a ring and advances its head. -/
  | shearerTakeRequest (ctx : Nat) (ring : Nat)
  /-- `SHEARER_CONVERT` (R389): A shearer converts elements between formats. -/
  | shearerConvert (ctx : Nat) (ring : Nat)
  /-- `SHEARER_RETILE` (R390): A shearer copies a rectangle, optionally transposed. -/
  | shearerRetile (ctx : Nat) (ring : Nat)
  /-- `SHEARER_DEFLATE_DECODE` (R391): A shearer decodes a raw DEFLATE stream. -/
  | shearerDeflateDecode (ctx : Nat) (ring : Nat)
  /-- `SHEARER_FP64_ENCODE` (R392): A shearer encodes plain doubles into coded blocks. -/
  | shearerFp64Encode (ctx : Nat) (ring : Nat)
  /-- `SHEARER_FP64_DECODE` (R392): A shearer decodes coded blocks into plain doubles. -/
  | shearerFp64Decode (ctx : Nat) (ring : Nat)
  /-- `SHEARER_WEIGHT_STREAM_ENCODE` (R393): A shearer builds a weight-stream tile and its index entry. -/
  | shearerWeightStreamEncode (ctx : Nat) (ring : Nat)
  /-- `SHEARER_NVME_READ` (R394): A shearer reads logical blocks from an NVMe drive. -/
  | shearerNvmeRead (ctx : Nat) (ring : Nat) (status : Nat) (data : List (BitVec 8))
  /-- `SHEARER_COMPLETION` (R387): The completion record is released and the request's counter falls. -/
  | shearerCompletion (ctx : Nat) (ring : Nat)
  /-- `CELL_TRANSMIT` (R370): A cell of an accepted nsend leaves on its sprayed rail against credit. -/
  | cellTransmit (op : Nat)
  /-- `CELL_RETRANSMIT` (R371): An unanswered cell is sent again after 8 µs or when its port goes down. -/
  | cellRetransmit (op : Nat) (cell : Nat)
  /-- `CELL_RECEIVE` (R368): A receiving port checks a cell and drops, writes or answers it. -/
  | cellReceive (port : Nat) (h0 : BitVec 64) (h1 : BitVec 64) (h2 : BitVec 64) (h3 : BitVec 64) (payload : List (BitVec 8))
  /-- `ACK_RECEIVE` (R371): The sender receives an acknowledgement; the nsend counter falls after the last or ends on refusal. -/
  | ackReceive (port : Nat) (h0 : BitVec 64) (h1 : BitVec 64) (h2 : BitVec 64) (h3 : BitVec 64)
  /-- `ROW_ABANDON` (R379): A row still open 1 ms after RD was set is abandoned with a fault record. -/
  | rowAbandon (row : Nat)
  /-- `BOUNCE_RING_REPLAY` (R378): The ports replay a context's bounce ring and clear RD when head reaches tail. -/
  | bounceRingReplay (ctx : Nat)
  /-- `PORT_ENABLE` (R381): Setting EN in LSTAT starts a port's training. -/
  | portEnable (port : Nat)
  /-- `DROP_CLEAR` (R381): Writing 0 to DROP clears the dropped-cell count. -/
  | dropClear (port : Nat)
  /-- `FECU_CLEAR` (R381): Writing 0 to FECU clears the uncorrectable-codeword count. -/
  | fecuClear (port : Nat)
  /-- `LINK_UP` (R381): A port completes training on the lanes that trained. -/
  | linkUp (port : Nat) (lanes : Nat)
  /-- `LINK_DOWN` (R381): A port loses its link. -/
  | linkDown (port : Nat)
  /-- `UNCORRECTABLE_CODEWORD` (R381): FEC cannot correct a codeword and the cells it carried are dropped. -/
  | uncorrectableCodeword (port : Nat)
  /-- `INTERVAL_BOUNDARY` (R488): A 4 µs control interval ends on the device grid. -/
  | intervalBoundary (energy : List (Nat × Nat × Nat)) (temps : List (Nat × List Int))
  /-- `PERMITS_EXHAUSTED` (R437): Permits reach zero, claims are cancelled and the fall begins. -/
  | permitsExhausted (paddock : Nat)
  /-- `FALL_END` (R437): The fall interval ends, the slot is freed and the clock reaches 2.0 GHz. -/
  | fallEnd (paddock : Nat)
  /-- `PERMIT_REFILL` (R437): A permit is regained after every second consecutive nominal interval. -/
  | permitRefill (paddock : Nat)
  /-- `VOLTAGE_REACHED` (R456): The regulator reaches a new guard and a waiting clock rise takes effect. -/
  | voltageReached (domain : Nat)
  /-- `MARGIN_WINDOW_END` (R457): At the end of 256 intervals the margin controller steps the offset. -/
  | marginWindowEnd (domain : Nat) (errors : Nat)
  /-- `MARGIN_HOLD_END` (R459): The post-event hold of 65,536 intervals ends. -/
  | marginHoldEnd (domain : Nat)
  /-- `MARGIN_EVENT` (R459): An uncorrectable SRAM error at a nonzero offset returns the domain to guard and poisons the data. -/
  | marginEvent (domain : Nat) (unit : Nat) (kind : Nat) (index : Nat)
  /-- `UNCORRECTABLE_MEMORY_ERROR` (R459): An uncorrectable error at offset 0 poisons data for a 0x31 trap. -/
  | uncorrectableMemoryError (domain : Nat) (unit : Nat) (kind : Nat) (index : Nat)
  /-- `SENSOR_SUSPECT` (R465): A sensor is found stuck, out of range or disagreeing. -/
  | sensorSuspect (domain : Nat) (sensor : Nat) (reason : Nat) (reading : Int)
  /-- `SENSOR_HEALTHY` (R465): A suspect sensor is healthy again after 16 ms. -/
  | sensorHealthy (domain : Nat) (sensor : Nat) (reading : Int)
  /-- `FOLD_WATCHDOG` (R415): A fold without progress for the watchdog count is killed. -/
  | foldWatchdog (fold : Nat)
  /-- `DOORBELL_WRITE` (R475): A doorbell write sets a host queue's tail or is ignored and logged. -/
  | doorbellWrite (fn : Nat) (offset : Nat) (value : BitVec 64)
  /-- `PACKET_READ` (R442): The drover reads the next launch packet of a host queue. -/
  | packetRead (ctx : Nat) (q : Nat)
  /-- `DEPENDENCE_TEST` (R443): Waiting jobs' dependence words are tested. -/
  | dependenceTest
  /-- `JOB_DISPATCH` (R446): A ready job begins dispatching folds by priority. -/
  | jobDispatch (job : Nat)
  /-- `FOLD_ADMIT` (R447): A fold is placed on the first paddock in the scan that fits it. -/
  | foldAdmit (job : Nat)
  /-- `FOLD_RESERVATION` (R449): A fold refused at 64 boundaries receives a paddock reservation. -/
  | foldReservation (job : Nat)
  /-- `JOB_COMPLETE` (R444): A finished job increments its events and releases at system scope. -/
  | jobComplete (job : Nat)
  /-- `JOB_FAIL` (R444): A failing job kills its folds and posts one record of kind 4. -/
  | jobFail (job : Nat)
  /-- `VICTIM_STOP` (R424): A victim fold halts and its engines reach their boundaries. -/
  | victimStop (fold : Nat)
  /-- `VICTIM_MIGRATE` (R425): A stopped victim moves to an admitting paddock outside the mask. -/
  | victimMigrate (fold : Nat) (paddock : Nat)
  /-- `FOLD_SAVE` (R427): A stopped victim is saved to its context's save area. -/
  | foldSave (fold : Nat)
  /-- `FOLD_RESTORE` (R428): A saved fold is placed again and its restart records are reposted. -/
  | foldRestore (fold : Nat) (paddock : Nat)
  /-- `VACATE_COMPLETE` (R423): No fold remains on the vacated paddocks and occupancy is reported. -/
  | vacateComplete
  /-- `SYSCALL_ANSWER` (R219): The resident OS answers a gsys.call and the team resumes with acquire. -/
  | syscallAnswer (team : Nat) (result : BitVec 64)
  /-- `ASSIGN_CONTEXT` (R479): Resident-OS call 1 assigns a free context to a function. -/
  | assignContext (fn : Nat)
  /-- `RELEASE_CONTEXT` (R479): Resident-OS call 2 releases one context as a reset does. -/
  | releaseContext (ctx : Nat)
  /-- `WRITE_DESCRIPTOR_FIELD` (R479): Resident-OS call 3 writes a read-write context descriptor field. -/
  | writeDescriptorField (ctx : Nat) (word : Nat) (value : BitVec 64)
  /-- `FOLD_RESUME` (R415): Fold control resumes a halted fold. -/
  | foldResume (ctx : Nat) (seqno : Nat)
  /-- `FOLD_REPLAY` (R415): Fold control replays the trapping instruction of a halted fold. -/
  | foldReplay (ctx : Nat) (seqno : Nat)
  /-- `FOLD_KILL` (R415): Fold control kills a halted fold and fails its job. -/
  | foldKill (ctx : Nat) (seqno : Nat)
  /-- `VACATE` (R423): Resident-OS call 5 posts a vacate request for a paddock mask. -/
  | vacate (mask : BitVec 32)
  /-- `INVALIDATE` (R435): Resident-OS call 6 invalidates a context's translations over a range. -/
  | invalidate (ctx : Nat) (base : Nat) (length : Nat)
  /-- `MAP_QUEUE_NAME` (R372): Resident-OS call 7 writes a translation-table entry. -/
  | mapQueueName (name : Nat) (entry : BitVec 64)
  /-- `REPLAY_BOUNCE_RING` (R378): Resident-OS call 8 replays a context's bounce ring. -/
  | replayBounceRing (ctx : Nat)
  /-- `REPLAY_GO` (R478): Writing GO to REPLAY starts a bounce-ring replay. -/
  | replayGo (value : BitVec 64)
  /-- `TINV0_GO` (R478): Writing GO to TINV0 starts a TLB invalidation. -/
  | tinv0Go (value : BitVec 64)
  /-- `TLB_INVALIDATION_COMPLETE` (R435): Every access that used a dropped entry is performed and GO clears. -/
  | tlbInvalidationComplete
  /-- `FAULT_QUEUE_HEAD_WRITE` (R414): A write of the fault queue head lets a waiting run be retried. -/
  | faultQueueHeadWrite (ctx : Nat) (value : BitVec 64)
  /-- `REGISTER_WRITE` (R477): A write to a control or descriptor register that has no behaviour of its own. -/
  | registerWrite (pa : Nat) (value : BitVec 64)
  /-- `FUNCTION_LEVEL_RESET` (R476): A function reset kills its contexts' folds and fails their jobs. -/
  | functionLevelReset (fn : Nat)
  /-- `BRING_UP` (R485): Power-on runs the bring-up sequence to PCIe readiness. -/
  | bringUp (selfTest : Bool)
  /-- `EXTERNAL_DEBUG_HALT` (R422): A debug halt from the shepherd port or host stops every team of a fold. -/
  | externalDebugHalt (fold : Nat)
  /-- `PLDM_PLATFORM_MONITORING` (R480): A PLDM monitoring request reads domain and module sensors. -/
  | pldmPlatformMonitoring (sensor : Nat)
  /-- `PLDM_FIRMWARE_UPDATE` (R480): A PLDM firmware update writes the other firmware bank. -/
  | pldmFirmwareUpdate (image : List (BitVec 8)) (verified : Bool)
  /-- `GET_VERSION` (R481): SPDM GET_VERSION request answered by the responder. -/
  | getVersion
  /-- `GET_CAPABILITIES` (R481): SPDM GET_CAPABILITIES request answered. -/
  | getCapabilities
  /-- `NEGOTIATE_ALGORITHMS` (R481): SPDM NEGOTIATE_ALGORITHMS request answered. -/
  | negotiateAlgorithms (algorithms : List Nat)
  /-- `GET_DIGESTS` (R481): SPDM GET_DIGESTS request answered. -/
  | getDigests
  /-- `GET_CERTIFICATE` (R481): SPDM GET_CERTIFICATE request answered. -/
  | getCertificate (slot : Nat) (offset : Nat) (length : Nat)
  /-- `CHALLENGE` (R481): SPDM CHALLENGE request signed and answered. -/
  | challenge (slot : Nat) (nonce : BitVec 256)
  /-- `GET_MEASUREMENTS` (R481): SPDM GET_MEASUREMENTS request answered. -/
  | getMeasurements (index : Nat) (nonce : BitVec 256)
  /-- `BLACK_BOX_READ` (R484): The vendor command returns up to 32 black-box entries and the next sequence. -/
  | blackBoxRead (first : Nat) (count : Nat)
  /-- `BLACK_BOX_UNFREEZE` (R483): The vendor unfreeze command unfreezes the black-box record. -/
  | blackBoxUnfreeze
  /-- `CONFIGURATION_REQUEST` (R485): A PCIe configuration request from the host is answered, with Configuration Request Retry Status until bring-up has reached step 7. -/
  | configurationRequest (fn : Nat) (reg : Nat)
  /-- `HOST_MEMORY_WRITE` (R362): A write that arrives from the host over PCIe or CXL.mem is performed at system scope in PCIe delivery order. -/
  | hostMemoryWrite (addr : Nat) (data : List (BitVec 8))
  /-- `FATAL_UNCLASSIFIED` (R483): An asynchronous fatal unclassified error, cause 0x3F, halts the fold for kill only, logs event 0x0008 and freezes the black-box record. -/
  | fatalUnclassified (fold : Nat)
  deriving DecidableEq, Repr

end Sys2Proof
end

