-- ==== Sys2Proof/WellFormed.lean ====
section
/-!
DEFINITION. Sys2Proof/WellFormed.lean: which instructions the encodings can hold without a reserved value (R103, R104):
codes inside their tables, a bit field inside its word (R128), the command block inside g0-g1023 (R266). The row of an
agent's move has no encoding, and any operands are well formed: a move that names nothing has no effect (log entry 1).
-/
namespace Sys2Proof

/-- The guards of bcase: 1 to 4 of them, zero beyond the count, no register twice (R204). -/
def bcaseWf (n : BitVec 3) (g0 g1 g2 g3 : BitVec 7) : Bool :=
  1 ≤ n.toNat && n.toNat ≤ 4 &&
  (n.toNat ≥ 2 || g1 == 0#7) && (n.toNat ≥ 3 || g2 == 0#7) && (n.toNat ≥ 4 || g3 == 0#7) &&
  (n.toNat < 2 || g0 != g1) && (n.toNat < 3 || (g0 != g2 && g1 != g2)) &&
  (n.toNat < 4 || (g0 != g3 && g1 != g3 && g2 != g3))

/-- No field of the instruction holds a reserved value. -/
def Instr.wf : Instr → Bool
  | .vbfx _ _ _ _ pos len => 1 ≤ len.toNat && pos.toNat + len.toNat ≤ 32
  | .vbfi _ _ _ _ _ _ pos len => 1 ≤ len.toNat && pos.toNat + len.toNat ≤ 32
  | .vcvt _ _ _ t _ _ => t.toNat < 12
  | .vunpk _ _ e t _ _ => 6 ≤ t.toNat && t.toNat ≤ 11 && (e.toNat < 2 || 10 ≤ t.toNat)
  | .vsplitVector _ _ _ _ _ _ _ cond => cond.toNat ≤ 9
  | .vsplitUniform _ _ _ _ _ _ _ cond => cond.toNat ≤ 9
  | .vsplitImmediate _ _ _ _ _ cond i => cond.toNat ≤ 9 || (cond.toNat == 10 && i.toNat ≤ 63)
  | .vldAcq _ _ _ _ _ sc => sc.toNat < 5
  | .vstRel _ _ _ _ _ sc => sc.toNat < 5
  | .vatomAdd _ _ _ _ _ k sc ret => sc.toNat < 5 && (!k || ret)
  | .vatomMin _ _ _ _ _ k sc ret _ => sc.toNat < 5 && (!k || ret)
  | .vatomMax _ _ _ _ _ k sc ret _ => sc.toNat < 5 && (!k || ret)
  | .vatomAnd _ _ _ _ _ k sc ret => sc.toNat < 5 && (!k || ret)
  | .vatomOr _ _ _ _ _ k sc ret => sc.toNat < 5 && (!k || ret)
  | .vatomXor _ _ _ _ _ k sc ret => sc.toNat < 5 && (!k || ret)
  | .vatomXchg _ _ _ _ _ k sc ret => sc.toNat < 5 && (!k || ret)
  | .vatomCas _ _ _ _ _ k sc ret => sc.toNat < 5 && (!k || ret)
  | .gsel _ _ _ _ cond => cond.toNat ≤ 8
  | .gatomAdd _ d _ _ _ sc ret => sc.toNat < 5 && (ret || d == 0#7)
  | .gatomMin _ d _ _ _ sc ret _ => sc.toNat < 5 && (ret || d == 0#7)
  | .gatomMax _ d _ _ _ sc ret _ => sc.toNat < 5 && (ret || d == 0#7)
  | .gatomAnd _ d _ _ _ sc ret => sc.toNat < 5 && (ret || d == 0#7)
  | .gatomOr _ d _ _ _ sc ret => sc.toNat < 5 && (ret || d == 0#7)
  | .gatomXor _ d _ _ _ sc ret => sc.toNat < 5 && (ret || d == 0#7)
  | .gatomXchg _ d _ _ _ sc ret => sc.toNat < 5 && (ret || d == 0#7)
  | .gatomCas _ d _ _ _ sc ret => sc.toNat < 5 && (ret || d == 0#7)
  | .gtgtGx _ _ cond _ => cond.toNat ≤ 8
  | .gtgtGa _ _ c _ => c.toNat ≤ 8
  | .bcase n g0 g1 g2 g3 => bcaseWf n g0 g1 g2 g3
  | .mapget _ _ _ k => k.toNat < 32
  | .mapset _ _ _ k => k.toNat < 32
  | .gballot _ _ _ n => n.toNat < 32
  | .grow _ s _ => s.toNat < 2
  | .shrink _ s _ => s.toNat < 2
  | .fence _ s => s.toNat < 5
  | .waitlt _ _ n => 1 ≤ n.toNat
  | .launch _ g => g.toNat ≤ 1016
  | .fmove _ _ _ m => m.toNat < 2
  | .gsysRd _ _ n => n.toNat ≤ 8 || (32 ≤ n.toNat && n.toNat ≤ 35)
  | .gsysWr _ _ n => n.toNat == 0
  | .gsysCall _ d _ => d.toNat ≤ 124
  | .sretTrap c => 4 ≤ c.toNat
  | .mma _ g _ => g.toNat ≤ 1016
  | .mmaJ _ g _ => g.toNat ≤ 1016
  | .mmaR _ g _ => g.toNat ≤ 1016
  | .mtrans _ g _ => g.toNat ≤ 1016
  | .mperm _ g _ => g.toNat ≤ 1016
  | .mrsum _ g _ => g.toNat ≤ 1016
  | .mzero _ g _ => g.toNat ≤ 1022
  | .mdrain _ g _ => g.toNat ≤ 1020
  | .wtab _ g _ => g.toNat ≤ 1022
  | .copy _ g _ => g.toNat ≤ 1021
  | .xpost _ g _ _ => g.toNat ≤ 1016
  | .nsend _ g _ => g.toNat ≤ 1021
  | .qtake _ d _ _ => d.toNat % 2 == 0 && d.toNat ≤ 126
  | .vaddLa ..
  | .vaddLu ..
  | .vaddLi ..
  | .vaddLx ..
  | .vmulLa ..
  | .vmulLu ..
  | .vmulLi ..
  | .vmulLx ..
  | .vsubLa ..
  | .vsubLu ..
  | .vsubLi ..
  | .vminLa ..
  | .vminLu ..
  | .vminLi ..
  | .vmaxLa ..
  | .vmaxLu ..
  | .vmaxLi ..
  | .vmulhiLa ..
  | .vmulhiLu ..
  | .vdivLa ..
  | .vdivLu ..
  | .vremLa ..
  | .vremLu ..
  | .vmadVectorC ..
  | .vmadUniformC ..
  | .vclampVectorC ..
  | .vclampUniformC ..
  | .vabs ..
  | .vneg ..
  | .vsat ..
  | .vandLa ..
  | .vandLu ..
  | .vandLx ..
  | .vorLa ..
  | .vorLu ..
  | .vorLx ..
  | .vxorLa ..
  | .vxorLu ..
  | .vxorLx ..
  | .vnot ..
  | .vshlLa ..
  | .vshlLi ..
  | .vshrLa ..
  | .vshrLi ..
  | .vsraLa ..
  | .vsraLi ..
  | .vrotLa ..
  | .vrotLi ..
  | .vpopc ..
  | .vclz ..
  | .vbrev ..
  | .vsqrt ..
  | .vrcp ..
  | .vrsq ..
  | .vexp2 ..
  | .vlog2 ..
  | .vpack ..
  | .vmerge ..
  | .vmask ..
  | .vcompress ..
  | .vexpand ..
  | .vfillLu ..
  | .vfillLx ..
  | .vfirstLu ..
  | .vfirstLi ..
  | .vlane ..
  | .vmov ..
  | .vkey ..
  | .vbcastLu ..
  | .vbcastLi ..
  | .vperm ..
  | .vshflLa ..
  | .vshflLi ..
  | .vscanAdd ..
  | .vscanMin ..
  | .vscanMax ..
  | .vscanAddX ..
  | .vscanMinX ..
  | .vscanMaxX ..
  | .vsad ..
  | .vavg ..
  | .vdot4 ..
  | .vdot2 ..
  | .vmed3VectorC ..
  | .vmed3UniformC ..
  | .vland ..
  | .vld ..
  | .vldR ..
  | .vst ..
  | .vldwX2 ..
  | .vldwX4 ..
  | .vstwX2 ..
  | .vstwX4 ..
  | .vpref ..
  | .vlds ..
  | .vsts ..
  | .vbld ..
  | .vldacc ..
  | .vstacc ..
  | .gaddGa ..
  | .gaddGi ..
  | .gsubGa ..
  | .gsubGi ..
  | .gmulGa ..
  | .gmulGi ..
  | .gmulhiGa ..
  | .gmulhiGi ..
  | .gdivGa ..
  | .gdivGi ..
  | .gandGa ..
  | .gandGi ..
  | .gorGa ..
  | .gorGi ..
  | .gxorGa ..
  | .gxorGi ..
  | .gshlGa ..
  | .gshlGi ..
  | .gshrGa ..
  | .gshrGi ..
  | .gsraGa ..
  | .gsraGi ..
  | .gminGa ..
  | .gminGi ..
  | .gmaxGa ..
  | .gmaxGi ..
  | .gcmpGa ..
  | .gcmpGi ..
  | .gmov ..
  | .gli ..
  | .gliw ..
  | .gfaddF32 ..
  | .gfaddF64 ..
  | .gfmulF32 ..
  | .gfmulF64 ..
  | .gfmaF32 ..
  | .gfmaF64 ..
  | .gfcvtF64F32 ..
  | .gfcvtF32F64 ..
  | .gfcvtF64I64 ..
  | .gfcvtI64F64 ..
  | .gfcvtF32I64 ..
  | .gfcvtI64F32 ..
  | .gfcvtF64N64 ..
  | .gfcvtN64F64 ..
  | .gldGa ..
  | .gldGi ..
  | .gstGa ..
  | .gstGi ..
  | .gcallGx ..
  | .gcallGa ..
  | .gend
  | .gendDrop
  | .gnop ..
  | .mapcnt ..
  | .mapclr ..
  | .gfirst ..
  | .gredAdd ..
  | .gredMin ..
  | .gredMax ..
  | .gredAnd ..
  | .gredOr ..
  | .gredXor ..
  | .setfmtGk ..
  | .setfmtGa ..
  | .getfmt ..
  | .fbar ..
  | .ccadd ..
  | .emit ..
  | .phase ..
  | .gtrap ..
  | .gbrk ..
  | .sret
  | .sretAgain
  | .pwclaim ..
  | .pwstat ..
  | .mopfence ..
  | .cwp ..
  | .cwpCore ..
  | .cwait ..
  | .cwaitCore ..
  | .qres ..
  | .qresTry ..
  | .qpub ..
  | .qrel ..
  | .qwait ..
  | .qclose ..
  | .qopen ..
  | .stray ..
  | .haltArrival ..
  | .faultRunWrite ..
  | .instructionComplete ..
  | .loadLineArrival ..
  | .issueSelect ..
  | .swapToPending ..
  | .slotSpill ..
  | .spillRestore ..
  | .teamEnd ..
  | .foldEnd ..
  | .queueRelease ..
  | .fmoveTransfer ..
  | .coalescerLaunch ..
  | .jobFlushLaunch ..
  | .streamHeaderRead ..
  | .sliceGrant ..
  | .streamDecode ..
  | .sliceComplete ..
  | .mzeroComplete ..
  | .mdrainComplete ..
  | .wtabLoadComplete ..
  | .copyLineDeliver ..
  | .copyComplete ..
  | .engineFault ..
  | .blockMerge ..
  | .decodedBlockEncode ..
  | .shearerTakeRequest ..
  | .shearerConvert ..
  | .shearerRetile ..
  | .shearerDeflateDecode ..
  | .shearerFp64Encode ..
  | .shearerFp64Decode ..
  | .shearerWeightStreamEncode ..
  | .shearerNvmeRead ..
  | .shearerCompletion ..
  | .cellTransmit ..
  | .cellRetransmit ..
  | .cellReceive ..
  | .ackReceive ..
  | .rowAbandon ..
  | .bounceRingReplay ..
  | .portEnable ..
  | .dropClear ..
  | .fecuClear ..
  | .linkUp ..
  | .linkDown ..
  | .uncorrectableCodeword ..
  | .intervalBoundary ..
  | .permitsExhausted ..
  | .fallEnd ..
  | .permitRefill ..
  | .voltageReached ..
  | .marginWindowEnd ..
  | .marginHoldEnd ..
  | .marginEvent ..
  | .uncorrectableMemoryError ..
  | .sensorSuspect ..
  | .sensorHealthy ..
  | .foldWatchdog ..
  | .doorbellWrite ..
  | .packetRead ..
  | .dependenceTest
  | .jobDispatch ..
  | .foldAdmit ..
  | .foldReservation ..
  | .jobComplete ..
  | .jobFail ..
  | .victimStop ..
  | .victimMigrate ..
  | .foldSave ..
  | .foldRestore ..
  | .vacateComplete
  | .syscallAnswer ..
  | .assignContext ..
  | .releaseContext ..
  | .writeDescriptorField ..
  | .foldResume ..
  | .foldReplay ..
  | .foldKill ..
  | .vacate ..
  | .invalidate ..
  | .mapQueueName ..
  | .replayBounceRing ..
  | .replayGo ..
  | .tinv0Go ..
  | .tlbInvalidationComplete
  | .faultQueueHeadWrite ..
  | .registerWrite ..
  | .functionLevelReset ..
  | .bringUp ..
  | .externalDebugHalt ..
  | .pldmPlatformMonitoring ..
  | .pldmFirmwareUpdate ..
  | .getVersion
  | .getCapabilities
  | .negotiateAlgorithms ..
  | .getDigests
  | .getCertificate ..
  | .challenge ..
  | .getMeasurements ..
  | .blackBoxRead ..
  | .blackBoxUnfreeze
  | .configurationRequest ..
  | .hostMemoryWrite ..
  | .fatalUnclassified .. => true

end Sys2Proof
end

