-- ==== Sys2Proof/Decode.lean ====
section
/-!
DEFINITION. Sys2Proof/Decode.lean: the decoder, total on any words and rejecting by name (R89-R106), and the encoder.
-/
namespace Sys2Proof

/-! ## Fields (R91, R96) -/

/-- op7, bits 30:24. -/
def op7 (w : Word) : BitVec 7 := w.extractLsb' 24 7
/-- Bit 31: the set, true for G (R89). -/
def isG (w : Word) : Bool := w.getLsbD 31
/-- L set, bits 23:17. -/
def fD (w : Word) : BitVec 7 := w.extractLsb' 17 7
/-- L set, bits 16:10. -/
def fA (w : Word) : BitVec 7 := w.extractLsb' 10 7
/-- L set, bits 9:3. -/
def fB (w : Word) : BitVec 7 := w.extractLsb' 3 7
/-- L set, bit 2. -/
def b2 (w : Word) : Bool := w.getLsbD 2
/-- L set, bit 1. -/
def b1 (w : Word) : Bool := w.getLsbD 1
/-- L set, bit 0. -/
def b0 (w : Word) : Bool := w.getLsbD 0
/-- G set, SEQ, bits 23:21. -/
def gQ (w : Word) : BitVec 3 := w.extractLsb' 21 3
/-- G set, bits 20:14. -/
def gD (w : Word) : BitVec 7 := w.extractLsb' 14 7
/-- G set, bits 13:7. -/
def gA (w : Word) : BitVec 7 := w.extractLsb' 7 7
/-- G set, bits 6:0. -/
def gB (w : Word) : BitVec 7 := w.extractLsb' 0 7
/-- GK, imm14, bits 13:0. -/
def gK (w : Word) : BitVec 14 := w.extractLsb' 0 14
/-- GW, bits 20:11. -/
def gW (w : Word) : BitVec 10 := w.extractLsb' 11 10
/-- GW, the counter, bits 10:8. -/
def gC (w : Word) : BitVec 3 := w.extractLsb' 8 3
/-- GW, the flags, bits 7:0. -/
def gF (w : Word) : BitVec 8 := w.extractLsb' 0 8
/-- gmov and gliw, bits 10:1. -/
def gS (w : Word) : BitVec 10 := w.extractLsb' 1 10

/-! ## The fate of an encoding (R101, R102, R105-R107) -/

/-- Why a word is not an instruction of the part. -/
inductive Reject where
  | undefinedOpcode
  | reservedOpcode
  | absentCapability (id : Nat)
  | reservedField
  deriving DecidableEq, Repr

/-- The cause of the stray (R106). -/
def Reject.cause : Reject → Nat
  | .undefinedOpcode | .reservedOpcode => 1
  | .absentCapability _ => 2
  | .reservedField => 3

/-- The capability ID of the stray (R106). -/
def Reject.cap : Reject → Nat
  | .absentCapability id => id
  | _ => 0

/-- Is the opcode undefined (R101, R102)? -/
def opUndefined (g : Bool) (op : Nat) : Bool := if g then 0x78 ≤ op else op == 0x6F

/-- Is the opcode reserved (R101, R102)? -/
def opReserved (g : Bool) (op : Nat) : Bool :=
  if g then op == 0x27 || (0x2D ≤ op && op ≤ 0x2F) || op == 0x37 || (0x53 ≤ op && op ≤ 0x57) || op == 0x67 ||
    (0x70 ≤ op && op ≤ 0x77)
  else op == 0x6E

/-- The capability group of the opcode (R105); 0 where it belongs to none. -/
def opGroup (g : Bool) (op : Nat) : Nat :=
  if g then (if op == 0x61 then 3 else 0)
  else if 0x64 ≤ op && op ≤ 0x6B then 1 else if op == 0x6C || op == 0x6D then 2 else 0

/-- Is the opcode two words long (R89, R107)? -/
def opPair (g : Bool) (op : Nat) : Bool :=
  if g then [0x1C, 0x1F, 0x24, 0x25, 0x2C, 0x30, 0x32, 0x35, 0x74, 0x75, 0x76, 0x77].contains op
  else [0x06, 0x07, 0x0E, 0x0F, 0x2E, 0x2F, 0x30, 0x31, 0x36, 0x37, 0x3C, 0x3F, 0x42, 0x4D, 0x4E, 0x54, 0x6C, 0x6D,
    0x6E, 0x77, 0x78, 0x79].contains op

/-- Is the word the first of a pair? -/
def isPair (w : Word) : Bool := opPair (isG w) (op7 w).toNat

/-- The format class of an opcode as SDESC numbers it (R417): LA LU LI LM LX GA GI GK GW GV GX, 15 for none. -/
def opClass (g : Bool) (op : Nat) : Nat :=
  if opUndefined g op || opReserved g op then 15
  else if g then
    if opPair g op then 10
    else if [0x1B, 0x29, 0x2B, 0x4C].contains op || (op ≤ 0x19 && op % 2 == 1) then 6
    else if [0x1E, 0x40, 0x43, 0x44, 0x46, 0x47, 0x48, 0x4D, 0x4E, 0x4F, 0x50].contains op then 7
    else if [0x1D, 0x4A, 0x61, 0x62, 0x65, 0x66].contains op || (0x58 ≤ op && op ≤ 0x5F) then 8
    else if op == 0x49 || (0x38 ≤ op && op ≤ 0x3F) then 9
    else 5
  else if opPair g op then 4
  else if [0x02, 0x03, 0x0A, 0x0B, 0x12, 0x13, 0x18, 0x19, 0x1E, 0x1F, 0x24, 0x25, 0x28, 0x29, 0x2C, 0x2D, 0x3B, 0x3E,
    0x41, 0x53, 0x55, 0x5A, 0x63].contains op then 1
  else if [0x04, 0x05, 0x0C, 0x0D, 0x14, 0x15, 0x1A, 0x1B, 0x20, 0x21, 0x45, 0x47, 0x49, 0x4B, 0x56, 0x5B, 0x60].contains op
    then 2
  else if 0x70 ≤ op then 3
  else 0

/-! ## Field layouts -/

/-- An instruction whose must-be-zero fields are zero. -/
def need (c : Bool) (i : Instr) : Option Instr := if c then some i else none

/-- LA and LU with all their fields. -/
def la (f : BitVec 7 → BitVec 7 → BitVec 7 → Bool → Bool → Bool → Instr) (w : Word) : Option Instr :=
  some (f (fD w) (fA w) (fB w) (b2 w) (b1 w) (b0 w))
/-- LA and LU without a keep form. -/
def lnok (f : BitVec 7 → BitVec 7 → BitVec 7 → Bool → Bool → Instr) (w : Word) : Option Instr :=
  need (!b0 w) (f (fD w) (fA w) (fB w) (b2 w) (b1 w))
/-- LI. -/
def li (f : BitVec 7 → BitVec 7 → Bool → Bool → BitVec 8 → Instr) (w : Word) : Option Instr :=
  some (f (fD w) (fA w) (w.getLsbD 9) (w.getLsbD 8) (w.extractLsb' 0 8))
/-- LX with an IMM32 extension. -/
def limm (f : BitVec 7 → BitVec 7 → Bool → Bool → BitVec 32 → Instr) (w x : Word) : Option Instr :=
  need (fB w == 0#7 && !b1 w) (f (fD w) (fA w) (b2 w) (b0 w) x)
/-- LX with an OP3 extension: the vector and the uniform third source. -/
def lop3 (v u : BitVec 7 → BitVec 7 → BitVec 7 → Bool → Bool → Bool → BitVec 7 → Bool → Instr) (w x : Word) : Option Instr :=
  let f (h : BitVec 7 → BitVec 7 → BitVec 7 → Bool → Bool → Bool → BitVec 7 → Bool → Instr) : Option Instr :=
    need (x.extractLsb' 0 22 == 0#22)
      (h (fD w) (fA w) (fB w) (b2 w) (b1 w) (b0 w) (x.extractLsb' 23 7) (x.getLsbD 22))
  if x.extractLsb' 30 2 == 0#2 then f v else if x.extractLsb' 30 2 == 1#2 then f u else none
/-- LA with a code in bits 9:3 (R103). -/
def lcode (t : List (Nat × (BitVec 7 → BitVec 7 → Bool → Bool → Instr))) (w : Word) : Option Instr :=
  match t.lookup (fB w).toNat with
  | some f => need (!b1 w) (f (fD w) (fA w) (b2 w) (b0 w))
  | none => none
/-- vsplit (R137). -/
def lsplit (sv : Bool) (w x : Word) : Option Instr :=
  let cond := x.extractLsb' 28 4
  let z := x.extractLsb' 0 26 == 0#26
  if x.extractLsb' 26 2 == 0#2 then need z (.vsplitVector sv (fD w) (fA w) (fB w) (b2 w) (b1 w) (b0 w) cond)
  else if x.extractLsb' 26 2 == 1#2 then need z (.vsplitUniform sv (fD w) (fA w) (fB w) (b2 w) (b1 w) (b0 w) cond)
  else if x.extractLsb' 26 2 == 2#2 then
    need (fB w == 0#7 && !b1 w) (.vsplitImmediate sv (fD w) (fA w) (b2 w) (b0 w) cond (x.extractLsb' 0 26))
  else none
/-- vcvt (R133). -/
def lcvt (sv : Bool) (w : Word) : Option Instr := need (!b1 w) (.vcvt sv (fD w) (fA w) (fB w) (b2 w) (b0 w))
/-- vbfx (R126). -/
def lbfx (w x : Word) : Option Instr :=
  need (fB w == 0#7 && !b1 w && x.extractLsb' 0 21 == 0#21)
    (.vbfx (fD w) (fA w) (b2 w) (b0 w) (x.extractLsb' 27 5) (x.extractLsb' 21 6))
/-- vbfi (R126). -/
def lbfi (w x : Word) : Option Instr :=
  need (x.extractLsb' 0 21 == 0#21)
    (.vbfi (fD w) (fA w) (fB w) (b2 w) (b1 w) (b0 w) (x.extractLsb' 27 5) (x.extractLsb' 21 6))
/-- vfill LX (R142). -/
def lfillx (w x : Word) : Option Instr :=
  need (fB w == 0#7 && !b1 w && !b0 w) (.vfillLx (fD w) (fA w) (b2 w) x)
/-- vlane (R146). -/
def llane (w : Word) : Option Instr := need (w.extractLsb' 0 17 == 0#17) (.vlane (fD w))
/-- vunpk (R136). -/
def lunpk (w : Word) : Option Instr :=
  need (!w.getLsbD 9 && !b1 w) (.vunpk (fD w) (fA w) (w.extractLsb' 7 2) (w.extractLsb' 3 4) (b2 w) (b0 w))
/-- vland (R156). -/
def lland (w : Word) : Option Instr := need (fA w == 0#7 && !b2 w && !b0 w) (.vland (fD w) (fB w) (b1 w))
/-- LM loads: ws is zero (R169). -/
def lmLoad (f : BitVec 7 → BitVec 7 → BitVec 7 → Bool → Bool → Instr) (w : Word) : Option Instr :=
  need (!b1 w) (f (fD w) (fA w) (fB w) (b2 w) (b0 w))
/-- LM stores: k is zero (R169). -/
def lmStore (f : BitVec 7 → BitVec 7 → BitVec 7 → Bool → Bool → Instr) (w : Word) : Option Instr :=
  need (!b0 w) (f (fD w) (fA w) (fB w) (b2 w) (b1 w))
/-- vld.acq (R169). -/
def lacq (w x : Word) : Option Instr :=
  need (!b1 w && x.extractLsb' 0 29 == 0#29) (.vldAcq (fD w) (fA w) (fB w) (b2 w) (b0 w) (x.extractLsb' 29 3))
/-- vst.rel (R169). -/
def lrel (w x : Word) : Option Instr :=
  need (!b0 w && x.extractLsb' 0 29 == 0#29) (.vstRel (fD w) (fA w) (fB w) (b2 w) (b1 w) (x.extractLsb' 29 3))
/-- vatom (R177). -/
def latom (w x : Word) : Option Instr :=
  let sc := x.extractLsb' 29 3
  let ret := x.getLsbD 24
  let u := x.getLsbD 23
  let z := x.extractLsb' 0 23 == 0#23
  let d := fD w; let i := fA w; let g := fB w; let wa := b2 w; let wb := b1 w; let k := b0 w
  match (x.extractLsb' 25 4).toNat with
  | 0 => need (z && !u) (.vatomAdd d i g wa wb k sc ret)
  | 1 => need z (.vatomMin d i g wa wb k sc ret u)
  | 2 => need z (.vatomMax d i g wa wb k sc ret u)
  | 3 => need (z && !u) (.vatomAnd d i g wa wb k sc ret)
  | 4 => need (z && !u) (.vatomOr d i g wa wb k sc ret)
  | 5 => need (z && !u) (.vatomXor d i g wa wb k sc ret)
  | 6 => need (z && !u) (.vatomXchg d i g wa wb k sc ret)
  | 7 => need (z && !u) (.vatomCas d i g wa wb k sc ret)
  | _ => none
/-- vpref (R169). -/
def lpref (w : Word) : Option Instr := need (fD w == 0#7 && !b1 w && !b0 w) (.vpref (fA w) (fB w) (b2 w))

/-- GA, GI and GV with three fields. -/
def ga (f : BitVec 3 → BitVec 7 → BitVec 7 → BitVec 7 → Instr) (w : Word) : Option Instr :=
  some (f (gQ w) (gD w) (gA w) (gB w))
/-- GV whose aux is checked by its range alone. -/
def ga5 (f : BitVec 3 → BitVec 7 → BitVec 7 → BitVec 7 → Instr) (w : Word) : Option Instr := ga f w
/-- gcmp: gd is zero. -/
def gnod (f : BitVec 3 → BitVec 7 → BitVec 7 → Instr) (w : Word) : Option Instr :=
  need (gD w == 0#7) (f (gQ w) (gA w) (gB w))
/-- A code in bits 6:0 (R103, R198). -/
def gcode (t : List (Nat × (BitVec 3 → BitVec 7 → BitVec 7 → Instr))) (w : Word) : Option Instr :=
  match t.lookup (gB w).toNat with
  | some f => some (f (gQ w) (gD w) (gA w))
  | none => none
/-- All three fields zero. -/
def gbare (f : BitVec 3 → Instr) (w : Word) : Option Instr := need (w.extractLsb' 0 21 == 0#21) (f (gQ w))
/-- Only ga. -/
def gaOnly (f : BitVec 3 → BitVec 7 → Instr) (w : Word) : Option Instr :=
  need (gD w == 0#7 && gB w == 0#7) (f (gQ w) (gA w))
/-- Only gd. -/
def gdOnly (f : BitVec 3 → BitVec 7 → Instr) (w : Word) : Option Instr :=
  need (gK w == 0#14) (f (gQ w) (gD w))
/-- GK. -/
def gk (f : BitVec 3 → BitVec 7 → BitVec 14 → Instr) (w : Word) : Option Instr := some (f (gQ w) (gD w) (gK w))
/-- GK with a selector in gd. -/
def gksel (f : BitVec 3 → BitVec 7 → BitVec 14 → Instr) (w : Word) : Option Instr := gk f w
/-- GK with gd zero. -/
def gknod (f : BitVec 3 → BitVec 14 → Instr) (w : Word) : Option Instr := need (gD w == 0#7) (f (gQ w) (gK w))
/-- gsel (R195). -/
def gselX (w x : Word) : Option Instr :=
  need (x.extractLsb' 4 28 == 0#28) (.gsel (gQ w) (gD w) (gA w) (gB w) (x.extractLsb' 0 4))
/-- gmov (R196). -/
def gmovW (w : Word) : Option Instr := need (!b0 w) (.gmov (gQ w) (gW w) (gS w))
/-- gliw (R196). -/
def gliwX (w x : Word) : Option Instr := need (gS w == 0#10 && !b0 w) (.gliw (gQ w) (gW w) x)
/-- gfma (R197). -/
def gfma (f : BitVec 3 → BitVec 7 → BitVec 7 → BitVec 7 → BitVec 7 → Instr) (w x : Word) : Option Instr :=
  need (x.extractLsb' 7 25 == 0#25) (f (gQ w) (gD w) (gA w) (gB w) (x.extractLsb' 0 7))
/-- gatom (R201). -/
def gatomX (w x : Word) : Option Instr :=
  let sc := x.extractLsb' 29 3
  let ret := x.getLsbD 24
  let u := x.getLsbD 23
  let z := x.extractLsb' 7 16 == 0#16
  let c := x.extractLsb' 0 7
  let q := gQ w; let d := gD w; let a := gA w; let b := gB w
  match (x.extractLsb' 25 4).toNat with
  | 0 => need (z && !u) (.gatomAdd q d a b c sc ret)
  | 1 => need z (.gatomMin q d a b c sc ret u)
  | 2 => need z (.gatomMax q d a b c sc ret u)
  | 3 => need (z && !u) (.gatomAnd q d a b c sc ret)
  | 4 => need (z && !u) (.gatomOr q d a b c sc ret)
  | 5 => need (z && !u) (.gatomXor q d a b c sc ret)
  | 6 => need (z && !u) (.gatomXchg q d a b c sc ret)
  | 7 => need (z && !u) (.gatomCas q d a b c sc ret)
  | _ => none
/-- gtgt GX (R96). -/
def gtgtX (w x : Word) : Option Instr :=
  need (w.extractLsb' 0 15 == 0#15 && x.extractLsb' 0 2 == 0#2)
    (.gtgtGx (gQ w) (w.extractLsb' 19 2) (w.extractLsb' 15 4) (x.extractLsb' 2 30))
/-- gtgt GA (R96). -/
def gtgtA (w : Word) : Option Instr :=
  need (!w.getLsbD 14 && gB w == 0#7) (.gtgtGa (gQ w) (w.extractLsb' 19 2) (w.extractLsb' 15 4) (gA w))
/-- gcall GX: SEQ is 000 (R98). -/
def gcallX (w x : Word) : Option Instr :=
  need (w.extractLsb' 0 24 == 0#24 && x.extractLsb' 0 2 == 0#2) (.gcallGx (x.extractLsb' 2 30))
/-- gcall GA (R203). -/
def gcallA (w : Word) : Option Instr :=
  need (gQ w == 0#3 && gD w == 0#7 && gB w == 0#7) (.gcallGa (gA w))
/-- gend and gend.drop. -/
def gendA (w : Word) : Option Instr :=
  if w.extractLsb' 7 17 == 0#17 then
    if gB w == 0#7 then some .gend else if gB w == 1#7 then some .gendDrop else none
  else none
/-- bcase (R96). -/
def bcaseX (w x : Word) : Option Instr :=
  need (gQ w == 0#3 && w.extractLsb' 0 18 == 0#18 && x.extractLsb' 28 4 == 0#4)
    (.bcase (w.extractLsb' 18 3) (x.extractLsb' 21 7) (x.extractLsb' 14 7) (x.extractLsb' 7 7) (x.extractLsb' 0 7))
/-- mapclr (R205). -/
def mapclrV (w : Word) : Option Instr := need (gD w == 0#7 && gB w == 0#7) (.mapclr (gQ w) (gA w))
/-- fence (R103). -/
def fenceK (w : Word) : Option Instr :=
  need (gD w == 0#7 && w.extractLsb' 3 11 == 0#11) (.fence (gQ w) (w.extractLsb' 0 3))
/-- waitlt (R213). -/
def waitltK (w : Word) : Option Instr :=
  need (w.extractLsb' 17 4 == 0#4) (.waitlt (gQ w) (w.extractLsb' 14 3) (gK w))
/-- ccadd (R213). -/
def ccaddK (w : Word) : Option Instr :=
  need (w.extractLsb' 17 4 == 0#4) (.ccadd (gQ w) (w.extractLsb' 14 3) (gK w))
/-- launch: bits 10:0 are zero (R215). -/
def launchW (w : Word) : Option Instr := need (gC w == 0#3 && gF w == 0#8) (.launch (gQ w) (gW w))
/-- fmove (R217). -/
def fmoveI (w : Word) : Option Instr := ga .fmove w
/-- gsys: the kind in imm14 bits 13:12 (R218). -/
def gsysK (w : Word) : Option Instr :=
  let n := w.extractLsb' 0 12
  if w.extractLsb' 12 2 == 0#2 then some (.gsysRd (gQ w) (gD w) n)
  else if w.extractLsb' 12 2 == 1#2 then some (.gsysWr (gQ w) (gD w) n)
  else if w.extractLsb' 12 2 == 2#2 then some (.gsysCall (gQ w) (gD w) n)
  else none
/-- sret (R103, R220). -/
def sretK (w : Word) : Option Instr :=
  if gQ w == 0#3 && gD w == 0#7 then
    let c := w.extractLsb' 8 6
    let m := w.extractLsb' 0 8
    if m == 2#8 then some (.sretTrap c)
    else if c == 0#6 then (if m == 0#8 then some .sret else if m == 1#8 then some .sretAgain else none)
    else none
  else none
/-- An engine instruction with a block of `b` registers: its flags are zero (R266). -/
def gw (f : BitVec 3 → BitVec 10 → BitVec 3 → Instr) (_b : Nat) (w : Word) : Option Instr :=
  need (gF w == 0#8) (f (gQ w) (gW w) (gC w))
/-- cwp (R287). -/
def cwpA (w : Word) : Option Instr :=
  if gA w == 0#7 then
    if w.extractLsb' 2 5 == 0#5 then some (.cwp (gQ w) (gD w) (w.extractLsb' 0 2))
    else if w.extractLsb' 4 3 == 1#3 then some (.cwpCore (gQ w) (gD w) (w.extractLsb' 2 2) (w.extractLsb' 0 2))
    else none
  else none
/-- cwait (R287). -/
def cwaitA (w : Word) : Option Instr :=
  if gD w == 0#7 then
    if w.extractLsb' 2 5 == 0#5 then some (.cwait (gQ w) (gA w) (w.extractLsb' 0 2))
    else if w.extractLsb' 4 3 == 1#3 then some (.cwaitCore (gQ w) (gA w) (w.extractLsb' 2 2) (w.extractLsb' 0 2))
    else none
  else none
/-- xpost: the ring in flags bits 1:0 (R288). -/
def xpostW (w : Word) : Option Instr :=
  need (w.extractLsb' 2 6 == 0#6) (.xpost (gQ w) (gW w) (gC w) (w.extractLsb' 0 2))
/-- A queue instruction with gd and ga. -/
def gq (f : BitVec 3 → BitVec 7 → BitVec 7 → BitVec 4 → Instr) (w : Word) : Option Instr :=
  need (w.extractLsb' 4 3 == 0#3) (f (gQ w) (gD w) (gA w) (w.extractLsb' 0 4))
/-- A queue instruction with ga alone. -/
def gqa (f : BitVec 3 → BitVec 7 → BitVec 4 → Instr) (w : Word) : Option Instr :=
  need (gD w == 0#7 && w.extractLsb' 4 3 == 0#3) (f (gQ w) (gA w) (w.extractLsb' 0 4))
/-- qtake. -/
def qtakeA (w : Word) : Option Instr := gq .qtake w
/-- qclose. -/
def qcloseA (w : Word) : Option Instr :=
  need (w.extractLsb' 4 17 == 0#17) (.qclose (gQ w) (w.extractLsb' 0 4))

/-! ## The opcode maps (R101, R102) -/

/-- Row 0x00 of R101. -/
def rowL00 (c : Nat) (w x : Word) : Option Instr :=
  match c with
  | 0 => la (.vaddLa false) w
  | 1 => la (.vaddLa true) w
  | 2 => la (.vaddLu false) w
  | 3 => la (.vaddLu true) w
  | 4 => li (.vaddLi false) w
  | 5 => li (.vaddLi true) w
  | 6 => limm (.vaddLx false) w x
  | 7 => limm (.vaddLx true) w x
  | _ => none

/-- Row 0x08 of R101. -/
def rowL08 (c : Nat) (w x : Word) : Option Instr :=
  match c with
  | 0 => la (.vmulLa false) w
  | 1 => la (.vmulLa true) w
  | 2 => la (.vmulLu false) w
  | 3 => la (.vmulLu true) w
  | 4 => li (.vmulLi false) w
  | 5 => li (.vmulLi true) w
  | 6 => limm (.vmulLx false) w x
  | 7 => limm (.vmulLx true) w x
  | _ => none

/-- Row 0x10 of R101. -/
def rowL10 (c : Nat) (w : Word) : Option Instr :=
  match c with
  | 0 => la (.vsubLa false) w
  | 1 => la (.vsubLa true) w
  | 2 => la (.vsubLu false) w
  | 3 => la (.vsubLu true) w
  | 4 => li (.vsubLi false) w
  | 5 => li (.vsubLi true) w
  | 6 => la (.vminLa false) w
  | 7 => la (.vminLa true) w
  | _ => none

/-- Row 0x18 of R101. -/
def rowL18 (c : Nat) (w : Word) : Option Instr :=
  match c with
  | 0 => la (.vminLu false) w
  | 1 => la (.vminLu true) w
  | 2 => li (.vminLi false) w
  | 3 => li (.vminLi true) w
  | 4 => la (.vmaxLa false) w
  | 5 => la (.vmaxLa true) w
  | 6 => la (.vmaxLu false) w
  | 7 => la (.vmaxLu true) w
  | _ => none

/-- Row 0x20 of R101. -/
def rowL20 (c : Nat) (w : Word) : Option Instr :=
  match c with
  | 0 => li (.vmaxLi false) w
  | 1 => li (.vmaxLi true) w
  | 2 => la (.vmulhiLa false) w
  | 3 => la (.vmulhiLa true) w
  | 4 => la (.vmulhiLu false) w
  | 5 => la (.vmulhiLu true) w
  | 6 => la (.vdivLa false) w
  | 7 => la (.vdivLa true) w
  | _ => none

/-- Row 0x28 of R101. -/
def rowL28 (c : Nat) (w x : Word) : Option Instr :=
  match c with
  | 0 => la (.vdivLu false) w
  | 1 => la (.vdivLu true) w
  | 2 => la (.vremLa false) w
  | 3 => la (.vremLa true) w
  | 4 => la (.vremLu false) w
  | 5 => la (.vremLu true) w
  | 6 => lop3 (.vmadVectorC false) (.vmadUniformC false) w x
  | 7 => lop3 (.vmadVectorC true) (.vmadUniformC true) w x
  | _ => none

/-- Row 0x30 of R101. -/
def rowL30 (c : Nat) (w x : Word) : Option Instr :=
  match c with
  | 0 => lop3 (.vclampVectorC false) (.vclampUniformC false) w x
  | 1 => lop3 (.vclampVectorC true) (.vclampUniformC true) w x
  | 2 => lcode [(0, .vabs false), (1, .vneg false), (2, .vsat false)] w
  | 3 => lcode [(0, .vabs true), (1, .vneg true), (2, .vsat true)] w
  | 4 => lcode [(0, .vsqrt false), (1, .vrcp false), (2, .vrsq false), (3, .vexp2 false), (4, .vlog2 false)] w
  | 5 => lcode [(0, .vsqrt true), (1, .vrcp true), (2, .vrsq true), (3, .vexp2 true), (4, .vlog2 true)] w
  | 6 => lsplit false w x
  | 7 => lsplit true w x
  | _ => none

/-- Row 0x38 of R101. -/
def rowL38 (c : Nat) (w x : Word) : Option Instr :=
  match c with
  | 0 => lcvt false w
  | 1 => lcvt true w
  | 2 => la (.vandLa) w
  | 3 => la (.vandLu) w
  | 4 => limm (.vandLx) w x
  | 5 => la (.vorLa) w
  | 6 => la (.vorLu) w
  | 7 => limm (.vorLx) w x
  | _ => none

/-- Row 0x40 of R101. -/
def rowL40 (c : Nat) (w x : Word) : Option Instr :=
  match c with
  | 0 => la (.vxorLa) w
  | 1 => la (.vxorLu) w
  | 2 => limm (.vxorLx) w x
  | 3 => lcode [(0, .vnot)] w
  | 4 => la (.vshlLa) w
  | 5 => li (.vshlLi) w
  | 6 => la (.vshrLa) w
  | 7 => li (.vshrLi) w
  | _ => none

/-- Row 0x48 of R101. -/
def rowL48 (c : Nat) (w x : Word) : Option Instr :=
  match c with
  | 0 => la (.vsraLa) w
  | 1 => li (.vsraLi) w
  | 2 => la (.vrotLa) w
  | 3 => li (.vrotLi) w
  | 4 => lcode [(0, .vpopc), (1, .vclz), (2, .vbrev)] w
  | 5 => lbfx w x
  | 6 => lbfi w x
  | 7 => la (.vmerge) w
  | _ => none

/-- Row 0x50 of R101. -/
def rowL50 (c : Nat) (w x : Word) : Option Instr :=
  match c with
  | 0 => la (.vmask) w
  | 1 => lcode [(0, .vcompress)] w
  | 2 => la (.vexpand) w
  | 3 => lnok .vfillLu w
  | 4 => lfillx w x
  | 5 => la (.vfirstLu) w
  | 6 => li (.vfirstLi) w
  | 7 => llane w
  | _ => none

/-- Row 0x58 of R101. -/
def rowL58 (c : Nat) (w : Word) : Option Instr :=
  match c with
  | 0 => lcode [(0, .vmov)] w
  | 1 => lcode [(0, .vkey)] w
  | 2 => la (.vbcastLu) w
  | 3 => li (.vbcastLi) w
  | 4 => la (.vperm) w
  | 5 => la (.vshflLa) w
  | 6 => lcode [(0, .vscanAdd false), (1, .vscanMin false), (2, .vscanMax false), (8, .vscanAddX false), (9, .vscanMinX false), (10, .vscanMaxX false)] w
  | 7 => lcode [(0, .vscanAdd true), (1, .vscanMin true), (2, .vscanMax true), (8, .vscanAddX true), (9, .vscanMinX true), (10, .vscanMaxX true)] w
  | _ => none

/-- Row 0x60 of R101. -/
def rowL60 (c : Nat) (w : Word) : Option Instr :=
  match c with
  | 0 => li (.vshflLi) w
  | 1 => la (.vpack) w
  | 2 => lunpk w
  | 3 => lland w
  | 4 => la (.vsad false) w
  | 5 => la (.vsad true) w
  | 6 => la (.vavg false) w
  | 7 => la (.vavg true) w
  | _ => none

/-- Row 0x68 of R101. -/
def rowL68 (c : Nat) (w x : Word) : Option Instr :=
  match c with
  | 0 => lnok (.vdot4 false) w
  | 1 => lnok (.vdot4 true) w
  | 2 => lnok (.vdot2 false) w
  | 3 => lnok (.vdot2 true) w
  | 4 => lop3 (.vmed3VectorC false) (.vmed3UniformC false) w x
  | 5 => lop3 (.vmed3VectorC true) (.vmed3UniformC true) w x
  | _ => none

/-- Row 0x70 of R101. -/
def rowL70 (c : Nat) (w x : Word) : Option Instr :=
  match c with
  | 0 => lmLoad .vld w
  | 1 => lmLoad .vldR w
  | 2 => lmStore .vst w
  | 3 => lmLoad .vldwX2 w
  | 4 => lmLoad .vldwX4 w
  | 5 => lmStore .vstwX2 w
  | 6 => lmStore .vstwX4 w
  | 7 => lacq w x
  | _ => none

/-- Row 0x78 of R101. -/
def rowL78 (c : Nat) (w x : Word) : Option Instr :=
  match c with
  | 0 => lrel w x
  | 1 => latom w x
  | 2 => lpref w
  | 3 => lmLoad .vlds w
  | 4 => lmStore .vsts w
  | 5 => lmLoad .vbld w
  | 6 => lmLoad .vldacc w
  | 7 => lmStore .vstacc w
  | _ => none

/-- The fields of an assigned opcode of the L set, or none where a field is must-be-zero or reserved (R104). -/
def decodeL (op : Nat) (w x : Word) : Option Instr :=
  match op / 8 with
  | 0 => rowL00 (op % 8) w x
  | 1 => rowL08 (op % 8) w x
  | 2 => rowL10 (op % 8) w
  | 3 => rowL18 (op % 8) w
  | 4 => rowL20 (op % 8) w
  | 5 => rowL28 (op % 8) w x
  | 6 => rowL30 (op % 8) w x
  | 7 => rowL38 (op % 8) w x
  | 8 => rowL40 (op % 8) w x
  | 9 => rowL48 (op % 8) w x
  | 10 => rowL50 (op % 8) w x
  | 11 => rowL58 (op % 8) w
  | 12 => rowL60 (op % 8) w
  | 13 => rowL68 (op % 8) w x
  | 14 => rowL70 (op % 8) w x
  | 15 => rowL78 (op % 8) w x
  | _ => none

/-- Row 0x00 of R102. -/
def rowG00 (c : Nat) (w : Word) : Option Instr :=
  match c with
  | 0 => ga .gaddGa w
  | 1 => ga .gaddGi w
  | 2 => ga .gsubGa w
  | 3 => ga .gsubGi w
  | 4 => ga .gmulGa w
  | 5 => ga .gmulGi w
  | 6 => ga .gmulhiGa w
  | 7 => ga .gmulhiGi w
  | _ => none

/-- Row 0x08 of R102. -/
def rowG08 (c : Nat) (w : Word) : Option Instr :=
  match c with
  | 0 => ga .gdivGa w
  | 1 => ga .gdivGi w
  | 2 => ga .gandGa w
  | 3 => ga .gandGi w
  | 4 => ga .gorGa w
  | 5 => ga .gorGi w
  | 6 => ga .gxorGa w
  | 7 => ga .gxorGi w
  | _ => none

/-- Row 0x10 of R102. -/
def rowG10 (c : Nat) (w : Word) : Option Instr :=
  match c with
  | 0 => ga .gshlGa w
  | 1 => ga .gshlGi w
  | 2 => ga .gshrGa w
  | 3 => ga .gshrGi w
  | 4 => ga .gsraGa w
  | 5 => ga .gsraGi w
  | 6 => ga .gminGa w
  | 7 => ga .gminGi w
  | _ => none

/-- Row 0x18 of R102. -/
def rowG18 (c : Nat) (w x : Word) : Option Instr :=
  match c with
  | 0 => ga .gmaxGa w
  | 1 => ga .gmaxGi w
  | 2 => gnod .gcmpGa w
  | 3 => gnod .gcmpGi w
  | 4 => gselX w x
  | 5 => gmovW w
  | 6 => gk .gli w
  | 7 => gliwX w x
  | _ => none

/-- Row 0x20 of R102. -/
def rowG20 (c : Nat) (w x : Word) : Option Instr :=
  match c with
  | 0 => ga .gfaddF32 w
  | 1 => ga .gfaddF64 w
  | 2 => ga .gfmulF32 w
  | 3 => ga .gfmulF64 w
  | 4 => gfma .gfmaF32 w x
  | 5 => gfma .gfmaF64 w x
  | 6 => gcode [(0, .gfcvtF64F32), (1, .gfcvtF32F64), (2, .gfcvtF64I64), (3, .gfcvtI64F64), (4, .gfcvtF32I64), (5, .gfcvtI64F32), (6, .gfcvtF64N64), (7, .gfcvtN64F64)] w
  | _ => none

/-- Row 0x28 of R102. -/
def rowG28 (c : Nat) (w x : Word) : Option Instr :=
  match c with
  | 0 => ga .gldGa w
  | 1 => ga .gldGi w
  | 2 => ga .gstGa w
  | 3 => ga .gstGi w
  | 4 => gatomX w x
  | _ => none

/-- Row 0x30 of R102. -/
def rowG30 (c : Nat) (w x : Word) : Option Instr :=
  match c with
  | 0 => gtgtX w x
  | 1 => gtgtA w
  | 2 => gcallX w x
  | 3 => gcallA w
  | 4 => gendA w
  | 5 => bcaseX w x
  | 6 => gbare .gnop w
  | _ => none

/-- Row 0x38 of R102. -/
def rowG38 (c : Nat) (w : Word) : Option Instr :=
  match c with
  | 0 => gcode [(0, .mapcnt)] w
  | 1 => ga5 .mapget w
  | 2 => ga5 .mapset w
  | 3 => mapclrV w
  | 4 => ga5 .gballot w
  | 5 => gcode [(0, .gfirst)] w
  | 6 => gcode [(0, .gredAdd false), (1, .gredMin false), (2, .gredMax false), (3, .gredAnd false), (4, .gredOr false), (5, .gredXor false)] w
  | 7 => gcode [(0, .gredAdd true), (1, .gredMin true), (2, .gredMax true), (3, .gredAnd true), (4, .gredOr true), (5, .gredXor true)] w
  | _ => none

/-- Row 0x40 of R102. -/
def rowG40 (c : Nat) (w : Word) : Option Instr :=
  match c with
  | 0 => gknod .setfmtGk w
  | 1 => gaOnly .setfmtGa w
  | 2 => gdOnly .getfmt w
  | 3 => gksel .grow w
  | 4 => gksel .shrink w
  | 5 => gbare .fbar w
  | 6 => fenceK w
  | 7 => waitltK w
  | _ => none

/-- Row 0x48 of R102. -/
def rowG48 (c : Nat) (w : Word) : Option Instr :=
  match c with
  | 0 => ccaddK w
  | 1 => gcode [(0, .emit)] w
  | 2 => launchW w
  | 3 => gdOnly .phase w
  | 4 => fmoveI w
  | 5 => gsysK w
  | 6 => gknod .gtrap w
  | 7 => gknod .gbrk w
  | _ => none

/-- Row 0x50 of R102. -/
def rowG50 (c : Nat) (w : Word) : Option Instr :=
  match c with
  | 0 => sretK w
  | 1 => gcode [(0, .pwclaim)] w
  | 2 => gdOnly .pwstat w
  | _ => none

/-- Row 0x58 of R102. -/
def rowG58 (c : Nat) (w : Word) : Option Instr :=
  match c with
  | 0 => gw .mma 8 w
  | 1 => gw .mmaJ 8 w
  | 2 => gw .mmaR 8 w
  | 3 => gw .mtrans 8 w
  | 4 => gw .mperm 8 w
  | 5 => gw .mrsum 8 w
  | 6 => gw .mzero 2 w
  | 7 => gw .mdrain 4 w
  | _ => none

/-- Row 0x60 of R102. -/
def rowG60 (c : Nat) (w : Word) : Option Instr :=
  match c with
  | 0 => gbare .mopfence w
  | 1 => gw .wtab 2 w
  | 2 => gw .copy 3 w
  | 3 => cwpA w
  | 4 => cwaitA w
  | 5 => xpostW w
  | 6 => gw .nsend 3 w
  | _ => none

/-- Row 0x68 of R102. -/
def rowG68 (c : Nat) (w : Word) : Option Instr :=
  match c with
  | 0 => gq .qres w
  | 1 => gq .qresTry w
  | 2 => gqa .qpub w
  | 3 => qtakeA w
  | 4 => gqa .qrel w
  | 5 => gqa .qwait w
  | 6 => qcloseA w
  | 7 => gqa .qopen w
  | _ => none

/-- The fields of an assigned opcode of the G set, or none where a field is must-be-zero or reserved (R104). -/
def decodeG (op : Nat) (w x : Word) : Option Instr :=
  match op / 8 with
  | 0 => rowG00 (op % 8) w
  | 1 => rowG08 (op % 8) w
  | 2 => rowG10 (op % 8) w
  | 3 => rowG18 (op % 8) w x
  | 4 => rowG20 (op % 8) w x
  | 5 => rowG28 (op % 8) w x
  | 6 => rowG30 (op % 8) w x
  | 7 => rowG38 (op % 8) w
  | 8 => rowG40 (op % 8) w
  | 9 => rowG48 (op % 8) w
  | 10 => rowG50 (op % 8) w
  | 11 => rowG58 (op % 8) w
  | 12 => rowG60 (op % 8) w
  | 13 => rowG68 (op % 8) w
  | _ => none

/-- The fields of the words, or none where a must-be-zero field is not zero or a field holds a reserved value. -/
def decodeFields (w x : Word) : Option Instr :=
  match (if isG w then decodeG (op7 w).toNat w x else decodeL (op7 w).toNat w x) with
  | some i => if i.wf then some i else none
  | none => none

/-- The decoder on a first word and the word after it (which a one-word instruction does not read): the checks of R106
in its order. An instruction of an absent group is known by name, so that its row has its meaning: a stray. -/
def decode (w x : Word) : Except Reject Instr :=
  let g := isG w
  let op := (op7 w).toNat
  if opUndefined g op then .error .undefinedOpcode
  else if opReserved g op then .error .reservedOpcode
  else
    match decodeFields w x with
    | some i => .ok i
    | none =>
      if opGroup g op != 0 && !Config.groupPresent (opGroup g op) then .error (.absentCapability (opGroup g op))
      else .error .reservedField

/-- The stray that issue of the words raises (R106), none where they are an instruction of the part. -/
def strayOf (w x : Word) : Option Reject :=
  let g := isG w
  let op := (op7 w).toNat
  if opUndefined g op then some .undefinedOpcode
  else if opReserved g op then some .reservedOpcode
  else if opGroup g op != 0 && !Config.groupPresent (opGroup g op) then some (.absentCapability (opGroup g op))
  else if (decodeFields w x).isNone then some .reservedField
  else none

/-! ## Bytes (R5, R89: little-endian words, the first at the lower address) -/

/-- The word of four bytes, the first lowest. -/
def wordOfBytes (a b c d : Byte) : Word := d ++ c ++ b ++ a

/-- The bytes of a word, the lowest first. -/
def bytesOfWord (w : Word) : List Byte :=
  [w.extractLsb' 0 8, w.extractLsb' 8 8, w.extractLsb' 16 8, w.extractLsb' 24 8]

/-- The decoder on bytes: the instruction and what follows it. Fewer bytes than the opcode's length decode to nothing. -/
def decodeBytes : List Byte → Option (Except Reject Instr × List Byte)
  | a :: b :: c :: d :: rest =>
    let w := wordOfBytes a b c d
    if isPair w then
      match rest with
      | e :: f :: g :: h :: rest' => some (decode w (wordOfBytes e f g h), rest')
      | _ => none
    else some (decode w 0#32, rest)
  | _ => none

/-- The instruction whose bits, numbered as the opcode table numbers them, are `w`. -/
def decodeTableWord (_nbits w : Nat) : Option Instr :=
  match decodeBytes (bytesOfWord (wordOfNat w) ++ bytesOfWord (wordOfNat (w >>> 32))) with
  | some (.ok i, _) => some i
  | _ => none

/-! ## The encoder (R91, R93, R96) -/

/-- The P or S variant of a generic opcode (R99): the S variant is the odd one. -/
def ps (op : BitVec 7) (sv : Bool) : BitVec 7 := if sv then op + 1#7 else op
/-- LA, LU and LM: op7 31:24, vd 23:17, va 16:10, vb 9:3, three bits. -/
def packLA (op d a b : BitVec 7) (x y z : Bool) : Word :=
  wordOfNat (op.toNat * 2 ^ 24 + d.toNat * 2 ^ 17 + a.toNat * 2 ^ 10 + b.toNat * 2 ^ 3 + x.toNat * 4 + y.toNat * 2 + z.toNat)
/-- LI. -/
def packLI (op d a : BitVec 7) (wa k : Bool) (i : BitVec 8) : Word :=
  wordOfNat (op.toNat * 2 ^ 24 + d.toNat * 2 ^ 17 + a.toNat * 2 ^ 10 + wa.toNat * 2 ^ 9 + k.toNat * 2 ^ 8 + i.toNat)
/-- Bits 31:21 of a G word: the set, op7, SEQ. -/
def packHi (op : BitVec 7) (q : BitVec 3) : Nat := 2 ^ 31 + op.toNat * 2 ^ 24 + q.toNat * 2 ^ 21
/-- GA, GI and GV. -/
def packG (op : BitVec 7) (q : BitVec 3) (d a b : BitVec 7) : Word :=
  wordOfNat (packHi op q + d.toNat * 2 ^ 14 + a.toNat * 2 ^ 7 + b.toNat)
/-- GK. -/
def packGK (op : BitVec 7) (q : BitVec 3) (d : BitVec 7) (i : BitVec 14) : Word :=
  wordOfNat (packHi op q + d.toNat * 2 ^ 14 + i.toNat)
/-- GW. -/
def packGW (op : BitVec 7) (q : BitVec 3) (g : BitVec 10) (c : BitVec 3) (f : BitVec 8) : Word :=
  wordOfNat (packHi op q + g.toNat * 2 ^ 11 + c.toNat * 2 ^ 8 + f.toNat)
/-- gmov and gliw: bit 0 is zero. -/
def packGmov (op : BitVec 7) (q : BitVec 3) (d s : BitVec 10) : Word :=
  wordOfNat (packHi op q + d.toNat * 2 ^ 11 + s.toNat * 2)
/-- gtgt: slot, condition, bit 14 zero, ga, gb zero. -/
def packTgt (op : BitVec 7) (q : BitVec 3) (s : BitVec 2) (c : BitVec 4) (a : BitVec 7) : Word :=
  wordOfNat (packHi op q + s.toNat * 2 ^ 19 + c.toNat * 2 ^ 15 + a.toNat * 2 ^ 7)
/-- OP3. -/
def extOp3 (kind : BitVec 2) (c : BitVec 7) (wc : Bool) : Word :=
  wordOfNat (kind.toNat * 2 ^ 30 + c.toNat * 2 ^ 23 + wc.toNat * 2 ^ 22)
/-- CMP. -/
def extCmp (cond : BitVec 4) (kind : BitVec 2) (i : BitVec 26) : Word :=
  wordOfNat (cond.toNat * 2 ^ 28 + kind.toNat * 2 ^ 26 + i.toNat)
/-- BF. -/
def extBf (pos : BitVec 5) (len : BitVec 6) : Word := wordOfNat (pos.toNat * 2 ^ 27 + len.toNat * 2 ^ 21)
/-- ORD. -/
def extOrd (sc : BitVec 3) : Word := wordOfNat (sc.toNat * 2 ^ 29)
/-- ATOM. -/
def extAtom (sc : BitVec 3) (op : BitVec 4) (ret u : Bool) : Word :=
  wordOfNat (sc.toNat * 2 ^ 29 + op.toNat * 2 ^ 25 + ret.toNat * 2 ^ 24 + u.toNat * 2 ^ 23)
/-- The extension of gatom. -/
def extGatom (sc : BitVec 3) (op : BitVec 4) (ret u : Bool) (c : BitVec 7) : Word :=
  wordOfNat (sc.toNat * 2 ^ 29 + op.toNat * 2 ^ 25 + ret.toNat * 2 ^ 24 + u.toNat * 2 ^ 23 + c.toNat)
/-- The extension of bcase. -/
def extCase (g0 g1 g2 g3 : BitVec 7) : Word :=
  wordOfNat (g0.toNat * 2 ^ 21 + g1.toNat * 2 ^ 14 + g2.toNat * 2 ^ 7 + g3.toNat)

/-- The words of an instruction, the first at the lower address; an agent's move has none. -/
def encode : Instr → List Word
  | .vaddLa sv d a b wa wb k => [packLA (ps 0x00#7 sv) d a b wa wb k]
  | .vaddLu sv d a g wa wb k => [packLA (ps 0x02#7 sv) d a g wa wb k]
  | .vaddLi sv d a wa k i => [packLI (ps 0x04#7 sv) d a wa k i]
  | .vaddLx sv d a wa k i => [packLA (ps 0x06#7 sv) d a 0#7 wa false k, i]
  | .vmulLa sv d a b wa wb k => [packLA (ps 0x08#7 sv) d a b wa wb k]
  | .vmulLu sv d a g wa wb k => [packLA (ps 0x0A#7 sv) d a g wa wb k]
  | .vmulLi sv d a wa k i => [packLI (ps 0x0C#7 sv) d a wa k i]
  | .vmulLx sv d a wa k i => [packLA (ps 0x0E#7 sv) d a 0#7 wa false k, i]
  | .vsubLa sv d a b wa wb k => [packLA (ps 0x10#7 sv) d a b wa wb k]
  | .vsubLu sv d a g wa wb k => [packLA (ps 0x12#7 sv) d a g wa wb k]
  | .vsubLi sv d a wa k i => [packLI (ps 0x14#7 sv) d a wa k i]
  | .vminLa sv d a b wa wb k => [packLA (ps 0x16#7 sv) d a b wa wb k]
  | .vminLu sv d a g wa wb k => [packLA (ps 0x18#7 sv) d a g wa wb k]
  | .vminLi sv d a wa k i => [packLI (ps 0x1A#7 sv) d a wa k i]
  | .vmaxLa sv d a b wa wb k => [packLA (ps 0x1C#7 sv) d a b wa wb k]
  | .vmaxLu sv d a g wa wb k => [packLA (ps 0x1E#7 sv) d a g wa wb k]
  | .vmaxLi sv d a wa k i => [packLI (ps 0x20#7 sv) d a wa k i]
  | .vmulhiLa sv d a b wa wb k => [packLA (ps 0x22#7 sv) d a b wa wb k]
  | .vmulhiLu sv d a g wa wb k => [packLA (ps 0x24#7 sv) d a g wa wb k]
  | .vdivLa sv d a b wa wb k => [packLA (ps 0x26#7 sv) d a b wa wb k]
  | .vdivLu sv d a g wa wb k => [packLA (ps 0x28#7 sv) d a g wa wb k]
  | .vremLa sv d a b wa wb k => [packLA (ps 0x2A#7 sv) d a b wa wb k]
  | .vremLu sv d a g wa wb k => [packLA (ps 0x2C#7 sv) d a g wa wb k]
  | .vmadVectorC sv d a b wa wb k c wc => [packLA (ps 0x2E#7 sv) d a b wa wb k, extOp3 0#2 c wc]
  | .vmadUniformC sv d a b wa wb k c wc => [packLA (ps 0x2E#7 sv) d a b wa wb k, extOp3 1#2 c wc]
  | .vclampVectorC sv d a b wa wb k c wc => [packLA (ps 0x30#7 sv) d a b wa wb k, extOp3 0#2 c wc]
  | .vclampUniformC sv d a b wa wb k c wc => [packLA (ps 0x30#7 sv) d a b wa wb k, extOp3 1#2 c wc]
  | .vabs sv d a wa k => [packLA (ps 0x32#7 sv) d a 0#7 wa false k]
  | .vneg sv d a wa k => [packLA (ps 0x32#7 sv) d a 1#7 wa false k]
  | .vsat sv d a wa k => [packLA (ps 0x32#7 sv) d a 2#7 wa false k]
  | .vandLa d a b wa wb k => [packLA 0x3A#7 d a b wa wb k]
  | .vandLu d a g wa wb k => [packLA 0x3B#7 d a g wa wb k]
  | .vandLx d a wa k i => [packLA 0x3C#7 d a 0#7 wa false k, i]
  | .vorLa d a b wa wb k => [packLA 0x3D#7 d a b wa wb k]
  | .vorLu d a g wa wb k => [packLA 0x3E#7 d a g wa wb k]
  | .vorLx d a wa k i => [packLA 0x3F#7 d a 0#7 wa false k, i]
  | .vxorLa d a b wa wb k => [packLA 0x40#7 d a b wa wb k]
  | .vxorLu d a g wa wb k => [packLA 0x41#7 d a g wa wb k]
  | .vxorLx d a wa k i => [packLA 0x42#7 d a 0#7 wa false k, i]
  | .vnot d a wa k => [packLA 0x43#7 d a 0#7 wa false k]
  | .vshlLa d a b wa wb k => [packLA 0x44#7 d a b wa wb k]
  | .vshlLi d a wa k i => [packLI 0x45#7 d a wa k i]
  | .vshrLa d a b wa wb k => [packLA 0x46#7 d a b wa wb k]
  | .vshrLi d a wa k i => [packLI 0x47#7 d a wa k i]
  | .vsraLa d a b wa wb k => [packLA 0x48#7 d a b wa wb k]
  | .vsraLi d a wa k i => [packLI 0x49#7 d a wa k i]
  | .vrotLa d a b wa wb k => [packLA 0x4A#7 d a b wa wb k]
  | .vrotLi d a wa k i => [packLI 0x4B#7 d a wa k i]
  | .vpopc d a wa k => [packLA 0x4C#7 d a 0#7 wa false k]
  | .vclz d a wa k => [packLA 0x4C#7 d a 1#7 wa false k]
  | .vbrev d a wa k => [packLA 0x4C#7 d a 2#7 wa false k]
  | .vbfx d a wa k pos len => [packLA 0x4D#7 d a 0#7 wa false k, extBf pos len]
  | .vbfi d a b wa wb k pos len => [packLA 0x4E#7 d a b wa wb k, extBf pos len]
  | .vsqrt sv d a wa k => [packLA (ps 0x34#7 sv) d a 0#7 wa false k]
  | .vrcp sv d a wa k => [packLA (ps 0x34#7 sv) d a 1#7 wa false k]
  | .vrsq sv d a wa k => [packLA (ps 0x34#7 sv) d a 2#7 wa false k]
  | .vexp2 sv d a wa k => [packLA (ps 0x34#7 sv) d a 3#7 wa false k]
  | .vlog2 sv d a wa k => [packLA (ps 0x34#7 sv) d a 4#7 wa false k]
  | .vcvt sv d a t wa k => [packLA (ps 0x38#7 sv) d a t wa false k]
  | .vpack d a b wa wb k => [packLA 0x61#7 d a b wa wb k]
  | .vunpk d a e t wa k => [packLA 0x62#7 d a (BitVec.ofNat 7 (e.toNat * 16 + t.toNat)) wa false k]
  | .vsplitVector sv d a b wa wb k cond => [packLA (ps 0x36#7 sv) d a b wa wb k, extCmp cond 0#2 0#26]
  | .vsplitUniform sv d a g wa wb k cond => [packLA (ps 0x36#7 sv) d a g wa wb k, extCmp cond 1#2 0#26]
  | .vsplitImmediate sv d a wa k cond i => [packLA (ps 0x36#7 sv) d a 0#7 wa false k, extCmp cond 2#2 i]
  | .vmerge d a b wa wb k => [packLA 0x4F#7 d a b wa wb k]
  | .vmask d a b wa wb k => [packLA 0x50#7 d a b wa wb k]
  | .vcompress d a wa k => [packLA 0x51#7 d a 0#7 wa false k]
  | .vexpand d a b wa wb k => [packLA 0x52#7 d a b wa wb k]
  | .vfillLu d a g wa wb => [packLA 0x53#7 d a g wa wb false]
  | .vfillLx d a wa i => [packLA 0x54#7 d a 0#7 wa false false, i]
  | .vfirstLu d a g wa wb k => [packLA 0x55#7 d a g wa wb k]
  | .vfirstLi d a wa k n => [packLI 0x56#7 d a wa k n]
  | .vlane d => [packLA 0x57#7 d 0#7 0#7 false false false]
  | .vmov d a wa k => [packLA 0x58#7 d a 0#7 wa false k]
  | .vkey d a wa k => [packLA 0x59#7 d a 0#7 wa false k]
  | .vbcastLu d a g wa wb k => [packLA 0x5A#7 d a g wa wb k]
  | .vbcastLi d a wa k n => [packLI 0x5B#7 d a wa k n]
  | .vperm d a b wa wb k => [packLA 0x5C#7 d a b wa wb k]
  | .vshflLa d a b wa wb k => [packLA 0x5D#7 d a b wa wb k]
  | .vshflLi d a wa k n => [packLI 0x60#7 d a wa k n]
  | .vscanAdd sv d a wa k => [packLA (ps 0x5E#7 sv) d a 0#7 wa false k]
  | .vscanMin sv d a wa k => [packLA (ps 0x5E#7 sv) d a 1#7 wa false k]
  | .vscanMax sv d a wa k => [packLA (ps 0x5E#7 sv) d a 2#7 wa false k]
  | .vscanAddX sv d a wa k => [packLA (ps 0x5E#7 sv) d a 8#7 wa false k]
  | .vscanMinX sv d a wa k => [packLA (ps 0x5E#7 sv) d a 9#7 wa false k]
  | .vscanMaxX sv d a wa k => [packLA (ps 0x5E#7 sv) d a 10#7 wa false k]
  | .vsad sv d a b wa wb k => [packLA (ps 0x64#7 sv) d a b wa wb k]
  | .vavg sv d a b wa wb k => [packLA (ps 0x66#7 sv) d a b wa wb k]
  | .vdot4 sv d a b wa wb => [packLA (ps 0x68#7 sv) d a b wa wb false]
  | .vdot2 sv d a b wa wb => [packLA (ps 0x6A#7 sv) d a b wa wb false]
  | .vmed3VectorC sv d a b wa wb k c wc => [packLA (ps 0x6C#7 sv) d a b wa wb k, extOp3 0#2 c wc]
  | .vmed3UniformC sv d a b wa wb k c wc => [packLA (ps 0x6C#7 sv) d a b wa wb k, extOp3 1#2 c wc]
  | .vland d g wb => [packLA 0x63#7 d 0#7 g false wb false]
  | .vld d i g wa k => [packLA 0x70#7 d i g wa false k]
  | .vldR d i g wa k => [packLA 0x71#7 d i g wa false k]
  | .vst s i g wa wb => [packLA 0x72#7 s i g wa wb false]
  | .vldwX2 d i g wa k => [packLA 0x73#7 d i g wa false k]
  | .vldwX4 d i g wa k => [packLA 0x74#7 d i g wa false k]
  | .vstwX2 s i g wa wb => [packLA 0x75#7 s i g wa wb false]
  | .vstwX4 s i g wa wb => [packLA 0x76#7 s i g wa wb false]
  | .vldAcq d i g wa k sc => [packLA 0x77#7 d i g wa false k, extOrd sc]
  | .vstRel s i g wa wb sc => [packLA 0x78#7 s i g wa wb false, extOrd sc]
  | .vatomAdd s i g wa wb k sc ret => [packLA 0x79#7 s i g wa wb k, extAtom sc 0#4 ret false]
  | .vatomMin s i g wa wb k sc ret u => [packLA 0x79#7 s i g wa wb k, extAtom sc 1#4 ret u]
  | .vatomMax s i g wa wb k sc ret u => [packLA 0x79#7 s i g wa wb k, extAtom sc 2#4 ret u]
  | .vatomAnd s i g wa wb k sc ret => [packLA 0x79#7 s i g wa wb k, extAtom sc 3#4 ret false]
  | .vatomOr s i g wa wb k sc ret => [packLA 0x79#7 s i g wa wb k, extAtom sc 4#4 ret false]
  | .vatomXor s i g wa wb k sc ret => [packLA 0x79#7 s i g wa wb k, extAtom sc 5#4 ret false]
  | .vatomXchg s i g wa wb k sc ret => [packLA 0x79#7 s i g wa wb k, extAtom sc 6#4 ret false]
  | .vatomCas s i g wa wb k sc ret => [packLA 0x79#7 s i g wa wb k, extAtom sc 7#4 ret false]
  | .vpref i g wa => [packLA 0x7A#7 0#7 i g wa false false]
  | .vlds d i g wa k => [packLA 0x7B#7 d i g wa false k]
  | .vsts s i g wa wb => [packLA 0x7C#7 s i g wa wb false]
  | .vbld d i g wa k => [packLA 0x7D#7 d i g wa false k]
  | .vldacc d i g wa k => [packLA 0x7E#7 d i g wa false k]
  | .vstacc s i g wa wb => [packLA 0x7F#7 s i g wa wb false]
  | .gaddGa sq d a b => [packG 0x00#7 sq d a b]
  | .gaddGi sq d a i => [packG 0x01#7 sq d a i]
  | .gsubGa sq d a b => [packG 0x02#7 sq d a b]
  | .gsubGi sq d a i => [packG 0x03#7 sq d a i]
  | .gmulGa sq d a b => [packG 0x04#7 sq d a b]
  | .gmulGi sq d a i => [packG 0x05#7 sq d a i]
  | .gmulhiGa sq d a b => [packG 0x06#7 sq d a b]
  | .gmulhiGi sq d a i => [packG 0x07#7 sq d a i]
  | .gdivGa sq d a b => [packG 0x08#7 sq d a b]
  | .gdivGi sq d a i => [packG 0x09#7 sq d a i]
  | .gandGa sq d a b => [packG 0x0A#7 sq d a b]
  | .gandGi sq d a i => [packG 0x0B#7 sq d a i]
  | .gorGa sq d a b => [packG 0x0C#7 sq d a b]
  | .gorGi sq d a i => [packG 0x0D#7 sq d a i]
  | .gxorGa sq d a b => [packG 0x0E#7 sq d a b]
  | .gxorGi sq d a i => [packG 0x0F#7 sq d a i]
  | .gshlGa sq d a b => [packG 0x10#7 sq d a b]
  | .gshlGi sq d a i => [packG 0x11#7 sq d a i]
  | .gshrGa sq d a b => [packG 0x12#7 sq d a b]
  | .gshrGi sq d a i => [packG 0x13#7 sq d a i]
  | .gsraGa sq d a b => [packG 0x14#7 sq d a b]
  | .gsraGi sq d a i => [packG 0x15#7 sq d a i]
  | .gminGa sq d a b => [packG 0x16#7 sq d a b]
  | .gminGi sq d a i => [packG 0x17#7 sq d a i]
  | .gmaxGa sq d a b => [packG 0x18#7 sq d a b]
  | .gmaxGi sq d a i => [packG 0x19#7 sq d a i]
  | .gcmpGa sq a b => [packG 0x1A#7 sq 0#7 a b]
  | .gcmpGi sq a i => [packG 0x1B#7 sq 0#7 a i]
  | .gsel sq d a b cond => [packG 0x1C#7 sq d a b, cond.setWidth 32]
  | .gmov sq d s => [packGmov 0x1D#7 sq d s]
  | .gli sq d i => [packGK 0x1E#7 sq d i]
  | .gliw sq d i => [packGmov 0x1F#7 sq d 0#10, i]
  | .gfaddF32 sq d a b => [packG 0x20#7 sq d a b]
  | .gfaddF64 sq d a b => [packG 0x21#7 sq d a b]
  | .gfmulF32 sq d a b => [packG 0x22#7 sq d a b]
  | .gfmulF64 sq d a b => [packG 0x23#7 sq d a b]
  | .gfmaF32 sq d a b c => [packG 0x24#7 sq d a b, c.setWidth 32]
  | .gfmaF64 sq d a b c => [packG 0x25#7 sq d a b, c.setWidth 32]
  | .gfcvtF64F32 sq d a => [packG 0x26#7 sq d a 0#7]
  | .gfcvtF32F64 sq d a => [packG 0x26#7 sq d a 1#7]
  | .gfcvtF64I64 sq d a => [packG 0x26#7 sq d a 2#7]
  | .gfcvtI64F64 sq d a => [packG 0x26#7 sq d a 3#7]
  | .gfcvtF32I64 sq d a => [packG 0x26#7 sq d a 4#7]
  | .gfcvtI64F32 sq d a => [packG 0x26#7 sq d a 5#7]
  | .gfcvtF64N64 sq d a => [packG 0x26#7 sq d a 6#7]
  | .gfcvtN64F64 sq d a => [packG 0x26#7 sq d a 7#7]
  | .gldGa sq d a b => [packG 0x28#7 sq d a b]
  | .gldGi sq d a i => [packG 0x29#7 sq d a i]
  | .gstGa sq s a b => [packG 0x2A#7 sq s a b]
  | .gstGi sq s a i => [packG 0x2B#7 sq s a i]
  | .gatomAdd sq d a b c sc ret => [packG 0x2C#7 sq d a b, extGatom sc 0#4 ret false c]
  | .gatomMin sq d a b c sc ret u => [packG 0x2C#7 sq d a b, extGatom sc 1#4 ret u c]
  | .gatomMax sq d a b c sc ret u => [packG 0x2C#7 sq d a b, extGatom sc 2#4 ret u c]
  | .gatomAnd sq d a b c sc ret => [packG 0x2C#7 sq d a b, extGatom sc 3#4 ret false c]
  | .gatomOr sq d a b c sc ret => [packG 0x2C#7 sq d a b, extGatom sc 4#4 ret false c]
  | .gatomXor sq d a b c sc ret => [packG 0x2C#7 sq d a b, extGatom sc 5#4 ret false c]
  | .gatomXchg sq d a b c sc ret => [packG 0x2C#7 sq d a b, extGatom sc 6#4 ret false c]
  | .gatomCas sq d a b c sc ret => [packG 0x2C#7 sq d a b, extGatom sc 7#4 ret false c]
  | .gtgtGx sq s cond off => [packTgt 0x30#7 sq s cond 0#7, wordOfNat (off.toNat * 4)]
  | .gtgtGa sq s c a => [packTgt 0x31#7 sq s c a]
  | .gcallGx off => [packG 0x32#7 0#3 0#7 0#7 0#7, wordOfNat (off.toNat * 4)]
  | .gcallGa a => [packG 0x33#7 0#3 0#7 a 0#7]
  | .gend => [packG 0x34#7 0#3 0#7 0#7 0#7]
  | .gendDrop => [packG 0x34#7 0#3 0#7 0#7 1#7]
  | .bcase n g0 g1 g2 g3 => [packGK 0x35#7 0#3 (BitVec.ofNat 7 (n.toNat * 16)) 0#14, extCase g0 g1 g2 g3]
  | .gnop sq => [packG 0x36#7 sq 0#7 0#7 0#7]
  | .mapcnt sq d a => [packG 0x38#7 sq d a 0#7]
  | .mapget sq d a k => [packG 0x39#7 sq d a k]
  | .mapset sq s a k => [packG 0x3A#7 sq s a k]
  | .mapclr sq a => [packG 0x3B#7 sq 0#7 a 0#7]
  | .gballot sq d a n => [packG 0x3C#7 sq d a n]
  | .gfirst sq d a => [packG 0x3D#7 sq d a 0#7]
  | .gredAdd sv sq d a => [packG (ps 0x3E#7 sv) sq d a 0#7]
  | .gredMin sv sq d a => [packG (ps 0x3E#7 sv) sq d a 1#7]
  | .gredMax sv sq d a => [packG (ps 0x3E#7 sv) sq d a 2#7]
  | .gredAnd sv sq d a => [packG (ps 0x3E#7 sv) sq d a 3#7]
  | .gredOr sv sq d a => [packG (ps 0x3E#7 sv) sq d a 4#7]
  | .gredXor sv sq d a => [packG (ps 0x3E#7 sv) sq d a 5#7]
  | .setfmtGk sq i => [packGK 0x40#7 sq 0#7 i]
  | .setfmtGa sq a => [packG 0x41#7 sq 0#7 a 0#7]
  | .getfmt sq d => [packG 0x42#7 sq d 0#7 0#7]
  | .grow sq s n => [packGK 0x43#7 sq s n]
  | .shrink sq s n => [packGK 0x44#7 sq s n]
  | .fbar sq => [packG 0x45#7 sq 0#7 0#7 0#7]
  | .fence sq s => [packGK 0x46#7 sq 0#7 (s.setWidth 14)]
  | .waitlt sq c n => [packGK 0x47#7 sq (c.setWidth 7) n]
  | .ccadd sq c n => [packGK 0x48#7 sq (c.setWidth 7) n]
  | .emit sq d a => [packG 0x49#7 sq d a 0#7]
  | .launch sq g => [packGW 0x4A#7 sq g 0#3 0#8]
  | .phase sq d => [packG 0x4B#7 sq d 0#7 0#7]
  | .fmove sq d a m => [packG 0x4C#7 sq d a m]
  | .gsysRd sq d n => [packGK 0x4D#7 sq d (n.setWidth 14)]
  | .gsysWr sq s n => [packGK 0x4D#7 sq s (BitVec.ofNat 14 (4096 + n.toNat))]
  | .gsysCall sq d n => [packGK 0x4D#7 sq d (BitVec.ofNat 14 (8192 + n.toNat))]
  | .gtrap sq c => [packGK 0x4E#7 sq 0#7 c]
  | .gbrk sq c => [packGK 0x4F#7 sq 0#7 c]
  | .sret => [packGK 0x50#7 0#3 0#7 0#14]
  | .sretAgain => [packGK 0x50#7 0#3 0#7 1#14]
  | .sretTrap c => [packGK 0x50#7 0#3 0#7 (BitVec.ofNat 14 (c.toNat * 256 + 2))]
  | .pwclaim sq d a => [packG 0x51#7 sq d a 0#7]
  | .pwstat sq d => [packG 0x52#7 sq d 0#7 0#7]
  | .mma sq g c => [packGW 0x58#7 sq g c 0#8]
  | .mmaJ sq g c => [packGW 0x59#7 sq g c 0#8]
  | .mmaR sq g c => [packGW 0x5A#7 sq g c 0#8]
  | .mtrans sq g c => [packGW 0x5B#7 sq g c 0#8]
  | .mperm sq g c => [packGW 0x5C#7 sq g c 0#8]
  | .mrsum sq g c => [packGW 0x5D#7 sq g c 0#8]
  | .mzero sq g c => [packGW 0x5E#7 sq g c 0#8]
  | .mdrain sq g c => [packGW 0x5F#7 sq g c 0#8]
  | .mopfence sq => [packG 0x60#7 sq 0#7 0#7 0#7]
  | .wtab sq g c => [packGW 0x61#7 sq g c 0#8]
  | .copy sq g c => [packGW 0x62#7 sq g c 0#8]
  | .cwp sq d n => [packG 0x63#7 sq d 0#7 (n.setWidth 7)]
  | .cwpCore sq d c n => [packG 0x63#7 sq d 0#7 (BitVec.ofNat 7 (16 + c.toNat * 4 + n.toNat))]
  | .cwait sq a n => [packG 0x64#7 sq 0#7 a (n.setWidth 7)]
  | .cwaitCore sq a c n => [packG 0x64#7 sq 0#7 a (BitVec.ofNat 7 (16 + c.toNat * 4 + n.toNat))]
  | .xpost sq g c r => [packGW 0x65#7 sq g c (r.setWidth 8)]
  | .nsend sq g c => [packGW 0x66#7 sq g c 0#8]
  | .qres sq d a n => [packG 0x68#7 sq d a (n.setWidth 7)]
  | .qresTry sq d a n => [packG 0x69#7 sq d a (n.setWidth 7)]
  | .qpub sq a n => [packG 0x6A#7 sq 0#7 a (n.setWidth 7)]
  | .qtake sq d a n => [packG 0x6B#7 sq d a (n.setWidth 7)]
  | .qrel sq a n => [packG 0x6C#7 sq 0#7 a (n.setWidth 7)]
  | .qwait sq a n => [packG 0x6D#7 sq 0#7 a (n.setWidth 7)]
  | .qclose sq n => [packG 0x6E#7 sq 0#7 0#7 (n.setWidth 7)]
  | .qopen sq a n => [packG 0x6F#7 sq 0#7 a (n.setWidth 7)]
  | .stray ..
  | .haltArrival ..
  | .faultRunWrite ..
  | .instructionComplete ..
  | .loadLineArrival ..
  | .issueSelect ..
  | .swapToPending ..
  | .slotSpill ..
  | .spillRestore ..
  | .teamEnd ..
  | .foldEnd ..
  | .queueRelease ..
  | .fmoveTransfer ..
  | .coalescerLaunch ..
  | .jobFlushLaunch ..
  | .streamHeaderRead ..
  | .sliceGrant ..
  | .streamDecode ..
  | .sliceComplete ..
  | .mzeroComplete ..
  | .mdrainComplete ..
  | .wtabLoadComplete ..
  | .copyLineDeliver ..
  | .copyComplete ..
  | .engineFault ..
  | .blockMerge ..
  | .decodedBlockEncode ..
  | .shearerTakeRequest ..
  | .shearerConvert ..
  | .shearerRetile ..
  | .shearerDeflateDecode ..
  | .shearerFp64Encode ..
  | .shearerFp64Decode ..
  | .shearerWeightStreamEncode ..
  | .shearerNvmeRead ..
  | .shearerCompletion ..
  | .cellTransmit ..
  | .cellRetransmit ..
  | .cellReceive ..
  | .ackReceive ..
  | .rowAbandon ..
  | .bounceRingReplay ..
  | .portEnable ..
  | .dropClear ..
  | .fecuClear ..
  | .linkUp ..
  | .linkDown ..
  | .uncorrectableCodeword ..
  | .intervalBoundary ..
  | .permitsExhausted ..
  | .fallEnd ..
  | .permitRefill ..
  | .voltageReached ..
  | .marginWindowEnd ..
  | .marginHoldEnd ..
  | .marginEvent ..
  | .uncorrectableMemoryError ..
  | .sensorSuspect ..
  | .sensorHealthy ..
  | .foldWatchdog ..
  | .doorbellWrite ..
  | .packetRead ..
  | .dependenceTest
  | .jobDispatch ..
  | .foldAdmit ..
  | .foldReservation ..
  | .jobComplete ..
  | .jobFail ..
  | .victimStop ..
  | .victimMigrate ..
  | .foldSave ..
  | .foldRestore ..
  | .vacateComplete
  | .syscallAnswer ..
  | .assignContext ..
  | .releaseContext ..
  | .writeDescriptorField ..
  | .foldResume ..
  | .foldReplay ..
  | .foldKill ..
  | .vacate ..
  | .invalidate ..
  | .mapQueueName ..
  | .replayBounceRing ..
  | .replayGo ..
  | .tinv0Go ..
  | .tlbInvalidationComplete
  | .faultQueueHeadWrite ..
  | .registerWrite ..
  | .functionLevelReset ..
  | .bringUp ..
  | .externalDebugHalt ..
  | .pldmPlatformMonitoring ..
  | .pldmFirmwareUpdate ..
  | .getVersion
  | .getCapabilities
  | .negotiateAlgorithms ..
  | .getDigests
  | .getCertificate ..
  | .challenge ..
  | .getMeasurements ..
  | .blackBoxRead ..
  | .blackBoxUnfreeze
  | .configurationRequest ..
  | .hostMemoryWrite ..
  | .fatalUnclassified .. => []
/-- The words of a pair as the stray sees them: the second is zero for a one-word instruction (R107). -/
def rawWords (i : Instr) : Word × Word :=
  match encode i with
  | [w] => (w, 0#32)
  | [w, x] => (w, x)
  | _ => (0#32, 0#32)

end Sys2Proof
end

