-- ==== Sys2Proof/Machine/Operands.lean ====
section
/-!
DEFINITION. Sys2Proof/Machine/Operands.lean: lane types, their elements, immediates and uniform operands (R32, R95,
R114, R117), and the function each generic lane instruction applies to one lane (05_lane_compute). A lane value is a
natural number: 32 bits, or 64 bits for the types that take a register pair (R26).
-/
namespace Sys2Proof

/-! ## Types (R32) -/

/-- The type of a code; codes 12 to 15 are reserved. -/
def Ty.ofCode : Nat → Option Ty
  | 0 => some .i32 | 1 => some .n32 | 2 => some .i64 | 3 => some .n64 | 4 => some .f32 | 5 => some .f64
  | 6 => some .f16x2 | 7 => some .bf16x2 | 8 => some .i16x2 | 9 => some .n16x2 | 10 => some .i8x4 | 11 => some .n8x4
  | _ => none

/-- What one element of a lane of the type is. -/
def Ty.elem : Ty → EK
  | .i32 => .int true 32 | .n32 => .int false 32 | .i64 => .int true 64 | .n64 => .int false 64
  | .f32 => .flt fF32 | .f64 => .flt fF64 | .f16x2 => .flt fF16 | .bf16x2 => .flt fBF16
  | .i16x2 => .int true 16 | .n16x2 => .int false 16 | .i8x4 => .int true 8 | .n8x4 => .int false 8

/-- `elems` of R117. -/
def Ty.elems : Ty → Nat
  | .f16x2 | .bf16x2 | .i16x2 | .n16x2 => 2
  | .i8x4 | .n8x4 => 4
  | _ => 1

/-- Does the type take a register pair (R26)? -/
def Ty.is64 : Ty → Bool
  | .i64 | .n64 | .f64 => true
  | _ => false

/-- Registers one operand of the type takes. -/
def Ty.regs (t : Ty) : Nat := if t.is64 then 2 else 1

/-- Width of an element in bits. -/
def EK.width : EK → Nat
  | .int _ w => w
  | .flt f => f.width

/-- Is the element a float? -/
def EK.isFlt : EK → Bool
  | .flt _ => true
  | .int _ _ => false

/-- Is the type a float type? -/
def Ty.isFlt (t : Ty) : Bool := t.elem.isFlt
/-- Is the type packed? -/
def Ty.packed (t : Ty) : Bool := t.elems != 1

/-- Element `e` of a lane value (R223). -/
def elemAt (t : Ty) (v e : Nat) : Nat := (v >>> (t.elem.width * e)) % 2 ^ t.elem.width

/-- Puts elements together, element 0 lowest. -/
def packElems (w : Nat) : List Nat → Nat
  | [] => 0
  | x :: xs => x % 2 ^ w + packElems w xs <<< w

/-- Applies a function of the element index to every element of a lane: the lane value and the flags raised. -/
def onElems (t : Ty) (f : Nat → Nat × Fx) : Nat × Fx :=
  let rs := (List.range t.elems).map f
  (packElems t.elem.width (rs.map (·.1)), rs.foldl (fun x r => x ||| r.2) 0#6)

/-! ## What FMT says (R31) -/

/-- The rounding mode of an RM code. -/
def rmOf : Nat → RM
  | 0 => .rne | 1 => .rtz | 2 => .rup | _ => .rdn

/-- Bits of FMT an instruction computes under. -/
structure FmtEnv where
  env : FEnv
  sat : Bool
  fxt : Bool
  strict : Bool
  deriving DecidableEq, Repr

/-- Reads RM, FTZ, SAT, FXT and STRICT from FMT (R31). -/
def fmtEnv (fmt : Word) : FmtEnv :=
  let n := fmt.toNat
  ⟨⟨rmOf (bitsOf n 9 8), n.testBit 10⟩, n.testBit 11, n.testBit 13, n.testBit 12⟩

/-- The lane type in slot P (`sv` false) or S (`sv` true) of FMT (R31, R33). -/
def fmtType (fmt : Word) (sv : Bool) : Option Ty :=
  Ty.ofCode (if sv then bitsOf fmt.toNat 7 4 else bitsOf fmt.toNat 3 0)

/-! ## Operands that supply one value to every lane (R95, R114) -/

/-- An exact integer as a code of the element kind, floats by rne (R95). -/
def intAsElem (k : EK) (x : Int) : Nat :=
  match k with
  | .int _ w => wrapI w x
  | .flt f => (fround f .rne (x < 0) x.natAbs 0 false).1

/-- A small immediate (imm8, imm26) in the type: the converted value in every element (R95). -/
def immLane (t : Ty) (x : Int) : Nat :=
  packElems t.elem.width ((List.range t.elems).map fun _ => intAsElem t.elem x)

/-- A 32-bit immediate in the type (R95). DESIGN CHOICE (log entry 73): one that holds a NaN becomes the canonical NaN of f64,
and raises nothing. -/
def imm32Lane (t : Ty) (i : Word) : Nat :=
  match t with
  | .i64 => wrapI 64 i.toInt
  | .f64 => (ftofV fF64 envRne (fdec fF32 i.toNat)).1
  | _ => i.toNat

/-- A uniform register's value in the type: all 64 bits for 64-bit types, else bits 31:0 (R114). -/
def uniLane (t : Ty) (g : DWord) : Nat := if t.is64 then g.toNat else g.toNat % 2 ^ 32

/-! ## Generic two-operand arithmetic (R118-R123) -/

/-- Types in which an operation executes (R119). -/
def AOp.defined (op : AOp) (t : Ty) : Bool :=
  match op with
  | .mulhi | .rem => !t.isFlt
  | _ => true

/-- Truncating division of R123. -/
def idiv (sat s : Bool) (w : Nat) (x y : Int) : Nat :=
  if y == 0 then 2 ^ w - 1 else fitI sat s w (Int.tdiv x y)
/-- Remainder of R123: the sign of the dividend. -/
def irem (w : Nat) (x y : Int) : Nat :=
  if y == 0 then wrapI w x else wrapI w (Int.tmod x y)

/-- One element of a two-operand generic instruction. -/
def arithElem (op : AOp) (k : EK) (fe : FmtEnv) (a b : Nat) : Nat × Fx :=
  match k with
  | .int s w =>
    let x := toI s w a
    let y := toI s w b
    match op with
    | .add => (fitI fe.sat s w (x + y), 0#6)
    | .sub => (fitI fe.sat s w (x - y), 0#6)
    | .mul => (fitI fe.sat s w (x * y), 0#6)
    | .min => (if y < x then b else a, 0#6)
    | .max => (if x < y then b else a, 0#6)
    | .mulhi => (wrapI w ((x * y) >>> w), 0#6)
    | .div => (idiv fe.sat s w x y, 0#6)
    | .rem => (irem w x y, 0#6)
  | .flt f =>
    let (x, fa) := fin f fe.env.ftz a
    let (y, fb) := fin f fe.env.ftz b
    let run (r : Nat × Fx) : Nat × Fx := (r.1, r.2 ||| fa ||| fb)
    match op with
    | .add => run (faddV f fe.env x y)
    | .sub => run (faddV f fe.env x y.negate)
    | .mul => run (fmulV f fe.env x y)
    | .div => run (fdivV f fe.env x y)
    | .min => fminmax f fe.env.ftz false a b
    | .max => fminmax f fe.env.ftz true a b
    | .mulhi | .rem => (0, 0#6)

/-- One lane of a two-operand generic instruction (R120). -/
def arithLane (op : AOp) (t : Ty) (fe : FmtEnv) (a b : Nat) : Nat × Fx :=
  onElems t fun e => arithElem op t.elem fe (elemAt t a e) (elemAt t b e)

/-- vmad on one lane: one rounding, or the exact sum through fit (R124). -/
def madLane (t : Ty) (fe : FmtEnv) (a b c : Nat) : Nat × Fx :=
  onElems t fun e =>
    let x := elemAt t a e; let y := elemAt t b e; let z := elemAt t c e
    match t.elem with
    | .int s w => (fitI fe.sat s w (toI s w x * toI s w y + toI s w z), 0#6)
    | .flt f =>
      let (vx, fx) := fin f fe.env.ftz x
      let (vy, fy) := fin f fe.env.ftz y
      let (vz, fz) := fin f fe.env.ftz z
      let r := fmaV f fe.env vx vy vz
      (r.1, r.2 ||| fx ||| fy ||| fz)

/-- vclamp on one lane: vmin(vmax(x, y), z) (R124). -/
def clampLane (t : Ty) (fe : FmtEnv) (a b c : Nat) : Nat × Fx :=
  let (r, f1) := arithLane .max t fe a b
  let (r', f2) := arithLane .min t fe r c
  (r', f1 ||| f2)

/-- One element of vabs, vneg, vsat (R125). -/
def unElem (op : UOp) (k : EK) (fe : FmtEnv) (a : Nat) : Nat × Fx :=
  match k with
  | .int s w =>
    let x := toI s w a
    match op with
    | .abs => (if s then fitI fe.sat s w (Int.natAbs x) else a, 0#6)
    | .neg => (if s then fitI fe.sat s w (-x) else if fe.sat then 0 else wrapI w (-x), 0#6)
    | .sat => (if s then wrapI w (max x 0) else a, 0#6)
  | .flt f =>
    let sb := 2 ^ (f.ew + f.fw)
    match op with
    | .abs => (a % sb, 0#6)
    | .neg => (if a ≥ sb then a - sb else a + sb, 0#6)
    | .sat =>
      let (v, fl) := fin f fe.env.ftz a
      match v with
      | .nan sg => (0, fl ||| fxIf sg fxNV)
      | .inf n => (if n then 0 else f.bias <<< f.fw, fl)
      | .fin n m _ =>
        if n || m == 0 then (0, fl)
        else if a ≥ f.bias <<< f.fw then (f.bias <<< f.fw, fl) else (a, fl)

/-- One lane of vabs, vneg, vsat. -/
def unLane (op : UOp) (t : Ty) (fe : FmtEnv) (a : Nat) : Nat × Fx :=
  onElems t fun e => unElem op t.elem fe (elemAt t a e)

/-- One lane of vsqrt and the reduced-precision functions (R129-R132); integer types do not come here. -/
def funLane (op : FOp) (t : Ty) (fe : FmtEnv) (a : Nat) : Nat × Fx :=
  onElems t fun e =>
    match t.elem with
    | .int _ _ => (0, 0#6)
    | .flt f =>
      let (v, fl) := fin f fe.env.ftz (elemAt t a e)
      let (r, fl') := ffunV op f fe.env v
      (r, fl ||| fl')

/-! ## Conversion and packing (R133-R136) -/

/-- May a lane of one type convert to the other (R133)? -/
def cvtDefined (a b : Ty) : Bool := a.elems == b.elems

/-- One lane of vcvt; a conversion within one type copies, apart from the canonical NaN and FTZ (R134). -/
def cvtLane (a b : Ty) (fe : FmtEnv) (v : Nat) : Nat × Fx :=
  let rs := (List.range b.elems).map fun e => cvtElem a.elem b.elem fe.env fe.sat (elemAt a v e)
  (packElems b.elem.width (rs.map (·.1)), rs.foldl (fun x r => x ||| r.2) 0#6)

/-- The type vpack's sources are read as (R135); none where vpack does not execute in the type. -/
def packSrc : Ty → Option Ty
  | .f16x2 | .bf16x2 => some .f32
  | .i16x2 => some .i32
  | .n16x2 => some .n32
  | .i8x4 => some .i16x2
  | .n8x4 => some .n16x2
  | _ => none

/-- One lane of vpack to type `t` (R135). -/
def packLane (t s : Ty) (fe : FmtEnv) (a b : Nat) : Nat × Fx :=
  let xs := (List.range s.elems).map (fun e => elemAt s a e) ++ (List.range s.elems).map (fun e => elemAt s b e)
  let rs := xs.map fun x => cvtElem s.elem t.elem fe.env fe.sat x
  (packElems t.elem.width (rs.map (·.1)), rs.foldl (fun x r => x ||| r.2) 0#6)

/-- One lane of vunpk: element `e` of packed type `t`, widened exactly (R136). -/
def unpkLane (t : Ty) (e a : Nat) : Nat :=
  let c := elemAt t a e
  match t.elem with
  | .int s w => wrapI 32 (toI s w c)
  | .flt f =>
    match fdec f c with
    | .nan _ =>
      -- a NaN keeps its payload and becomes quiet
      let sgn := c >>> (f.ew + f.fw)
      let fr := c % 2 ^ f.fw
      (sgn <<< 31) + fF32.infMag + ((fr <<< (23 - f.fw)) ||| 2 ^ 22)
    | v => (ftofV fF32 envRne v).1

/-! ## Bitwise, shift and bit-field (R127) -/

/-- vshl of R127. -/
def shlW (a : Word) (s : Nat) : Word := if s ≥ 32 then 0#32 else a <<< s
/-- vshr of R127. -/
def shrW (a : Word) (s : Nat) : Word := if s ≥ 32 then 0#32 else a >>> s
/-- vsra of R127. -/
def sraW (a : Word) (s : Nat) : Word := a.sshiftRight (min s 31)
/-- vrot of R127. -/
def rotW (a : Word) (s : Nat) : Word := a.rotateLeft (s % 32)
/-- vpopc of R127. -/
def popcW (a : Word) : Nat := ((List.range 32).filter (fun k => a.getLsbD k)).length
/-- vclz of R127. -/
def clzW (a : Word) : Nat := if a == 0#32 then 32 else 31 - Nat.log2 a.toNat
/-- vbrev of R127. -/
def brevW (a : Word) : Word := a.reverse
/-- vbfx of R127. -/
def bfxW (a : Word) (pos len : Nat) : Word := wordOfNat ((a.toNat >>> pos) % 2 ^ len)
/-- vbfi of R127: `b` with the field replaced by the low bits of `a`. -/
def bfiW (a b : Word) (pos len : Nat) : Word :=
  let mask := (2 ^ len - 1) <<< pos
  wordOfNat ((b.toNat &&& (2 ^ 32 - 1 - mask)) ||| ((a.toNat % 2 ^ len) <<< pos))

/-- vkey of R148: the unsigned key of an f32 code. -/
def keyW (x : Word) : Word :=
  let n := x.toNat
  if bitsOf n 30 23 == 0xFF && bitsOf n 22 0 != 0 then 0#32
  else
    let y := if n == 0x80000000 then 0#32 else x
    if y.toNat < 0x80000000 then y ^^^ 0x80000000#32 else ~~~ y

/-! ## vsplit conditions (R94, R139) -/

/-- Is a condition code defined for the type (R139)? Codes: eq ne lt le gt ge ltu leu gtu geu bit. -/
def condDefined (c : Nat) (t : Ty) : Bool :=
  match c with
  | 0 | 1 | 10 => true
  | 2 | 3 | 4 | 5 => !t.packed
  | _ => !t.packed && !t.isFlt

/-- A code 0-5 applied to an ordering. -/
def condOrd (c : Nat) (o : Ordering) : Bool :=
  match c with
  | 0 => o == .eq
  | 1 => o != .eq
  | 2 => o == .lt
  | 3 => o != .gt
  | 4 => o == .gt
  | _ => o != .lt

/-- A condition on one lane, with the flags it raises (R139). -/
def condLane (c : Nat) (t : Ty) (fe : FmtEnv) (a b : Nat) : Bool × Fx :=
  if t.packed then (if c == 0 then a == b else a != b, 0#6)
  else match t.elem with
    | .int s w =>
      if c ≥ 6 then (condOrd (c - 4) (compare (toI false w a) (toI false w b)), 0#6)
      else (condOrd c (compare (toI s w a) (toI s w b)), 0#6)
    | .flt f =>
      let (x, fa) := fin f fe.env.ftz a
      let (y, fb) := fin f fe.env.ftz b
      let fl := fa ||| fb
      if x.isNan || y.isNan then
        (c == 1, fl ||| fxIf (x.isSig || y.isSig || c ≥ 2) fxNV)
      else (condOrd c (fcmpV x y), fl)

/-! ## Packed-pixel instructions (R153, R154) -/

/-- Types of a packed-pixel instruction (R153). -/
def POp.defined (op : POp) (t : Ty) : Bool :=
  match op, t with
  | .sad, .i8x4 | .sad, .n8x4 | .sad, .i16x2 | .sad, .n16x2 => true
  | .avg, t => !t.isFlt && !t.is64
  | .dot4, .i8x4 | .dot4, .n8x4 => true
  | .dot2, .i16x2 | .dot2, .n16x2 | .dot2, .f16x2 | .dot2, .bf16x2 => true
  | _, _ => false

/-- The elements of a lane as integers. -/
def intElems (t : Ty) (v : Nat) : List Int :=
  match t.elem with
  | .int s w => (List.range t.elems).map fun e => toI s w (elemAt t v e)
  | .flt _ => []

/-- One lane of vsad, vavg, vdot4 or vdot2; `d` is the destination's old lane for the dot products (R153, R154). -/
def pixLane (op : POp) (t : Ty) (fe : FmtEnv) (a b d : Nat) : Nat × Fx :=
  let xs := intElems t a
  let ys := intElems t b
  match op with
  | .sad => ((xs.zip ys).foldl (fun (n : Nat) (p : Int × Int) => n + (p.1 - p.2).natAbs) 0, 0#6)
  | .avg => (packElems t.elem.width ((xs.zip ys).map fun (p : Int × Int) => wrapI t.elem.width ((p.1 + p.2 + 1) / 2)), 0#6)
  | .dot4 | .dot2 =>
    match t.elem with
    | .int s _ =>
      (fitI fe.sat s 32 (toI s 32 d + (xs.zip ys).foldl (fun (n : Int) (p : Int × Int) => n + p.1 * p.2) 0), 0#6)
    | .flt f =>
      let ops := (List.range 2).map fun e => (fin f fe.env.ftz (elemAt t a e), fin f fe.env.ftz (elemAt t b e))
      let (vd, fd) := fin fF32 fe.env.ftz d
      let ps := ops.map fun p => fprod p.1.1 p.2.1
      let r := fsumV fF32 fe.env (ps.any (·.1)) (vd :: ps.map (·.2))
      (r.1, ops.foldl (fun x p => x ||| p.1.2 ||| p.2.2) (r.2 ||| fd))

/-! ## Reductions and scans (R152, R207) -/

/-- Least and greatest codes of an element kind, as identities of max and min. -/
def extremeElem (k : EK) (greatest : Bool) : Nat :=
  match k with
  | .int s w => wrapI w (if greatest then maxI s w else minI s w)
  | .flt f => if greatest then f.infMag else f.signBit true + f.infMag

/-- The identity of a reduction on one element (R207). -/
def redIdentity (op : ROp) (k : EK) : Nat :=
  match op with
  | .add | .or | .xor => 0
  | .min => extremeElem k true
  | .max => extremeElem k false
  | .and => 2 ^ k.width - 1

/-- `combine` of R152 and R207 on one element. -/
def redCombine (op : ROp) (k : EK) (fe : FmtEnv) (a b : Nat) : Nat × Fx :=
  match op with
  | .add => arithElem .add k fe a b
  | .min => arithElem .min k fe a b
  | .max => arithElem .max k fe a b
  | .and => (a &&& b, 0#6)
  | .or => (a ||| b, 0#6)
  | .xor => (a ^^^ b, 0#6)

/-- One level of the pairwise tree of R207. -/
def redLevel (op : ROp) (k : EK) (fe : FmtEnv) : List Nat → List Nat × Fx
  | a :: b :: rest =>
    let (r, f1) := redCombine op k fe a b
    let (rs, f2) := redLevel op k fe rest
    (r :: rs, f1 ||| f2)
  | xs => (xs, 0#6)

/-- What gred makes of the element of the only occupied lane: a float instruction reads and delivers it as any operand, a
NaN as the canonical one and a subnormal under FTZ as a zero (R225, R229, R232). -/
def redLone (k : EK) (fe : FmtEnv) (x : Nat) : Nat × Fx :=
  match k with
  | .int _ _ => (x, 0#6)
  | .flt f => fminmax f fe.env.ftz false x x

/-- The pairwise tree of R207; the fuel is at least the number of levels. -/
def redTree (op : ROp) (k : EK) (fe : FmtEnv) : Nat → List Nat → Nat × Fx
  | _, [] => (redIdentity op k, 0#6)
  | _, [x] => (x, 0#6)
  | 0, x :: _ => (x, 0#6)
  | fuel + 1, xs =>
    let (ys, f1) := redLevel op k fe xs
    let (r, f2) := redTree op k fe fuel ys
    (r, f1 ||| f2)

/-- gred over the lane values in lane order, each element by itself (R207); FMT.SAT plays no part (R191, R230). -/
def redLanes (op : ROp) (t : Ty) (fe : FmtEnv) (vs : List Nat) : Nat × Fx :=
  onElems t fun e =>
    match vs.map fun v => elemAt t v e with
    | [x] => redLone t.elem fe x
    | xs => redTree op t.elem { fe with sat := false } 12 xs

/-- Does an integer sum leave the type's range, so that SAT clamps it? -/
def sumSaturates (op : ROp) (k : EK) (fe : FmtEnv) (a b : Nat) : Bool :=
  match op, k with
  | .add, .int s w => fe.sat && satI s w (toI s w a + toI s w b) != toI s w a + toI s w b
  | _, _ => false

/-- The running value of one element of a scan, and whether it has saturated: then it stays (R152). -/
abbrev ScanAcc := Nat × Bool

/-- One combine step of a scan on one element. -/
def scanElem (op : ROp) (k : EK) (fe : FmtEnv) (acc : ScanAcc) (x : Nat) : ScanAcc × Fx :=
  if acc.2 then (acc, 0#6)
  else
    let (r, fl) := redCombine op k fe acc.1 x
    ((r, sumSaturates op k fe acc.1 x), fl)

/-- One step of vscan on a lane: with `acc` the running elements, the result lane, the new `acc` and the flags. -/
def scanStep (op : ROp) (excl : Bool) (t : Ty) (fe : FmtEnv) (acc : List ScanAcc) (v : Nat) : Nat × List ScanAcc × Fx :=
  let rs := (List.range t.elems).map fun e => scanElem op t.elem fe (acc.getD e (0, false)) (elemAt t v e)
  let acc' := rs.map (·.1)
  (packElems t.elem.width ((if excl then acc else acc').map (·.1)), acc', rs.foldl (fun x r => x ||| r.2) 0#6)

/-- vscan over the lane values in lane order, each result with the flags its own step raised (R152). -/
def scanLanes (op : ROp) (excl : Bool) (t : Ty) (fe : FmtEnv) : List ScanAcc → List Nat → List (Nat × Fx)
  | _, [] => []
  | acc, v :: vs =>
    let (r, acc', fl) := scanStep op excl t fe acc v
    (r, fl) :: scanLanes op excl t fe acc' vs

/-- The start of a scan: the identity in every element (R152). -/
def scanStart (op : ROp) (t : Ty) : List ScanAcc :=
  (List.range t.elems).map fun _ => (redIdentity op t.elem, false)

end Sys2Proof
end

