-- ==== Sys2Proof/Machine/State.lean ====
section
/-!
DEFINITION. Sys2Proof/Machine/State.lean: the state of the part as plain data. Numbers that software never sees as words
are Nat; register contents, addresses of code and control words are bit vectors. Things created at run time (jobs, folds,
teams, engine operations, link rows) are entries of lists that only grow, so that an index names one of them for good.
-/
namespace Sys2Proof.Machine

/-! ## A team (02_execution_model) -/

/-- The flags Z N C V (R47). -/
structure Flags where
  z : Bool
  n : Bool
  c : Bool
  v : Bool
  deriving DecidableEq, Repr

/-- A vector register: one optional value per lane (R18; the compacted slots of R19 follow from it), the full/empty
bit (R27) and the lanes whose slot is poisoned (R460). -/
structure VReg where
  lanes : List (Option Word)
  full : Bool
  poison : List (Nat × Poison)
  deriving DecidableEq, Repr

/-- A uniform register with its full/empty bit (R27) and poison on its value (R459, R460). -/
structure UReg where
  val : DWord
  full : Bool
  poison : Option Poison
  deriving DecidableEq, Repr

/-- A target slot that is set (R48). -/
structure TSlot where
  addr : CodeAddr
  cond : Nat
  deriving DecidableEq, Repr

/-- An entry of the pending-arm stack (R50). -/
structure ArmEntry where
  join : Bool
  addr : CodeAddr
  fmt : Word
  deriving DecidableEq, Repr

/-- A vector register reached by an instruction: the team's own, or private to a stray handler (R397); or a window that
holds the value of the stray's field, which can only be read (R109). -/
inductive VRef where
  | team (n : Nat)
  | priv (depth n : Nat)
  | const (v : Word)
  deriving DecidableEq, Repr

/-- A landing window bound to a register: arrived bytes, poison they carried, and what brings them (R156, R317, R376, R460). -/
structure Landing where
  window : Nat
  reg : VRef
  n : Nat
  bytes : List (Option Byte)
  poison : List (Nat × Poison)
  byCopy : Bool
  byRow : Bool
  deriving DecidableEq, Repr

/-- A uniform register reached by an instruction: the team's own, or private to a stray handler. -/
inductive URef where
  | team (n : Nat)
  | priv (depth n : Nat)
  deriving DecidableEq, Repr

/-- One register write of an instruction. -/
inductive RegWrite where
  | vec (r : VRef) (lanes : List (Option Word)) (poison : List (Nat × Poison))
  | uni (r : URef) (v : DWord)
  deriving DecidableEq, Repr

/-- A line of a load in flight: its virtual address, the lanes it serves with their physical bytes (R165), the bytes
read for each lane, the faults its arrival will deliver: lane, cause, subcode, detail (R166), and whether the record has encoding 4
(R326). -/
structure LoadLine where
  va : Nat
  lanes : List (Nat × Nat × Nat)
  bytes : List (Nat × List Byte)
  faults : List (Nat × Nat × Nat × Nat)
  comp : Bool
  deriving DecidableEq, Repr

/-- An instruction that has issued and whose register results are not yet complete (R27): its writes, the lines that have
not arrived, and every line of it. -/
structure InFlight where
  pc : CodeAddr
  writes : List RegWrite
  lines : List LoadLine
  all : List LoadLine
  strong : Bool
  deriving DecidableEq, Repr

/-- Stray mode at one depth (R396, R417, R420): the stray, the private registers, and the flags and target slots of the
level below, which return when the handler leaves; `fmt` is FMT at the stray, whose slots pair the windows. -/
structure Frame where
  cause : Nat
  cap : Nat
  raw0 : Word
  raw1 : Word
  pc : CodeAddr
  fmt : Word
  nocount : Bool
  span : Nat
  ev : Vector VReg 8
  fu : Vector UReg 16
  flags : Flags
  slots : List (Option TSlot)
  deriving DecidableEq, Repr

/-- What an engine instruction or emit finds no room in (R451): a paddock's reservation table, unless an open entry of a tag takes
a post; the entries of a copy channel; a request ring; the rows to a device (R369); a work-graph node's records (R453), with the
node's job and number and the first register and the registers of a record. -/
inductive Room where
  | table (joint : Option Nat)
  | channel (ch : Nat)
  | ring (r : Nat)
  | device (dev : Nat)
  | node (job n f k : Nat)
  deriving DecidableEq, Repr

/-- Which queue instruction waits: for free slots, for published ones, for a count of them (R293, R295). -/
inductive QWait where
  | free | take | count
  deriving DecidableEq, Repr

/-- Why a team does not issue (R451), with what ends the wait: `slots` those its instruction wants (R42, R43); `source` the registers
that are not full (R27, R28); `loads` results still in flight, counting for the swap or not; `flags` computed results in flight
(R233); a counter and its bound; a
channel's core, number and target; `full` the device launch queue (R215). -/
inductive Wait where
  | none
  | slots (n : Nat)
  | source (vs : List VRef) (us : List URef)
  | loads (counts : Bool)
  | flags
  | counter (c n : Nat)
  | channel (core ch x : Nat)
  | engine (r : Room)
  | queue (q : Nat) (k : QWait) (x : Nat)
  | full | barrier | move | syscall | claim
  deriving DecidableEq, Repr

/-- A fold-wide meeting at which a team has arrived: fbar, phase with its destination, or fmove with its operands. -/
inductive Arrival where
  | fbar
  | phase (d : URef)
  | fmove (d : URef) (mode val : Nat)
  deriving DecidableEq, Repr

/-- The life of a team: it issues, it is stopped, it has ended and waits for release (R55), it is gone. -/
inductive TeamStatus where
  | run | stopped | ending | gone
  deriving DecidableEq, Repr

/-- A team's stop: what its fault record will say (R409, R410); `len` and `seq` are the length of the instruction that
trapped and, for a G-set instruction, its SEQ, which a resume applies (R415); `was` is the team's status before; `seqno` its record's
sequence and `run` that of the first record of its run (R411), once posted. -/
structure Stop where
  cause : Nat
  kind : Nat
  sub : Nat
  sec : DWord
  detail : DWord
  skid : Nat
  pc : CodeAddr
  origin : CodeAddr
  fmt : Word
  map : List Nat
  block : List DWord
  first : Bool
  stray : Bool
  depth2 : Bool
  margin : Bool
  seqno : Option Nat
  run : Option Nat
  len : Nat
  seq : Option (BitVec 3)
  was : TeamStatus
  deriving DecidableEq, Repr

/-- A team (R12, R45). `wants` are the slots that the instruction of a spilled team wants once its registers are full, as far as the
partition has looked (R43). `late` holds the loads that trapped as their data arrived, after the team had gone on (R166);
`area` the bytes of its team area (R44);
`reply` the answer of a system call that came while the team was stopped (R428, R430); `halt` a halt that has arrived at it: the cause it will stop with, the instructions it may still issue in all and those it
has issued since (R410); `before` those it issued from the fold's first fault to that arrival. -/
structure Team where
  fold : Nat
  idx : Nat
  w : Nat
  core : Nat
  part : Nat
  pc : CodeAddr
  pcOver : Bool
  lastPc : CodeAddr
  vregs : List VReg
  uregs : List UReg
  resv : Nat
  fmt : Word
  fx : Fx
  flags : Flags
  slots : List (Option TSlot)
  arms : List ArmEntry
  calls : List CodeAddr
  cc : List (BitVec 16)
  landings : List Landing
  stray : List Frame
  inflight : List InFlight
  late : List InFlight
  status : TeamStatus
  stop : Option Stop
  wait : Wait
  waitAt : Nat
  wants : Nat
  area : Nat
  halt : Option (Nat × Nat × Nat)
  before : Nat
  arrived : Option (Arrival × BitVec 3)
  call : Option (Nat × List DWord × URef × BitVec 3)
  reply : Option (URef × BitVec 3 × DWord)
  claim : Option (URef × BitVec 3)
  active : Bool
  lastIssue : Nat
  blocked : Nat
  spilled : Bool
  stepOne : Bool
  start : Nat
  ran : Nat
  work : Nat
  unfenced : List (Nat × Byte)
  deriving DecidableEq, Repr

/-! ## Folds, kernels and jobs (R12, R58, R86, R441) -/

/-- An entry of the kernel table of an image (R86); `entry` is the code address of the entry. `nodes` are the nodes of the
work-graph jobs the kernel runs as (R58): record size, coalesce count, kernel index; an ordinary kernel has none. -/
structure Kernel where
  entry : CodeAddr
  extent : Nat
  w : Nat
  teams : Nat
  vregs : Nat
  gregs : Nat
  slots : Nat
  scratch : Nat
  acc : Nat
  energy : Nat
  peak : Nat
  scheds : List (List Nat)
  pinBytes : Nat
  pinStart : Nat
  nodes : List (Nat × Nat × Nat)
  deriving DecidableEq, Repr

/-- An allocation of a fold on a core of its paddock: core, base offset, bytes. -/
structure Alloc where
  core : Nat
  base : Nat
  size : Nat
  deriving DecidableEq, Repr

/-- A copy channel's write pointer for a fold, on a core of its paddock (R286). -/
structure Chan where
  core : Nat
  ch : Nat
  ptr : Nat
  deriving DecidableEq, Repr

/-- A tile of a weight stream as its header and restart table give it (R299-R301): K, N, symbols between restarts, table, payload
offset in the record, payload bytes, restart offsets. -/
structure Tile where
  k : Nat
  n : Nat
  interval : Nat
  table : Nat
  at_ : Nat
  len : Nat
  starts : List Nat
  deriving DecidableEq, Repr

/-- Where a fold is. -/
inductive FoldStatus where
  | resident | saved | ended
  deriving DecidableEq, Repr

/-- A paddock queue (R291): tail, arrivals, take point, head, close point; `pub` the published sequences at or above `a`; `gen`
counts its openings. -/
structure Queue where
  owner : Option Nat
  t : Nat
  a : Nat
  k : Nat
  h : Nat
  c : Nat
  pub : List Nat
  closed : Bool
  desc : DWord
  bound : Option Nat
  gen : Nat
  deriving DecidableEq, Repr

/-- Array commands (R272). -/
inductive ArrKind where
  | mma | mmaJ | mmaR | mtrans | mperm | mrsum
  deriving DecidableEq, Repr

/-- A post to a reservation entry: the poster, its counter, its block and the slices of its rows committed (R255). -/
structure Post where
  team : Nat
  cc : Nat
  block : List DWord
  pc : CodeAddr
  done : Nat
  deriving DecidableEq, Repr

/-- Engine work of a fold that ended in a fault and waits for the fold's resume or replay (R269, R415); a post with the table
entry it was of, which the posts of a joint command share. -/
inductive Broken where
  | op (n : Nat)
  | arr (kind : ArrKind) (post : Post) (entry : Nat)
  deriving DecidableEq, Repr

/-- A fold (R12, R430). `shared` holds the old bytes of scratch and accumulator writes that every team of the fold has
observed and none has fenced (R262), `released` those its teams have released to one another (R282); `progress`, `seen` and `idle` serve the watchdog (R415): engine work completed, the
moves at the last boundary, the idle intervals; `broken` is engine work that ended in a
fault, `waiting` what a replay has posted again and finds no room (R252, R369); `left` says that a vacate request left it where it is (R427); `queues` and `tags` are what a saved fold holds of its
paddock, the tags by offset in its allocations; `image` the pages of 4 KiB of the save area that its fold image takes. -/
structure Fold where
  ctx : Nat
  job : Nat
  linear : Nat
  paddock : Nat
  kernel : Kernel
  teams : List Nat
  scratch : List Alloc
  acc : List Alloc
  recs : List (Nat × List DWord)
  chans : List Chan
  sched : Nat
  phases : Nat
  iovf : List Nat
  prio : Nat
  status : FoldStatus
  victim : Bool
  extra : List (List DWord)
  broken : List Broken
  waiting : List Broken
  marginHalts : Nat
  progress : Bool
  seen : Nat
  idle : Nat
  left : Bool
  killedBy : Option Nat
  shared : List (Nat × Byte)
  released : List (Nat × Byte)
  queues : List (Nat × Queue)
  image : List Nat
  tags : List (Nat × AccTag)
  deriving DecidableEq, Repr

/-- A work-graph node (R58, R453): the records gathered for it, in their order, and the areas of the coalescer region in
which they stand, each the offset of a coalesce count's worth (R59). -/
structure Node where
  recSize : Nat
  count : Nat
  kernel : Nat
  recs : List (List Byte)
  areas : List Nat
  deriving DecidableEq, Repr

/-- The life of a job (R442-R444). -/
inductive JobStatus where
  | waiting | ready | dispatching | done | failed
  deriving DecidableEq, Repr

/-- A job (R441, R215). `refused` holds from a refusal of its next fold until the fold is tried again (R448), `tryDue` from an interval
boundary until the drover has found there that the fold is refused or admitted it (R449). -/
structure Job where
  ctx : Nat
  queue : Nat
  index : Nat
  kernel : Nat
  prio : Nat
  indirect : Bool
  dims : Nat
  x : Nat
  y : Nat
  z : Nat
  shapeAddr : Nat
  events : List Nat
  deps : List (Nat × Nat × Bool)
  args : Nat
  argVals : List DWord
  barrier : Bool
  scratch : Nat
  acc : Nat
  energy : Nat
  peak : Nat
  nodes : List Node
  next : Nat
  refusals : Nat
  refused : Bool
  tryDue : Bool
  readyAt : Nat
  parent : Option (Nat × Nat)
  failCause : Nat × Nat
  reported : Bool
  status : JobStatus
  deriving DecidableEq, Repr

/-! ## Contexts (R429, R430) -/

/-- A host submission queue's progress beside the words of its table entry (R440, R444). -/
structure HostQ where
  tail : Nat
  read : Nat
  deriving DecidableEq, Repr

/-- A context: its descriptor of 32 words and the state that R430 lists at this level; `setsDue` says that its error-counter sets
have been placed and await their reset values (R344; log entry 89); `qpairs` the NVMe queue pairs that the resident OS has assigned
(R394). -/
structure Ctx where
  desc : List DWord
  fn : Option Nat
  hqbase : DWord
  hostq : List HostQ
  tables : List (Nat × List Nat)
  rseq : List (Nat × Nat)
  seqno : Nat
  pend : List (List DWord)
  kernels : List Kernel
  launched : Nat
  last : Option Nat
  strong : List (Nat × Nat)
  setsDue : Bool
  qpairs : BitVec 16
  batch : List (Nat × Nat × Nat)
  deriving DecidableEq, Repr

/-! ## Paddock: reservation table, array, queues, power -/

/-- A slice in the array: its number, its D rows (first, count), the queue slots it took with the descriptor of their queue,
whether it runs in conformance mode, and whether it is replayed (R250, R256, R258, R260). `from_` and `run` are the first
K-block it has still to apply and its running accumulator rows, where pre-emption stopped it (R310), `keep` the incoming rows of D that
the array keeps (R260). -/
structure Slice where
  num : Nat
  first : Nat
  rows : Nat
  seqs : List Nat
  conf : Bool
  desc : DWord
  replay : Bool
  from_ : Nat
  run : List (List Nat)
  keep : List (List Nat)
  deriving DecidableEq, Repr

/-- An entry of a reservation table (R252). `header` is the tile of a stream-fed command once the port has read its header (R307),
`readyAt` when its operands became ready (R307), `gen` the opening of the queue that a ragged command takes from (R274), `before` what
the bytes of D that it has committed were (R262). Of a restart record (R310, R424): `kept` the slices granted before, `prior` the symbols
of the K-blocks that have been applied, `seg` the restart segment r. -/
structure ResEntry where
  kind : ArrKind
  fold : Nat
  tag : Nat
  count : Nat
  posts : List Post
  passed : Nat
  since : Option Nat
  header : Option Tile
  codes : Option (List Nat)
  freqs : List Nat
  granted : List Slice
  next : Nat
  rowsTaken : Nat
  fault : Option (Nat × Nat × DWord)
  readyAt : Option Nat
  gen : Nat
  kept : List Slice
  prior : List Nat
  seg : Nat
  before : List (Nat × Byte)
  stopped : Bool
  live : Bool
  deriving DecidableEq, Repr

/-- A paddock (R2, R222, R252, R261, R291, R437, R462). -/
structure Paddock where
  table : List ResEntry
  queues : List Queue
  arrctl : Word
  permits : Nat
  slot : Bool
  fall : Bool
  clock : Nat
  refill : Nat
  claims : List Nat
  overrun : Bool
  done : Nat
  reserved : Option Nat
  deriving DecidableEq, Repr

/-! ## Engine operations beside the array (11_engine_isa), shearers (19), links (18) -/

/-- Engines that work on an operation of their own (R265). -/
inductive EngKind where
  | mzero | mdrain | wtab | copy | xpost | nsend
  deriving DecidableEq, Repr

/-- An accepted engine operation: its issuer, counter, block, progress, and a fault it has found (R267-R269). `before` holds what
bytes of memory were when the issuer first wrote them after it posted a shearer request (R386), `held` the status bits of a drain that
has begun, by the outputs written so far (R280). -/
structure EngOp where
  kind : EngKind
  fold : Nat
  team : Nat
  cc : Nat
  block : List DWord
  pc : CodeAddr
  core : Nat
  ring : Nat
  done : Nat
  start : Nat
  acked : List Nat
  rails : List (Nat × Nat)
  fault : Option (Nat × Nat × DWord)
  live : Bool
  before : List (Nat × Byte)
  held : Option Nat
  deriving DecidableEq, Repr

/-- A shearer request in progress, one per ring (R386): the 64-byte block, what its completion will report (`written` bytes so
far), the decoder table as it stood when the request started (R393), and the output bytes of an operation that makes them from
all of its input. -/
structure ShReq where
  ctx : Nat
  ring : Nat
  op : Option Nat
  block : List DWord
  worked : Bool
  status : Nat
  detail : Nat
  written : Nat
  table : List Nat
  made : Option (List Byte)
  deriving DecidableEq, Repr

/-- Where a link row goes: a queue slot, or a landing window of a team (R374). -/
inductive RowTarget where
  | queue (paddock q seq : Nat)
  | landing (team window : Nat)
  | bounce
  | refused (sub : Nat)
  deriving DecidableEq, Repr

/-- A link row (R373-R375); `replayed` was opened from a bounce ring (R378), `old` is no longer among those remembered as closed. -/
structure Row where
  sdev : Nat
  sctx : Nat
  ddev : Nat
  rseq : Nat
  ctx : Nat
  name : Nat
  rlen : Nat
  count : Nat
  token : Nat
  target : RowTarget
  got : List Nat
  closed : Bool
  replayed : Bool
  old : Bool
  deriving DecidableEq, Repr

/-- A cell on the wire: port, four header words, payload (R367). -/
structure Cell where
  port : Nat
  hdr : List DWord
  payload : List Byte
  deriving DecidableEq, Repr

/-- A link port's LSTAT (R381). -/
structure Port where
  fecc : Nat
  drop : Nat
  fecu : Nat
  lanes : Nat
  en : Bool
  up : Bool
  trn : Bool
  deriving DecidableEq, Repr

/-! ## Power domains (25_power) -/

/-- A voltage domain: PWRDOM / BASEDOM of R468, the hold and window counts, and of its sensors (R465; 0 to 3 temperature, 4 and 5
current) the last readings, in °C and mA, with the regulator's estimate of its output current, the intervals for which each has not
changed and those in which it gave no cause for suspicion; `joules` the domain's energy in the last intervals, in nJ, the latest first. -/
structure Domain where
  temp : Int
  thealth : BitVec 4
  ihealth : BitVec 2
  level : Nat
  cap : Bool
  wa : Bool
  men : Bool
  hold : Bool
  holdLeft : Nat
  window : Nat
  offset : Nat
  guard : Nat
  volt : Nat
  temps : List Int
  amps : List Int
  est : Int
  still : List Nat
  clean : List Nat
  joules : List Nat
  deriving DecidableEq, Repr

/-! ## Memory and what stands beside it -/

/-- A block held decoded in the L2 (R342): its bytes as runs (address, length), the first naming it; the context, rate
and error set of its last store; its values. -/
structure DecBlock where
  segs : List (Nat × Nat)
  ctx : Nat
  rate : Nat
  set : Nat
  vals : List DWord
  deriving DecidableEq, Repr

/-- A translation held in a TLB (R433): the TLB, the context, the virtual page and the page entry walked; `span`, for an
entry merged over the 16 pages of a 1 MiB span, is the span's validity mask (R434). TLBs 0 to 3 are the pastures' L2 TLBs, and
4 + c is the L1 TLB of core c. -/
structure TlbEnt where
  tlb : Nat
  ctx : Nat
  vpn : Nat
  entry : DWord
  span : Option (BitVec 16)
  deriving DecidableEq, Repr

/-- A 64-byte line of a core's L1 data cache (R322): its valid bytes, the offsets of the dirty ones, and poison on its
8-byte words (R460). -/
structure L1Line where
  core : Nat
  line : Nat
  bytes : List (Option Byte)
  dirty : List Nat
  poison : List (Nat × Poison)
  deriving DecidableEq, Repr

/-- A decoded block that a core's L1 holds as two lines (R327): its bytes as runs, its rate, its values and poison on them by
position (R460). -/
structure L1Block where
  core : Nat
  segs : List (Nat × Nat)
  rate : Nat
  vals : List DWord
  poison : List (Nat × Poison)
  deriving DecidableEq, Repr

/-- A 128-byte line of a core's L1 instruction cache, with the kernels it is pinned for, each a context and the entry
(R78, R328), and poison on its 8-byte words (R460). -/
structure L1Code where
  core : Nat
  line : Nat
  bytes : List Byte
  pins : List (Nat × CodeAddr)
  poison : List (Nat × Poison)
  deriving DecidableEq, Repr

/-- A 256-byte line that the L2 holds: is it compressible, and the sectors of 32 bytes that it takes (R325, R326). -/
structure L2Line where
  line : Nat
  comp : Bool
  sectors : Nat
  deriving DecidableEq, Repr

/-- An entry of the black-box record (R482): time, sequence, unit, domain, event and the two data words. -/
structure BBEntry where
  time : Nat
  seq : Nat
  unit : Nat
  domain : Nat
  event : Nat
  w2 : DWord
  w3 : DWord
  deriving DecidableEq, Repr

/-- What the part has answered or signalled to the outside: a result of a resident-OS call, a management response, a
signal to a control program's hart, a configuration answer, the paddocks left occupied by a vacate request. -/
inductive Out where
  | osResult (number result extra : Nat)
  | mgmt (code : Nat) (bytes : List Byte)
  | bbox (entries : List BBEntry) (next : Nat)
  | signal (ctx : Nat)
  | config (retry : Bool) (value : Word)
  | vacated (left : BitVec 32)
  | sensor (value : Int)
  deriving DecidableEq, Repr

/-- A vacate request (R423): its paddocks, whether it waits for them, and those found occupied by folds left in place (R427). -/
structure Vacate where
  mask : BitVec 32
  waits : Bool
  left : BitVec 32
  deriving DecidableEq, Repr

/-- The request ring of a function (R479): base, size and doorbell as the host wrote them at BAR0 offsets 0x1000, 0x1008 and
0x1010, and the requests the OS has answered; the counting is log entry 96. -/
structure FnRing where
  base : DWord
  size : Nat
  tail : Nat
  head : Nat
  deriving DecidableEq, Repr

/-- The state of the part. `agenda`, `cur`, `overlap` and `moves` are the model's own (log entries 1 to 3, 5): the moves
the other agents make next, the team that issues, whether register results stay in flight until INSTRUCTION_COMPLETE, and
the count of the steps taken, by which free values differ from step to step, issues are ordered (R452) and a team that waited is tried again
after one. `tainted` holds the bytes of accumulator store that both a vstacc and engine work still counted write (R188); `testDue` says that the
drover has cause to test dependences (R443); `shCtx`, `shRings` and `shBusy` are the context whose work a shearer took last, the ring
taken last of each, and the chunks in work (R386). -/
structure State where
  agenda : List Instr
  cur : Nat
  overlap : Bool
  teams : List Team
  folds : List Fold
  jobs : List Job
  ctxs : List Ctx
  paddocks : List Paddock
  cycles : List (Nat × Nat)
  moves : Nat
  ops : List EngOp
  shear : List ShReq
  shCtx : Nat
  shRings : List Nat
  shBusy : List (Nat × Nat)
  rows : List Row
  wire : List Cell
  ports : List Port
  xlate : List (Nat × DWord)
  dev : Nat
  domains : List Domain
  mem : List Host.Cell
  poison : List (Nat × Poison)
  tags : List (Nat × AccTag)
  tainted : List Nat
  decoded : List DecBlock
  tlb : List TlbEnt
  l1d : List L1Line
  l1b : List L1Block
  l1i : List L1Code
  l2 : List L2Line
  usec : Nat
  interval : Nat
  bbox : List BBEntry
  bbSeq : Nat
  frozen : Bool
  fnRings : List FnRing
  replay : DWord
  tinv0 : DWord
  tinv1 : DWord
  vacates : List Vacate
  testDue : Bool
  caps : List DWord
  bring : Nat
  off : Bool
  bank : Nat
  bankNext : Option (Nat × Bool)
  images : List (Nat × List Byte)
  spdm : Nat
  out : List Out
  deriving DecidableEq, Repr

/-! ## How a step can stop -/

/-- Why a step stops with a fault. -/
inductive Fault where
  /-- Raised by `step` when the part has been switched off at thermal level 4 (R463) and nothing is on the agenda: only the
  always-on domain runs until the part is reset. Safe: nothing is claimed of what follows. -/
  | switchedOff
  deriving DecidableEq, Repr

/-- Why a step is refused. -/
inductive Refusal where
  /-- Raised by an arm of `exec` that has no meaning yet, with the mnemonic of its row. Safe. -/
  | notModelled (mnemonic : String)
  deriving DecidableEq, Repr

/-! ## Reset -/

/-- All flags clear (R45, R396). -/
def Flags.clear : Flags := ⟨false, false, false, false⟩

/-- A context that has not been created: a descriptor of zeros (R429). -/
def Ctx.empty : Ctx :=
  ⟨List.replicate 32 0#64, none, 0#64, List.replicate 16 ⟨0, 0⟩, [], [], 0, [], [], 0, none, [], false, 0#16, []⟩

/-- A closed, unused queue (R291). -/
def Queue.empty : Queue := ⟨none, 0, 0, 0, 0, 0, [], false, 0#64, none, 0⟩

/-- A paddock at reset: ARRCTL.CONF set (R261), 64 permits (log entry 12), nominal clock. -/
def Paddock.reset : Paddock :=
  ⟨[], List.replicate 16 Queue.empty, 1#32, 64, false, false, 0, 0, [], false, 0, none⟩

/-- A link port at reset (R381). -/
def Port.reset : Port := ⟨0, 0, 0, 0, false, false, false⟩

/-- A domain at reset (R468). -/
def Domain.reset : Domain :=
  ⟨0, 15#4, 3#2, 0, false, false, false, false, 0, 0, 0, 40, 40, [0, 0, 0, 0], [0, 0], 0, List.replicate 6 0,
    List.replicate 6 0, []⟩

/-- The part right after power-on reset, before BRING_UP: no context, no fold, no team (R485). -/
def State.reset : State where
  agenda := []
  cur := 0
  overlap := false
  teams := []
  folds := []
  jobs := []
  ctxs := List.replicate 64 Ctx.empty
  paddocks := List.replicate 32 Paddock.reset
  cycles := []
  moves := 0
  ops := []
  shear := []
  shCtx := 63
  shRings := List.replicate 64 3
  shBusy := []
  rows := []
  wire := []
  ports := List.replicate 16 Port.reset
  xlate := []
  dev := 0
  domains := List.replicate 12 Domain.reset
  mem := []
  poison := []
  tags := []
  tainted := []
  decoded := []
  tlb := []
  l1d := []
  l1b := []
  l1i := []
  l2 := []
  usec := 0
  interval := 0
  bbox := []
  bbSeq := 0
  frozen := false
  fnRings := List.replicate 17 ⟨0#64, 0, 0, 0⟩
  replay := 0#64
  tinv0 := 0#64
  tinv1 := 0#64
  vacates := []
  testDue := false
  caps := []
  bring := 0
  off := false
  bank := 0
  bankNext := none
  images := []
  spdm := 0
  out := []

end Sys2Proof.Machine
end

