-- ==== Sys2Proof/Machine/Ops.lean ====
section
/-!
DEFINITION. Sys2Proof/Machine/Ops.lean: the named operations over memory and registers, the slot pool (R40-R42), the
choice of the next address (R46-R51), taking a trap (R410, R413) and leaving one, and the issue of a lane or group
instruction that works on registers alone (R21-R28, R113).
-/
namespace Sys2Proof.Machine

/-! ## Numbers as bytes (R158: little-endian) -/

/-- The number of a list of bytes, the lowest first. -/
def numOf : List Byte → Nat
  | [] => 0
  | b :: bs => b.toNat + 256 * numOf bs

/-- The `n` low bytes of a number, the lowest first. -/
def bytesOf : Nat → Nat → List Byte
  | 0, _ => []
  | n + 1, x => BitVec.ofNat 8 x :: bytesOf n (x / 256)

/-! ## Physical memory: a list of cells, addresses strictly rising, none equal to zero (log entry 4) -/

/-- What an address that is not listed reads as. -/
def unlisted : Byte := 0#8

/-- The byte at an address. -/
def memGet : List Host.Cell → Nat → Byte
  | [], _ => unlisted
  | (a, b) :: m, x => if a == x then b else memGet m x

/-- Writes one byte and keeps the canonical form. -/
def memSet : List Host.Cell → Nat → Byte → List Host.Cell
  | [], x, v => if v == unlisted then [] else [(x, v)]
  | (a, b) :: m, x, v =>
    if x < a then (if v == unlisted then (a, b) :: m else (x, v) :: (a, b) :: m)
    else if x == a then (if v == unlisted then m else (a, v) :: m)
    else (a, b) :: memSet m x v

/-- The canonical form: addresses strictly rising from `lo`, and no cell equal to what an unlisted address reads as. -/
def memWfFrom : Nat → List Host.Cell → Bool
  | _, [] => true
  | lo, (a, b) :: m => lo ≤ a && b != unlisted && memWfFrom (a + 1) m

/-- The canonical form of a memory. -/
def Memory.wf (m : List Host.Cell) : Bool := memWfFrom 0 m

/-- The `n` bytes from an address up. -/
def memRead (m : List Host.Cell) (a : Nat) : Nat → List Byte
  | 0 => []
  | n + 1 => memGet m a :: memRead m (a + 1) n

/-- Writes bytes from an address up. -/
def memWrite (m : List Host.Cell) (a : Nat) : List Byte → List Host.Cell
  | [] => m
  | b :: bs => memWrite (memSet m a b) (a + 1) bs

/-! ## The parts of the state -/

/-- Changes entry `n` of a list. -/
def upd {α : Type} (l : List α) (n : Nat) (f : α → α) : List α := l.modify n f

/-- Changes entry `n` of a vector, where it has one. -/
def updV {α : Type} {k : Nat} (v : Vector α k) (n : Nat) (f : α → α) : Vector α k :=
  if h : n < k then v.set n (f v[n]) else v

/-- An element put into a sorted list, before the first that it does not come behind. -/
def insertBy {α : Type} (le : α → α → Bool) (x : α) : List α → List α
  | [] => [x]
  | y :: ys => if le x y then x :: y :: ys else y :: insertBy le x ys

/-- A list sorted by `le`; elements that are equal to `le` keep their order. -/
def sortBy {α : Type} (le : α → α → Bool) : List α → List α
  | [] => []
  | x :: xs => insertBy le x (sortBy le xs)

/-- A team of the state, if there is one of that number. -/
def State.team? (s : State) (t : Nat) : Option Team := s.teams[t]?
/-- Changes a team. -/
def State.updTeam (s : State) (t : Nat) (f : Team → Team) : State := { s with teams := upd s.teams t f }
/-- A fold of the state. -/
def State.fold? (s : State) (f : Nat) : Option Fold := s.folds[f]?
/-- Changes a fold. -/
def State.updFold (s : State) (n : Nat) (f : Fold → Fold) : State := { s with folds := upd s.folds n f }
/-- Changes a job. -/
def State.updJob (s : State) (n : Nat) (f : Job → Job) : State := { s with jobs := upd s.jobs n f }
/-- A context; one that does not exist is empty. -/
def State.ctx (s : State) (c : Nat) : Ctx := s.ctxs.getD c Ctx.empty
/-- Changes a context. -/
def State.updCtx (s : State) (c : Nat) (f : Ctx → Ctx) : State := { s with ctxs := upd s.ctxs c f }
/-- A paddock. -/
def State.pad (s : State) (p : Nat) : Paddock := s.paddocks.getD p Paddock.reset
/-- Changes a paddock. -/
def State.updPad (s : State) (p : Nat) (f : Paddock → Paddock) : State := { s with paddocks := upd s.paddocks p f }
/-- Changes an engine operation. -/
def State.updOp (s : State) (n : Nat) (f : EngOp → EngOp) : State := { s with ops := upd s.ops n f }
/-- Word `w` of a context descriptor (R429). -/
def Ctx.word (c : Ctx) (w : Nat) : Nat := (c.desc.getD w 0#64).toNat
/-- The context of a team. -/
def State.ctxOf (s : State) (tm : Team) : Nat := ((s.fold? tm.fold).map (·.ctx)).getD 0
/-- The paddock of a team. -/
def State.padOf (s : State) (tm : Team) : Nat := ((s.fold? tm.fold).map (·.paddock)).getD 0
/-- The number of a partition of the part: paddock, core, partition. -/
def placeOf (pad core part : Nat) : Nat := pad * 128 + core * 32 + part
/-- The place of a team. -/
def State.place (s : State) (tm : Team) : Nat := placeOf (s.padOf tm) tm.core tm.part
/-- The cycle counter of a partition (R68). -/
def State.clock (s : State) (place : Nat) : Nat := (s.cycles.lookup place).getD 0

/-! ## Maps and slots (R18-R20) -/

/-- The occupied lanes, rising. -/
def lanesOf {α : Type} (ls : List (Option α)) : List Nat :=
  (List.range ls.length).filter fun j => (ls.getD j none).isSome

/-- `slots_of` of R8: 32 values a slot. -/
def slotsOf {α : Type} (ls : List (Option α)) : Nat := (ls.countP (·.isSome) + 31) / 32

/-- An empty, full register of a team of width `w` (R45). -/
def VReg.fresh (w : Nat) : VReg := ⟨List.replicate w none, true, []⟩
/-- A uniform register that holds zero and is full. -/
def UReg.zero : UReg := ⟨0#64, true, none⟩

/-- The stray frame of depth `d` (1 is the outer one): frames stand innermost first. -/
def Team.frame? (tm : Team) (d : Nat) : Option Frame :=
  if tm.stray.length < d then none else tm.stray[tm.stray.length - d]?

/-- Slots the registers of a team hold, private ones included, and what its work in flight will draw beyond them: a
write reuses its destination's own slots first (R20). -/
def Team.held (tm : Team) : Nat :=
  (tm.vregs.map fun r => slotsOf r.lanes).sum + (tm.stray.map fun f => (f.ev.toList.map fun r => slotsOf r.lanes).sum).sum +
  (tm.inflight.map fun i => (i.writes.map fun w => match w with
    | .vec (.team n) ls _ => slotsOf ls - slotsOf ((tm.vregs.getD n (VReg.fresh 0)).lanes)
    | .vec (.priv d n) ls _ => slotsOf ls - slotsOf ((((tm.frame? d).map fun f => f.ev.toList.getD n (VReg.fresh 0)).getD (VReg.fresh 0)).lanes)
    | .vec (.const _) _ _ => 0
    | .uni _ _ => 0).sum).sum

/-- Does a team stand on its partition: its fold is resident, whether or not the team has ended (R13)? -/
def State.resident (s : State) (tm : Team) : Bool := ((s.fold? tm.fold).map (·.status == .resident)).getD false

/-- The resident teams of a partition, those that have ended among them until their fold ends (R13). -/
def State.teamsAt (s : State) (place : Nat) : List Team := s.teams.filter fun tm => s.place tm == place && s.resident tm

/-- The slot reservation of a team; in stray mode the context's slot reserve adds to it (R416). -/
def State.resvOf (s : State) (tm : Team) : Nat :=
  tm.resv + tm.stray.length * min 64 (bitsOf ((s.ctx (s.ctxOf tm)).word 5) 38 32)

/-- Slots a team may still draw: its own reservation first, then the shared pool (R41); while a team of the partition
is spilled, unheld reservations count as shared (R43). DESIGN CHOICE (log entry 85): a team that has ended gave its
reservation back with its slots (R55); it counts where teams are placed and not where slots are drawn. -/
def State.slotsFree (s : State) (t : Nat) (tm : Team) : Nat :=
  let at_ := s.place tm
  let others := (List.range s.teams.length).filter fun k => k != t && ((s.team? k).map fun o =>
    o.status != .gone && s.place o == at_ && s.resident o).getD false
  let os := others.filterMap s.team?
  let spilled := tm.spilled || os.any (·.spilled)
  let used := ((os.filter (fun o => !o.spilled)).map fun o =>
    if spilled then o.held else max o.held (s.resvOf o)).sum
  Config.poolSlots - used - tm.held

/-- Uniform registers of the partition's pool that no team holds (R38). -/
def State.uniFree (s : State) (tm : Team) : Nat :=
  Config.poolUniform - ((s.teamsAt (s.place tm)).map (·.uregs.length)).sum

/-! ## Which register a field names (R397, R399, R420) -/

/-- What a uniform field names: a register, a value a window holds, or nothing. -/
inductive UName where
  | reg (r : URef) (win : Bool)
  | value (v : DWord)
  | nothing
  deriving DecidableEq, Repr

/-- First-word layout of a stray's fields for the windows: LX and GX use the layout their opcode gives (R91, R96). -/
def firstClass (w0 w1 : Word) : Nat :=
  let op := (op7 w0).toNat
  match opClass (isG w0) op with
  | 4 => if 0x70 ≤ op then 3 else if op == 0x36 || op == 0x37 then (if x2 w1 == 1#2 then 1 else 0) else 0
  | c => c
where x2 (x : Word) : BitVec 2 := x.extractLsb' 26 2

/-- Does bits 9:3 of an LA word hold a register? Not where an immediate stands in its place, where the entry leaves it
unused or where it holds a code (R103, R109). DESIGN CHOICE (log entry 123): in a vsplit of the reserved kind 11, whose first word has
neither layout, w2 and x0 alias nothing. -/
def hasVb (w0 w1 : Word) : Bool :=
  let op := (op7 w0).toNat
  if [0x06, 0x07, 0x0E, 0x0F, 0x3C, 0x3F, 0x42, 0x4D, 0x54].contains op then false
  else if op == 0x36 || op == 0x37 then w1.extractLsb' 27 1 == 0#1
  else !([0x32, 0x33, 0x34, 0x35, 0x38, 0x39, 0x43, 0x4C, 0x51, 0x57, 0x58, 0x59, 0x5E, 0x5F, 0x62].contains op)

/-- What a window w0 to w3 stands for: a field number, a value, or nothing (R109). -/
inductive VWin where
  | field (n : Nat)
  | value (v : Word)
  | nothing
  deriving DecidableEq, Repr

/-- The windows w0 to w3 (R109). In a one-word LA stray whose bits 9:3 hold no register w2 holds their value, in a pair
it aliases nothing. DESIGN CHOICE (log entry 117): the value stands in every lane. -/
def vecWindow (w0 w1 : Word) (k : Nat) : VWin :=
  let op := (op7 w0).toNat
  let cls := opClass (isG w0) op
  if cls ≤ 4 then
    let fc := firstClass w0 w1
    match k with
    | 0 => .field (fD w0).toNat
    | 1 => if fc ≤ 2 then .field (fA w0).toNat else .nothing
    | 2 =>
      if fc == 0 && hasVb w0 w1 then .field (fB w0).toNat
      else if cls == 0 then .value ((fB w0).setWidth 32)
      else .nothing
    | _ =>
      if fc == 3 then .field (fA w0).toNat
      else if [0x2E, 0x2F, 0x30, 0x31, 0x6C, 0x6D].contains op && w1.extractLsb' 30 2 == 0#2 then
        .field (w1.extractLsb' 23 7).toNat
      else .nothing
  else if cls == 9 then (if k == 1 then .field (gA w0).toNat else .nothing)
  else if cls == 10 && op == 0x35 then
    match k with
    | 1 => .field (w1.extractLsb' 21 7).toNat
    | 2 => .field (w1.extractLsb' 14 7).toNat
    | 3 => .field (w1.extractLsb' 7 7).toNat
    | _ => .nothing
  else .nothing

/-- What a window x0 to x3 stands for: a field number, a value, or nothing (R109). -/
inductive UWin where
  | field (n : Nat)
  | value (v : DWord)
  | nothing
  deriving DecidableEq, Repr

/-- The immediate of an LI word under R92: unsigned for shifts, vfirst, vbcast and vshfl. -/
def liValue (w0 : Word) : DWord :=
  let i := w0.extractLsb' 0 8
  if 0x45 ≤ (op7 w0).toNat then i.setWidth 64 else i.signExtend 64

/-- The windows x0 to x3 (R109). -/
def uniWindow (w0 w1 : Word) (k : Nat) : UWin :=
  let op := (op7 w0).toNat
  let cls := opClass (isG w0) op
  let fc := firstClass w0 w1
  if cls == 15 then .nothing
  else if k == 3 then (if cls == 4 || cls == 10 then .value (w1.setWidth 64) else .nothing)
  else if cls ≤ 4 then
    match k with
    | 0 => if fc == 1 || fc == 3 then .field (fB w0).toNat else if fc == 2 then .value (liValue w0) else .nothing
    | 1 =>
      if [0x2E, 0x2F, 0x30, 0x31, 0x6C, 0x6D].contains op && w1.extractLsb' 30 2 == 1#2 then
        .field (w1.extractLsb' 23 7).toNat
      else .nothing
    | _ => .nothing
  else match cls with
    | 5 | 6 | 10 =>
      if op == 0x31 then (if k == 0 then .value ((gD w0).setWidth 64) else if k == 1 then .field (gA w0).toNat else .field (gB w0).toNat)
      else if op == 0x1F then (if k == 0 then .field (gW w0).toNat else if k == 1 then .value ((w0.extractLsb' 0 11).setWidth 64)
        else .nothing)
      else if op == 0x30 || op == 0x32 || op == 0x35 then .nothing
      else match k with
        | 0 => .field (gD w0).toNat
        | 1 => .field (gA w0).toNat
        | _ =>
          if cls == 6 then .value ((gB w0).signExtend 64)
          else if [0x26, 0x34, 0x63, 0x64, 0x68, 0x69, 0x6A, 0x6B, 0x6C, 0x6D, 0x6E, 0x6F].contains op then
            .value ((gB w0).setWidth 64)
          else .field (gB w0).toNat
    | 7 =>
      match k with
      | 0 => .value ((gD w0).setWidth 64)
      | 1 => .value (if op == 0x1E || op == 0x48 then (gK w0).signExtend 64 else (gK w0).setWidth 64)
      | _ => .nothing
    | 8 =>
      match k with
      | 0 => .field (gW w0).toNat
      | 1 => .value ((w0.extractLsb' 0 11).setWidth 64)
      | _ => .nothing
    | _ =>
      match k with
      | 0 => .field (gD w0).toNat
      | 1 => .value ((gB w0).setWidth 64)
      | _ => .nothing

/-- Vector registers that the stray's field behind a window takes, as far as its word and FMT fix them: a generic
instruction of a 64-bit type pairs its fields (R115), each side of vcvt by its own type (R133), vsplit takes two results
(R138), vld.r a miss register (R176), the compare and swap of vatom two operands (R178), gred a pair of its type, emit four at least (R58, R214), the vd
of vdot4 and vdot2 one (R154). DESIGN CHOICE (log entry 78): the data of a memory access take what its record gave at entry. -/
def strayGroup (fr : Frame) (k : Nat) : Nat :=
  let op := (op7 fr.raw0).toNat
  let slot : Nat := match fmtType fr.fmt (op % 2 == 1) with
    | some t => t.regs
    | none => 1
  if isG fr.raw0 then (if k == 1 && (op == 0x3E || op == 0x3F) then slot else if k == 1 && op == 0x49 then 4 else 1)
  else if op == 0x38 || op == 0x39 then
    (if k == 0 then (match Ty.ofCode (fB fr.raw0).toNat with | some t => t.regs | none => 1) else slot)
  else if op == 0x36 || op == 0x37 then (if k == 0 then 2 * slot else slot)
  else if k == 0 && 0x68 ≤ op && op ≤ 0x6B then 1
  else if op ≤ 0x39 || op == 0x5E || op == 0x5F || (0x64 ≤ op && op ≤ 0x6D) then slot
  else if k == 0 then fr.span
  else 1

/-- Uniform registers that the stray's field behind a window takes (R36): a command block of its engine, the words of a
launch, the two results of qtake, an element of 16 bytes (R200; log entry 78). -/
def strayUGroup (fr : Frame) (k : Nat) : Nat :=
  let op := (op7 fr.raw0).toNat
  if !isG fr.raw0 || k != 0 then 1
  else if op == 0x4A || op == 0x65 || (0x58 ≤ op && op ≤ 0x5D) then 8
  else if op == 0x5F then 4
  else if op == 0x62 || op == 0x66 then 3
  else if op == 0x5E || op == 0x61 || op == 0x6B then 2
  else if 0x28 ≤ op && op ≤ 0x2B then fr.span
  else 1

/-- What a vector field names, innermost stray level first; whether it was reached through a window; and the registers
the stray itself takes there. -/
def nameV : List Frame → Nat → Option (VRef × Bool × Nat)
  | [], f => some (.team f, false, 1)
  | fr :: rest, f =>
    if 120 ≤ f && f < 128 then some (.priv (rest.length + 1) (f - 120), false, 1)
    else if 116 ≤ f && f < 120 then
      match vecWindow fr.raw0 fr.raw1 (f - 116) with
      | .field f' => (nameV rest f').map fun r => (r.1, true, max r.2.2 (strayGroup fr (f - 116)))
      | .value v => some (.const v, true, 1)
      | .nothing => none
    else some (.team f, false, 1)

/-- What a uniform field names. -/
def nameU : List Frame → Nat → UName
  | [], f => .reg (.team f) false
  | fr :: rest, f =>
    if 112 ≤ f && f < 128 then .reg (.priv (rest.length + 1) (f - 112)) false
    else if 108 ≤ f && f < 112 then
      match uniWindow fr.raw0 fr.raw1 (f - 108) with
      | .field f' =>
        match nameU rest f' with
        | .reg r _ => .reg r true
        | u => u
      | .value v => .value v
      | .nothing => .nothing
    else .reg (.team f) false

/-- The registers that the strays behind a uniform window take from the one it names. -/
def nameUGroup : List Frame → Nat → Nat
  | [], _ => 1
  | fr :: rest, f =>
    if 108 ≤ f && f < 112 then
      match uniWindow fr.raw0 fr.raw1 (f - 108) with
      | .field f' => max (nameUGroup rest f') (strayUGroup fr (f - 108))
      | _ => 1
    else 1

/-- The causes a reference to registers raises, and the registers (R26, R36, R397). -/
structure Refs (α : Type) where
  causes : List Nat
  regs : List α
  deriving DecidableEq, Repr

/-- A cause under a condition. -/
def causeIf (b : Bool) (c : Nat) : List Nat := if b then [c] else []

/-- The vector register of one field. -/
def Team.vref (tm : Team) (f : Nat) : Refs VRef :=
  match nameV tm.stray f with
  | none => ⟨[0x2A], []⟩
  | some (.team r, win, g) => if tm.vregs.length < r + g then ⟨[if win then 0x2A else 0x04], []⟩ else ⟨[], [.team r]⟩
  | some (.priv d r, _, g) => if 8 < r + g then ⟨[0x2A], []⟩ else ⟨[], [.priv d r]⟩
  | some (.const v, _, _) => ⟨[], [.const v]⟩

/-- `n` consecutive vector registers from the one a field names, which must be a multiple of `align`. A window names the
registers after the one it aliases; a run that reaches v116 in stray mode meets the handler's names one by one (R397); one
past e7 that is no window names registers above every allotment (R36). -/
def Team.vrefs (tm : Team) (f n align : Nat) : Refs VRef :=
  match nameV tm.stray f with
  | none => ⟨[0x2A], []⟩
  | some (.team r, win, g) =>
    if !win && !tm.stray.isEmpty && 116 < r + n then
      let rs := (List.range n).map fun i => tm.vref (f + i)
      ⟨(rs.map (·.causes)).flatten ++ causeIf (r % align != 0) 0x05,
        if rs.all (·.causes.isEmpty) then (rs.map (·.regs)).flatten else []⟩
    else
      let beyond := tm.vregs.length < r + max n g
      ⟨causeIf beyond (if win then 0x2A else 0x04) ++ causeIf (r % align != 0) 0x05,
        if beyond then [] else (List.range n).map fun i => .team (r + i)⟩
  | some (.priv d r, win, g) =>
    let beyond := 8 < r + max n g
    ⟨causeIf beyond (if win then 0x2A else 0x04) ++ causeIf (r % align != 0) 0x05,
      if beyond then [] else (List.range n).map fun i => .priv d (r + i)⟩
  | some (.const v, _, _) => if n ≤ 1 then ⟨[], [.const v]⟩ else ⟨[0x2A], []⟩

/-- The registers of a destination: a window that holds a value is not written (R397). -/
def Refs.written (x : Refs VRef) : Refs VRef :=
  if x.regs.any (fun r => match r with | .const _ => true | _ => false) then ⟨x.causes ++ [0x2A], []⟩ else x

/-- A uniform operand: a register, or the value of a window, which can only be read. -/
inductive UOpnd where
  | reg (r : URef)
  | value (v : DWord)
  deriving DecidableEq, Repr

/-- The uniform register of one field. -/
def Team.uref (tm : Team) (f : Nat) (write : Bool) : Refs UOpnd :=
  match nameU tm.stray f with
  | .nothing => ⟨[0x2A], []⟩
  | .value v => if write then ⟨[0x2A], []⟩ else ⟨[], [.value v]⟩
  | .reg (.team r) win =>
    if tm.uregs.length < r + nameUGroup tm.stray f then ⟨[if win then 0x2A else 0x04], []⟩ else ⟨[], [.reg (.team r)]⟩
  | .reg (.priv d r) _ => if 16 < r + nameUGroup tm.stray f then ⟨[0x2A], []⟩ else ⟨[], [.reg (.priv d r)]⟩

/-- `n` consecutive uniform registers. A field that is a window names the registers after the one it aliases. -/
def Team.urefs (tm : Team) (f n : Nat) (write : Bool) : Refs UOpnd :=
  match nameU tm.stray f with
  | .reg (.team r) true =>
    if tm.uregs.length < r + max n (nameUGroup tm.stray f) then ⟨[0x2A], []⟩
    else ⟨[], (List.range n).map fun i => .reg (.team (r + i))⟩
  | .reg (.priv d r) true =>
    if 16 < r + max n (nameUGroup tm.stray f) then ⟨[0x2A], []⟩ else ⟨[], (List.range n).map fun i => .reg (.priv d (r + i))⟩
  | _ =>
    let rs := (List.range n).map fun i => tm.uref (f + i) write
    ⟨(rs.map (·.causes)).flatten, (rs.map (·.regs)).flatten⟩

/-! ## Reading and writing registers -/

/-- The vector register of a reference. -/
def Team.getV (tm : Team) : VRef → VReg
  | .team n => tm.vregs.getD n (VReg.fresh tm.w)
  | .priv d n => ((tm.frame? d).map fun f => f.ev.toList.getD n (VReg.fresh tm.w)).getD (VReg.fresh tm.w)
  | .const v => ⟨List.replicate tm.w (some v), true, []⟩

/-- The uniform register of a reference. -/
def Team.getU (tm : Team) : URef → UReg
  | .team n => tm.uregs.getD n UReg.zero
  | .priv d n => ((tm.frame? d).map fun f => f.fu.toList.getD n UReg.zero).getD UReg.zero

/-- The value of a uniform operand. -/
def Team.opnd (tm : Team) : UOpnd → DWord
  | .reg r => (tm.getU r).val
  | .value v => v

/-- Is a uniform operand full? -/
def Team.opndFull (tm : Team) : UOpnd → Bool
  | .reg r => (tm.getU r).full
  | .value _ => true

/-- Poison on a uniform operand: a value that is not in a register has none. -/
def Team.opndPoison (tm : Team) : UOpnd → Option Poison
  | .reg r => (tm.getU r).poison
  | .value _ => none

/-- Changes a vector register; the private registers of a depth that has been left are nowhere, and a value stays. -/
def Team.setV (tm : Team) (r : VRef) (f : VReg → VReg) : Team :=
  match r with
  | .team n => { tm with vregs := upd tm.vregs n f }
  | .priv d n => if tm.stray.length < d then tm else { tm with stray := upd tm.stray (tm.stray.length - d) fun fr => { fr with ev := updV fr.ev n f } }
  | .const _ => tm

/-- Changes a uniform register. -/
def Team.setU (tm : Team) (r : URef) (f : UReg → UReg) : Team :=
  match r with
  | .team n => { tm with uregs := upd tm.uregs n f }
  | .priv d n => if tm.stray.length < d then tm else { tm with stray := upd tm.stray (tm.stray.length - d) fun fr => { fr with fu := updV fr.fu n f } }

/-- One register write completes: the value, and full (R27). -/
def Team.complete (tm : Team) : RegWrite → Team
  | .vec r ls p => tm.setV r fun _ => ⟨ls, true, p⟩
  | .uni r v => tm.setU r fun _ => ⟨v, true, none⟩

/-- A destination is marked empty at issue (R27). -/
def Team.markEmpty (tm : Team) : RegWrite → Team
  | .vec r _ _ => tm.setV r fun x => { x with full := false }
  | .uni r _ => tm.setU r fun x => { x with full := false }

/-- The results of an instruction: at once, or in flight until INSTRUCTION_COMPLETE (log entry 3). -/
def Team.results (tm : Team) (overlap : Bool) (ws : List RegWrite) (lines : List LoadLine) (strong : Bool) : Team :=
  if overlap && !ws.isEmpty then
    { ws.foldl Team.markEmpty tm with inflight := tm.inflight ++ [⟨tm.pc, ws, lines, lines, strong⟩] }
  else ws.foldl Team.complete tm

/-- Has a team computed results in flight, whose instructions may raise a flag (R233)? DEDUCED (log entry 124): those of every
instruction but a load count. -/
def Team.computing (tm : Team) : Bool := tm.inflight.any (·.all.isEmpty)

/-! ## Taking a trap (R113, R408-R410, R413, R419) -/

/-- What an instruction traps with: the delivered cause, its subcode, the other causes raised, the detail word, the
lanes of the fault map, and the FX flags it raised. -/
structure Trap where
  cause : Nat
  sub : Nat
  others : List Nat
  detail : DWord
  map : List Nat
  fx : Fx
  deriving DecidableEq, Repr

/-- A trap of one cause with subcode 0. -/
def Trap.of (cause : Nat) : Trap := ⟨cause, 0, [], 0#64, [], 0#6⟩
/-- A trap of one cause with a subcode. -/
def Trap.sub' (cause sub : Nat) : Trap := ⟨cause, sub, [], 0#64, [], 0#6⟩

/-- Of several causes raised together the lowest is delivered, the rest are secondary (R113, R408). -/
def lowest (cs : List Nat) : Nat := cs.foldl min 0x3F

/-- The trap of causes raised together at issue, none where the list is empty. -/
def Trap.ofCauses (cs : List Nat) : Option Trap :=
  if cs.isEmpty then none else some { Trap.of (lowest cs) with others := cs.filter (· != lowest cs) }

/-- The secondary mask (R409 word 1). -/
def secondary (cs : List Nat) : DWord := cs.foldl (fun m c => m ||| (1#64 <<< c)) 0#64

/-- What the surroundings of a team give its instruction: the kernel's and the stray handler's code extents, whether the
fold has begun to halt, whether it is a pre-emption victim, slots and uniform registers free, whether results stay in flight, the moves so far. -/
structure Env where
  kLo : Nat
  kLen : Nat
  hLo : Nat
  hLen : Nat
  halted : Bool
  victim : Bool
  slots : Nat
  unis : Nat
  overlap : Bool
  moves : Nat
  deriving DecidableEq, Repr

/-- The teams of a fold with their numbers. -/
def State.foldTeams (s : State) (f : Fold) : List (Nat × Team) := f.teams.filterMap fun t => (s.team? t).map fun tm => (t, tm)

/-- Is DBGCTL.FREE set for a context (R421)? -/
def State.free (s : State) (c : Nat) : Bool := ((s.ctx c).word 23).testBit 1

/-- Does a stop halt the fold (R407, R422)? -/
def State.halting (s : State) (c : Nat) (st : Stop) : Bool :=
  st.cause != 0x3B && st.cause != 0x3C && !((st.cause == 0x38 || st.cause == 0x39 || st.cause == 0x3A) && s.free c)

/-- Has a fold begun to halt? -/
def State.haltBegun (s : State) (f : Fold) : Bool :=
  (s.foldTeams f).any fun x => x.2.status == .stopped && (x.2.stop.map (s.halting f.ctx)).getD false

/-- The surroundings of a team. -/
def State.env (s : State) (t : Nat) (tm : Team) : Env :=
  let c := s.ctx (s.ctxOf tm)
  let k := (s.fold? tm.fold).map (·.kernel)
  ⟨(k.map (·.entry.toNat)).getD 0, (k.map (·.extent)).getD 0, c.word 4, bitsOf (c.word 5) 31 0,
    ((s.fold? tm.fold).map s.haltBegun).getD false, ((s.fold? tm.fold).map (·.victim)).getD false, s.slotsFree t tm, s.uniFree tm, s.overlap, s.moves⟩

/-- A team's trap: it stops at once with its state as it stands, FX keeping the flags raised; what its record will say is
kept (R409), with the instructions issued since a halt arrived at it (R410). `pc` is the address recorded (R413). -/
def Team.trapAt (tm : Team) (e : Env) (t : Trap) (kind : Nat) (pc origin : CodeAddr) (block : List DWord) (len : Nat)
    (seq : Option (BitVec 3)) : Team :=
  { tm with
    fx := tm.fx ||| t.fx
    status := .stopped
    wait := .none
    blocked := 0
    stepOne := false
    halt := none
    before := 0
    stop := some
      { cause := t.cause, kind := kind, sub := t.sub, sec := secondary t.others, detail := t.detail
        skid := (tm.halt.map (·.2.2)).getD 0, pc := pc, origin := origin, fmt := tm.fmt, map := t.map, block := block
        first := !e.halted && t.cause != 0x3B && t.cause != 0x3C
        stray := !tm.stray.isEmpty, depth2 := tm.stray.length == 2, margin := t.cause == 0x30, seqno := none, run := none
        len := len, seq := seq, was := tm.status } }

/-- The address of the stray a handler serves, for word 5 of a record (R419). -/
def Team.origin (tm : Team) : CodeAddr := (tm.stray.head?.map (·.pc)).getD 0#48

/-- The trapping instruction at the team's pc. -/
def Team.trap (tm : Team) (e : Env) (t : Trap) (len : Nat) (seq : Option (BitVec 3)) : Team :=
  tm.trapAt e t 0 tm.pc tm.origin [] len seq

/-- The wait for registers among those given that are not full (R27, R28). -/
def Team.await (tm : Team) (vs : List VRef) (us : List UOpnd) : Wait :=
  .source (vs.filter fun r => !(tm.getV r).full) (us.filterMap fun u => match u with
    | .reg r => if (tm.getU r).full then none else some r
    | .value _ => none)

/-- A team does not issue: it waits. -/
def Team.block (tm : Team) (e : Env) (w : Wait) : Team := { tm with wait := w, waitAt := e.moves + 1 }

/-! ## The next address (R46-R51, R54, R57) -/

/-- A condition of R47 on the flags. -/
def Flags.holds (f : Flags) : Nat → Bool
  | 0 => true
  | 1 => f.z
  | 2 => !f.z
  | 3 => f.n != f.v
  | 4 => f.n == f.v
  | 5 => !f.z && f.n == f.v
  | 6 => f.z || f.n != f.v
  | 7 => !f.c
  | 8 => f.c
  | _ => false

/-- Is an address inside the extent the team fetches from: the kernel's, or in stray mode the handler's (R57, R401)? -/
def Team.inExtent (tm : Team) (e : Env) (a : Nat) : Bool :=
  if tm.stray.isEmpty then e.kLo ≤ a && a < e.kLo + e.kLen else e.hLo ≤ a && a < e.hLo + e.hLen

/-- The team goes on at an address; past 2^48 - 1 the fetch will trap (R57). -/
def Team.goto (tm : Team) (a : Nat) : Team :=
  { tm with lastPc := tm.pc, pc := BitVec.ofNat 48 a, pcOver := 2 ^ 48 ≤ a }

/-- A taken jump: a target outside the extent traps at the selecting instruction (R57). -/
def Team.jump (tm : Team) (e : Env) (a : Nat) : Except Trap Team :=
  if tm.inExtent e a then .ok (tm.goto a) else .error (.sub' 0x0C 0)

/-- The choice a SEQ makes, on the flags given (R46); `next` is the address after the instruction. -/
def Team.seq (tm : Team) (e : Env) (sq : BitVec 3) (fl : Flags) (next : Nat) : Except Trap Team :=
  match sq.toNat with
  | 0 => .ok (tm.goto next)
  | 5 =>
    match tm.arms with
    | [] => .error (.sub' 0x09 1)
    | a :: rest => { tm with arms := rest, fmt := a.fmt }.jump e a.addr.toNat
  | 6 =>
    match tm.calls with
    | [] => .error (.sub' 0x0A 1)
    | a :: rest => { tm with calls := rest }.jump e a.toNat
  | 7 => if tm.arms.isEmpty then .ok { tm.goto next with status := .ending } else .error (.of 0x0B)
  | k =>
    match tm.slots.getD (k - 1) none with
    | none => .error (.sub' 0x0C 2)
    | some t => if fl.holds t.cond then tm.jump e t.addr.toNat else .ok (tm.goto next)

/-- The cause with which a halt stops a team that did not cause it: the sibling's, or a victim's (R410, R424). -/
def Env.haltCause (e : Env) : Nat := if e.victim then 0x3C else 0x3B

/-- A halt arrives at a team of a fold: it may issue `n` more instructions, 64 at most, and stops at once where it may issue
none (R410). -/
def Team.haltArrives (tm : Team) (e : Env) (n : Nat) : Team :=
  if n == 0 then tm.trapAt e (.of e.haltCause) 1 tm.pc tm.origin [] 0 none
  else { tm with halt := some (e.haltCause, min n 64, 0), before := 0 }

/-- The skid of R410: a team at which a halt has arrived counts what it issues and stops at its last instruction; a halt
that has begun arrives within 24 cycles, so after at most 24 instructions. -/
def Team.skids (tm : Team) (e : Env) : Team :=
  match tm.halt with
  | some (c, n, k) =>
    let tm := { tm with halt := some (c, n, k + 1) }
    if n ≤ k + 1 then tm.trapAt e (.of c) 1 tm.pc tm.origin [] 0 none else tm
  | none =>
    if !e.halted && !e.victim then tm
    else if 24 ≤ tm.before + 1 then tm.haltArrives e 64
    else { tm with before := tm.before + 1 }

/-- An instruction has issued and its team goes on: a halt that has arrived stops it after its skid (R410). -/
def Team.issued (tm : Team) (e : Env) : Team :=
  Team.skids { tm with wait := .none, blocked := 0, lastIssue := e.moves + 1 } e

/-- An instruction has retired: single step stops the team after it, a stray's handler counting with the stray (R422); a
halt that has arrived stops it after its skid. -/
def Team.retired (tm : Team) (e : Env) : Team :=
  if tm.status != .run then { tm with wait := .none, blocked := 0, lastIssue := e.moves + 1 }
  else if tm.stepOne && tm.stray.isEmpty then
    Team.trapAt { tm with wait := .none, blocked := 0, lastIssue := e.moves + 1 } e (.of 0x39) 0 tm.pc 0#48 [] 0 none
  else tm.issued e

/-! ## Issue of a lane instruction on registers (R21-R28, R110-R113) -/

/-- How a vector source is used (R110); `merge` is vmerge's, whose maps do not intersect. -/
inductive SrcUse where
  | value | map | table | merge
  deriving DecidableEq, Repr

/-- A vector source field: the registers it takes, the multiple its register must be, its wait bit. -/
structure VSrc where
  f : Nat
  n : Nat
  align : Nat
  wait : Bool
  use : SrcUse
  deriving DecidableEq, Repr

/-- A uniform source field. -/
structure USrc where
  f : Nat
  wait : Bool
  deriving DecidableEq, Repr

/-- A vector destination field; its registers hold `parts` results of one width each, two for vsplit (R138). -/
structure VDst where
  f : Nat
  n : Nat
  align : Nat
  parts : Nat
  deriving DecidableEq, Repr

/-- The lanes of a group of registers as one value each: the lower register in the lower bits (R26); the map is the
intersection (R21). -/
def groupLanes (w : Nat) : List VReg → List (Option Nat)
  | [] => List.replicate w none
  | [r] => r.lanes.map (Option.map BitVec.toNat)
  | r :: rs =>
    List.zipWith (fun (a : Option Word) (b : Option Nat) =>
      match a, b with
      | some x, some y => some (x.toNat + y * 2 ^ 32)
      | _, _ => none) r.lanes (groupLanes w rs)

/-- Register `q` of a group: 32 bits of each lane. -/
def splitLanes (q : Nat) (ls : List (Option Nat)) : List (Option Word) :=
  ls.map (Option.map fun x => wordOfNat (x >>> (32 * q)))

/-- What a lane instruction computes: for each destination the new lanes (the set I of it), the flags, the lanes that
raised NV, and the lanes of table sources it read. -/
structure LaneResult where
  outs : List (List (Option Nat))
  fx : Fx
  nv : List Nat
  read : List Nat
  deriving DecidableEq, Repr

/-- A lane instruction as issue sees it; `sem` takes W, the lanes of each source, the uniform values. -/
structure LaneOp where
  srcs : List VSrc
  unis : List USrc
  dsts : List VDst
  keep : Bool
  typed : Bool
  sem : Nat → List (List (Option Nat)) → List DWord → LaneResult

/-- The keep form: old lanes survive outside the new set (R22). -/
def keepLanes {α : Type} : List (Option α) → List (Option α) → List (Option α)
  | o :: os, n :: ns => (match n with | some x => some x | none => o) :: keepLanes os ns
  | os, [] => os
  | [], ns => ns

/-- The poison that stays on the kept lanes of a destination (R460). -/
def keptPoison (old : VReg) (new : List (Option Nat)) : List (Nat × Poison) :=
  old.poison.filter fun p => (new.getD p.1 none).isNone

/-- The lanes that hold a value in every register of a destination: the map the keep form starts from, which applies to a
pair as one (R26, R117). DESIGN CHOICE (log entry 84): where the registers of the pair differ, the lanes all of them hold. -/
def commonLanes : List VReg → Nat → Bool
  | [], _ => true
  | r :: rs, j => (r.lanes.getD j none).isSome && commonLanes rs j

/-- The lanes of a register that stand in a set. -/
def maskLanes {α : Type} (p : Nat → Bool) (ls : List (Option α)) : List (Option α) :=
  ls.mapIdx fun j x => if p j then x else none

/-- The writes of one destination; in the keep form all its registers take one map, old lanes and new ones (R26, R117), and with
no new lane they are unchanged (R24). -/
def dstWrites (tm : Team) (keep : Bool) (refs : List VRef) (out : List (Option Nat)) : List RegWrite :=
  let old := commonLanes (refs.map tm.getV)
  (List.range refs.length).map fun q =>
    let r := refs.getD q (.team 0)
    let new := splitLanes q out
    if keep && out.all Option.isNone then .vec r (tm.getV r).lanes (tm.getV r).poison
    else if keep then .vec r (keepLanes (maskLanes old (tm.getV r).lanes) new) ((keptPoison (tm.getV r) out).filter fun p => old p.1)
    else .vec r new []

/-- The registers of each result of the destinations. -/
def dstParts : List VDst → List (List VRef) → List (List VRef)
  | x :: xs, r :: rs =>
    ((List.range x.parts).map fun p => (r.drop (p * (x.n / x.parts))).take (x.n / x.parts)) ++ dstParts xs rs
  | _, _ => []

/-- Slots that writes draw beyond what their destinations hold (R20). -/
def slotsDrawn (tm : Team) (ws : List RegWrite) : Nat :=
  (ws.map fun w => match w with
    | .vec r ls _ => slotsOf ls - slotsOf (tm.getV r).lanes
    | .uni _ _ => 0).sum

/-- STRICT: do maps differ (R25)? -/
def mapsDiffer : List (List (Option Nat)) → Bool
  | a :: b :: rest => a.map Option.isSome != b.map Option.isSome || mapsDiffer (b :: rest)
  | _ => false

/-- STRICT: do two maps share a lane (R25)? -/
def mapsOverlap : List (List (Option Nat)) → Bool
  | [a, b] => (List.zipWith (fun (x y : Option Nat) => x.isSome && y.isSome) a b).any id
  | _ => false

/-- The poisoned lanes that reads meet: in value sources the lanes of their intersection, in tables those read. -/
def poisonMet (tm : Team) (refs : List (List VRef)) (uses : List SrcUse) (vals : List (List (Option Nat)))
    (read : List Nat) : List (Nat × Poison) :=
  let vsets := ((uses.zip vals).filter fun p => p.1 == .value).map (·.2)
  let inI (j : Nat) : Bool := vsets.all fun ls => (ls.getD j none).isSome
  ((uses.zip refs).map fun p =>
    let all := (p.2.map fun r => (tm.getV r).poison).flatten
    match p.1 with
    | .value => all.filter fun q => inI q.1
    | .merge => all
    | .table => all.filter fun q => read.contains q.1
    | .map => []).flatten

/-- The poison that uniform operands bring to lanes: to every lane of I (R460). -/
def poisonUni (tm : Team) (w : Nat) (us : List UOpnd) (uses : List SrcUse) (vals : List (List (Option Nat))) : List (Nat × Poison) :=
  let vsets := ((uses.zip vals).filter fun p => p.1 == .value).map (·.2)
  ((us.filterMap tm.opndPoison).map fun p =>
    ((List.range w).filter fun j => vsets.all fun ls => (ls.getD j none).isSome).map fun j => (j, p)).flatten

/-- The lanes of values without those that stand in a list. -/
def withoutLanes (ls : List Nat) (vals : List (List (Option Nat))) : List (List (Option Nat)) :=
  vals.map fun v => v.mapIdx fun j x => if ls.contains j then none else x

/-- The cause that a poisoned value raises (R459, R460). -/
def poisonCode : Poison → Nat
  | .margin => 0x30
  | .plain => 0x31

/-- The trap of poisoned values: with margin attribution 0x30, without it 0x31 (R459, R460). -/
def poisonTrap (met : List (Nat × Poison)) : Option Trap :=
  let m := (met.filter (·.2 == .margin)).map (·.1)
  let p := (met.filter (·.2 == .plain)).map (·.1)
  if !m.isEmpty then some { Trap.of 0x30 with map := m, others := causeIf (!p.isEmpty) 0x31 }
  else if !p.isEmpty then some { Trap.of 0x31 with map := p }
  else none

/-- A trap of an instruction that raises further causes: the lowest is delivered (R408). -/
def Trap.join (t : Trap) (cs : List Nat) : Trap :=
  let all := t.cause :: (t.others ++ cs)
  let others := all.filter (· != lowest all)
  if lowest all == t.cause then { t with others := others } else { t with cause := lowest all, sub := 0, map := [], others := others }

/-- What the checks of issue find: the team waits, traps, or may go on with its operands. -/
inductive Check (α : Type) where
  | wait (w : Wait)
  | trap (t : Trap)
  | go (a : α)

/-- The issue of a lane instruction: its writes and the flags it raises, or why not (R113). DESIGN CHOICE (log entry 74):
STRICT compares the sources, each typed pair by the intersection of its maps (R21), and not the registers of a pair. DESIGN CHOICE
(log entry 125): a trap 0x1D of FXT is taken before the wait on slots (R42). -/
def Team.laneIssue (tm : Team) (e : Env) (op : LaneOp) : Check (List RegWrite × Fx) :=
  let srcs := op.srcs.map fun x => tm.vrefs x.f x.n x.align
  let unis := op.unis.map fun x => tm.uref x.f false
  let dsts := op.dsts.map fun x => (tm.vrefs x.f x.n x.align).written
  let full (r : VRef) : Bool := (tm.getV r).full
  -- R27, R28: what is not full and not under a wait bit holds the instruction back
  let needV := (((op.srcs.zip srcs).filter fun p => !p.1.wait).map (·.2.regs)).flatten ++ (dsts.map (·.regs)).flatten
  let needU := (((op.unis.zip unis).filter fun p => !p.1.wait).map (·.2.regs)).flatten
  let emptied := ((op.srcs.zip srcs).any fun p => p.1.wait && !p.2.regs.all full) ||
    (op.unis.zip unis).any fun p => p.1.wait && !p.2.regs.all tm.opndFull
  if !needV.all full || !needU.all tm.opndFull then .wait (tm.await needV needU)
  else
    let vals := srcs.map fun r => groupLanes tm.w (r.regs.map tm.getV)
    let strict := (fmtEnv tm.fmt).strict
    -- R113 tests all causes together: the maps of the sources whose registers can be read are compared in any case
    let ofUse (u : SrcUse) := (((op.srcs.map (·.use)).zip (srcs.zip vals)).filter fun p =>
      p.1 == u && !p.2.1.regs.isEmpty).map (·.2.2)
    let regCauses := (srcs.map (·.causes)).flatten ++ (unis.map (·.causes)).flatten ++ (dsts.map (·.causes)).flatten
    let causes := regCauses ++ causeIf (!op.typed) 0x0E ++ causeIf emptied 0x06 ++
      causeIf (strict && mapsDiffer (ofUse .value)) 0x07 ++ causeIf (strict && mapsOverlap (ofUse .merge)) 0x08
    match Trap.ofCauses causes with
    | some t => .trap t
    | none =>
      let us := unis.map fun r => (r.regs.map tm.opnd).headD 0#64
      let res := op.sem tm.w vals us
      let met := poisonMet tm (srcs.map (·.regs)) (op.srcs.map (·.use)) vals res.read ++
        poisonUni tm tm.w (unis.map (·.regs)).flatten (op.srcs.map (·.use)) vals
      match poisonTrap met with
      | some t =>
        -- the lanes that meet no poison execute: an invalid operation among them is the lower cause (R408)
        let res := op.sem tm.w (withoutLanes (met.map (·.1)) vals) us
        if (fmtEnv tm.fmt).fxt && !res.nv.isEmpty then
          .trap { Trap.of 0x1D with map := res.nv, fx := res.fx, others := t.cause :: t.others }
        else .trap { t with fx := res.fx }
      | none =>
        if (fmtEnv tm.fmt).fxt && !res.nv.isEmpty then .trap { Trap.of 0x1D with map := res.nv, fx := res.fx }
        else
          let ws := ((dstParts op.dsts (dsts.map (·.regs))).zipWith (dstWrites tm op.keep) res.outs).flatten
          if e.slots < slotsDrawn tm ws then .wait (.slots (slotsDrawn tm ws)) else .go (ws, res.fx)

/-- A team issues a lane instruction of `len` bytes. -/
def Team.laneStep (tm : Team) (e : Env) (len : Nat) (op : LaneOp) : Team :=
  match tm.laneIssue e op with
  | .wait w => tm.block e w
  | .trap t => tm.trap e t len none
  | .go (ws, fx) =>
    (({ tm.results e.overlap ws [] false with fx := tm.fx ||| fx }).goto (tm.pc.toNat + len)).retired e

/-! ## Issue of a group instruction on registers (R189-R191) -/

/-- A run of uniform registers a field names. -/
structure UUse where
  f : Nat
  n : Nat
  deriving DecidableEq, Repr

/-- What a group instruction computes: values for its destinations, the flags, FX flags and whether NV was raised. -/
structure GroupResult where
  vals : List DWord
  flags : Option Flags
  fx : Fx
  deriving DecidableEq, Repr

/-- A group instruction on registers. -/
structure GroupOp where
  unis : List UUse
  vecs : List VSrc
  dsts : List UUse
  typed : Bool
  fxt : Bool
  sem : Nat → List (List (Option Nat)) → List DWord → GroupResult

/-- The operands of a group instruction once its registers are full and its checks have passed. -/
structure GroupOpnds where
  vals : List (List (Option Nat))
  us : List DWord
  dsts : List URef
  deriving DecidableEq, Repr

/-- The checks of issue of a group instruction (R113, R189). -/
def Team.groupCheck (tm : Team) (unis : List UUse) (vecs : List VSrc) (dsts : List UUse) (typed : Bool) :
    Check GroupOpnds :=
  let us := unis.map fun x => tm.urefs x.f x.n false
  let vs := vecs.map fun x => tm.vrefs x.f x.n x.align
  let ds := dsts.map fun x => tm.urefs x.f x.n true
  let needV := (vs.map (·.regs)).flatten
  let needU := ((us ++ ds).map (·.regs)).flatten
  if !needU.all tm.opndFull || !needV.all (fun v => (tm.getV v).full) then .wait (tm.await needV needU)
  else
    let causes := (us.map (·.causes)).flatten ++ (vs.map (·.causes)).flatten ++ (ds.map (·.causes)).flatten ++
      causeIf (!typed) 0x0E
    match Trap.ofCauses causes with
    | some t => .trap t
    | none =>
      let vals := vs.map fun r => groupLanes tm.w (r.regs.map tm.getV)
      let met := poisonMet tm (vs.map (·.regs)) (vecs.map (·.use)) vals [] ++
        ((us.map (·.regs)).flatten.filterMap tm.opndPoison).map fun p => (0, p)
      match poisonTrap met with
      | some t => .trap { t with map := [] }
      | none =>
        .go ⟨vals, (us.map fun r => r.regs.map tm.opnd).flatten,
          (ds.map (·.regs)).flatten.filterMap fun o => match o with | .reg r => some r | .value _ => none⟩

/-- A group instruction whose effect gives `tm'` retires: its SEQ acts on the flags as they stand (R46, R190). A SEQ
that traps leaves the team as it was before the instruction (log entry 13). -/
def Team.finish (tm tm' : Team) (e : Env) (len : Nat) (sq : BitVec 3) (fx : Fx) : Team :=
  match tm'.seq e sq tm'.flags (tm.pc.toNat + len) with
  | .error t => tm.trap e { t with fx := fx } len (some sq)
  | .ok tm'' => tm''.retired e

/-- A group instruction completes: writes, flags, FX, then SEQ. -/
def Team.groupDone (tm : Team) (e : Env) (len : Nat) (sq : BitVec 3) (ws : List RegWrite) (fl : Option Flags) (fx : Fx) :
    Team :=
  tm.finish { tm.results e.overlap ws [] false with flags := fl.getD tm.flags, fx := tm.fx ||| fx } e len sq fx

/-- A team issues a group instruction of `len` bytes on registers. -/
def Team.groupStep (tm : Team) (e : Env) (len : Nat) (sq : BitVec 3) (op : GroupOp) : Team :=
  match tm.groupCheck op.unis op.vecs op.dsts op.typed with
  | .wait w => tm.block e w
  | .trap t => tm.trap e t len (some sq)
  | .go o =>
    let r := op.sem tm.w o.vals o.us
    if op.fxt && (fmtEnv tm.fmt).fxt && r.fx.getLsbD 0 then tm.trap e { Trap.of 0x1D with fx := r.fx } len (some sq)
    else tm.groupDone e len sq (List.zipWith (fun d v => .uni d v) o.dsts r.vals) r.flags r.fx

/-! ## Steps -/

/-- The outcome type of this machine. -/
abbrev Out1 := Host.Outcome State Fault Refusal

/-- A step of the team that issues, which changes that team alone; a halted team issues nothing (R410). -/
def teamStep (s : State) (f : Env → Team → Team) : Out1 :=
  match s.team? s.cur with
  | some tm =>
    if tm.status == .run then .next { s.updTeam s.cur fun _ => f (s.env s.cur tm) tm with moves := s.moves + 1 }
    else .next s
  | none => .next s

/-- The team that issues, as it stands after a step that changed more than the team. -/
def stepped (s : State) (tm : Team) : Out1 := .next { s.updTeam s.cur fun _ => tm with moves := s.moves + 1 }

/-- A step of the team that issues with its fold, which may change more than the team. -/
def foldStep (s : State) (f : Env → Fold → Team → Out1) : Out1 :=
  match s.team? s.cur with
  | some tm =>
    if tm.status == .run then
      match s.fold? tm.fold with
      | some fd => f (s.env s.cur tm) fd tm
      | none => .next s
    else .next s
  | none => .next s

/-- A step of a group instruction of the team on registers. -/
def groupExec (len : Nat) (sq : BitVec 3) (op : Team → GroupOp) (s : State) : Out1 :=
  teamStep s fun e tm => tm.groupStep e len sq (op tm)

/-- A step of another agent. -/
def moved (s : State) : Out1 := .next { s with moves := s.moves + 1 }

end Sys2Proof.Machine
end

