-- ==== Sys2Proof/Machine/Bus.lean ====
section
/-!
DEFINITION. Sys2Proof/Machine/Bus.lean: the physical address space (R314-R316, R477): memory, the core-local stores, the
landing windows (R317), and the registers of core control and of the control space with what a write to them does.
-/
namespace Sys2Proof.Machine

/-! ## Landing windows (R317) -/

/-- The register a complete landing leaves: byte 4j to 4j + 3 is lane j. -/
def landLanes (w n : Nat) (bs : List (Option Byte)) : List (Option Word) :=
  (List.range w).map fun j =>
    if j < n then some (wordOfNat (numOf ((List.range 4).map fun i => (bs.getD (4 * j + i) none).getD 0#8))) else none

/-- A landing whose bytes have all arrived turns its register full and releases the window. -/
def Team.landDone (tm : Team) (l : Landing) : Team :=
  { tm.setV l.reg fun _ => ⟨landLanes tm.w l.n l.bytes, true, l.poison⟩ with
    landings := tm.landings.filter (·.window != l.window) }

/-- A byte reaches a window of a team: a window that is not bound takes it nowhere (R56); otherwise it sets its arrival
bit. The error is the subcode of cause 0x1B; `again` lets a repeated byte pass (R376). -/
def Team.landByte (tm : Team) (win off : Nat) (b : Byte) (ps : List Poison) (byCopy again : Bool) : Except Nat Team :=
  match tm.landings.find? (·.window == win) with
  | none => .ok tm
  | some l =>
    if 4 * l.n ≤ off then .error 1
    else if (l.bytes.getD off none).isSome then (if again then .ok tm else .error 2)
    else
      let l' := { l with
        bytes := upd l.bytes off fun _ => some b
        byCopy := l.byCopy || byCopy
        poison := l.poison ++ ps.map fun p => (off / 4, p) }
      let tm' := { tm with landings := tm.landings.map fun x => if x.window == win then l' else x }
      if l'.bytes.all (·.isSome) then .ok (tm'.landDone l') else .ok tm'

/-- The team of a partition, of a fold resident there, to whose register a window is bound (R156, R319). -/
def State.landTeam (s : State) (place win : Nat) : Option Nat :=
  (List.range s.teams.length).find? fun t => ((s.team? t).map fun o =>
    s.resident o && s.place o == place && o.landings.any (·.window == win)).getD false

/-- A byte written to a window of a partition. -/
def State.landWrite (s : State) (place win off : Nat) (b : Byte) (ps : List Poison) (byCopy again : Bool) : Except Nat State :=
  match s.landTeam place win with
  | none => .ok s
  | some t =>
    match s.team? t with
    | none => .ok s
    | some tm =>
      match tm.landByte win off b ps byCopy again with
      | .error n => .error n
      | .ok tm' => .ok (s.updTeam t fun _ => tm')

/-! ## Regions -/

/-- What stands at a physical address. -/
inductive Region where
  | memory
  | landing (place win off : Nat)
  | core (core off : Nat)
  | control (off : Nat)
  | hole
  deriving DecidableEq, Repr

/-- Is a physical address cached? The on-chip and the control space are not (R321, R477). -/
def cacheable (pa : Nat) : Bool := pa < Config.controlBase

/-- Base of a core's on-chip space (R314). -/
def coreBase (core : Nat) : Nat := Config.onChipBase + core * 0x1000000
/-- Physical address of a byte of a core's scratch. -/
def scratchAddr (core off : Nat) : Nat := coreBase core + off
/-- Physical address of a byte of a core's accumulator store. -/
def accAddr (core off : Nat) : Nat := coreBase core + 0x400000 + off

/-- The region of a physical address (R314, R477). -/
def regionOf (pa : Nat) : Region :=
  if Config.onChipBase ≤ pa then
    let x := pa - Config.onChipBase
    let c := x / 0x1000000
    let o := x % 0x1000000
    if 128 ≤ c then .hole
    else if o < Config.scratchBytes then .memory
    else if 0x400000 ≤ o && o < 0x400000 + Config.accBytes then .memory
    else if 0x800000 ≤ o && o < 0xC00000 then
      let y := o - 0x800000
      .landing (c * 32 + y / 0x20000) (y % 0x20000 / 0x1000) (y % 0x1000)
    else if 0xF00000 ≤ o && o < 0xF10000 then .core c (o - 0xF00000)
    else .hole
  else if Config.controlBase ≤ pa then .control (pa - Config.controlBase)
  else .memory

/-! ## Registers as words -/

/-- The compute domain of a paddock (R455). -/
def domainOf (pad : Nat) : Nat := pad / 4
/-- The pasture of a paddock. -/
def pastureOf (pad : Nat) : Nat := pad / 8

/-- LSTAT (R381). -/
def Port.word (p : Port) : Nat :=
  p.fecc % 2 ^ 32 * 2 ^ 32 + min p.drop 0xFFFF * 2 ^ 16 + min p.fecu 0xFF * 2 ^ 8 + p.lanes * 16 +
    (if p.en then 4 else 0) + (if p.up then 2 else 0) + (if p.trn then 1 else 0)

/-- PWRDOM and BASEDOM (R468). -/
def Domain.word (d : Domain) : Nat :=
  (BitVec.ofInt 8 (min d.temp 127)).toNat * 2 ^ 40 + d.thealth.toNat * 2 ^ 36 + d.ihealth.toNat * 2 ^ 34 +
    d.level * 2 ^ 31 + (if d.cap then 2 ^ 30 else 0) + (if d.wa then 2 ^ 29 else 0) + (if d.men then 2 ^ 28 else 0) +
    (if d.hold then 2 ^ 27 else 0) + d.offset * 2 ^ 16 + d.guard * 2 ^ 8 + d.volt

/-- A slice is in the array of a paddock (R261 BUSY). -/
def Paddock.busy (p : Paddock) : Bool := p.table.any fun e => e.live && !e.granted.isEmpty

/-- A slice in the array is being replayed (R260, R261 RPL). -/
def Paddock.replaying (p : Paddock) : Bool := p.table.any fun e => e.live && e.granted.any (·.replay)

/-- ARRCTL (R261). -/
def Paddock.arrWord (p : Paddock) : Nat :=
  p.arrctl.toNat % 2 + (if p.replaying then 2 else 0) + (if p.busy then 4 else 0)

/-- The words of an entry of the black-box record (R482). -/
def BBEntry.words (e : BBEntry) : List Nat :=
  [e.time, e.seq % 2 ^ 32 * 2 ^ 32 + e.unit * 2 ^ 24 + e.domain * 2 ^ 16 + e.event, e.w2.toNat, e.w3.toNat]

/-- The words of a queue in QSTATE (R316): t, a, k, h, c, descriptor, owner, flags. The owner is the linear index of the
fold, and the word of flags, whose layout the manual does not give, is a free value (log entry 16), by the word's address. -/
def State.queueWord (s : State) (q : Queue) (pa k : Nat) : Nat :=
  match k with
  | 0 => q.t | 1 => q.a | 2 => q.k | 3 => q.h | 4 => q.c
  | 5 => q.desc.toNat
  | 6 => (q.owner.bind fun f => (s.fold? f).map (·.linear)).getD 0
  | _ => numOf ((List.range 8).map fun i => Config.freeByte s.moves (pa + i))

/-- The copy write pointers held on a core's channel, in the order of the folds (R316; the place of a fold's pointer
among the 64 is the device's own choice). -/
def State.chanPtrs (s : State) (core ch : Nat) : List Nat :=
  ((s.folds.filter fun f => f.status == .resident && f.paddock == core / 4).map fun f =>
    (f.chans.filter fun c => c.core == core % 4 && c.ch == ch).map (·.ptr)).flatten

/-- Register `o` (a multiple of 8) of a core's control region (R316, R468). -/
def State.coreReg (s : State) (core o : Nat) : Nat :=
  let p := core / 4
  let d := s.domains.getD (domainOf p) Domain.reset
  if o == 0x0000 then core + (if d.wa then 2 ^ 8 else 0)
  else if o == 0x1000 && core % 4 == 0 then (s.pad p).arrWord
  else if 0x2000 ≤ o && o < 0x2400 && core % 4 == 0 then
    s.queueWord ((s.pad p).queues.getD ((o - 0x2000) / 64) Queue.empty) (coreBase core + 0xF00000 + o) (o % 64 / 8)
  else if 0x3000 ≤ o && o < 0x3800 then (s.chanPtrs core ((o - 0x3000) / 512)).getD (o % 512 / 8) 0
  else if o == 0x4000 then d.word
  else if o == 0x4008 then (s.domains.getD (8 + pastureOf p) Domain.reset).word
  else 0

/-- Doubleword `o` (a multiple of 8) of the control space (R477, R478). -/
def State.controlReg (s : State) (o : Nat) : Nat :=
  if o < 0x1000 then (s.caps.getD (o / 8) 0#64).toNat
  else if 0x10000 ≤ o && o < 0x10400 then (if o % 0x40 == 0 then (s.ports.getD ((o - 0x10000) / 0x40) Port.reset).word else 0)
  else if o == 0x10800 then s.replay.toNat
  else if 0x12000 ≤ o && o < 0x14000 then ((s.xlate.lookup ((o - 0x12000) / 8)).getD 0#64).toNat
  else if o == 0x20000 then s.tinv0.toNat
  else if o == 0x20008 then s.tinv1.toNat
  else if 0x100000 ≤ o && o < 0x140000 then
    match s.bbox.find? fun e => e.seq % 8192 == (o - 0x100000) / 32 with
    | some e => e.words.getD (o % 32 / 8) 0
    | none => 0
  else 0

/-- The byte at a physical address. -/
def State.busByte (s : State) (pa : Nat) : Byte :=
  match regionOf pa with
  | .memory => memGet s.mem pa
  | .landing _ _ _ => Config.freeByte s.moves pa
  | .core c o => BitVec.ofNat 8 (s.coreReg c (o / 8 * 8) >>> (8 * (o % 8)))
  | .control o => BitVec.ofNat 8 (s.controlReg (o / 8 * 8) >>> (8 * (o % 8)))
  | .hole => 0#8

/-- Bytes from a physical address up. -/
def State.busRead (s : State) (pa : Nat) : Nat → List Byte
  | 0 => []
  | n + 1 => s.busByte pa :: s.busRead (pa + 1) n

/-- A doubleword at a physical address. -/
def State.bus64 (s : State) (pa : Nat) : Nat := numOf (s.busRead pa 8)

/-! ## Writes -/

/-- Poison of the 8-byte units of a range (log entry 17). -/
def State.poisonIn (s : State) (pa n : Nat) : List Poison :=
  (s.poison.filter fun p => pa / 8 ≤ p.1 && p.1 ≤ (pa + n - 1) / 8).map (·.2)

/-- The causes that poison raises as data arrives (R166): 0x30 with margin attribution, else 0x17. -/
def poisonCauses (ps : List Poison) : List Nat :=
  causeIf (ps.contains .plain) 0x17 ++ causeIf (ps.contains .margin) 0x30

/-- Bytes written to memory; a unit replaced whole loses its poison (R460). -/
def State.memStore (s : State) (pa : Nat) (bs : List Byte) : State :=
  { s with
    mem := memWrite s.mem pa bs
    poison := s.poison.filter fun p => !(pa ≤ 8 * p.1 && 8 * p.1 + 8 ≤ pa + bs.length) }

/-- Logs an event; a frozen record takes none. Event 0x0008 freezes it (R482, R483). -/
def State.log (s : State) (unit domain event : Nat) (w2 w3 : DWord) : State :=
  if s.frozen then s
  else
    { s with
      bbox := (s.bbox.filter fun e => e.seq + 8192 != s.bbSeq) ++ [⟨s.usec, s.bbSeq, unit, domain, event, w2, w3⟩]
      bbSeq := s.bbSeq + 1
      frozen := event == 8 }

/-- A write to LSTAT: EN, and the counts cleared where zero is written (R381). -/
def Port.write (p : Port) (v : Nat) : Port :=
  let en := v.testBit 2
  { p with
    drop := if bitsOf v 31 16 == 0 then 0 else p.drop
    fecu := if bitsOf v 15 8 == 0 then 0 else p.fecu
    en := en
    trn := if en then p.trn || !p.en else false
    up := en && p.up
    lanes := if en then p.lanes else 0 }

/-- A write to a port's LSTAT; a port that is up and is disabled goes down, which is logged (R381, R483). -/
def State.portWrite (s : State) (n v : Nat) : State :=
  let down := ((s.ports[n]?).map fun p => p.en && p.up).getD false && !v.testBit 2
  let s := { s with ports := upd s.ports n (·.write v) }
  if down then s.log n (8 + n / 4) 7 0#64 0#64 else s

/-- Where the pages of a TLB entry begin, a merged one's with its span (R434). -/
def TlbEnt.below (t : TlbEnt) : Nat := if t.span.isSome then t.vpn / 16 * 1048576 else t.vpn * 65536
/-- And where they end. -/
def TlbEnt.above (t : TlbEnt) : Nat := if t.span.isSome then (t.vpn / 16 + 1) * 1048576 else (t.vpn + 1) * 65536

/-- Drops the translations of a context that overlap a range, merged ones included; length 0 is the whole context (R435,
R478). -/
def State.tlbDrop (s : State) (ctx base len : Nat) : State :=
  { s with tlb := s.tlb.filter fun t =>
      !(t.ctx == ctx && (len == 0 || (base < t.above && t.below < base + len))) }

/-- A write to REPLAY: ignored while GO reads 1 (R478). -/
def State.writeReplay (s : State) (v : DWord) : State :=
  if s.replay.msb then s else { s with replay := dwordOfNat ((if v.msb then 2 ^ 63 else 0) + bitsOf v.toNat 5 0) }

/-- A write to TINV0: ignored while GO reads 1; GO drops the entries of the range (R435, R478). -/
def State.writeTinv0 (s : State) (v : DWord) : State :=
  if s.tinv0.msb then s
  else
    let x := v.toNat
    let s := { s with tinv0 := dwordOfNat ((if v.msb then 2 ^ 63 else 0) + bitsOf x 53 0) }
    if v.msb then s.tlbDrop (bitsOf x 53 48) (bitsOf x 47 0) s.tinv1.toNat else s

/-- A write to a register of a core's control region: CONF of ARRCTL and MEN of the domains (R261, R468). -/
def State.coreWrite (s : State) (core o : Nat) (v : Nat) : State :=
  let p := core / 4
  if o == 0x1000 && core % 4 == 0 then
    s.updPad p fun x => { x with arrctl := wordOfNat (v % 2) }
  else if o == 0x4000 then { s with domains := upd s.domains (domainOf p) fun d => { d with men := v.testBit 28 } }
  else if o == 0x4008 then { s with domains := upd s.domains (8 + pastureOf p) fun d => { d with men := v.testBit 28 } }
  else s

/-- The translation table after a write of an entry; reserved bits read as zero (R372). -/
def State.mapName (s : State) (name : Nat) (v : DWord) : State :=
  { s with xlate := (name, dwordOfNat (v.toNat / 2 ^ 34 * 2 ^ 34)) :: s.xlate.filter (·.1 != name) }

/-- A write to a doubleword of the control space (R477, R478). -/
def State.controlWrite (s : State) (o : Nat) (v : Nat) : State :=
  if 0x10000 ≤ o && o < 0x10400 then
    if o % 0x40 == 0 then s.portWrite ((o - 0x10000) / 0x40) v else s
  else if o == 0x10800 then s.writeReplay (dwordOfNat v)
  else if 0x12000 ≤ o && o < 0x14000 then s.mapName ((o - 0x12000) / 8) (dwordOfNat v)
  else if o == 0x20000 then s.writeTinv0 (dwordOfNat v)
  else if o == 0x20008 then { s with tinv1 := dwordOfNat (v % 2 ^ 48) }
  else s

/-- Bytes `bs` laid over the doubleword `old` from byte `at_`. -/
def overlay (old at_ : Nat) (bs : List Byte) : Nat :=
  numOf (((bytesOf 8 old).take at_ ++ bs ++ (bytesOf 8 old).drop (at_ + bs.length)).take 8)

/-- What a bound window refuses of a byte written at a physical address: the subcode of cause 0x1B, and the window with its
partition (R317, R409). -/
def State.landRefusal (s : State) (pa : Nat) : Option (Nat × Nat) :=
  match regionOf pa with
  | .landing place win off =>
    match s.landWrite place win off 0#8 [] false false with
    | .error n => some (n, win + place % 32 * 2 ^ 8)
    | .ok _ => none
  | _ => none

/-- Bytes written to landing windows; a byte that a window refuses stays unwritten. -/
def State.landWrites (s : State) (place win off : Nat) : List Byte → State
  | [] => s
  | b :: bs => (match s.landWrite place win off b [] false false with | .ok s' => s' | .error _ => s).landWrites place win (off + 1) bs

/-- Bytes written at a physical address, by software that may address the region. A write never crosses a region; one to
a register takes the doubleword it starts in. -/
def State.busWrite (s : State) (pa : Nat) (bs : List Byte) : State :=
  match regionOf pa with
  | .memory => s.memStore pa bs
  | .landing place win off => s.landWrites place win off bs
  | .core c o => s.coreWrite c (o / 8 * 8) (overlay (s.coreReg c (o / 8 * 8)) (o % 8) bs)
  | .control o => s.controlWrite (o / 8 * 8) (overlay (s.controlReg (o / 8 * 8)) (o % 8) bs)
  | .hole => s

end Sys2Proof.Machine
end

