-- ==== Sys2Proof/Machine/Codec.lean ====
section
/-!
DEFINITION. Sys2Proof/Machine/Codec.lean: the FP64 block codec (15_fp64_codec, R330-R339): sixteen binary64 codes and
the stream of 16 × R bits, both ways, and whether a re-encode loses.
-/
namespace Sys2Proof.Machine

/-- Bits per value of a rate code (R330). -/
def rateBits (rate : Nat) : Nat := [8, 12, 16, 20, 24, 32, 40, 48].getD rate 8

/-- Bytes of an encoded block. DESIGN CHOICE (log entry 82): a rate code above 7, which no valid record has, counts as 16 bytes
where R161 still tests the block's alignment. -/
def blockBytes (rate : Nat) : Nat := 2 * rateBits rate

/-- ORDER of R334. -/
def coefOrder : List Nat := [0, 1, 4, 5, 2, 3, 8, 12, 6, 7, 9, 13, 10, 11, 14, 15]

/-- fwd4 of R333. -/
def fwd4 : List Int → List Int
  | [a, b, c, d] =>
    let h0 := b - a
    let l0 := a + h0 / 2
    let h1 := d - c
    let l1 := c + h1 / 2
    let h2 := l1 - l0
    [l0 + h2 / 2, h2, h0, h1]
  | xs => xs

/-- inv4 of R333. -/
def inv4 : List Int → List Int
  | [l2, h2, h0, h1] =>
    let l0 := l2 - h2 / 2
    let l1 := h2 + l0
    let a := l0 - h0 / 2
    let c := l1 - h1 / 2
    [a, h0 + a, c, h1 + c]
  | xs => xs

/-- A function on each row of a 4 × 4 array. -/
def onRows (f : List Int → List Int) (x : List Int) : List Int :=
  ((List.range 4).map fun r => f ((x.drop (4 * r)).take 4)).flatten

/-- The transposed array. -/
def flip4 (x : List Int) : List Int := (List.range 16).map fun p => x.getD (4 * (p % 4) + p / 4) 0

/-- A function on each column. -/
def onCols (f : List Int → List Int) (x : List Int) : List Int := flip4 (onRows f (flip4 x))

/-- Kind of a value: 0 finite, 1 +∞, 2 -∞, 3 NaN (R331). -/
def blockKind (c : Nat) : Nat :=
  match fdec fF64 c with
  | .nan _ => 3
  | .inf n => if n then 2 else 1
  | .fin _ _ _ => 0

/-- E of R332. -/
def blockExp (vs : List Nat) : Nat :=
  (vs.map fun c => if blockKind c == 0 && bitsOf c 62 0 != 0 then max (bitsOf c 62 52) 1 else 0).foldl max 0

/-- Fixed-point value of a code at exponent E (R332). -/
def fixedOf (e : Nat) (c : Nat) : Int :=
  match fdec fF64 c with
  | .fin n m x =>
    let s := x + 1082 - e
    let q : Nat := if 0 ≤ s then m <<< s.toNat else m >>> (-s).toNat
    if n then -(q : Int) else q
  | _ => 0

/-- `w` bits of a number, the lowest first. -/
def emitBits (x w : Nat) : List Bool := (List.range w).map fun k => x.testBit k

/-- The refinement bits of plane `k`: of the coefficients that are significant. -/
def refineBits (k : Nat) (ms : List (Nat × Bool × Bool)) : List Bool :=
  (ms.filter fun m => m.2.2).map fun m => m.1.testBit k

/-- The scan of plane `k`: a bit for each coefficient not yet significant, its sign after a set bit (R336). -/
def scanBits (k : Nat) (ms : List (Nat × Bool × Bool)) : List Bool :=
  (ms.map fun m => if m.2.2 then [] else if m.1.testBit k then [true, m.2.1] else [false]).flatten

/-- The planes from `k - 1` down: magnitude, sign and significance of each coefficient (R336). -/
def planeBits : Nat → List (Nat × Bool × Bool) → List Bool
  | 0, _ => []
  | k + 1, ms =>
    let g := ms.any fun m => !m.2.2 && m.1.testBit k
    refineBits k ms ++ [g] ++ (if g then scanBits k ms else []) ++
      planeBits k (ms.map fun m => (m.1, m.2.1, m.2.2 || m.1.testBit k))

/-- The stream of a block, before it is cut to its budget. -/
def blockStream (vs : List Nat) : List Bool :=
  let e := blockExp vs
  let sp := vs.any fun c => blockKind c != 0
  if e == 0 && !sp then [false]
  else
    let q := vs.map fun c => if e == 0 then 0 else fixedOf e c
    let x := onCols fwd4 (onRows fwd4 q)
    let ms := coefOrder.map fun i => let c := x.getD i 0; (c.natAbs, decide (c < 0), false)
    [true] ++ emitBits e 11 ++ [sp] ++ (if sp then (vs.map fun c => emitBits (blockKind c) 2).flatten else []) ++
      planeBits 62 ms

/-- Bytes of a stream of bits. -/
def bytesOfBits (n : Nat) (bs : List Bool) : List Byte :=
  (List.range n).map fun i => BitVec.ofNat 8 (((List.range 8).map fun k => if bs.getD (8 * i + k) false then 2 ^ k else 0).sum)

/-- The image of a block at a rate (R332-R336). -/
def encodeBlock (rate : Nat) (vs : List Nat) : List Byte := bytesOfBits (blockBytes rate) (blockStream vs)

/-- Bits of bytes, in stream order. -/
def bitsOfBytes (bs : List Byte) : List Bool := (bs.map fun b => emitBits b.toNat 8).flatten

/-- Reads `w` bits, the lowest first; past the end they are zero. -/
def takeBits : Nat → List Bool → Nat × List Bool
  | 0, bs => (0, bs)
  | w + 1, bs =>
    let r := takeBits w bs.tail
    ((if bs.headD false then 1 else 0) + 2 * r.1, r.2)

/-- Reads refinement bits of plane `k`. -/
def readRefine (k : Nat) : List (Nat × Bool × Bool) → List Bool → List (Nat × Bool × Bool) × List Bool
  | [], bs => ([], bs)
  | m :: ms, bs =>
    if m.2.2 then
      let r := readRefine k ms bs.tail
      ((m.1 + (if bs.headD false then 2 ^ k else 0), m.2) :: r.1, r.2)
    else
      let r := readRefine k ms bs
      (m :: r.1, r.2)

/-- Reads the scan of plane `k`; coefficients that were significant before the plane are passed over. -/
def readScan (k : Nat) : List (Nat × Bool × Bool) → List Bool → List (Nat × Bool × Bool) × List Bool
  | [], bs => ([], bs)
  | m :: ms, bs =>
    if m.2.2 then
      let r := readScan k ms bs
      (m :: r.1, r.2)
    else if bs.headD false then
      let r := readScan k ms bs.tail.tail
      ((m.1 + 2 ^ k, bs.tail.headD false, true) :: r.1, r.2)
    else
      let r := readScan k ms bs.tail
      (m :: r.1, r.2)

/-- Reads the planes from `k - 1` down (R337). -/
def readPlanes : Nat → List (Nat × Bool × Bool) → List Bool → List (Nat × Bool × Bool)
  | 0, ms, _ => ms
  | k + 1, ms, bs =>
    let r := readRefine k ms bs
    if r.2.headD false then
      let t := readScan k r.1 r.2.tail
      readPlanes k t.1 t.2
    else readPlanes k r.1 r.2.tail

/-- The two-bit kinds of a header. -/
def readKinds : Nat → List Bool → List Nat × List Bool
  | 0, bs => ([], bs)
  | n + 1, bs =>
    let k := takeBits 2 bs
    let r := readKinds n k.2
    (k.1 :: r.1, r.2)

/-- The sixteen codes of a stream (R337). -/
def decodeBlock (bytes : List Byte) : List Nat :=
  let bs := bitsOfBytes bytes
  if !bs.headD false then List.replicate 16 0
  else
    let e := takeBits 11 bs.tail
    let sp := e.2.headD false
    let ks := if sp then readKinds 16 e.2.tail else (List.replicate 16 0, e.2.tail)
    let ms := readPlanes 62 (List.replicate 16 (0, false, false)) ks.2
    let c := (List.range 16).map fun p =>
      match (coefOrder.zip ms).lookup p with
      | some m => if m.2.1 then -(m.1 : Int) else m.1
      | none => 0
    let x := onRows inv4 (onCols inv4 c)
    (List.range 16).map fun p =>
      match ks.1.getD p 0 with
      | 1 => 0x7FF0000000000000
      | 2 => 0xFFF0000000000000
      | 3 => 0x7FF8000000000000
      | _ =>
        let v := x.getD p 0
        if e.1 == 0 || v == 0 then 0 else (fround fF64 .rne (v < 0) v.natAbs ((e.1 : Int) - 1082) false).1

/-- A finite code as an integer at 2^-1074. -/
def atom64 (c : Nat) : Int :=
  match fdec fF64 c with
  | .fin n m x => let q : Int := m <<< (x + 1074).toNat; if n then -q else q
  | _ => 0

/-- Does a decoded value equal its source under R339? -/
def sameValue (v w : Nat) : Bool :=
  v == w || (blockKind v == 3 && blockKind w == 3) || (bitsOf v 62 0 == 0 && bitsOf w 62 0 == 0)

/-- The error exponent of a lossy encode, none for a lossless one (R339). -/
def lossOf (vs ws : List Nat) : Option Int :=
  let ps := vs.zip ws
  if ps.all fun p => sameValue p.1 p.2 then none
  else if ps.any fun p => blockKind p.1 == 0 && blockKind p.2 != 0 then some 32767
  else
    let d := ((ps.filter fun p => blockKind p.1 == 0).map fun p => (atom64 p.2 - atom64 p.1).natAbs).foldl max 0
    some ((Nat.log2 d : Int) - 1074 - ((blockExp vs : Int) - 1023))

end Sys2Proof.Machine
end

