-- ==== Sys2Proof/Machine/Translate.lean ====
section
/-!
DEFINITION. Sys2Proof/Machine/Translate.lean: translation (R431-R434), buffer records (R158-R163, R181), and coded blocks
in memory (R182, R340-R345).
-/
namespace Sys2Proof.Machine

/-! ## Pages (R431-R434) -/

/-- An entry of level 2 or 1: the next table, none where V is clear or a zero field is not zero. -/
def tableEntry (x : Nat) : Option Nat :=
  if x.testBit 0 && bitsOf x 13 1 == 0 && bitsOf x 63 52 == 0 then some (bitsOf x 51 14 * 2 ^ 14) else none

/-- Is a page entry resident: V set and every zero field zero? -/
def pageResident (x : Nat) : Bool := x.testBit 0 && bitsOf x 15 5 == 0 && bitsOf x 63 52 == 0

/-- The byte that a plain access finds at a physical address: of a block held decoded, what its encode gives (R343). -/
def State.plainByte (s : State) (pa : Nat) : Byte :=
  match s.decoded.find? fun b => b.segs.any fun r => r.1 ≤ pa && pa < r.1 + r.2 with
  | none => s.busByte pa
  | some b =>
    let places := (b.segs.map fun r => (List.range r.2).map (r.1 + ·)).flatten
    (encodeBlock b.rate (b.vals.map (·.toNat))).getD (places.idxOf pa) 0#8

/-- A doubleword that a plain access finds. -/
def State.plain64 (s : State) (pa : Nat) : Nat := numOf ((List.range 8).map fun i => s.plainByte (pa + i))

/-- An entry of a context's page tables. DESIGN CHOICE (log entry 111): a table of a context other than 0 that is said to stand in
the on-chip or the control space, which only the firmware and context 0 reach (R315, R477), is not read, and the page is not resident. -/
def State.tableWord (s : State) (c at_ : Nat) : Nat := if c == 0 || cacheable at_ then s.plain64 at_ else 0

/-- Address of a page's entry of level 2. -/
def State.rootAt (s : State) (c vpn : Nat) : Nat := bitsOf ((s.ctx c).word 0) 51 13 * 2 ^ 13 + 8 * (vpn / 2 ^ 22 % 1024)

/-- The page entry a walk finds, none where the page is not resident. -/
def State.walk (s : State) (c vpn : Nat) : Option Nat :=
  if !((s.ctx c).word 0).testBit 63 then none
  else
    match tableEntry (s.tableWord c (s.rootAt c vpn)) with
    | none => none
    | some t1 =>
      match tableEntry (s.tableWord c (t1 + 8 * (vpn / 2 ^ 11 % 2048))) with
      | none => none
      | some t0 =>
        let x := s.tableWord c (t0 + 8 * (vpn % 2048))
        if pageResident x then some x else none

/-- The doublewords that a walk reads. -/
def State.walkRuns (s : State) (c vpn : Nat) : List (Nat × Nat) :=
  let root := s.rootAt c vpn
  match tableEntry (s.tableWord c root) with
  | none => [(root, 8)]
  | some t1 =>
    let mid := t1 + 8 * (vpn / 2 ^ 11 % 2048)
    match tableEntry (s.tableWord c mid) with
    | none => [(root, 8), (mid, 8)]
    | some t0 => [(root, 8), (mid, 8), (t0 + 8 * (vpn % 2048), 8)]

/-- The page entry that a TLB entry gives for a page, none where it does not serve it; one merged over a span has the
walked page's entry with PPN one higher a page (R434). -/
def TlbEnt.gives (t : TlbEnt) (tlb c vpn : Nat) : Option Nat :=
  if t.tlb != tlb || t.ctx != c then none
  else match t.span with
    | none => if t.vpn == vpn then some t.entry.toNat else none
    | some m =>
      if t.vpn / 16 == vpn / 16 && m.getLsbD (vpn % 16) then
        some (t.entry.toNat - t.vpn % 16 * 65536 + vpn % 16 * 65536)
      else none

/-- The L1 TLB of a core, numbered after the pastures' L2 TLBs (R433). -/
def coreTlb (core : Nat) : Nat := 4 + core

/-- The L2 TLB behind a TLB: a core's is its pasture's. -/
def tlbHome (tlb : Nat) : Nat := if tlb < 4 then tlb else (tlb - 4) / 32

/-- What a TLB holds of a page. -/
def State.tlbGives (s : State) (tlb c vpn : Nat) : Option Nat := s.tlb.findSome? fun t => t.gives tlb c vpn

/-- The page entry an agent uses: what its TLB holds, for a core then what its pasture's holds, else a walk (R433; log entry
18). -/
def State.page (s : State) (tlb c vpn : Nat) : Option Nat :=
  match s.tlbGives tlb c vpn with
  | some x => some x
  | none =>
    match s.tlbGives (tlbHome tlb) c vpn with
    | some x => some x
    | none => s.walk c vpn

/-- The validity mask of the span of a walked page entry: the pages of the naturally aligned 1 MiB with V and C set, its R, W
and DR, and PPN in step with it (R434). -/
def State.spanMask (s : State) (c vpn x : Nat) : BitVec 16 :=
  BitVec.ofNat 16 (((List.range 16).map fun i =>
    match s.walk c (vpn / 16 * 16 + i) with
    | some y =>
      if bitsOf y 4 0 == bitsOf x 4 0 && bitsOf y 51 16 + vpn % 16 == bitsOf x 51 16 + i then 2 ^ i else 0
    | none => 0).sum)

/-- What an access needs of its page. -/
inductive Need where
  | read | write | both
  deriving DecidableEq, Repr

/-- A translation: the physical address and whether the page keeps blocks decoded (DR), or cause and subcode. -/
inductive Xlat where
  | ok (pa : Nat) (dr : Bool)
  | fault (cause sub : Nat)
  deriving DecidableEq, Repr

/-- Translation of one address (R432): residency, then permission, then the on-chip and control spaces (R315, R477). -/
def State.translate (s : State) (tlb c va : Nat) (need : Need) : Xlat :=
  match s.page tlb c (va % 2 ^ 48 / 65536) with
  | none => .fault 0x13 0
  | some x =>
    let r := x.testBit 1
    let w := x.testBit 2
    if !(match need with | .read => r | .write => w | .both => r && w) then .fault 0x14 1
    else
      let pa := bitsOf x 51 16 * 65536 + va % 65536
      if c != 0 && (pa.testBit 51 || pa.testBit 50) then .fault 0x14 2 else .ok pa (x.testBit 4)

/-- A doubleword of a context's memory that may be read, or a fault. -/
def State.virt64 (s : State) (tlb c va : Nat) : Except (Nat × Nat) Nat :=
  match s.translate tlb c va .read with
  | .fault k sub => .error (k, sub)
  | .ok pa _ => .ok (s.plain64 pa)

/-- The physical run of bytes of one page that may be read, none else. -/
def State.virtRun (s : State) (tlb c va n : Nat) : List (Nat × Nat) :=
  match s.translate tlb c va .read with
  | .fault _ _ => []
  | .ok pa _ => [(pa, n)]

/-- The home pasture of a physical address (R324). -/
def homeSlice (pa : Nat) : Nat := (bitsOf pa 14 8) ^^^ (bitsOf pa 21 15)
/-- The pasture of a home slice. -/
def homePasture (pa : Nat) : Nat := homeSlice pa / 32

/-! ## Runs of bytes: an access that crosses pages is one run a page -/

/-- The runs (address, length) of a virtual range, or the faults of its pages, each with the address of the first line there
(R165); the fuel bounds the pages. -/
def State.runs (s : State) (tlb c : Nat) (need : Need) : Nat → Nat → Nat → Except (List (Nat × Nat × Nat)) (List (Nat × Nat) × Bool)
  | 0, _, _ => .ok ([], false)
  | fuel + 1, va, n =>
    if n == 0 then .ok ([], false)
    else
      let m := min n (65536 - va % 65536)
      match s.translate tlb c va need, s.runs tlb c need fuel (va + m) (n - m) with
      | .fault k sub, .error es => .error ((k, sub, va / 64 * 64) :: es)
      | .fault k sub, .ok _ => .error [(k, sub, va / 64 * 64)]
      | .ok _ _, .error es => .error es
      | .ok pa dr, .ok (rs, _) => .ok ((pa, m) :: rs, dr)

/-- The bytes of runs. -/
def State.readRuns (s : State) (rs : List (Nat × Nat)) : List Byte := (rs.map fun r => s.busRead r.1 r.2).flatten

/-- Writes bytes over runs. -/
def State.writeRuns (s : State) : List (Nat × Nat) → List Byte → State
  | [], _ => s
  | r :: rs, bs => (s.busWrite r.1 (bs.take r.2)).writeRuns rs (bs.drop r.2)

/-- Poison met in runs. -/
def State.poisonRuns (s : State) (rs : List (Nat × Nat)) : List Poison :=
  (rs.map fun r => if r.2 == 0 then [] else s.poisonIn r.1 r.2).flatten

/-! ## Error-counter sets (R344, R345) -/

/-- A doubleword of an error set changed in place, where it translates to a page the context may write. -/
def State.bumpSet (s : State) (tlb c va : Nat) (f : Nat → Nat) : State :=
  match s.translate tlb c va .write with
  | .fault _ _ => s
  | .ok pa _ => s.busWrite pa (bytesOf 8 (f (s.bus64 pa)))

/-- A signed 16-bit field. -/
def signed16 (x : Nat) : Int := (BitVec.ofNat 16 x).toInt

/-- The error-counter sets that system software has placed take their reset values once their page, which they never leave, is
resident and the context may write it (R344; log entry 89). -/
def State.freshSets (s : State) (c : Nat) : State :=
  match (s.ctx c).setsDue, s.translate 0 c ((s.ctx c).word 22) .write with
  | true, .ok _ _ =>
    (List.range 64).foldl (fun (s : State) n =>
      let va := (s.ctx c).word 22 % 2 ^ 48 + 32 * n
      let s := (List.range 3).foldl (fun (s : State) i => s.bumpSet 0 c (va + 8 * i) fun _ => 0) s
      s.bumpSet 0 c (va + 24) fun _ => 0x80007FFF) (s.updCtx c fun x => { x with setsDue := false })
  | _, _ => s

/-- Charges one encode to a set: worst, over, lossy, encodes. -/
def State.chargeSet (s : State) (tlb c set : Nat) (loss : Option Int) : State :=
  let s := s.freshSets c
  let at_ := (s.ctx c).word 22 % 2 ^ 48 + 32 * set
  match s.translate tlb c (at_ + 24) .write with
  | .fault _ _ => s
  | .ok pa _ =>
    let w3 := s.bus64 pa
    let worst := signed16 (bitsOf w3 31 16)
    let limit := signed16 (bitsOf w3 15 0)
    let s := match loss with
      | none => s
      | some d =>
        let s := s.bumpSet tlb c (at_ + 24) fun x =>
          x - bitsOf x 31 16 * 2 ^ 16 + (BitVec.ofInt 16 (max worst d)).toNat * 2 ^ 16
        let s := if limit ≤ d then s.bumpSet tlb c (at_ + 16) (· + 1) else s
        s.bumpSet tlb c (at_ + 8) (· + 1)
    s.bumpSet tlb c at_ (· + 1)

/-! ## Coded blocks in memory (R182, R340-R343) -/

/-- Do two sets of runs share a byte? -/
def runsMeet (a b : List (Nat × Nat)) : Bool := a.any fun x => b.any fun y => x.1 < y.1 + y.2 && y.1 < x.1 + x.2

/-- The doublewords that an agent's translation of an address reads: none where its TLB holds the page (R433). -/
def State.walked (s : State) (tlb c va : Nat) : List (Nat × Nat) :=
  let vpn := va % 2 ^ 48 / 65536
  if (s.tlbGives tlb c vpn).isSome || (s.tlbGives (tlbHome tlb) c vpn).isSome then [] else s.walkRuns c vpn

/-- The bytes of an error-counter set, of all where they are to take their reset values, and those that their translation reads. -/
def State.setRuns (s : State) (c set : Nat) : List (Nat × Nat) :=
  let at_ := (s.ctx c).word 22 % 2 ^ 48
  let va := if (s.ctx c).setsDue then at_ else at_ + 32 * set
  s.walked 0 c va ++
    match s.translate 0 c va .write with
    | .fault _ _ => []
    | .ok pa _ => [(pa, if (s.ctx c).setsDue then 2048 else 32)]

/-- The bytes of a block held decoded stand encoded in its place, with its poison (R340, R460, R461); the charge is to come. -/
def State.encodeHeld (s : State) (b : DecBlock) : State :=
  let ill := s.poison.filter fun p => runsMeet b.segs [(8 * p.1, 8)]
  let s := State.writeRuns { s with decoded := s.decoded.filter (· != b) } b.segs (encodeBlock b.rate (b.vals.map (·.toNat)))
  if ill.isEmpty then s else { s with poison := s.poison ++ ill.filter fun p => !s.poison.contains p }

/-- The loss of a block's encode. -/
def DecBlock.loss (b : DecBlock) : Option Int :=
  lossOf (b.vals.map (·.toNat)) (decodeBlock (encodeBlock b.rate (b.vals.map (·.toNat))))

/-- Charges one encode to a set, a plain access to the set's bytes (R343): the blocks held decoded there are encoded first and
charged in their turn, each once; the fuel bounds them. -/
def State.chargeN : Nat → State → (tlb c set : Nat) → Option Int → State
  | 0, s, tlb, c, set, loss => s.chargeSet tlb c set loss
  | n + 1, s, tlb, c, set, loss =>
    ((s.decoded.filter fun b => runsMeet b.segs (s.setRuns c set)).foldl (fun (s : State) b =>
      if s.decoded.contains b then
        State.chargeN n (s.encodeHeld b) (homePasture ((b.segs.headD (0, 0)).1)) b.ctx b.set b.loss
      else s) s).chargeSet tlb c set loss

/-- Charges one encode to a set. -/
def State.charge (s : State) (tlb c set : Nat) (loss : Option Int) : State := State.chargeN s.decoded.length s tlb c set loss

/-- Encodes values into a block's bytes and charges the set. -/
def State.encodeAt (s : State) (c rate set : Nat) (segs : List (Nat × Nat)) (vs : List Nat) : State :=
  let img := encodeBlock rate vs
  (s.writeRuns segs img).charge (homePasture ((segs.headD (0, 0)).1)) c set (lossOf vs (decodeBlock img))

/-- A block held decoded leaves the L2, or a plain access to it follows: it is encoded, at the rate and charged to the set of
its last store (R340, R342). DESIGN CHOICE (log entry 87): one that no store has written is charged to the set of the record of its
first access. -/
def State.dropBlock (s : State) (b : DecBlock) : State :=
  (s.encodeHeld b).charge (homePasture ((b.segs.headD (0, 0)).1)) b.ctx b.set b.loss

/-- Blocks leave the L2, in order; one that the charge for an earlier one has encoded is not encoded again (R342). -/
def State.dropBlocks (s : State) : List DecBlock → State
  | [] => s
  | b :: bs => (if s.decoded.contains b then s.dropBlock b else s).dropBlocks bs

/-- Before a plain access to runs of bytes every block held decoded there is encoded (R343). -/
def State.settle (s : State) (rs : List (Nat × Nat)) : State :=
  if s.decoded.isEmpty then s else s.dropBlocks (s.decoded.filter fun b => runsMeet b.segs rs)

/-- Before a translation by an agent the blocks held decoded under the tables that it reads are encoded (R343, R433). -/
def State.walkSettle (s : State) (tlb c va : Nat) : State :=
  if s.decoded.isEmpty then s else s.settle (s.walked tlb c va)

/-- The same before translations of several addresses. -/
def State.walkSettles (s : State) (tlb c : Nat) (vas : List Nat) : State :=
  if s.decoded.isEmpty then s
  else ((vas.map fun va => va % 2 ^ 48 / 65536).eraseDups).foldl (fun (s : State) p => s.walkSettle tlb c (65536 * p)) s

/-- Before a plain read of bytes of one page by an agent: the tables and the bytes (R343). -/
def State.readSettle (s : State) (tlb c va n : Nat) : State :=
  if s.decoded.isEmpty then s
  else
    let s := s.settle (s.walked tlb c va)
    s.settle (s.virtRun tlb c va n)

/-- System software has placed a context's error-counter sets, or made their page resident: they take their reset values (R344). -/
def State.placeSets (s : State) (c : Nat) : State :=
  if (s.ctx c).setsDue then (s.settle (s.setRuns c 0)).freshSets c else s

/-- The entries with room for one more of a TLB: at 16,384 of a pasture's, 256 of a core's, its oldest leaves (R433; log entry
18). -/
def tlbRoom (l : List TlbEnt) (tlb : Nat) : List TlbEnt :=
  if l.countP (·.tlb == tlb) < (if tlb < 4 then Config.tlbEntries else Config.tlbCore) then l else l.eraseP (·.tlb == tlb)

/-- A TLB takes the entry of a page that was used: one of its own, or of its span where C is set and its PPN leaves room for
the span's base (R434). -/
def State.tlbTake (s : State) (tlb c vpn : Nat) : State :=
  if (s.tlbGives tlb c vpn).isSome then s
  else match s.tlb.find? fun t => t.tlb == tlbHome tlb && (t.gives (tlbHome tlb) c vpn).isSome with
    | some t => { s with tlb := tlbRoom s.tlb tlb ++ [{ t with tlb := tlb }] }
    | none =>
      match s.walk c vpn with
      | none => s
      | some x =>
        let span := if x.testBit 3 && vpn % 16 ≤ bitsOf x 51 16 then some (s.spanMask c vpn x) else none
        { s with tlb := tlbRoom s.tlb tlb ++ [⟨tlb, c, vpn, dwordOfNat x, span⟩] }

/-- The TLBs after a page was used by an agent: a core's TLB is filled from its pasture's (R433). A walk's reads are plain
accesses (R343). Error-counter sets that the page holds have their reset values before anyone reads or writes them there (R344). -/
def State.tlbFill (s : State) (tlb c vpn : Nat) : State :=
  let s := s.walkSettle tlb c (vpn * 65536)
  let s := if (s.ctx c).setsDue && (s.ctx c).word 22 % 2 ^ 48 / 65536 == vpn then s.placeSets c else s
  (s.tlbTake (tlbHome tlb) c vpn).tlbTake tlb c vpn

/-- The TLBs after the pages of addresses were used. -/
def State.tlbFills (s : State) (tlb c : Nat) : List Nat → State
  | [] => s
  | va :: rest => (s.tlbFill tlb c (va % 2 ^ 48 / 65536)).tlbFills tlb c rest

/-- Before a block access at a rate: blocks held there under another place or rate are encoded. -/
def State.settleFor (s : State) (segs : List (Nat × Nat)) (rate : Nat) : State :=
  if s.decoded.isEmpty then s
  else s.dropBlocks (s.decoded.filter fun b => runsMeet b.segs segs && !(b.segs == segs && b.rate == rate))

/-- The values of a block. -/
def State.blockVals (s : State) (segs : List (Nat × Nat)) (rate : Nat) : List Nat :=
  match s.decoded.find? fun b => b.segs == segs && b.rate == rate with
  | some b => b.vals.map (·.toNat)
  | none => decodeBlock (s.readRuns segs)

/-- After its first access a block of a page with DR is held decoded (R342). -/
def State.hold (s : State) (c rate set : Nat) (segs : List (Nat × Nat)) (dr : Bool) : State :=
  if !dr || s.decoded.any (fun b => b.segs == segs && b.rate == rate) then s
  else { s with decoded := s.decoded ++ [⟨segs, c, rate, set, (s.blockVals segs rate).map dwordOfNat⟩] }

/-- Elements (position, value) laid over the values of a block; a later one wins. -/
def overVals (vs : List Nat) (es : List (Nat × Nat)) : List Nat := es.foldl (fun l e => upd l e.1 fun _ => e.2) vs

/-- Poison of the units of runs is gone: they were replaced whole (R460). -/
def State.curePoison (s : State) (segs : List (Nat × Nat)) : State :=
  if s.poison.isEmpty then s else { s with poison := s.poison.filter fun p => !runsMeet segs [(8 * p.1, 8)] }

/-- A store into a block: whole, from the new values, or a merge (R182, R341); a block held decoded, or of a page with DR,
is written decoded and not encoded yet (R342). -/
def State.storeBlock (s : State) (c rate set : Nat) (segs : List (Nat × Nat)) (dr : Bool) (es : List (Nat × Nat)) : State :=
  let s := s.settleFor segs rate
  let whole := (List.range 16).all fun p => es.any (·.1 == p)
  let vs := overVals (if whole then List.replicate 16 0 else s.blockVals segs rate) es
  if dr || s.decoded.any (fun b => b.segs == segs && b.rate == rate) then
    let s := if whole then s.curePoison segs else s
    { s with decoded := (s.decoded.filter fun b => !(b.segs == segs && b.rate == rate)) ++
        [⟨segs, c, rate, set, vs.map dwordOfNat⟩] }
  else s.encodeAt c rate set segs vs

/-! ## Buffer records (R158-R163, R181) -/

/-- A buffer record (R158). -/
structure Rec where
  swizzle : Nat
  strict : Bool
  soft : Bool
  access : Nat
  enc : Nat
  size : Nat
  base : Nat
  rows : Nat
  extent : Nat
  errset : Nat
  rate : Nat
  pitch : Nat
  deriving DecidableEq, Repr

/-- The record of four words; `size` is in bytes. -/
def recOf (ws : List Nat) : Rec :=
  let w0 := ws.getD 0 0
  let w1 := ws.getD 1 0
  let w2 := ws.getD 2 0
  { swizzle := bitsOf w0 63 60, strict := w0.testBit 59, soft := w0.testBit 58, access := bitsOf w0 57 56
    enc := bitsOf w0 55 52, size := 2 ^ bitsOf w0 51 48, base := bitsOf w0 47 0, rows := bitsOf w1 63 32
    extent := bitsOf w1 31 0, errset := bitsOf w2 61 56, rate := bitsOf w2 55 48, pitch := bitsOf w2 47 0 }

/-- Is the record transform-coded (encodings 1 and 2)? -/
def Rec.coded (r : Rec) : Bool := r.enc == 1 || r.enc == 2

/-- Elements of a record. -/
def Rec.count (r : Rec) : Nat := r.extent * r.rows

/-- The block and position of an element of a coded record (R181). -/
def Rec.blockOf (r : Rec) (i : Nat) : Nat × Nat :=
  if r.enc == 1 then (i / 16, i % 16)
  else
    let row := i / r.extent
    let col := i % r.extent
    (row / 4 * (r.extent / 4) + col / 4, row % 4 * 4 + col % 4)

/-- Address of a block. -/
def Rec.blockAddr (r : Rec) (b : Nat) : Nat := (r.base + b * blockBytes r.rate) % 2 ^ 48

/-- Address of an element (R163); in a coded record, of its block. -/
def Rec.addr (r : Rec) (i : Nat) : Nat :=
  if r.coded then r.blockAddr (r.blockOf i).1
  else
    let row := i / r.extent
    let off := i % r.extent * r.size % 2 ^ 48
    let off := if r.swizzle == 0 then off else off ^^^ (row % 2 ^ r.swizzle * 16)
    (r.base + row * r.pitch + off) % 2 ^ 48

/-- Address past the last byte of a record's last element, before it wraps (R161, subcode 12). DESIGN CHOICE (log entry 82): an
element of a coded record ends where its block ends, since no byte of the block is the element's alone. -/
def Rec.endAddr (r : Rec) : Nat :=
  let last := r.count - 1
  if r.coded then r.base + ((r.blockOf last).1 + 1) * blockBytes r.rate
  else
    let row := last / r.extent
    let off := last % r.extent * r.size
    let off := if r.swizzle == 0 then off else off ^^^ (row % 2 ^ r.swizzle * 16)
    r.base + row * r.pitch + off + r.size

/-- The lowest subcode of cause 0x10 that a record raises, none for a valid one (R161). DESIGN CHOICE (log entry 82): under a rate
code above 7, which subcode 8 reports, subcode 7 tests the block size of rate code 0, 16 bytes. -/
def recInvalid (ws : List Nat) : Option Nat :=
  let r := recOf ws
  let w0 := ws.getD 0 0
  let w2 := ws.getD 2 0
  let plain := r.enc == 0 || r.enc == 3 || r.enc == 4
  let tests : List (Nat × Bool) :=
    [(0, bitsOf w2 63 62 != 0 || ws.getD 3 0 != 0), (1, 5 ≤ bitsOf w0 51 48), (2, 5 ≤ r.enc), (3, r.access == 3),
      (4, r.extent == 0 || r.rows == 0), (5, plain && r.pitch < r.extent * r.size),
      (6, plain && (r.base % r.size != 0 || r.pitch % r.size != 0)), (7, r.coded && r.base % blockBytes r.rate != 0),
      (8, (r.coded && 8 ≤ r.rate) || (r.enc == 3 && 16 ≤ r.rate) || ((r.enc == 0 || r.enc == 4) && r.rate != 0)),
      (9, (r.coded && r.size != 8) || (r.enc == 3 && r.size != 1)),
      (10, r.enc == 2 && (r.extent % 4 != 0 || r.rows % 4 != 0)),
      (11, 5 ≤ r.swizzle || (r.swizzle != 0 && (r.pitch % 256 != 0 || r.coded || r.enc == 3))),
      (12, r.extent != 0 && r.rows != 0 && 2 ^ 48 < r.endAddr)]
  (tests.find? (·.2)).map (·.1)

/-- The use of a handle by a fold: the record, or why not (R159, R160). The words read are kept for the fold. -/
inductive RecUse where
  | ok (r : Rec) (keep : Option (List DWord))
  | bad (t : Trap) (keep : Option (List DWord))
  deriving DecidableEq, Repr

/-- The record of words read, or cause 0x10. -/
def recUse (handle : Nat) (ws : List DWord) (keep : Option (List DWord)) : RecUse :=
  match recInvalid (ws.map (·.toNat)) with
  | some sub => .bad { Trap.sub' 0x10 sub with detail := dwordOfNat handle } keep
  | none => .ok (recOf (ws.map (·.toNat))) keep

/-- Address of a handle's entry of the record table of a context (R159). -/
def State.recVa (s : State) (c handle : Nat) : Nat := bitsOf ((s.ctx c).word 1) 47 0 + 32 * handle

/-- Reads the record of a handle for a fold, through a TLB: what the fold read before, else the table through translation; an entry
that arrives poisoned is not read (R460, R461). DESIGN CHOICE (log entry 120): where the entry's page lies in the on-chip space, for
which R409 names both the entry's address and zero, the detail is the address. -/
def State.useRec (s : State) (tlb : Nat) (f : Fold) (handle : Nat) : RecUse :=
  let c := s.ctx f.ctx
  let len := bitsOf (c.word 1) 60 48
  if 2 ^ 12 ≤ handle || len ≤ handle then .bad { Trap.of 0x11 with detail := dwordOfNat handle } none
  else
    match f.recs.lookup handle with
    | some ws => recUse handle ws none
    | none =>
      let va := s.recVa f.ctx handle
      match s.translate tlb f.ctx va .read with
      | .fault k sub => .bad { Trap.sub' k sub with detail := dwordOfNat va } none
      | .ok pa _ =>
        match Trap.ofCauses (poisonCauses (s.poisonIn pa 32)) with
        | some t => .bad { t with detail := dwordOfNat va } none
        | none =>
          let ws := (List.range 4).map fun i => dwordOfNat (s.plain64 (pa + 8 * i))
          recUse handle ws (some ws)

/-- The fold after it has read a record through a TLB: the words are kept (R160), the page's entry stands in the TLB, and the read
was a plain access (R343). -/
def State.keepRec (s : State) (tlb fold handle : Nat) : Option (List DWord) → State
  | none => s
  | some ws =>
    let c := ((s.fold? fold).map (·.ctx)).getD 0
    let va := s.recVa c handle
    let s := s.tlbFill tlb c (va % 2 ^ 48 / 65536)
    (s.settle (s.virtRun tlb c va 32)).updFold fold fun f => { f with recs := f.recs ++ [(handle, ws)] }

/-- May the record be read, written (R167)? -/
def Rec.mayRead (r : Rec) : Bool := r.access == 0 || r.access == 1
/-- May the record be written? -/
def Rec.mayWrite (r : Rec) : Bool := r.access == 0 || r.access == 2

end Sys2Proof.Machine
end

