-- ==== Sys2Proof/Machine/Cache.lean ====
section
/-!
DEFINITION. Sys2Proof/Machine/Cache.lean: the caches as programs see them (R322-R328): each core's L1 data lines with a valid and a
dirty bit a byte, its copies of decoded blocks, its instruction lines and their pins, and the lines that the L2 holds. `mem` is
what the L2 and the stacks hold together. The order of replacement and when an unforced write-back comes are log entry 88.
-/
namespace Sys2Proof.Machine

/-- The core of a team, numbered over the part. -/
def State.coreOf (s : State) (tm : Team) : Nat := s.place tm / 32

/-- The TLB through which a team's core translates (R433). -/
def State.tlbOf (s : State) (tm : Team) : Nat := coreTlb (s.coreOf tm)

/-! ## What a core holds -/

/-- A line of a core's L1 data cache. -/
def State.l1Line (s : State) (core line : Nat) : Option L1Line := s.l1d.find? fun x => x.core == core && x.line == line

/-- A byte that a core's L1 holds valid. -/
def State.l1Byte (s : State) (core pa : Nat) : Option Byte :=
  if cacheable pa then (s.l1Line core (pa / 64)).bind fun x => x.bytes.getD (pa % 64) none else none

/-- The byte that a core's accesses see at a physical address: its L1's where that is valid, else what the home has (R322). -/
def State.coreByte (s : State) (core pa : Nat) : Byte := (s.l1Byte core pa).getD (s.busByte pa)

/-- Bytes from a physical address up, as a core sees them. -/
def State.coreRead (s : State) (core pa : Nat) : Nat → List Byte
  | 0 => []
  | n + 1 => s.coreByte core pa :: s.coreRead core (pa + 1) n

/-- The bytes of runs, as a core sees them. -/
def State.coreRuns (s : State) (core : Nat) (rs : List (Nat × Nat)) : List Byte := (rs.map fun r => s.coreRead core r.1 r.2).flatten

/-- The 64-byte lines that runs touch. -/
def linesOf (rs : List (Nat × Nat)) : List Nat :=
  ((rs.map fun r => if r.2 == 0 then [] else
    (List.range ((r.1 + r.2 - 1) / 64 - r.1 / 64 + 1)).map fun k => r.1 / 64 + k).flatten).eraseDups

/-- The whole 64-byte lines that runs of memory touch, as runs. -/
def lineRuns (rs : List (Nat × Nat)) : List (Nat × Nat) := (linesOf (rs.filter fun r => cacheable r.1)).map fun l => (64 * l, 64)

/-- Does a byte lie in runs? -/
def inRuns (rs : List (Nat × Nat)) (a : Nat) : Bool := rs.any fun r => r.1 ≤ a && a < r.1 + r.2

/-- Poison that a core's access to runs of bytes meets: of a word of memory where it reads a byte there, else of its line
(R460). -/
def State.corePoison (s : State) (core : Nat) (rs : List (Nat × Nat)) : List Poison :=
  let home := s.poison.filter fun p => (List.range 8).any fun k => inRuns rs (8 * p.1 + k) && (s.l1Byte core (8 * p.1 + k)).isNone
  let mine := ((s.l1d.filter fun x => x.core == core).map fun x => x.poison.filter fun p =>
    (List.range 8).any fun k => inRuns rs (64 * x.line + 8 * p.1 + k) && (x.bytes.getD (8 * p.1 + k) none).isSome).flatten
  home.map (·.2) ++ mine.map (·.2)

/-- No L1 holds a dirty byte. -/
def State.written (s : State) : Bool := s.l1d.all (·.dirty.isEmpty)

/-! ## Write-back and invalidation (R322, R323) -/

/-- A line as it is kept: clean bytes stay valid only where all 16 of their aligned unit are, so that an access of up to 16 bytes
sees one write whole (R351, R357; log entry 88), and poison stays on words of which a byte is valid. -/
def L1Line.tidy (x : L1Line) : L1Line :=
  let whole := (List.range 4).map fun u => ((x.bytes.drop (16 * u)).take 16).all (·.isSome)
  let bytes := (List.range 64).map fun o =>
    if whole.getD (o / 16) false || x.dirty.contains o then x.bytes.getD o none else none
  { x with bytes := bytes, poison := x.poison.filter fun p => ((bytes.drop (8 * p.1)).take 8).any (·.isSome) }

/-- The bytes at offsets of a line, one after the other, in memory. -/
def putDirty (mem : List Host.Cell) (x : L1Line) : List Nat → List Host.Cell
  | [] => mem
  | o :: os => putDirty (memWrite mem (64 * x.line + o) [(x.bytes.getD o none).getD 0#8]) x os

/-- The dirty bytes of a line reach the home, which merges them into its line: a word replaced whole loses its poison, and
poison of the line goes with the bytes (R322, R460). -/
def State.writeBack (s : State) (x : L1Line) : State :=
  if x.dirty.isEmpty then s
  else
    let s := s.settle [(64 * x.line, 64)]
    let whole (u : Nat) : Bool := u / 8 == x.line && (List.range 8).all fun k => x.dirty.contains (u % 8 * 8 + k)
    let left := s.poison.filter fun p => !whole p.1
    { s with
      mem := putDirty s.mem x x.dirty
      poison := left ++ ((x.poison.filter fun p => x.dirty.any fun o => o / 8 == p.1).map fun p => (8 * x.line + p.1, p.2)).filter
        fun p => !left.contains p
      l1d := s.l1d.map fun (y : L1Line) => if y.core == x.core && y.line == x.line then L1Line.tidy { y with dirty := [] } else y }

/-- Lines written back, in order. -/
def State.writeBacks (s : State) : List L1Line → State
  | [] => s
  | x :: xs => (s.writeBack x).writeBacks xs

/-- A release at fold scope or wider: every dirty byte of the core is written back (R323, R354). -/
def State.flushCore (s : State) (core : Nat) : State := s.writeBacks (s.l1d.filter fun x => x.core == core)

/-- An acquire at fold scope or wider: every byte of the core's L1 that is not dirty is invalidated, and its copies of decoded
blocks are dropped (R323, R327, R354). -/
def State.acquire (s : State) (core : Nat) : State :=
  if s.l1d.isEmpty && s.l1b.isEmpty then s
  else
    { s with
      l1d := (s.l1d.map fun (x : L1Line) => if x.core == core then
          L1Line.tidy { x with bytes := (List.range 64).map fun o => if x.dirty.contains o then x.bytes.getD o none else none }
        else x).filter
        fun x => x.core != core || !x.dirty.isEmpty
      l1b := s.l1b.filter fun x => x.core != core }

/-- A full fence (R212, R354). -/
def State.fenceCore (s : State) (core : Nat) : State := (s.flushCore core).acquire core

/-- Full fences of cores. -/
def State.fences (s : State) : List Nat → State
  | [] => s
  | c :: cs => (s.fenceCore c).fences cs

/-- Lines of a core written back where they are dirty, and dropped (R323). -/
def State.dropLines (s : State) (core : Nat) (lines : List Nat) : State :=
  let mine (x : L1Line) : Bool := x.core == core && lines.contains x.line
  if s.l1d.any mine then
    let s := s.writeBacks (s.l1d.filter mine)
    { s with l1d := s.l1d.filter fun x => !mine x }
  else s

/-- A core drops its copies of the decoded blocks that runs meet (R327). -/
def State.dropCopies (s : State) (core : Nat) (segs : List (Nat × Nat)) : State :=
  { s with l1b := s.l1b.filter fun x => !(x.core == core && runsMeet x.segs segs) }

/-- Every dirty byte of the part is written back: a write is performed at system scope in finite time (R352). -/
def State.writeAll (s : State) : State := s.writeBacks s.l1d

/-! ## A team's releases and acquires (R282, R354) -/

/-- Old bytes added to a list that does not hold theirs. -/
def addOld (l xs : List (Nat × Byte)) : List (Nat × Byte) := l ++ xs.filter fun x => !l.any (·.1 == x.1)

/-- A team releases at fold scope or wider: its core's dirty bytes are written back, and its writes to the cores' stores that no
mopfence has followed are there for others to observe (R282). -/
def State.releaseBy (s : State) (tm : Team) : State :=
  (s.flushCore (s.coreOf tm)).updFold tm.fold fun f => { f with released := addOld f.released tm.unfenced }

/-- A team acquires at fold scope or wider: what its core's L1 holds clean is dropped, and it observes the writes that teams of
its fold have released (R282; log entry 90). -/
def State.acquireOf (s : State) (t : Nat) (tm : Team) : State :=
  let old := ((s.fold? tm.fold).map (·.released)).getD []
  (s.acquire (s.coreOf tm)).updTeam t fun x => { x with unfenced := addOld x.unfenced old }

/-- The team that issues acquires at fold scope or wider. -/
def State.acquireBy (s : State) (tm : Team) : State := s.acquireOf s.cur tm

/-! ## The L2 (R325, R326) -/

/-- Does an L1 instruction cache hold a line of 256 bytes pinned? -/
def State.pinnedIn (s : State) (line : Nat) : Bool := s.l1i.any fun x => x.line / 2 == line && !x.pins.isEmpty

/-- A line leaves the L2: it is first back-invalidated in every L1 (R323, R325), blocks held decoded in it are encoded (R340,
R342), and the record of strong accesses to it ends (R358). -/
def State.evictL2 (s : State) (line : Nat) : State :=
  let mine (x : L1Line) : Bool := x.line / 4 == line
  let s := s.writeBacks (s.l1d.filter mine)
  let s := { s with
    l1d := s.l1d.filter fun x => !mine x
    l1b := s.l1b.filter fun x => !runsMeet x.segs [(256 * line, 256)]
    l1i := s.l1i.filter fun x => x.line / 2 != line
    l2 := s.l2.filter (·.line != line)
    ctxs := s.ctxs.map fun (c : Ctx) => { c with strong := c.strong.filter (·.1 / 256 != line) } }
  s.settle [(256 * line, 256)]

/-- Sectors of 32 bytes that a slice of the L2 holds: 2 MiB (R2, R326). -/
def sliceSectors : Nat := 65536

/-- Sectors that a line takes: 8, or as many as the device's own method compresses a compressible line into (R326; log entry
98). -/
def State.sectorsOf (s : State) (line : Nat) (comp : Bool) : Nat := if comp then Config.freeSectors s.moves line % 8 + 1 else 8

/-- The superblock of a line: the four lines of a 1 KiB-aligned block share a tag (R326). -/
def superblock (line : Nat) : Nat := line / 4

/-- The lines of a slice of the L2, the oldest first. -/
def State.sliceLines (s : State) (slice : Nat) : List L2Line := s.l2.filter fun x => homeSlice (256 * x.line) == slice

/-- Is there room in its slice for a line of `n` sectors? -/
def State.sliceRoom (s : State) (slice n : Nat) : Bool := ((s.sliceLines slice).map (·.sectors)).sum + n ≤ sliceSectors

/-- The oldest lines of a slice that are not pinned leave it until `n` sectors have room; the fuel bounds the lines (R325). -/
def State.makeRoom (s : State) (slice n : Nat) : Nat → State
  | 0 => s
  | fuel + 1 =>
    if s.sliceRoom slice n then s
    else match (s.sliceLines slice).find? fun x => !s.pinnedIn x.line with
      | some x => (s.evictL2 x.line).makeRoom slice n fuel
      | none => s

/-- May the L2 hold the line of a physical address: it does, or its slice has room or a line that is not pinned? -/
def State.l2May (s : State) (pa : Nat) : Bool :=
  s.l2.any (·.line == pa / 256) || s.sliceRoom (homeSlice pa) 8 ||
    (s.sliceLines (homeSlice pa)).any fun x => !s.pinnedIn x.line

/-- The L2 holds the line of a physical address: where its slice is full, the oldest lines not pinned leave it (R325), and where
all are pinned the line is not held (log entry 88). A line filled or written through a record of encoding 4 is compressible until
it leaves (R326). -/
def State.l2Touch (s : State) (pa : Nat) (comp : Bool) : State :=
  let line := pa / 256
  if s.l2.any (·.line == line) then
    (if comp then { s with l2 := s.l2.map fun (x : L2Line) =>
      if x.line == line && !x.comp then { x with comp := true, sectors := s.sectorsOf line true } else x } else s)
  else
    let n := s.sectorsOf line comp
    let s := s.makeRoom (homeSlice pa) n (s.l2.length + 1)
    if s.sliceRoom (homeSlice pa) n then { s with l2 := s.l2 ++ [⟨line, comp, n⟩] } else s

/-- The 256-byte lines that runs of memory touch, each by an address in it. -/
def homeLines (rs : List (Nat × Nat)) : List Nat :=
  (((rs.filter fun r => cacheable r.1).map fun r => if r.2 == 0 then [] else
    (List.range ((r.1 + r.2 - 1) / 256 - r.1 / 256 + 1)).map fun k => 256 * (r.1 / 256 + k)).flatten).eraseDups

/-- The L2 holds the lines of runs. -/
def State.l2Takes (s : State) (comp : Bool) (rs : List (Nat × Nat)) : State :=
  (homeLines rs).foldl (fun (s : State) a => s.l2Touch a comp) s

/-- An access at its home through a record of encoding 4 makes the lines it fills or writes compressible (R326). -/
def State.compress (s : State) (enc : Nat) (rs : List (Nat × Nat)) : State := if enc == 4 then s.l2Takes true rs else s

/-! ## Accesses through the L1 (R322, R327) -/

/-- Lines of a core's L1 data cache: 256 KiB of 64 bytes, a decoded block taking two. -/
def l1Lines : Nat := 4096

/-- Room for `n` lines in a core's L1: the oldest lines leave it, then the oldest blocks. -/
def State.l1Room (s : State) (core n : Nat) : State :=
  let lines := s.l1d.filter fun x => x.core == core
  let blocks := s.l1b.filter fun x => x.core == core
  if lines.length + 2 * blocks.length + n ≤ l1Lines then s
  else
    let s := s.dropLines core ((lines.take n).map (·.line))
    { s with l1b := s.l1b.filter fun x => !((blocks.take (n - lines.length)).contains x) }

/-- A line changed in a core's L1, with a line not held allocated first, no byte valid: a core never holds bytes both plain and as
a decoded block, so that its accesses through either keep their order (R171, R350). A line that the L2 cannot hold is not held
here either (R325). -/
def State.l1Put (s : State) (core line : Nat) (comp : Bool) (f : L1Line → L1Line) : State :=
  let s := s.l2Touch (64 * line) comp
  if (s.l1Line core line).isSome then
    { s with l1d := s.l1d.map fun x => if x.core == core && x.line == line then f x else x }
  else
    let s := s.dropCopies core [(64 * line, 64)]
    if s.l2.any (·.line == line / 4) then
      let s := s.l1Room core 1
      { s with l1d := s.l1d ++ [f ⟨core, line, List.replicate 64 none, [], []⟩] }
    else s

/-- The aligned 16-byte units that runs touch: what a load of them needs in the L1 (R357; log entry 88). -/
def unitRuns (rs : List (Nat × Nat)) : List (Nat × Nat) :=
  rs.map fun r => if r.2 == 0 || !cacheable r.1 then r else (r.1 / 16 * 16, (r.1 + r.2 + 15) / 16 * 16 - r.1 / 16 * 16)

/-- A load's fill of one line: of the bytes it needs, those not valid, and only those, come from the home (R322), with their
poison (R460). -/
def State.fillLine (s : State) (core : Nat) (comp : Bool) (rs : List (Nat × Nat)) (line : Nat) : State :=
  let takes (o : Nat) : Bool := inRuns rs (64 * line + o) && (s.l1Byte core (64 * line + o)).isNone
  let got := (List.range 64).map fun o =>
    if takes o then some (s.busByte (64 * line + o)) else s.l1Byte core (64 * line + o)
  let ill := (s.poison.filter fun p => p.1 / 8 == line && (List.range 8).any fun k => takes (p.1 % 8 * 8 + k)).map fun p => (p.1 % 8, p.2)
  s.l1Put core line comp fun x => { x with bytes := got, poison := x.poison ++ ill.filter fun p => !x.poison.contains p }

/-- Fills of lines. -/
def State.fillLines (s : State) (core : Nat) (comp : Bool) (rs : List (Nat × Nat)) : List Nat → State
  | [] => s
  | l :: ls => (s.fillLine core comp rs l).fillLines core comp rs ls

/-- A load of runs by a core: its L1 holds their bytes afterwards. -/
def State.coreFill (s : State) (core : Nat) (comp : Bool) (rs : List (Nat × Nat)) : State :=
  s.fillLines core comp rs (linesOf (rs.filter fun r => cacheable r.1))

/-- A store's bytes in one line: valid and dirty, with no read of the line (R322); `through` says that they are written back
at once. -/
def State.storeLine (s : State) (core : Nat) (comp through : Bool) (pa : Nat) (bs : List Byte) (line : Nat) : State :=
  let hit (o : Nat) : Bool := pa ≤ 64 * line + o && 64 * line + o < pa + bs.length
  s.l1Put core line comp fun x => L1Line.tidy
    { x with
      bytes := (List.range 64).map fun o => if hit o then some (bs.getD (64 * line + o - pa) 0#8) else x.bytes.getD o none
      dirty := if through then x.dirty.filter fun o => !hit o else (List.range 64).filter fun o => hit o || x.dirty.contains o
      poison := x.poison.filter fun p => !((List.range 8).all fun k => hit (8 * p.1 + k)) }

/-- A store's bytes in lines. -/
def State.storeLines (s : State) (core : Nat) (comp through : Bool) (pa : Nat) (bs : List Byte) : List Nat → State
  | [] => s
  | l :: ls => (s.storeLine core comp through pa bs l).storeLines core comp through pa bs ls

/-- A shearer request in progress of the team that issues may read what bytes were before the team writes them (R386). -/
def State.keepOld (s : State) (pa n : Nat) : State :=
  let mine (o : EngOp) : Bool := o.live && o.kind == .xpost && o.team == s.cur
  if s.ops.any mine then
    let old := (List.range n).map fun i => (pa + i, s.plainByte (pa + i))
    { s with ops := s.ops.map fun (o : EngOp) => if mine o then { o with before := addOld o.before old } else o }
  else s

/-- The same over runs. -/
def State.keepOlds (s : State) : List (Nat × Nat) → State
  | [] => s
  | r :: rs => (s.keepOld r.1 r.2).keepOlds rs

/-- A core stores bytes from a physical address up; where the L2 cannot hold a line of them they go through. -/
def State.coreStore (s : State) (core : Nat) (comp through : Bool) (pa : Nat) (bs : List Byte) : State :=
  let s := s.keepOld pa bs.length
  if cacheable pa then
    let lines := linesOf [(pa, bs.length)]
    let through := through || !lines.all fun l => s.l2May (64 * l)
    let s := s.storeLines core comp through pa bs lines
    if through then s.busWrite pa bs else s
  else s.busWrite pa bs

/-- A core stores bytes over runs. -/
def State.coreWrites (s : State) (core : Nat) (comp through : Bool) : List (Nat × Nat) → List Byte → State
  | [], _ => s
  | r :: rs, bs => (s.coreStore core comp through r.1 (bs.take r.2)).coreWrites core comp through rs (bs.drop r.2)

/-- The copy of a decoded block that a core's L1 holds. -/
def State.l1Vals (s : State) (core : Nat) (segs : List (Nat × Nat)) (rate : Nat) : Option (List Nat) :=
  (s.l1b.find? fun x => x.core == core && x.segs == segs && x.rate == rate).map fun x => x.vals.map (·.toNat)

/-- Poison that a core's copy of a decoded block has at a position (R460). -/
def State.l1Ill (s : State) (core : Nat) (segs : List (Nat × Nat)) (rate pos : Nat) : List Poison :=
  (((s.l1b.find? fun x => x.core == core && x.segs == segs && x.rate == rate).map (·.poison)).getD []).filterMap fun p =>
    if p.1 == pos then some p.2 else none

/-- A core's L1 takes a copy of one version of a decoded block (R327), for which plain lines of its bytes and copies of them at
another rate or place leave it, so that it never holds two versions of a byte (R350); the L2 holds every line of the block (R325). -/
def State.l1Block (s : State) (core : Nat) (segs : List (Nat × Nat)) (rate : Nat) (vs : List Nat) : State :=
  if (s.l1Vals core segs rate).isSome then s
  else
    let s := (s.dropCopies core segs).l2Takes false segs
    if (homeLines segs).all fun a => s.l2.any (·.line == a / 256) then
      let s := (s.dropLines core (linesOf segs)).l1Room core 2
      { s with l1b := s.l1b ++ [⟨core, segs, rate, vs.map dwordOfNat, []⟩] }
    else s

/-! ## Instruction lines (R78, R328) -/

/-- Lines of a core's L1 instruction cache: 128 KiB of 128 bytes. -/
def l1Codes : Nat := 1024

/-- A line of a core's L1 instruction cache. -/
def State.codeLine (s : State) (core line : Nat) : Option L1Code := s.l1i.find? fun x => x.core == core && x.line == line

/-- The word a core fetches at a physical address: its instruction line's, which snoops no store, else the home's (R328). -/
def State.codeWord (s : State) (core pa : Nat) : Word :=
  wordOfNat (numOf (match s.codeLine core (pa / 128) with
    | some x => (x.bytes.drop (pa % 128)).take 4
    | none => (s.settle [(pa, 4)]).busRead pa 4))

/-- Poison that a core's fetch of a word at a physical address meets: of its instruction line, else of the home (R460, R461). -/
def State.codePoison (s : State) (core pa : Nat) : List Poison :=
  match s.codeLine core (pa / 128) with
  | some x => x.poison.filterMap fun p => if p.1 == pa % 128 / 8 then some p.2 else none
  | none => s.poisonIn pa 4

/-- A core's L1 instruction cache holds a line, pinned for the kernels of `pins` as well: a line not held is fetched, the oldest
one not pinned leaving for it. DESIGN CHOICE (log entry 88): where every line of the cache is pinned, or the L2 cannot hold the
line, it is fetched and not held. -/
def State.codeTake (s : State) (core line : Nat) (pins : List (Nat × CodeAddr)) : State :=
  if !cacheable (128 * line) then s
  else if (s.codeLine core line).isSome then
    (if pins.isEmpty then s
    else { s with l1i := s.l1i.map fun (x : L1Code) => if x.core == core && x.line == line then
      { x with pins := x.pins ++ pins.filter fun p => !x.pins.contains p } else x })
  else
    let s := s.l2Touch (128 * line) false
    let mine := s.l1i.filter fun x => x.core == core
    let s := s.settle [(128 * line, 128)]
    let ill := (s.poison.filter fun p => p.1 / 16 == line).map fun p => (p.1 % 16, p.2)
    let new : L1Code := ⟨core, line, s.busRead (128 * line) 128, pins, ill⟩
    if !s.l2.any (·.line == line / 2) then s
    else if mine.length < l1Codes then { s with l1i := s.l1i ++ [new] }
    else match mine.find? fun x => x.pins.isEmpty with
      | some y => { s with l1i := s.l1i.filter (· != y) ++ [new] }
      | none => s

/-- Instruction lines that are not pinned leave the L1s of cores (R415, R328). -/
def State.dropCode (s : State) (cores : List Nat) : State :=
  { s with l1i := s.l1i.filter fun x => !(cores.contains x.core && x.pins.isEmpty) }

/-- The lines that a context has pinned on a core: at most 16 KiB of them (R78). -/
def State.pinsHeld (s : State) (core c : Nat) : Nat := s.l1i.countP fun x => x.core == core && x.pins.any (·.1 == c)

/-- Pins one line for a kernel of a context, where it is resident and the quota has room for it (R78). DESIGN CHOICE (log entry
121): a line of the range whose page does not translate for a read as the fold is placed is left out, and is not pinned later. -/
def State.pinLine (s : State) (core c : Nat) (entry : CodeAddr) (va : Nat) : State :=
  let s := s.walkSettle (coreTlb core) c va
  match s.translate (coreTlb core) c va .read with
  | .fault _ _ => s
  | .ok pa _ =>
    let had := (((s.codeLine core (pa / 128)).map fun x => x.pins.any (·.1 == c))).getD false
    if had || s.pinsHeld core c < 128 then s.codeTake core (pa / 128) [(c, entry)] else s

/-- The virtual addresses of the lines that a kernel asks to be pinned: its range, of which the first 16 KiB count (R78). -/
def Kernel.pinLines (k : Kernel) : List Nat :=
  let n := min k.pinBytes 16384
  let base := k.entry.toNat + k.pinStart
  if n == 0 then [] else (List.range ((base + n - 1) / 128 - base / 128 + 1)).map fun i => 128 * (base / 128 + i)

/-- Pins a kernel's range on cores (R78, R328, R428). -/
def State.pinKernel (s : State) (cores : List Nat) (c : Nat) (k : Kernel) : State :=
  cores.foldl (fun (s : State) core => k.pinLines.foldl (fun (s : State) va => s.pinLine core c k.entry va) s) s

/-- The cores on which a fold's teams stand. -/
def State.foldCores (s : State) (f : Fold) : List Nat :=
  ((f.teams.filterMap s.team?).map fun tm => 4 * f.paddock + tm.core).eraseDups

/-- A fold leaves the cores it stands on: its writes there are written back, and its pins end (R62, R328). -/
def State.leaveCores (s : State) (f : Fold) : State := (s.foldCores f).foldl State.flushCore s

/-- A fold is placed on cores: what they hold clean and the instruction lines not pinned are dropped, and the kernel's range is
pinned (R78, R328, R354, R428). -/
def State.enterCores (s : State) (cores : List Nat) (c : Nat) (k : Kernel) : State :=
  ((cores.foldl State.acquire s).dropCode cores).pinKernel cores c k

/-- Pins end on a core with the last fold of their kernel there, which gives the quota back (R328). -/
def State.unpin (s : State) : State :=
  if s.l1i.all (·.pins.isEmpty) then s
  else
    let here (core : Nat) (p : Nat × CodeAddr) : Bool := s.folds.any fun f =>
      f.status == .resident && f.ctx == p.1 && f.kernel.entry == p.2 && f.paddock == core / 4 && (s.foldCores f).contains core
    { s with l1i := s.l1i.map fun (x : L1Code) => { x with pins := x.pins.filter (here x.core) } }

end Sys2Proof.Machine
end

