-- ==== Sys2Proof/Machine/Access.lean ====
section
/-!
DEFINITION. Sys2Proof/Machine/Access.lean: one lane's access to a record: bounds, alignment, the coded-record checks,
translation and residency (R162-R167, R172, R175, R178, R182), the data, and the checks as data arrives (R166, R358).
-/
namespace Sys2Proof.Machine

/-- What an instruction does to its elements. -/
inductive AccKind where
  | load | store | atom | pref
  deriving DecidableEq, Repr

/-- One piece of a lane's access: bytes of a plain record, or one element of a coded block, with its physical runs. -/
structure Piece where
  coded : Bool
  pos : Nat
  segs : List (Nat × Nat)
  dr : Bool
  deriving DecidableEq, Repr

/-- What becomes of a lane: it is dropped, its line is missing, it raises faults (cause, subcode, detail), or it goes on. -/
inductive LaneFate where
  | dropped
  | missing
  | faults (fs : List (Nat × Nat × Nat))
  | ok (ps : List Piece)
  deriving DecidableEq, Repr

/-- Is a group of `n` elements from `i` in bounds (R162)? -/
def Rec.inBounds (r : Rec) (i n : Nat) : Bool := i < r.count && (n == 1 || i % r.extent + n ≤ r.extent)

/-- The virtual ranges a lane's group of `n` elements covers: address, bytes, whether coded, position. DESIGN CHOICE (log entry
81): a plain group is the bytes from its first element's address up, also in a swizzled record whose base is no multiple of 16,
where R163 could place elements of an aligned group apart although R172 says that it never does. -/
def Rec.ranges (r : Rec) (i n : Nat) : List (Nat × Nat × Bool × Nat) :=
  if r.coded then (List.range n).map fun k =>
    let b := r.blockOf (i + k)
    (r.blockAddr b.1, blockBytes r.rate, true, b.2)
  else [(r.addr i, n * r.size, false, 0)]

/-- Translates the ranges of a lane: its pieces, or the faults of all its lines (R165). -/
def State.pieces (s : State) (tlb c : Nat) (need : Need) : List (Nat × Nat × Bool × Nat) →
    Except (List (Nat × Nat × Nat)) (List Piece)
  | [] => .ok []
  | x :: xs =>
    match s.runs tlb c need 3 x.1 x.2.1, s.pieces tlb c need xs with
    | .error es, .error fs => .error (es ++ fs)
    | .error es, .ok _ => .error es
    | .ok _, .error fs => .error fs
    | .ok r, .ok ps => .ok (⟨x.2.2.1, x.2.2.2, r.1, r.2⟩ :: ps)

/-- Of the faults of an access the first of the lowest cause (R408). -/
def firstFault (es : List (Nat × Nat × Nat)) : Nat × Nat × Nat :=
  (es.find? fun x => x.1 == lowest (es.map (·.1))).getD (0, 0, 0)

/-- The virtual addresses whose pages the lanes' groups use, with elements `is`. -/
def Rec.touched (r : Rec) (n : Nat) (is : List Nat) : List Nat :=
  ((is.filter fun i => r.inBounds i n).map fun i => ((r.ranges i n).map fun x => [x.1, x.1 + (x.2.1 - 1)]).flatten).flatten

/-- What an access needs of its pages (R432). -/
def AccKind.need : AccKind → Need
  | .load | .pref => .read
  | .store => .write
  | .atom => .both

/-- The fate of one lane (R164-R166, R172, R175, R182). DESIGN CHOICE (log entry 80): the test that a group's address is a multiple
of its bytes (R172) is not made for a coded record, whose elements have no byte address (R181). DEDUCED (log entry 103): a store to a block that reaches past
the record's elements traps (R182), also where R312 has it stored. -/
def State.laneFate (s : State) (tlb c : Nat) (r : Rec) (kind : AccKind) (n i : Nat) : LaneFate :=
  if !r.inBounds i n then
    if r.strict && kind != .pref then .faults [(0x12, 0, r.addr i)] else .dropped
  else
    let fs : List (Nat × Nat × Nat) :=
      (if 1 < n && !r.coded && r.addr i % (n * r.size) != 0 then [(0x15, 0, r.addr i)] else []) ++
      (if kind == .store && r.enc == 1 && r.count < ((i + n - 1) / 16 + 1) * 16 then [(0x18, 0, r.addr i)] else []) ++
      (if kind == .atom && r.coded then [(0x1C, 0, r.addr i)] else [])
    match s.pieces tlb c kind.need (r.ranges i n) with
    | .ok ps => if fs.isEmpty then .ok ps else .faults fs
    | .error es =>
      -- vpref raises no cause of step 3; under soft residency a load's lane drops out unless it raises another cause (R174, R175)
      let es := if kind == .pref then [] else if kind == .load && r.soft then es.filter (·.1 != 0x13) else es
      let all := fs ++ es.map fun x =>
        (x.1, if x.1 == 0x13 && kind != .load then 1 else x.2.1, if x.1 == 0x14 && x.2.1 == 2 then 0 else x.2.2)
      if !all.isEmpty then .faults all else if kind == .pref then .dropped else .missing

/-- The trap that faults of lanes raise together: the lowest cause, the lanes that raised it, its first detail. -/
def trapOfLanes (fs : List (Nat × Nat × Nat × Nat)) : Option Trap :=
  match fs with
  | [] => none
  | _ =>
    let k := lowest (fs.map (·.2.1))
    let mine := fs.filter (·.2.1 == k)
    let first := mine.headD (0, k, 0, 0)
    some
      { cause := k, sub := first.2.2.1, others := (fs.map (·.2.1)).filter (· != k), detail := dwordOfNat first.2.2.2
        map := (mine.map (·.1)).eraseDups, fx := 0#6 }

/-- The faults of lanes with their fates: lane, cause, subcode, detail. -/
def faultsOf (fates : List (Nat × Nat × LaneFate)) : List (Nat × Nat × Nat × Nat) :=
  (fates.map fun x => match x.2.2 with
    | .faults fs => fs.map fun f => (x.1, f.1, f.2.1, f.2.2)
    | _ => []).flatten

/-- The lanes that go on: lane, index, pieces. -/
def goingOn (fates : List (Nat × Nat × LaneFate)) : List (Nat × Nat × List Piece) :=
  fates.filterMap fun x => match x.2.2 with
    | .ok ps => some (x.1, x.2.1, ps)
    | _ => none

/-! ## Data -/

/-- The bytes of runs as a core's plain load reads them: blocks held decoded there are encoded first (R322, R343). -/
def State.readPlain (s : State) (core : Nat) (comp : Bool) (rs : List (Nat × Nat)) : List Byte × State :=
  let t := (s.settle (unitRuns rs)).coreFill core comp (unitRuns rs)
  (t.coreRuns core rs, t)

/-- The bytes of lanes of a plain record. -/
def State.plainLanes (s : State) (core : Nat) (comp : Bool) : List (Nat × Nat × List Piece) → List (Nat × List Byte) × State
  | [] => ([], s)
  | x :: xs =>
    let a := s.readPlain core comp (x.2.2.map (·.segs)).flatten
    let b := a.2.plainLanes core comp xs
    ((x.1, a.1) :: b.1, b.2)

/-- The blocks that lanes touch, each once, with whether its page has DR. -/
def blocksOf (xs : List (Nat × Nat × List Piece)) : List (List (Nat × Nat) × Bool) :=
  ((xs.map fun x => x.2.2.map fun p => (p.segs, p.dr)).flatten).eraseDups

/-- The values of blocks as a core reads them, each block in one version for the whole instruction (R341): the copy that its L1
holds, else the home's after the core's own dirty bytes there have been written back, of which the L1 then takes a copy (R171,
R322, R327). -/
def State.readBlocks (s : State) (core c : Nat) (r : Rec) : List (List (Nat × Nat) × Bool) → List (List (Nat × Nat) × List Nat) × State
  | [] => ([], s)
  | b :: bs =>
    match s.l1Vals core b.1 r.rate with
    | some vs =>
      let y := s.readBlocks core c r bs
      ((b.1, vs) :: y.1, y.2)
    | none =>
      let s := (s.dropLines core (linesOf b.1)).settleFor b.1 r.rate
      let vs := s.blockVals b.1 r.rate
      let y := ((s.hold c r.rate r.errset b.1 b.2).l1Block core b.1 r.rate vs).readBlocks core c r bs
      ((b.1, vs) :: y.1, y.2)

/-- The bytes of one lane of a coded record: 8 an element, of its block's values. -/
def codedBytes (vals : List (List (Nat × Nat) × List Nat)) (ps : List Piece) : List Byte :=
  (ps.map fun p => bytesOf 8 (((vals.lookup p.segs).getD []).getD p.pos 0)).flatten

/-- The bytes of lanes as a core's load reads them. -/
def State.readLanes (s : State) (core c : Nat) (r : Rec) (xs : List (Nat × Nat × List Piece)) : List (Nat × List Byte) × State :=
  if r.coded then
    let b := s.readBlocks core c r (blocksOf xs)
    (xs.map fun x => (x.1, codedBytes b.1 x.2.2), b.2)
  else s.plainLanes core (r.enc == 4) xs

/-- Poison in the pieces of a lane, at their home. -/
def State.poisonOf (s : State) (ps : List Piece) : List Poison := (ps.map fun p => s.poisonRuns p.segs).flatten

/-- Poison that a core's read of the pieces of a lane meets: of its L1's bytes or copies where it holds them, of the home else. -/
def State.poisonAtCore (s : State) (core : Nat) (r : Rec) (ps : List Piece) : List Poison :=
  (ps.map fun p =>
    if !p.coded then s.corePoison core p.segs
    else if (s.l1Vals core p.segs r.rate).isSome then s.l1Ill core p.segs r.rate p.pos else s.poisonRuns p.segs).flatten

/-- Before a core's load of coded elements: plain lines of their blocks leave its L1, dirty bytes and their poison going to the
home, from which the blocks are decoded (R171, R322, R460). -/
def State.opens (s : State) (core : Nat) (r : Rec) (xs : List (Nat × Nat × List Piece)) : State :=
  if r.coded then s.dropLines core (linesOf (xs.map fun x => (x.2.2.map (·.segs)).flatten).flatten) else s

/-- Does a strong access of `n` bytes at `pa` overlap a recorded one of the context of another size (R358)? -/
def State.mixed (s : State) (c pa n : Nat) : Bool :=
  (s.ctx c).strong.any fun x => x.1 / 16 == pa / 16 && x.2 != n && x.1 < pa + n && pa < x.1 + x.2

/-- Records strong accesses of a context: the last of each 16-byte unit (R358). -/
def State.noteStrong (s : State) (c : Nat) (xs : List (Nat × Nat)) : State :=
  s.updCtx c fun x => { x with strong := xs.foldl (fun l y => y :: l.filter fun z => z.1 / 16 != y.1 / 16) x.strong }

/-- Is the mixed-size check on for a context (R421 MIX)? -/
def State.mix (s : State) (c : Nat) : Bool := ((s.ctx c).word 23).testBit 2

/-- First physical address of a lane's pieces. -/
def pieceAddr (ps : List Piece) : Nat := ((ps.headD ⟨false, 0, [], false⟩).segs.headD (0, 0)).1

/-- A strong access of a context recorded for the mixed-size check, where that is on (R358). DESIGN CHOICE (log entry 99): that of
an element of a coded record, for which R358 names no range, stands as its `n` * 8 bytes from its block's first byte. -/
def State.note (s : State) (c : Nat) (strong : Bool) (b : Nat) (ok : List (Nat × Nat × List Piece)) : State :=
  if strong && s.mix c then
    (ok.foldl (fun (s : State) x => s.l2Touch (pieceAddr x.2.2) false) s).noteStrong c (ok.map fun x => (pieceAddr x.2.2, b))
  else s

/-- The lanes whose arrival raises a cause: lane, cause, subcode, detail. -/
def State.arrivalFaults (s : State) (core c b : Nat) (strong : Bool) (r : Rec) (xs : List (Nat × Nat × List Piece)) :
    List (Nat × Nat × Nat × Nat) :=
  (xs.map fun x =>
    let ks := causeIf (strong && s.mix c && s.mixed c (pieceAddr x.2.2) b) 0x16 ++ poisonCauses (s.poisonAtCore core r x.2.2)
    ks.map fun k => (x.1, k, 0, r.addr x.2.1)).flatten

/-! ## Stores -/

/-- Every byte of an 8-byte unit is written by some of the runs. -/
def unitCovered (runs : List (Nat × Nat)) (u : Nat) : Bool :=
  (List.range 8).all fun k => runs.any fun r => r.1 ≤ 8 * u + k && 8 * u + k < r.1 + r.2

/-- The poisoned units that runs write in part only: a merge would read them (R166). -/
def State.partPoison (s : State) (all mine : List (Nat × Nat)) : List Poison :=
  (s.poison.filter fun p => !unitCovered all p.1 && mine.any fun r => r.1 < 8 * p.1 + 8 && 8 * p.1 < r.1 + r.2).map (·.2)

/-- Units that were replaced whole lose their poison (R460). -/
def State.clearPoison (s : State) (runs : List (Nat × Nat)) : State :=
  if s.poison.isEmpty then s else { s with poison := s.poison.filter fun p => !unitCovered runs p.1 }

/-- Writes the bytes of lanes to a plain record, in lane order: the highest lane's byte stays (R171). Without `through` they stay
dirty in the core's L1 (R322). -/
def State.writeLanes (s : State) (core : Nat) (comp through : Bool) : List (List (Nat × Nat) × List Byte) → State
  | [] => s
  | x :: xs => ((s.settle x.1).coreWrites core comp through x.1 x.2).writeLanes core comp through xs

/-- The bytes of lanes that landing windows refuse, byte after byte as they are written: lane, cause 0x1B, subcode, detail (R317). -/
def State.landFaults (s : State) : List (Nat × Nat) → List (Nat × Nat × Nat × Nat)
  | [] => []
  | x :: xs =>
    match s.landRefusal x.2 with
    | some (n, d) => (x.1, 0x1B, n, d) :: s.landFaults xs
    | none => (s.busWrite x.2 [0#8]).landFaults xs

/-- The same for lanes with their runs; only context 0 reaches a window so (R315). -/
def State.refused (s : State) (xs : List (Nat × List (Nat × Nat))) : List (Nat × Nat × Nat × Nat) :=
  s.landFaults ((xs.map fun x => (x.2.map fun r =>
    if cacheable r.1 then [] else (List.range r.2).map fun i => (x.1, r.1 + i)).flatten).flatten)

/-- Bytes written at the home by an agent that may meet a landing window: the subcode and detail of cause 0x1B where one of them is
refused (R317). -/
def State.putAll (s : State) (pa : Nat) (bs : List Byte) : Except (Nat × Nat) State :=
  match (List.range bs.length).findSome? fun i => s.landRefusal (pa + i) with
  | some e => .error e
  | none => .ok (((s.settle [(pa, bs.length)]).busWrite pa bs).clearPoison [(pa, bs.length)])

/-- Does a store write its bytes back at once? DESIGN CHOICE (log entry 88): one at no scope but the team's leaves them dirty
while the part keeps results in flight. -/
def State.through (s : State) (scope : Nat) : Bool := !s.overlap || (1 ≤ scope && scope ≤ 4)

/-- A store to one block: its runs, DR, and the elements written. -/
structure BlockStore where
  segs : List (Nat × Nat)
  dr : Bool
  elems : List (Nat × Nat)
  deriving DecidableEq, Repr

/-- Groups elements by block, in the order in which blocks are first met (R182). -/
def groupBlocks (xs : List (Piece × Nat)) : List BlockStore :=
  xs.foldl (fun bs x =>
    if bs.any (·.segs == x.1.segs) then
      bs.map fun b => if b.segs == x.1.segs then { b with elems := b.elems ++ [(x.1.pos, x.2)] } else b
    else bs ++ [⟨x.1.segs, x.1.dr, [(x.1.pos, x.2)]⟩]) []

/-- Is every element of a block written? -/
def BlockStore.whole (b : BlockStore) : Bool := (List.range 16).all fun p => b.elems.any (·.1 == p)

/-- The team that issues as a state has it: its own stores to landing windows (R315) have changed its registers. -/
def State.teamOr (s : State) (tm : Team) : Team := (s.team? s.cur).getD tm

/-- Stores to blocks, one after the other. -/
def State.storeBlocks (s : State) (c : Nat) (r : Rec) : List BlockStore → State
  | [] => s
  | b :: bs => (s.storeBlock c r.rate r.errset b.segs b.dr b.elems).storeBlocks c r bs

/-- Before accesses of a core at the home of runs: what its L1 holds of them leaves it, dirty bytes written back, so that they
follow the core's earlier accesses there and later ones see them (R171, R323, R327). -/
def State.coreLeaves (s : State) (core : Nat) (rs : List (Nat × Nat)) : State :=
  (s.dropLines core (linesOf rs)).dropCopies core rs

/-- A core's stores to blocks: their merges are at the home (R182, R327). A shearer request of the team may still read what the
blocks were (R386). -/
def State.coreBlocks (s : State) (core c : Nat) (r : Rec) (bs : List BlockStore) : State :=
  ((s.coreLeaves core (bs.map (·.segs)).flatten).keepOlds (bs.map (·.segs)).flatten).storeBlocks c r bs

/-! ## Atomics (R179) -/

/-- The new value of an atomic on `bits` bits: `old`, the operand, and cas's new value. -/
def atRun (op : AtOp) (uns : Bool) (bits old v new : Nat) : Nat :=
  match op with
  | .add => (old + v) % 2 ^ bits
  | .and => old &&& v
  | .or => old ||| v
  | .xor => old ^^^ v
  | .xchg => v
  | .cas => if old == v then new else old
  | .min => if toI (!uns) bits v < toI (!uns) bits old then v else old
  | .max => if toI (!uns) bits old < toI (!uns) bits v then v else old

/-- Before an atomic of a core through a record of an encoding: the lines it touches are written back and dropped (R323), and at
fold scope or wider it is a release and an acquire (R179, R354). -/
def State.atomBegin (s : State) (tm : Team) (scope enc : Nat) (rs : List (Nat × Nat)) : State :=
  let s := (s.coreLeaves (s.coreOf tm) rs).compress enc rs
  if 1 ≤ scope && scope ≤ 4 then (s.releaseBy tm).acquireBy tm else s

/-- One atomic at a physical address, performed at its home: the old value and the memory after it. -/
def State.atomAt (s : State) (op : AtOp) (uns : Bool) (size pa v new : Nat) : Nat × State :=
  let s := (s.settle [(pa, size)]).keepOld pa size
  let old := numOf (s.busRead pa size)
  (old, s.busWrite pa (bytesOf size (atRun op uns (8 * size) old v new)))

end Sys2Proof.Machine
end

