-- ==== Sys2Proof/Machine/GroupMem.lean ====
section
/-!
DEFINITION. Sys2Proof/Machine/GroupMem.lean: uniform loads, stores and atomics (R199-R202).
-/
namespace Sys2Proof.Machine

/-- Where a uniform memory instruction's index comes from: a register, or imm7 sign-extended (R199). -/
inductive GIndex where
  | reg (f : BitVec 7)
  | imm (i : BitVec 7)
  deriving DecidableEq, Repr

/-- A uniform memory instruction: its length and SEQ, data field, handle, index, what it does; for an atomic the operand
field, scope, operation, unsigned and ret. -/
structure GMem where
  len : Nat
  sq : BitVec 3
  d : BitVec 7
  a : BitVec 7
  i : GIndex
  kind : AccKind
  c : BitVec 7
  scope : Nat
  op : AtOp
  uns : Bool
  ret : Bool
  deriving DecidableEq, Repr

/-- Is it a strong access (R358)? -/
def GMem.strong (m : GMem) : Bool := m.kind == .atom && 1 ≤ m.scope && m.scope ≤ 4

/-- An instruction with effects beyond the team retires: a SEQ that traps discards them (log entry 13). -/
def groupEnd (s s' : State) (e : Env) (tm tm' : Team) (len : Nat) (sq : BitVec 3) : Out1 :=
  match tm'.seq e sq tm'.flags (tm.pc.toNat + len) with
  | .error t => stepped s (tm.trap e t len (some sq))
  | .ok t => stepped s' (t.retired e)

/-- The number of the uniform register that a field names, for the evenness of a pair, whether or not the team has it. -/
def Team.unumber (tm : Team) (f : Nat) : Nat :=
  match nameU tm.stray f with
  | .reg (.team n) _ => n
  | .reg (.priv _ n) _ => n
  | _ => 0

/-- Uniform registers a data field names for an element size: a pair for 16 bytes (R200). -/
def GMem.count (m : GMem) (size : Nat) : Nat := if m.kind != .atom && size == 16 then 2 else 1

/-- C and V of gld and gst (R199). gatom writes C, and cas Z (R201); it leaves V. -/
def GMem.flags (m : GMem) (f : Flags) (c v swapped : Bool) : Flags :=
  if m.kind == .atom then { f with c := c, z := if m.op == .cas then swapped else f.z } else { f with c := c, v := v }

/-- gld, gst and gatom (R199-R201). All causes of step 1 of R166 are tested together, and poisoned operands with the later ones
(R113, R408). -/
def gmemExec (m : GMem) (s : State) : Out1 :=
  foldStep s fun e fd tm =>
    let store := m.kind == .store
    let atom := m.kind == .atom
    let dest := m.kind == .load || (atom && m.ret)
    let trap (s : State) (t : Trap) : Out1 := stepped s (tm.trap e { t with map := [] } m.len (some m.sq))
    let ixs := match m.i with | .reg f => [(⟨f.toNat, 1⟩ : UUse)] | .imm _ => []
    let srcs : List UUse := [⟨m.a.toNat, 1⟩] ++ ixs ++ (if store then [⟨m.d.toNat, 1⟩] else []) ++
      (if atom then [⟨m.c.toNat, if m.op == .cas then 2 else 1⟩] else [])
    let us := srcs.map fun x => tm.urefs x.f x.n false
    let d1 := if dest then tm.urefs m.d.toNat 1 true else ⟨[], []⟩
    if !((us ++ [d1]).all fun r => r.regs.all tm.opndFull) then
      stepped s (tm.block e (tm.await [] ((us ++ [d1]).map (·.regs)).flatten))
    else
      let early := (us.map (·.causes)).flatten ++ d1.causes
      let named := (us.headD ⟨[], []⟩)
      -- a handle that cannot be read, or is poisoned (R460), names no record to check
      let handle := (named.regs.filterMap tm.opndPoison).map poisonCode
      match (if named.causes.isEmpty && handle.isEmpty then none else Trap.ofCauses (early ++ handle)) with
      | some t => trap s t
      | none =>
        let o := (us.map fun r => r.regs.map tm.opnd).flatten
        let h := (o.getD 0 0#64).toNat
        let i := match m.i with | .reg _ => (o.getD 1 0#64).toNat | .imm x => (x.signExtend 64 : DWord).toNat
        let tlb := s.tlbOf tm
        match s.useRec tlb fd h with
        | .bad t keep => trap (s.keepRec tlb tm.fold h keep) (if early.isEmpty then t else t.join early)
        | .ok r keep =>
          let s := s.keepRec tlb tm.fold h keep
          let n := m.count r.size
          let rs := tm.urefs m.d.toNat n (!store)
          let rs := if atom && !m.ret then ⟨[], []⟩ else rs
          if !rs.regs.all tm.opndFull then stepped s (tm.block e (tm.await [] rs.regs))
          else
            let access := if store then r.mayWrite else if atom then r.access == 0 else r.mayRead
            let causes := early ++ rs.causes ++ causeIf (n == 2 && tm.unumber m.d.toNat % 2 == 1) 0x05 ++
              causeIf (!access) 0x14 ++ causeIf (atom && r.size != 4 && r.size != 8) 0x15
            match Trap.ofCauses causes with
            | some t => trap s { t with sub := if t.cause == 0x15 then 2 else 0
                                        detail := if t.cause == 0x14 then dwordOfNat h else 0#64 }
            | none =>
              let refs := rs.regs.filterMap fun x => match x with | .reg q => some q | .value _ => none
              let give (tm : Team) (v : Nat) : Team :=
                tm.results e.overlap ((List.range refs.length).map fun q =>
                  .uni (refs.getD q (.team 0)) (dwordOfNat (v >>> (64 * q)))) [] false
              let ill := ((us.map (·.regs)).flatten ++ (if store then rs.regs else [])).filterMap tm.opndPoison
              -- a poisoned index gives no address
              let lost := match m.i with | .reg _ => ((us.getD 1 ⟨[], []⟩).regs.filterMap tm.opndPoison) != [] | .imm _ => false
              let fate := if lost then .dropped else s.laneFate tlb fd.ctx r m.kind 1 i
              let s := if lost then s else s.tlbFills tlb fd.ctx (r.touched 1 [i])
              match trapOfLanes (faultsOf [(0, i, fate)] ++ ill.map fun p => (0, poisonCode p, 0, 0)) with
              | some t => trap s t
              | none =>
                -- an access with no element writes 0; an atomic still orders at its scope (R173, R179, R201)
                let none? (v : Bool) : Out1 :=
                  let s := if atom then s.atomBegin tm m.scope 0 [] else s
                  let now := s.teamOr tm
                  let tm' := if dest then give now 0 else now
                  groupEnd s s e tm { tm' with flags := m.flags tm.flags false v false } m.len m.sq
                match fate with
                | .dropped => none? false
                | .missing => none? true
                | .faults _ => .next s
                | .ok ps =>
                  let xs := [(0, i, ps)]
                  let core := s.coreOf tm
                  let runs := (ps.map (·.segs)).flatten
                  let s := if atom then s.atomBegin tm m.scope r.enc runs else if store && r.coded then s.coreLeaves core runs
                    else if store then s else s.opens core r xs
                  let mix := m.strong && s.mix fd.ctx && s.mixed fd.ctx (pieceAddr ps) r.size
                  let bad := if store then (if r.coded then s.poisonOf ps else s.partPoison runs runs)
                    else s.poisonAtCore core r ps
                  match trapOfLanes ((causeIf mix 0x16 ++ poisonCauses bad).map fun k => (0, k, 0, r.addr i)) with
                  | some t => trap s t
                  | none =>
                    let flags := m.flags tm.flags true false false
                    let lands := if store || atom then trapOfLanes (s.refused [(0, runs)]) else none
                    match m.kind with
                    | .store =>
                      let v := (rs.regs.map tm.opnd).map (·.toNat)
                      let bs := (bytesOf 8 (v.getD 0 0) ++ bytesOf 8 (v.getD 1 0)).take r.size
                      let through := s.through 5
                      let s' := if r.coded then s.coreBlocks core fd.ctx r (groupBlocks (ps.map fun p => (p, v.getD 0 0)))
                        else
                          let s' := s.writeLanes core (r.enc == 4) through [(runs, bs)]
                          if through then s'.clearPoison runs else s'
                      (match lands with
                        | some t => trap s' t
                        | none => groupEnd s s' e tm { s'.teamOr tm with flags := flags } m.len m.sq)
                    | .atom =>
                      let at_ := srcs.length - 1
                      let q := s.atomAt m.op m.uns r.size (pieceAddr ps) ((o.getD at_ 0#64).toNat % 2 ^ (8 * r.size))
                        ((o.getD (at_ + 1) 0#64).toNat % 2 ^ (8 * r.size))
                      let s' := q.2.note fd.ctx m.strong r.size xs
                      let swapped := q.1 == (o.getD at_ 0#64).toNat % 2 ^ (8 * r.size)
                      (match lands with
                        | some t => trap s' t
                        | none =>
                          groupEnd s s' e tm { (if m.ret then give (s'.teamOr tm) q.1 else s'.teamOr tm) with
                            flags := m.flags tm.flags true false swapped } m.len m.sq)
                    | _ =>
                      let d := s.readLanes core fd.ctx r xs
                      groupEnd s d.2 e tm { give tm (numOf ((d.1.headD (0, [])).2)) with flags := flags } m.len m.sq

/-- gld and gst. -/
def gldst (kind : AccKind) (sq : BitVec 3) (d a : BitVec 7) (i : GIndex) : GMem :=
  ⟨4, sq, d, a, i, kind, 0#7, 5, .add, false, false⟩
/-- gatom. -/
def gatomOf (op : AtOp) (uns : Bool) (sq : BitVec 3) (d a b c : BitVec 7) (sc : BitVec 3) (ret : Bool) : GMem :=
  ⟨8, sq, d, a, .reg b, .atom, c, sc.toNat, op, uns, ret⟩

/-- `GLD_GA` (R199). -/
def execGldGa (sq : BitVec 3) (d a b : BitVec 7) (s : State) : Out1 :=
  gmemExec (gldst .load sq d a (.reg b)) s

/-- `GLD_GI` (R199). -/
def execGldGi (sq : BitVec 3) (d a i : BitVec 7) (s : State) : Out1 :=
  gmemExec (gldst .load sq d a (.imm i)) s

/-- `GST_GA` (R199). -/
def execGstGa (sq : BitVec 3) (s a b : BitVec 7) (st : State) : Out1 :=
  gmemExec (gldst .store sq s a (.reg b)) st

/-- `GST_GI` (R199). -/
def execGstGi (sq : BitVec 3) (s a i : BitVec 7) (st : State) : Out1 :=
  gmemExec (gldst .store sq s a (.imm i)) st

/-- `GATOM_ADD` (R201). -/
def execGatomAdd (sq : BitVec 3) (d a b c : BitVec 7) (sc : BitVec 3) (ret : Bool) (s : State) : Out1 :=
  gmemExec (gatomOf .add false sq d a b c sc ret) s

/-- `GATOM_MIN` (R201). -/
def execGatomMin (sq : BitVec 3) (d a b c : BitVec 7) (sc : BitVec 3) (ret u : Bool) (s : State) : Out1 :=
  gmemExec (gatomOf .min u sq d a b c sc ret) s

/-- `GATOM_MAX` (R201). -/
def execGatomMax (sq : BitVec 3) (d a b c : BitVec 7) (sc : BitVec 3) (ret u : Bool) (s : State) : Out1 :=
  gmemExec (gatomOf .max u sq d a b c sc ret) s

/-- `GATOM_AND` (R201). -/
def execGatomAnd (sq : BitVec 3) (d a b c : BitVec 7) (sc : BitVec 3) (ret : Bool) (s : State) : Out1 :=
  gmemExec (gatomOf .and false sq d a b c sc ret) s

/-- `GATOM_OR` (R201). -/
def execGatomOr (sq : BitVec 3) (d a b c : BitVec 7) (sc : BitVec 3) (ret : Bool) (s : State) : Out1 :=
  gmemExec (gatomOf .or false sq d a b c sc ret) s

/-- `GATOM_XOR` (R201). -/
def execGatomXor (sq : BitVec 3) (d a b c : BitVec 7) (sc : BitVec 3) (ret : Bool) (s : State) : Out1 :=
  gmemExec (gatomOf .xor false sq d a b c sc ret) s

/-- `GATOM_XCHG` (R201). -/
def execGatomXchg (sq : BitVec 3) (d a b c : BitVec 7) (sc : BitVec 3) (ret : Bool) (s : State) : Out1 :=
  gmemExec (gatomOf .xchg false sq d a b c sc ret) s

/-- `GATOM_CAS` (R201). -/
def execGatomCas (sq : BitVec 3) (d a b c : BitVec 7) (sc : BitVec 3) (ret : Bool) (s : State) : Out1 :=
  gmemExec (gatomOf .cas false sq d a b c sc ret) s

end Sys2Proof.Machine
end

