-- ==== Sys2Proof/Machine/Records.lean ====
section
/-!
DEFINITION. Sys2Proof/Machine/Records.lean: fault records and the fault queue (R409-R414), and the arrival of a halt at a team (R410).
-/
namespace Sys2Proof.Machine

/-! ## Fault records -/

/-- The items of a fault record (R409), sequence apart. -/
structure FaultRec where
  cause : Nat
  kind : Nat
  first : Bool
  margin : Bool
  stray : Bool
  depth2 : Bool
  sub : Nat
  sec : DWord
  skid : Nat
  pc : CodeAddr
  ctx : Nat
  team : Nat
  fold : Nat
  paddock : Nat
  core : Nat
  part : Nat
  detail : DWord
  origin : CodeAddr
  fmt : Word
  w : Nat
  map : List Nat
  block : List DWord
  deriving DecidableEq, Repr

/-- The 16 words of a fault map. -/
def mapWords (js : List Nat) : List DWord :=
  (List.range 16).map fun k => js.foldl (fun m j => if j / 64 == k then m ||| (1#64 <<< (j % 64)) else m) 0#64

/-- The 32 words of a record; the sequence field is zero. -/
def FaultRec.words (r : FaultRec) : List DWord :=
  [dwordOfNat (r.cause * 2 ^ 56 + r.kind * 2 ^ 52 + (if r.first then 2 ^ 51 else 0) + (if r.margin then 2 ^ 50 else 0) +
      (if r.stray then 2 ^ 49 else 0) + (if r.depth2 then 2 ^ 48 else 0) + r.sub % 65536 * 2 ^ 32),
    r.sec,
    dwordOfNat (r.skid % 128 * 2 ^ 48 + r.pc.toNat),
    dwordOfNat (r.ctx * 2 ^ 58 + r.team * 2 ^ 53 + r.fold % 2 ^ 32 * 2 ^ 16 + r.paddock * 2 ^ 11 + r.core * 2 ^ 9 + r.part * 16),
    r.detail, r.origin.setWidth 64, r.fmt.setWidth 64, dwordOfNat r.w] ++ mapWords r.map ++
  (List.range 8).map fun i => r.block.getD i 0#64

/-- The sequence a record carries is written into it when it is posted. -/
def withSeq (ws : List DWord) (n : Nat) : List DWord :=
  upd ws 0 fun w => w ||| dwordOfNat (n % 2 ^ 32)

/-- The record of a stopped team. -/
def State.stopRec (s : State) (tm : Team) (st : Stop) : FaultRec :=
  { cause := st.cause, kind := st.kind, first := st.first, margin := st.margin, stray := st.stray, depth2 := st.depth2
    sub := st.sub, sec := st.sec, skid := st.skid, pc := st.pc, ctx := s.ctxOf tm, team := tm.idx
    fold := ((s.fold? tm.fold).map (·.linear)).getD 0, paddock := s.padOf tm, core := tm.core, part := tm.part
    detail := st.detail, origin := st.origin, fmt := st.fmt, w := tm.w, map := st.map, block := st.block }

/-- An asynchronous record of a context (kind 4). -/
def asyncRec (ctx cause sub : Nat) (detail : DWord) : FaultRec :=
  { cause := cause, kind := 4, first := false, margin := false, stray := false, depth2 := false, sub := sub, sec := 0#64
    skid := 0, pc := 0#48, ctx := ctx, team := 0, fold := 0, paddock := 0, core := 0, part := 0, detail := detail
    origin := 0#48, fmt := 0#32, w := 0, map := [], block := [] }

/-! ## The fault queue (R414) -/

/-- Is the fault queue of a context configured? -/
def Ctx.queueOk (c : Ctx) : Bool := 2 ≤ c.word 7 % 32 && c.word 7 % 32 ≤ 16 && bitsOf (c.word 6) 47 0 % 256 == 0

/-- The virtual address of the `i`-th entry of the queue from the tail on. -/
def Ctx.queueVa (x : Ctx) (i : Nat) : Nat := bitsOf (x.word 6) 47 0 + 256 * ((x.word 8 + i) % 2 ^ (x.word 7 % 32))

/-- The physical addresses of `n` entries from the tail on, none where the run cannot be written. -/
def State.queueRoom (s : State) (c n : Nat) : Option (List Nat) :=
  let x := s.ctx c
  if !x.queueOk || 2 ^ (x.word 7 % 32) < x.word 8 - x.word 9 + n then none
  else (List.range n).foldl (fun acc i =>
    match acc, s.translate 0 c (x.queueVa i) .write with
    | some l, .ok pa _ => some (l ++ [pa])
    | _, _ => none) (some [])

/-- Writes records, each with the context's next sequence, at physical addresses; blocks held decoded there are encoded first (R343). -/
def State.putRecords (s : State) (c : Nat) : List (Nat × List DWord) → State
  | [] => s
  | x :: xs =>
    let n := (s.ctx c).seqno
    let s := (s.settle [(x.1, 256)]).busWrite x.1 (((withSeq x.2 n).map fun w => bytesOf 8 w.toNat).flatten)
    (s.updCtx c fun k => { k with seqno := n + 1, desc := upd k.desc 8 (· + 1#64) }).putRecords c xs

/-- Posts a run of records in one piece, none where it does not fit; the control program's hart is signalled. -/
def State.postRun (s : State) (c : Nat) (rs : List (List DWord)) : Option State :=
  let s := (List.range rs.length).foldl (fun (s : State) i => s.walkSettle 0 c ((s.ctx c).queueVa i)) s
  match s.queueRoom c rs.length with
  | none => none
  | some pas =>
    let s := s.putRecords c (pas.zip rs)
    some { s with out := s.out ++ [.signal c] }

/-- The waiting records of a context go to its queue, in order, as far as they fit; the list bounds the recursion. -/
def State.drainList (s : State) (c : Nat) : List (List DWord) → State
  | [] => s
  | r :: rs =>
    match s.postRun c [r] with
    | none => s
    | some s' => (s'.updCtx c fun k => { k with pend := k.pend.drop 1 }).drainList c rs

/-- The waiting records of a context go to its queue, in order. -/
def State.drainPend (s : State) (c : Nat) : State := s.drainList c (s.ctx c).pend

/-- A record that halts no fold is posted, or waits behind those that wait (R407, R414). -/
def State.postAsync (s : State) (c : Nat) (r : FaultRec) : State :=
  (s.updCtx c fun k => { k with pend := k.pend ++ [r.words] }).drainPend c

/-! ## The records of a halt (R411) -/

/-- The teams whose records the next run of a fold holds. Debug stops that halt no sibling are halts of their own, an
external halt's together (R422); else those that stopped and have no record yet, once no team of a halting fold still runs. -/
def State.unposted (s : State) (f : Fold) : List (Nat × Team × Stop) :=
  let xs := (s.foldTeams f).filterMap fun x =>
    match x.2.status, x.2.stop with
    | .stopped, some st => if st.seqno.isNone && st.cause != 0x3C then some (x.1, x.2, st) else none
    | _, _ => none
  match xs.filter fun x => x.2.2.cause != 0x3B && !s.halting f.ctx x.2.2 with
  | x :: rest => if x.2.2.cause == 0x3A then x :: rest.filter (·.2.2.cause == 0x3A) else [x]
  | [] => if (s.foldTeams f).any (·.2.status == .run) then [] else xs

/-- An item of a run: the record of a stop, or `none` and the words of one. -/
abbrev RunItem := Option (Nat × Team × Stop) × List DWord

/-- The record of a stop as an item of a run, first of its halt or not. -/
def runItem (first : Bool) (x : Nat × Team × Stop) : RunItem := (some (x.1, x.2.1, { x.2.2 with first := first }), [])

/-- The items of teams other than a run's first, by team index: of faulting ones, among them the further records that teams of the fold
raised, then of siblings. -/
def runRest (xs : List (Nat × Team × Stop)) (extra : List (List DWord)) : List RunItem :=
  let idx (y : RunItem) : Nat := match y.1 with
    | some x => x.2.1.idx
    | none => bitsOf (y.2.getD 3 0#64).toNat 57 53
  sortBy (fun a b => decide (idx a ≤ idx b))
    ((xs.filter fun x => x.2.2.cause != 0x3B).map (runItem false) ++ extra.map fun w => (none, w)) ++
  (xs.filter fun x => x.2.2.cause == 0x3B).map (runItem false)

/-- The order of a run (R411): the first record, then the others. -/
def runOrder (xs : List (Nat × Team × Stop)) (extra : List (List DWord)) : List RunItem :=
  let faulting := xs.filter fun x => x.2.2.cause != 0x3B
  let lead := match faulting.find? fun x => x.2.2.first with
    | some x => some x
    | none => faulting.head?
  match lead with
  | none => []
  | some l => runItem true l :: runRest (xs.filter fun x => x.1 != l.1) extra

/-- The run of a fold's halt that has been posted, by the sequence of its first record. -/
def State.haltPosted (s : State) (f : Fold) : Option Nat :=
  (s.foldTeams f).findSome? fun x => match x.2.status, x.2.stop with
    | .stopped, some st => if s.halting f.ctx st then st.run else none
    | _, _ => none

/-- The runs of a context's folds that wait to be written, with their folds: of a saved fold too, whose teams trapped in their skid (R428). A
fault that came after its halt's run was posted belongs to that halt, with first clear (R411). -/
def State.haltRuns (s : State) (c : Nat) : List (Nat × List RunItem) :=
  (List.range s.folds.length).filterMap fun n => (s.fold? n).bind fun f =>
    if f.ctx == c && f.status != .ended then
      let xs := s.unposted f
      let extra := if xs.any fun x => s.halting f.ctx x.2.2 then f.extra else []
      let late := (s.haltPosted f).isSome && xs.all fun x => x.2.2.cause == 0x3B || s.halting f.ctx x.2.2
      match if late then runRest xs extra else runOrder xs extra with
      | [] => none
      | r => some (n, r)
    else none

/-- After the run of a halt has been written, its first record with sequence `run`, from sequence `n` on. -/
def State.markPosted (s : State) (run n : Nat) : List (Option (Nat × Team × Stop)) → State
  | [] => s
  | none :: xs => s.markPosted run (n + 1) xs
  | some x :: xs =>
    (s.updTeam x.1 fun tm => { tm with stop := some { x.2.2 with seqno := some n, run := some run } }).markPosted run (n + 1) xs

/-- The words of an item of a run. -/
def State.runWords (s : State) (x : RunItem) : List DWord :=
  match x.1 with
  | some y => (s.stopRec y.2.1 y.2.2).words
  | none => x.2

/-- The run that records carry: the sequence of its first record, which for later faults of a halt was posted before (R411). -/
def State.runOf (s : State) (c n : Nat) (r : List RunItem) : Nat :=
  if ((r.head?.bind (·.1)).map (·.2.2.first)).getD false then (s.ctx c).seqno
  else ((s.fold? n).bind s.haltPosted).getD (s.ctx c).seqno

/-- The first run that fits is written: a halt waits for its own room and not for another's (R414). -/
def State.postHalt (s : State) (c : Nat) : List (Nat × List RunItem) → State
  | [] => s
  | (n, r) :: rest =>
    match s.postRun c (r.map s.runWords) with
    | none => s.postHalt c rest
    | some s' =>
      (s'.markPosted (s.runOf c n r) (s.ctx c).seqno (r.map (·.1))).updFold n fun f => if r.any (·.1.isNone) then { f with extra := [] } else f

/-- The queue of a context takes what waits: the records in order, then the run of one halt. -/
def State.faultRun (s : State) (c : Nat) : State :=
  let s := s.drainPend c
  if !(s.ctx c).pend.isEmpty then s else s.postHalt c (s.haltRuns c)

/-- `FAULT_RUN_WRITE` (R414). -/
def execFaultRunWrite (ctx : Nat) (s : State) : Out1 := moved (s.faultRun ctx)

/-- `FAULT_QUEUE_HEAD_WRITE` (R414). The device tries the run again whenever the head is written. -/
def execFaultQueueHeadWrite (ctx : Nat) (value : BitVec 64) (s : State) : Out1 :=
  moved ((s.updCtx ctx fun k => { k with desc := upd k.desc 9 fun _ => value }).faultRun ctx)

/-! ## The halt reaches a team (R410, R413) -/

/-- A team that runs stops at once, with a halt's cause or a debug halt's; a boost claim of it stays open (R422). -/
def State.haltTeam (s : State) (t cause kind : Nat) : State :=
  match s.team? t with
  | none => s
  | some tm => if tm.status != .run then s else s.updTeam t fun _ => tm.trapAt (s.env t tm) (.of cause) kind tm.pc tm.origin [] 0 none

/-- `HALT_ARRIVAL` (R410). The halt of a fold, or of a victim, arrives at a team that runs: it will issue `skid` more
instructions, 64 at most; one that is blocked, or at which the halt has arrived before, stops at once. -/
def execHaltArrival (team skid : Nat) (s : State) : Out1 :=
  match s.team? team with
  | none => .next s
  | some tm =>
    let e := s.env team tm
    if tm.status != .run || !(e.victim || e.halted) then .next s
    else moved (s.updTeam team fun _ => tm.haltArrives e (if tm.wait == .none && tm.halt.isNone then skid else 0))

/-- A debug halt from outside stops every team of a fold (R422). -/
def State.haltFold (s : State) (cause kind : Nat) : List Nat → State
  | [] => s
  | t :: ts => (s.haltTeam t cause kind).haltFold cause kind ts

/-- `EXTERNAL_DEBUG_HALT` (R422). -/
def execExternalDebugHalt (fold : Nat) (s : State) : Out1 :=
  match s.fold? fold with
  | some f => if f.status == .resident then moved (s.haltFold 0x3A 0 f.teams) else .next s
  | none => .next s

end Sys2Proof.Machine
end

