-- ==== Sys2Proof/Machine/Meet.lean ====
section
/-!
DEFINITION. Sys2Proof/Machine/Meet.lean: the fold-wide meetings fbar, phase and fmove (R63-R67, R211, R216, R217).
-/
namespace Sys2Proof.Machine

/-! ## Schedules (R64, R65, R76) -/

/-- Stage set and rank of a team index under the counts of a schedule. -/
def stageOf : Nat → List Nat → Nat → Nat × Nat
  | k, [], i => (k, i)
  | k, n :: ns, i => if i < n then (k, i) else stageOf (k + 1) ns (i - n)

/-- The counts of schedule `c`: an implicit one places every team in stage set 0 (R76). -/
def Kernel.counts (k : Kernel) (c : Nat) : List Nat := k.scheds.getD c [k.teams]

/-- A predicted time as a fraction; a zero denominator is unbounded. -/
def fracLt (a b : Nat × Nat) : Bool := a.1 * b.2 < b.1 * a.2

/-- The largest of predicted times. -/
def fracMax (l : List (Nat × Nat)) : Nat × Nat := l.foldl (fun m x => if fracLt m x then x else m) (0, 1)

/-- The predicted time of a stage set under a schedule that gives it `n` teams. -/
def predict (work n : Nat) : Nat × Nat := if work == 0 then (0, 1) else if n == 0 then (1, 0) else (work, n)

/-- Cost of a schedule. -/
def schedCost (works counts : List Nat) : Nat × Nat :=
  fracMax ((List.range 4).map fun s => predict (works.getD s 0) (counts.getD s 0))

/-- The lowest of the least costs. -/
def argMin : Nat → List (Nat × Nat) → Nat
  | _, [] => 0
  | k, c :: cs => if cs.all fun d => !fracLt d c then k else argMin (k + 1) cs

/-- The schedule a phase picks: the first phase of a fold picks 0. -/
def pickSched (k : Kernel) (phases : Nat) (works : List Nat) : Nat :=
  if phases == 0 then 0
  else argMin 0 ((List.range (max 1 k.scheds.length)).map fun c => schedCost works (k.counts c))

/-- The work of each stage set of a fold, over the teams its present schedule assigns to it. -/
def State.stageWorks (s : State) (f : Fold) : List Nat :=
  (List.range 4).map fun st =>
    ((s.foldTeams f).map fun x =>
      if (stageOf 0 (f.kernel.counts f.sched) x.2.idx).1 == st then x.2.work else 0).sum

/-- What phase writes (R65). -/
def phaseWord (k : Kernel) (sched idx : Nat) : DWord :=
  let p := stageOf 0 (k.counts sched) idx
  dwordOfNat (p.1 + p.2 * 2 ^ 8 + sched * 2 ^ 24)

/-! ## Meetings -/

/-- Teams of a fold that have not ended. -/
def State.live (s : State) (f : Fold) : List (Nat × Team) := (s.foldTeams f).filter fun x => x.2.status != .gone

/-- Is an arrival one of the barrier? -/
def Arrival.barrier : Arrival → Bool
  | .fbar | .phase _ => true
  | .fmove _ _ _ => false

/-- Is it one of a phase? -/
def Arrival.isPhase : Arrival → Bool
  | .phase _ => true
  | _ => false

/-- Does a team wait at the barrier of its fold? -/
def Team.atBarrier (tm : Team) : Bool := (tm.arrived.map (·.1.barrier)).getD false
/-- Does a team wait at a phase? -/
def Team.atPhase (tm : Team) : Bool := (tm.arrived.map (·.1.isPhase)).getD false

/-- A team leaves the barrier: a phase writes its register, SEQ acts, and its next start point is now. -/
def State.leaveBarrier (s : State) (sched : Option Nat) (k : Kernel) (t : Nat) (tm : Team) : State :=
  match tm.arrived with
  | none => s
  | some (a, sq) =>
    let e := s.env t tm
    let base := { tm with arrived := none, start := if sched.isSome then s.clock (s.place tm) else tm.start
                          ran := if sched.isSome then 0 else tm.ran }
    let after := match a, sched with
      | .phase d, some c => base.results e.overlap [.uni d (phaseWord k c tm.idx)] [] false
      | _, _ => base
    s.updTeam t fun _ => base.finish after e 4 sq 0#6

/-- Teams leave the barrier one after the other. -/
def State.leaveAll (s : State) (sched : Option Nat) (k : Kernel) : List (Nat × Team) → State
  | [] => s
  | x :: xs => (s.leaveBarrier sched k x.1 x.2).leaveAll sched k xs

/-- Old bytes of writes that every team of a fold has now observed (R262). -/
def State.shareWrites (s : State) (fold : Nat) (f : Fold) : State :=
  let old := ((s.foldTeams f).map (·.2.unfenced)).flatten
  let s := s.updFold fold fun x => { x with shared := x.shared ++ old }
  { s with teams := s.teams.map fun tm => if tm.fold == fold then { tm with unfenced := [] } else tm }

/-- The barrier of a fold completes when every team has arrived or has ended (R211): as a phase where one arrived by
phase. It is a full fence at fold scope: every core of the fold writes back and invalidates before a team leaves (R323, R354).
A team that a debugger stopped there keeps the others waiting (R422). -/
def State.meetCheck (s : State) (fold : Nat) : State :=
  match s.fold? fold with
  | none => s
  | some f =>
    let live := s.live f
    if live.isEmpty || !live.all (fun x => x.2.atBarrier && x.2.status == .run) then s
    else
      let s := (s.shareWrites fold f).fences (s.foldCores f)
      let live := s.live f
      if live.any (·.2.atPhase) then
        let c := pickSched f.kernel f.phases (s.stageWorks f)
        let s := s.updFold fold fun x => { x with sched := c, phases := x.phases + 1 }
        let s := s.leaveAll (some c) f.kernel live
        { s with teams := s.teams.map fun tm => if tm.fold == fold && tm.status == .gone then { tm with work := 0 } else tm }
      else s.leaveAll none f.kernel live

/-- A team arrives at a meeting once its loads have been performed; a team that has arrived waits on. -/
def arrive (s : State) (e : Env) (tm : Team) (a : Arrival) (w : Wait) (sq : BitVec 3) : Out1 :=
  if tm.arrived.isSome then stepped s (tm.block e w)
  else if !tm.inflight.isEmpty then stepped s (tm.block e (.loads (w != .move)))
  else
    let tm' := { tm.block e w with arrived := some (a, sq), work := tm.ran + (s.clock (s.place tm) - tm.start) }
    .next { (s.updTeam s.cur fun _ => tm').meetCheck tm.fold with moves := s.moves + 1 }

/-- `FBAR` (R211). -/
def execFbar (sq : BitVec 3) (s : State) : Out1 :=
  foldStep s fun e _ tm => arrive s e tm .fbar .barrier sq

/-- `PHASE` (R216). -/
def execPhase (sq : BitVec 3) (d : BitVec 7) (s : State) : Out1 :=
  foldStep s fun e _ tm =>
    match tm.groupCheck [] [] [⟨d.toNat, 1⟩] true with
    | .wait w => stepped s (tm.block e w)
    | .trap t => stepped s (tm.trap e t 4 (some sq))
    | .go o => arrive s e tm (.phase (o.dsts.headD (.team 0))) .barrier sq

/-! ## fmove (R66, R67, R217, R319) -/

/-- Aligned offsets below `size` at which a region may begin. -/
def alignedBases (align size : Nat) : List Nat := (List.range (size / align)).map (· * align)

/-- Do regions (base, size) meet? -/
def meets (a b : Nat × Nat) : Bool := a.1 < b.1 + b.2 && b.1 < a.1 + a.2

/-- The lowest aligned offset at which a region of `n` bytes is free of the regions held. -/
def firstFit (align size n : Nat) (held : List (Nat × Nat)) : Option Nat :=
  if n == 0 then some 0
  else (alignedBases align size).find? fun b => b + n ≤ size && !held.any (meets (b, n))

/-- Regions of a core's scratch (or accumulator store) that resident folds of a paddock hold. -/
def State.heldOn (s : State) (p core : Nat) (acc : Bool) : List (Nat × Nat) :=
  ((s.folds.filter fun f => f.status == .resident && f.paddock == p).map fun f =>
    ((if acc then f.acc else f.scratch).filter (·.core == core)).map fun a => (a.base, a.size)).flatten

/-- Allocations of `n` bytes on each of some cores of a paddock, none where one does not fit. -/
def State.allocs (s : State) (p : Nat) (acc : Bool) (n : Nat) : List Nat → Option (List Alloc)
  | [] => some []
  | c :: cs =>
    let size := if acc then Config.accBytes else Config.scratchBytes
    match firstFit (if acc then 8192 else 4096) size n (s.heldOn p c acc), s.allocs p acc n cs with
    | some b, some rest => some (⟨c, b, n⟩ :: rest)
    | _, _ => none

/-- The energy and current a paddock's budget allows: lowered at thermal level 2 (R462, R463), also where no temperature
sensor of the domain is healthy (R467). -/
def State.budget (s : State) (p : Nat) : Nat × Nat :=
  let d := s.domains.getD (domainOf p) Domain.reset
  if 2 ≤ d.level then (150000, 60) else (200000, 80)

/-- Energy and peak that the folds resident on a paddock declare. -/
def State.declared (s : State) (p : Nat) : Nat × Nat :=
  (s.folds.filter fun f => f.status == .resident && f.paddock == p).foldl
    (fun a f => (a.1 + f.kernel.energy, a.2 + f.kernel.peak)) (0, 0)

/-- Does a paddock take a declaration, by its masks, its reservation (for a job, or none) and budgets (R447 items 4 to 6)? -/
def State.takes (s : State) (p : Nat) (job : Option Nat) (energy peak : Nat) : Bool :=
  let d := s.declared p
  let b := s.budget p
  let none? := !(s.folds.any fun f => f.status == .resident && f.paddock == p)
  !(s.vacates.any fun v => v.mask.getLsbD p) && ((s.pad p).reserved.isNone || (s.pad p).reserved == job) &&
    (none? || (d.1 + energy ≤ b.1 && d.2 + peak ≤ b.2))

/-- Do the teams of a fold find their own core, partition and windows free on a paddock (R40, R319, R425, R447)? Those that
have ended keep their place with it (R13). -/
def State.placeSame (s : State) (f : Fold) (p : Nat) : Bool :=
  let mine := (s.foldTeams f).map (·.2)
  (List.range 128).all fun k =>
    let here := mine.filter fun tm => tm.core * 32 + tm.part == k
    let there := s.teamsAt (p * 128 + k)
    here.isEmpty ||
      (here.length + there.length ≤ 32 &&
        ((here ++ there).map (·.resv)).sum ≤ Config.poolSlots &&
        ((here ++ there).map (·.uregs.length)).sum ≤ Config.poolUniform &&
        here.all fun tm => tm.landings.all fun l => !there.any fun o => o.landings.any (·.window == l.window))

/-- Pointer-table entries of a core's channel that resident folds hold (R286). -/
def State.chanHeld (s : State) (p core ch : Nat) : Nat := (s.chanPtrs (p * 4 + core) ch).length

/-- Has a fold a paddock queue open (R67)? -/
def State.queueOpen (s : State) (fold : Nat) (f : Fold) : Bool :=
  (s.pad f.paddock).queues.any fun q => q.owner == some fold

/-- Pointer-table entries that a fold takes where it is placed: those whose pointer is not zero (R286). DEDUCED (log entry 109): those of
a copy still counted too, whose bytes the pointer has yet to count; the others are freed. -/
def State.keptChans (s : State) (f : Fold) : List Chan :=
  f.chans.filter fun c => c.ptr != 0 || s.ops.any fun o =>
    o.live && o.kind == .copy && f.teams.contains o.team && o.core == c.core && o.ring == c.ch

/-- The allocations of a fold on another paddock on the same cores, none where it cannot be admitted there. -/
def State.canMove (s : State) (f : Fold) (p : Nat) : Option (List Alloc × List Alloc) :=
  if !s.takes p none f.kernel.energy f.kernel.peak || !s.placeSame f p ||
      (s.keptChans f).any (fun c => 64 ≤ s.chanHeld p c.core c.ch) then none
  else
    match s.allocs p false f.kernel.scratch (f.scratch.map (·.core)), s.allocs p true f.kernel.acc (f.acc.map (·.core)) with
    | some sc, some ac => some (sc, ac)
    | _, _ => none

/-- Bytes of allocations, in order, and the tags of accumulator rows by their place in that order. -/
def State.allocBytes (s : State) (f : Fold) : List Byte :=
  (f.scratch.map fun a => memRead s.mem (scratchAddr (f.paddock * 4 + a.core) a.base) a.size).flatten ++
  (f.acc.map fun a => memRead s.mem (accAddr (f.paddock * 4 + a.core) a.base) a.size).flatten

/-- Start addresses and sizes of the allocations of a fold, in the order of its image. -/
def Fold.places (f : Fold) : List (Nat × Nat) :=
  (f.scratch.map fun a => (scratchAddr (f.paddock * 4 + a.core) a.base, a.size)) ++
  f.acc.map fun a => (accAddr (f.paddock * 4 + a.core) a.base, a.size)

/-- Cells, poison and tags of a range leave it. -/
def State.lift (s : State) (r : Nat × Nat) : State :=
  { s with
    mem := s.mem.filter fun c => !(r.1 ≤ c.1 && c.1 < r.1 + r.2)
    poison := s.poison.filter fun p => !(r.1 / 8 ≤ p.1 && p.1 < (r.1 + r.2) / 8)
    tags := s.tags.filter fun t => !(r.1 / 256 ≤ t.1 && t.1 < (r.1 + r.2) / 256) }

/-- The bytes that stood at one list of places stand at another, old places emptied: what the image of a fold carries. -/
def State.carry (s : State) : List ((Nat × Nat) × (Nat × Nat)) → State
  | [] => s
  | (a, b) :: rest =>
    let cells := s.mem.filter fun c => a.1 ≤ c.1 && c.1 < a.1 + a.2
    let pois := (s.poison.filter fun p => a.1 / 8 ≤ p.1 && p.1 < (a.1 + a.2) / 8).map fun p => (p.1 - a.1 / 8 + b.1 / 8, p.2)
    let tags := (s.tags.filter fun t => a.1 / 256 ≤ t.1 && t.1 < (a.1 + a.2) / 256).map fun t => (t.1 - a.1 / 256 + b.1 / 256, t.2)
    let s := (s.lift a).lift b
    { s with
      mem := cells.foldl (fun (m : List Host.Cell) (c : Host.Cell) => memSet m (c.1 - a.1 + b.1) c.2) s.mem
      poison := s.poison ++ pois
      tags := s.tags ++ tags }.carry rest

/-- The teams of a fold go on counting their work on the partitions of another paddock (R64, R68), where all their writes stand. -/
def State.rebase (s : State) (fold : Nat) (p : Nat) : State :=
  { s with teams := s.teams.map fun tm =>
      if tm.fold == fold then
        { tm with ran := tm.ran + (s.clock (s.place tm) - tm.start), start := s.clock (placeOf p tm.core tm.part), unfenced := []
                  claim := none }
      else tm }

/-- The teams of a fold join the sets of the partitions on which they have been placed, each the active set where that has room
(R450). -/
def State.joinSets (s : State) (f : Fold) : State :=
  let s := f.teams.foldl (fun (s : State) t => s.updTeam t fun tm => { tm with active := false }) s
  f.teams.foldl (fun (s : State) t => match s.team? t with
    | some tm =>
      if tm.status != .gone && (s.teamsAt (s.place tm)).countP (·.active) < 8 then
        s.updTeam t fun x => { x with active := true, blocked := 0 }
      else s
    | none => s) s

/-- A fold moves: its allocations, pointers and teams stand on another paddock; its boost claim stays behind (R437). It is a victim there
only where an open vacate request names that paddock (R428). -/
def State.moveFold (s : State) (fold : Nat) (f : Fold) (p : Nat) (sc ac : List Alloc) : State :=
  let f' := { f with paddock := p, scratch := sc, acc := ac }
  let s := (s.leaveCores f).carry (f.places.zip f'.places)
  let s := s.updPad f.paddock fun x => { x with claims := x.claims.filter (· != fold) }
  let s := (s.rebase fold p).updFold fold fun x =>
    { x with paddock := p, scratch := sc, acc := ac, shared := [], released := [], chans := s.keptChans x, left := false
             victim := x.victim && s.vacates.any fun v => v.waits && v.mask.getLsbD p }
  (s.unpin.enterCores (s.foldCores f') f.ctx f.kernel).joinSets f'

/-- The target of an fmove: a paddock, none where the move fails, or the trap of the governing team. DESIGN CHOICE (log entry 100):
a base on a page of the on-chip or the control space, which the context may not use, is the governing team's trap 0x14, subcode 2
(R432). -/
def State.moveTarget (s : State) (fold : Nat) (f : Fold) (mode val : Nat) : Except (Trap × State) (Option Nat × State) :=
  if mode == 0 then
    if 32 ≤ val then .error (.sub' 0x1E 2, s) else .ok (some val, s)
  else
    let tlb := coreTlb (4 * f.paddock)
    match s.useRec tlb f val with
    | .bad t keep => .error (t, s.keepRec tlb fold val keep)
    | .ok r keep =>
      let s := (s.keepRec tlb fold val keep).tlbFill tlb f.ctx (r.addr 0 / 65536)
      match s.translate tlb f.ctx (r.addr 0) .read with
      | .ok pa _ =>
        let h := homeSlice pa
        .ok (some (8 * (h / 32) + h % 32 / 4), s)
      | .fault k sub => if k == 0x13 || (k == 0x14 && sub == 1) then .ok (none, s)
                        else .error ({ Trap.sub' k sub with detail := 0#64 }, s)

/-- A team resumes after fmove: the paddock in its register, Z for a failure (R217). -/
def State.leaveMove (s : State) (failed : Bool) (p t : Nat) (tm : Team) : State :=
  match tm.arrived with
  | some (.fmove d _ _, sq) =>
    let e := s.env t tm
    let base := { tm with arrived := none }
    let after := { base.results e.overlap [.uni d (dwordOfNat p)] [] false with flags := ⟨failed, false, false, false⟩ }
    s.updTeam t fun _ => base.finish after e 4 sq 0#6
  | _ => s

/-- All teams resume after fmove. -/
def State.leaveMoves (s : State) (failed : Bool) (p : Nat) : List (Nat × Team) → State
  | [] => s
  | x :: xs => (s.leaveMove failed p x.1 x.2).leaveMoves failed p xs

/-- `FMOVE` (R217). The team arrives; FMOVE_TRANSFER moves the fold. -/
def execFmove (sq : BitVec 3) (d a m : BitVec 7) (s : State) : Out1 :=
  foldStep s fun e _ tm =>
    match tm.groupCheck [⟨a.toNat, 1⟩] [] [⟨d.toNat, 1⟩] true with
    | .wait w => stepped s (tm.block e w)
    | .trap t => stepped s (tm.trap e t 4 (some sq))
    | .go o => arrive s e tm (.fmove (o.dsts.headD (.team 0)) m.toNat (o.us.headD 0#64).toNat) .move sq

end Sys2Proof.Machine
end

