-- ==== Sys2Proof/Machine/Regions.lean ====
section
/-!
DEFINITION. Sys2Proof/Machine/Regions.lean: the command blocks of the array and the other engines as numbers (R271, R277,
R278, R284), the parts of a fold's allocations they name, and the accumulator bytes whose engine work is still counted.
-/
namespace Sys2Proof.Machine

/-- Word `k` of a command block. -/
def blk (b : List DWord) (k : Nat) : Nat := (b.getD k 0#64).toNat

/-- The fold's allocation of a core among a list of allocations. -/
def allocAt (as : List Alloc) (core : Nat) : Option Alloc := as.find? (·.core == core)

/-- Do `n` bytes from `off` lie in the allocation on a core? -/
def inAlloc (as : List Alloc) (core off n : Nat) : Bool :=
  match allocAt as core with
  | some a => off + n ≤ a.size
  | none => false

/-- Physical address of a byte of a fold's scratch. -/
def Fold.scratchPa (f : Fold) (core off : Nat) : Nat :=
  scratchAddr (f.paddock * 4 + core) (((allocAt f.scratch core).map (·.base)).getD 0 + off)
/-- Physical address of a byte of a fold's accumulator allocation. -/
def Fold.accPa (f : Fold) (core off : Nat) : Nat :=
  accAddr (f.paddock * 4 + core) (((allocAt f.acc core).map (·.base)).getD 0 + off)

/-- Core and offset of a descriptor (bits 33:32 and 31:0). -/
def descCore (x : Nat) : Nat := bitsOf x 33 32
/-- Offset of a descriptor. -/
def descOff (x : Nat) : Nat := bitsOf x 31 0

/-! ## Operand formats (R246) -/

/-- Bits of an element of a format; codes 8 to 11 are the accumulator types. -/
def fmtBits (c : Nat) : Nat := [8, 8, 8, 8, 16, 16, 16, 64, 32, 32, 64, 64].getD c 8

/-- The accumulator type of an operand format on its own. -/
def accOf (c : Nat) : AccTag :=
  if c == 2 then .i32 else if c == 6 then .i64 else if c == 7 then .f64 else .f32

/-- The accumulator type of a command: the formats of A and B for a product, S's format for the generated ones. -/
def accType (k : ArrKind) (afmt bfmt : Nat) : AccTag :=
  match k with
  | .mperm => accOf bfmt
  | .mtrans | .mrsum => accOf afmt
  | _ => if afmt == 2 && bfmt == 3 then .f32 else accOf afmt

/-- Bytes of an accumulator element. -/
def accSize : AccTag → Nat
  | .f32 | .i32 => 4
  | .f64 | .i64 => 8

/-- Fields of an array block (R271). -/
structure ArrBlk where
  acc : Bool
  bfmt : Nat
  afmt : Nat
  k : Nat
  n : Nat
  m : Nat
  aDesc : Nat
  bKind : Nat
  b : Nat
  dDesc : Nat
  queue : Nat
  tag : Nat
  count : Nat
  deriving DecidableEq, Repr

/-- Reads an array block. -/
def arrBlk (b : List DWord) : ArrBlk :=
  let w := blk b 0
  { acc := w.testBit 56, bfmt := bitsOf w 55 52, afmt := bitsOf w 51 48, k := bitsOf w 42 32, n := bitsOf w 26 16
    m := bitsOf w 10 0, aDesc := blk b 1, bKind := bitsOf (blk b 2) 63 62, b := bitsOf (blk b 2) 61 0, dDesc := blk b 3
    queue := bitsOf (blk b 4) 3 0, tag := bitsOf (blk b 7) 15 8, count := bitsOf (blk b 7) 3 0 }

/-- Rows of D that one poster of a command owns (R255). -/
def ArrBlk.rows (x : ArrBlk) (k : ArrKind) : Nat := if k == .mmaJ then x.m / max x.count 1 else x.m

/-- Bytes of a row of D. -/
def ArrBlk.rowBytes (x : ArrBlk) (k : ArrKind) : Nat := x.n * accSize (accType k x.afmt x.bfmt)

/-! ## Accumulator bytes whose engine work is counted (R188) -/

/-- Slices of a command that one poster's rows make. -/
def posterSlices (k : ArrKind) (block : List DWord) : Nat := (arrBlk block).rows k / 32

/-- Is a post still counted: are slices of its rows left (R255, R268)? -/
def Post.counted (p : Post) (k : ArrKind) : Bool := k == .mmaR || p.done < posterSlices k p.block

/-- The D region of a post: physical start and length. -/
def postRegion (f : Fold) (k : ArrKind) (p : Post) : Nat × Nat :=
  let x := arrBlk p.block
  (f.accPa (descCore x.dDesc) (descOff x.dDesc), x.rows k * x.rowBytes k)

/-- Accumulator regions that an engine operation of a fold writes. -/
def opWrites (f : Fold) (o : EngOp) : List (Nat × Nat) :=
  match o.kind with
  | .mzero => [(f.accPa (descCore (blk o.block 0)) (descOff (blk o.block 0)), bitsOf (blk o.block 1) 20 0)]
  | .copy =>
    if bitsOf (blk o.block 1) 63 62 == 2 then
      [(f.accPa (descCore (blk o.block 1)) (descOff (blk o.block 1)), bitsOf (blk o.block 2) 31 0)]
    else []
  | _ => []

/-- Accumulator regions that an engine operation of a fold reads. -/
def opReads (f : Fold) (o : EngOp) : List (Nat × Nat) :=
  match o.kind with
  | .mdrain =>
    let w := blk o.block 0
    let size := if bitsOf w 37 36 < 2 then 4 else 8
    [(f.accPa (descCore w) (descOff w), bitsOf (blk o.block 1) 15 0 * bitsOf (blk o.block 1) 31 16 * size)]
  | .copy =>
    if bitsOf (blk o.block 0) 63 62 == 2 then
      [(f.accPa (descCore (blk o.block 0)) (descOff (blk o.block 0)), bitsOf (blk o.block 2) 31 0)]
    else []
  | _ => []

/-- The D regions of counted array commands of a fold. -/
def State.accResults (s : State) (fold : Nat) (f : Fold) : List (Nat × Nat) :=
  (((s.pad f.paddock).table.filter fun e => e.live && e.fold == fold).map fun e =>
    (e.posts.filter fun p => p.counted e.kind).map (postRegion f e.kind)).flatten

/-- Accumulator regions that counted engine work of a fold beside the array's writes. -/
def State.accOps (s : State) (fold : Nat) (f : Fold) : List (Nat × Nat) :=
  ((s.ops.filter fun o => o.live && o.fold == fold).map (opWrites f)).flatten

/-- Accumulator regions that counted engine work of a fold writes. -/
def State.accWritten (s : State) (fold : Nat) (f : Fold) : List (Nat × Nat) := s.accResults fold f ++ s.accOps fold f

/-- Accumulator regions that counted engine work of a fold beside the array's touches. -/
def State.accTouched (s : State) (fold : Nat) (f : Fold) : List (Nat × Nat) :=
  s.accOps fold f ++ ((s.ops.filter fun o => o.live && o.fold == fold).map (opReads f)).flatten

/-- Is a byte in some region? -/
def inRegions (rs : List (Nat × Nat)) (pa : Nat) : Bool := rs.any fun r => r.1 ≤ pa && pa < r.1 + r.2

/-- Accumulator rows (256 bytes) that a range covers become untyped (R276). -/
def State.untag (s : State) (pa n : Nat) : State :=
  { s with tags := s.tags.filter fun t => !(pa / 256 ≤ t.1 && t.1 ≤ (pa + n - 1) / 256) }

/-! ## What an engine reads (R262, R359) -/

/-- The old value of a byte of store that a team of the fold, or another agent for it, wrote without a later mopfence. -/
def State.oldByte (s : State) (f : Fold) (pa : Nat) : Option Byte :=
  match f.teams.findSome? fun t => (s.team? t).bind fun tm => tm.unfenced.lookup pa with
  | some old => some old
  | none => f.shared.lookup pa

/-- A byte as an engine reads it: one written without a later mopfence may show its old value. -/
def State.engineByte (s : State) (f : Fold) (pa : Nat) : Byte :=
  match s.oldByte f pa with
  | some old => if Config.freeOld s.moves pa then old else s.busByte pa
  | none => s.busByte pa

/-- Bytes as an engine reads them. -/
def State.engineRead (s : State) (f : Fold) (pa : Nat) : Nat → List Byte
  | 0 => []
  | n + 1 => s.engineByte f pa :: s.engineRead f (pa + 1) n

/-- What a byte of D was before a command of a paddock, still counted, committed it (R262). -/
def State.committedOver (s : State) (pad pa : Nat) : Option Byte :=
  (s.pad pad).table.findSome? fun e => if e.live then e.before.lookup pa else none

/-- Accumulator bytes that an engine operation of a fold has written so far (R424). -/
def opWrote (f : Fold) (o : EngOp) : List (Nat × Nat) := (opWrites f o).map fun r => (r.1, min r.2 o.done)

/-- Has engine work of a fold that is still counted written a byte of accumulator store already (R188)? -/
def State.accWrote (s : State) (fold : Nat) (f : Fold) (pa : Nat) : Bool :=
  (s.committedOver f.paddock pa).isSome ||
    inRegions (((s.ops.filter fun o => o.live && o.fold == fold).map (opWrote f)).flatten) pa

/-- What a vstacc wrote is forgotten where the counters of the work that writes there too have fallen (R188). -/
def State.untaint (s : State) : State :=
  { s with tainted := s.tainted.filter fun pa => (List.range s.folds.length).any fun n => match s.fold? n with
      | some f => inRegions (s.accWritten n f) pa
      | none => false }

/-- A byte of accumulator store as vldacc reads it: of D of a command still counted before or after its slice's commit (R262). -/
def State.accByte (s : State) (pad pa : Nat) : Byte :=
  match s.committedOver pad pa with
  | some old => if Config.freeOld s.moves pa then old else s.busByte pa
  | none => s.busByte pa

/-- A byte as mdrain reads it: each row of 256 bytes of D of a command still counted as it was before or after its slice's commit
(R281). -/
def State.drainByte (s : State) (f : Fold) (pa : Nat) : Byte :=
  match s.committedOver f.paddock pa with
  | some old => if Config.freeOld s.moves (pa / 256 * 256) then old else s.busByte pa
  | none => s.engineByte f pa

/-- Bytes as mdrain reads them. -/
def State.drainRead (s : State) (f : Fold) (pa : Nat) : Nat → List Byte
  | 0 => []
  | n + 1 => s.drainByte f pa :: s.drainRead f (pa + 1) n

/-- No old value of bytes that an engine has overwritten is left. -/
def State.overwritten (s : State) (pa n : Nat) : State :=
  let keep (x : Nat × Byte) : Bool := !(pa ≤ x.1 && x.1 < pa + n)
  { s with
    teams := s.teams.map fun (tm : Team) => { tm with unfenced := tm.unfenced.filter keep }
    folds := s.folds.map fun (f : Fold) => { f with shared := f.shared.filter keep, released := f.released.filter keep } }

/-- Bytes an engine writes to a core's store; those a vstacc wrote meanwhile are left unspecified (R188). -/
def State.engineWrite (s : State) (pa : Nat) (bs : List Byte) : State :=
  let s := s.overwritten pa bs.length
  if s.tainted.isEmpty then s.busWrite pa bs
  else
    let bs' := (List.range bs.length).map fun i =>
      if s.tainted.contains (pa + i) then Config.freeByte s.moves (pa + i) else bs.getD i 0#8
    s.busWrite pa bs'

end Sys2Proof.Machine
end

