-- ==== Sys2Proof/Machine/EngineIssue.lean ====
section
/-!
DEFINITION. Sys2Proof/Machine/EngineIssue.lean: engine instructions: their blocks, their checks and their acceptance (R265-R289).
-/
namespace Sys2Proof.Machine

/-! ## What every engine instruction shares (R265-R267) -/

/-- A fault of a command block: cause, subcode, detail. -/
abbrev BlkFault := Nat × Nat × Nat

/-- The trap of faults found together: the lowest cause (R408). DESIGN CHOICE (log entry 102): where several conditions of that cause
hold, the subcode and detail are those of the first that its list has. -/
def blkTrap (fs : List BlkFault) : Option Trap :=
  match fs with
  | [] => none
  | _ =>
    let k := lowest (fs.map (·.1))
    let f := (fs.find? (·.1 == k)).getD (k, 0, 0)
    some { Trap.sub' k f.2.1 with others := (fs.map (·.1)).filter (· != k), detail := dwordOfNat f.2.2 }

/-- A fault under a condition. -/
def faultIf (b : Bool) (cause sub detail : Nat) : List BlkFault := if b then [(cause, sub, detail)] else []

/-- Bits hi to lo are not zero. -/
def nz (x hi lo : Nat) : Bool := bitsOf x hi lo != 0

/-- What an engine instruction adds to the shared course: its block registers, its block-field checks (which may read
records for the fold), whether there is room, what faults come as it is queued, and the state once it is accepted. -/
structure EngIssue where
  n : Nat
  checks : State → Fold → Team → List DWord → List BlkFault × State
  room : Team → List DWord → Option Room
  accept : State → Fold → Team → List DWord → Except BlkFault State

/-- The entry that waits for posts of a fold and tag, if any (R255). -/
def Paddock.joint (p : Paddock) (fold tag : Nat) : Option Nat :=
  (List.range p.table.length).find? fun i => ((p.table[i]?).map fun e =>
    e.live && e.kind == .mmaJ && e.fold == fold && e.tag == tag && e.posts.length < e.count).getD false

/-- Holds a fold an entry of a channel's pointer table? -/
def Fold.chan? (f : Fold) (core ch : Nat) : Option Chan := f.chans.find? fun c => c.core == core && c.ch == ch

/-- Descriptor words of a request ring (R382). -/
def Ctx.ring (c : Ctx) (r : Nat) : Nat × Nat := (c.word (14 + 2 * r), c.word (15 + 2 * r))

/-- Entries a ring holds, its base, head and tail. -/
def ringOf (w : Nat × Nat) : Nat × Nat × Nat × Nat := (2 ^ bitsOf w.1 51 48, bitsOf w.1 47 0, bitsOf w.2 63 32, bitsOf w.2 31 0)

/-- Rows of a context to a device that are not acknowledged (R369). -/
def State.unacked (s : State) (c dev : Nat) : Nat :=
  s.ops.countP fun o => o.live && o.kind == .nsend && bitsOf (blk o.block 0) 15 0 == dev &&
    ((s.fold? o.fold).map (·.ctx == c)).getD false

/-- Entries of a table that are held (R252). -/
def Paddock.heldEntries (p : Paddock) : Nat := p.table.countP (·.live)

/-- Does a room a team of a fold waits for hold what it posts (R252, R285, R369, R382)? -/
def State.hasRoom (s : State) (fd : Fold) (tm : Team) : Room → Bool
  | .table joint =>
    let p := s.pad fd.paddock
    ((joint.bind fun t => p.joint tm.fold t).isSome) || p.heldEntries < Config.tableEntries
  | .channel ch => (fd.chan? tm.core ch).isSome || s.chanHeld fd.paddock tm.core ch < 64
  | .ring r =>
    let x := ringOf ((s.ctx fd.ctx).ring r)
    (x.2.2.2 + 2 ^ 32 - x.2.2.1) % 2 ^ 32 < x.1
  | .device dev => s.unacked fd.ctx dev < 512
  | .node .. => false

/-- The room of an instruction, none where it needs none, is there. -/
def State.hasRoom? (s : State) (fd : Fold) (tm : Team) (r : Option Room) : Bool := (r.map (s.hasRoom fd tm)).getD true

/-- The course of an engine instruction: registers and arms, block fields, room, counter, acceptance, SEQ (R267, R53). -/
def engStep (i : EngIssue) (sq : BitVec 3) (g : BitVec 10) (c : BitVec 3) (s : State) : Out1 :=
  foldStep s fun e fd tm =>
    let trap (s : State) (t : Trap) : Out1 := stepped s (tm.trap e t 4 (some sq))
    match tm.groupCheck [⟨g.toNat, i.n⟩] [] [] true with
    | .wait w => stepped s (tm.block e w)
    | .trap t => trap s (t.join (causeIf (!tm.arms.isEmpty) 0x0D))
    | .go o =>
      if !tm.arms.isEmpty then trap s (.of 0x0D)
      else
        let r := i.checks s fd tm o.us
        match blkTrap r.1 with
        | some t => trap r.2 t
        | none =>
          let s := r.2
          if !s.hasRoom? fd tm (i.room tm o.us) then
            stepped s (tm.block e (((i.room tm o.us).map .engine).getD .none))
          else if tm.cc.getD c.toNat 0#16 == 65535#16 then trap s (.of 0x27)
          else
            match i.accept (s.updTeam s.cur fun x => { x with cc := upd x.cc c.toNat (· + 1#16) }) fd tm o.us with
            | .error f => trap s { Trap.sub' f.1 f.2.1 with detail := dwordOfNat f.2.2 }
            | .ok s' => groupEnd s s' e tm ((s'.team? s.cur).getD tm) 4 sq

/-- A record an engine instruction names: the record, its faults (R159-R161, R167), and the state. -/
def State.engRec (s : State) (fold h : Nat) (read write : Bool) : Option Rec × List BlkFault × State :=
  match s.fold? fold with
  | none => (none, [], s)
  | some f =>
    match s.useRec (pastureOf f.paddock) f h with
    | .bad t keep => (none, [(t.cause, t.sub, t.detail.toNat)], s.keepRec (pastureOf f.paddock) fold h keep)
    | .ok r keep =>
      (some r, faultIf ((read && !r.mayRead) || (write && !r.mayWrite)) 0x14 0 h, s.keepRec (pastureOf f.paddock) fold h keep)

/-- A fault for bytes that reach past the fold's allocation on a core (R249). -/
def allocFault (as : List Alloc) (cause x n : Nat) : List BlkFault :=
  faultIf (!inAlloc as (descCore x) (descOff x) n) cause 0 (bitsOf x 33 0)

/-- The number of the team that issues, for the operation's owner. -/
def newOp (s : State) (k : EngKind) (tm : Team) (c : Nat) (b : List DWord) (core ring start : Nat) : EngOp :=
  ⟨k, tm.fold, s.cur, c, b, tm.pc, core, ring, 0, start, [], [], none, true, [], none⟩

/-! ## Array commands (R246-R249, R255, R271-R275) -/

/-- Formats that pair as A and B (R247). -/
def pairOk (a b : Nat) : Bool :=
  (a ≤ 1 && b ≤ 1) || (b == 3 && a ≤ 2) || (a == b && [2, 4, 5, 6, 7].contains a)

/-- Formats of S for the generated products (R272). -/
def sFmtOk (x : Nat) : Bool := [0, 1, 2, 4, 5, 6, 7].contains x

/-- Is a dimension a multiple of `q` from `q` to `hi`? -/
def dimOk (x q hi : Nat) : Bool := x % q == 0 && q ≤ x && x ≤ hi

/-- Is a product a b the shape of its command (R248, R272)? -/
def shapeOk (k : ArrKind) (x : ArrBlk) : Bool :=
  dimOk x.m 32 256 && dimOk x.n 64 256 && (if k == .mtrans then x.k == 0 else dimOk x.k 32 1024) &&
    (k != .mrsum || x.n == 64)

/-- Is a command one of the products? -/
def ArrKind.product (k : ArrKind) : Bool := k == .mma || k == .mmaJ || k == .mmaR

/-- Do the formats suit the command? -/
def fmtsOk (k : ArrKind) (x : ArrBlk) : Bool :=
  if k.product then pairOk x.afmt x.bfmt else if k == .mperm then sFmtOk x.bfmt else sFmtOk x.afmt

/-- A nonzero zero-field, or a B of a wrong kind (R271, R272). -/
def zeroBad (k : ArrKind) (b : List DWord) : Bool :=
  let w (i : Nat) : Nat := blk b i
  let gen := k == .mtrans || k == .mrsum
  nz (w 0) 63 57 || nz (w 0) 47 43 || nz (w 0) 31 27 || nz (w 0) 15 11 || nz (w 1) 63 34 || (k == .mmaR && w 1 != 0) ||
    (if gen then w 2 != 0 || nz (w 0) 55 52
     else 2 ≤ bitsOf (w 2) 63 62 || (k == .mperm && bitsOf (w 2) 63 62 != 0) ||
       (if bitsOf (w 2) 63 62 == 0 then nz (w 2) 61 34 else nz (w 2) 61 48 || nz (w 2) 15 12)) ||
    (k == .mperm && nz (w 0) 51 48) || nz (w 3) 63 34 || nz (w 4) 63 4 || (k != .mmaR && w 4 != 0) || w 5 != 0 ||
    w 6 != 0 || nz (w 7) 63 16 || nz (w 7) 7 4 || (k != .mmaJ && w 7 != 0)

/-- Bytes of the A operand of one poster. -/
def aBytes (k : ArrKind) (x : ArrBlk) : Nat :=
  match k with
  | .mmaR => 0
  | .mtrans => x.n * x.m * fmtBits x.afmt / 8
  | .mperm => 2 * x.m
  | _ => x.rows k * x.k * fmtBits x.afmt / 8

/-- Do two joint blocks agree (R255)? -/
def agree (a b : List DWord) : Bool :=
  blk a 0 == blk b 0 && blk a 2 == blk b 2 && bitsOf (blk a 7) 3 0 == bitsOf (blk b 7) 3 0

/-- The checks of an array command at issue (R249, R274, R275, R296): every one is made, and the lowest cause delivered (R408). -/
def arrChecks (k : ArrKind) (s : State) (fd : Fold) (tm : Team) (b : List DWord) : List BlkFault × State :=
  let x := arrBlk b
  let p := s.pad fd.paddock
  let shape := shapeOk k x
  let zero := zeroBad k b
  let stream := x.bKind == 1 && k.product
  let rec' := if stream then s.engRec tm.fold (bitsOf x.b 11 0) true false else (none, [], s)
  let bScratch := x.bKind == 0 && (k.product || k == .mperm)
  let countBad := k == .mmaJ && (x.count < 2 || 8 < x.count || x.m % (32 * max x.count 1) != 0)
  let differs := match (if k == .mmaJ then p.joint tm.fold x.tag else none) with
    | some i => ((p.table[i]?).map fun e => !((e.posts.head?).map fun q => agree q.block b).getD true).getD false
    | none => false
  let q := p.queues.getD x.queue Queue.empty
  let mine := q.owner == some tm.fold
  let fmtOk := fmtsOk k x
  (faultIf (!shape) 0x20 0 0 ++ faultIf (!fmtOk) 0x20 1 0 ++
    faultIf (zero || ((rec'.1).map fun r => r.enc != 3).getD false) 0x20 2 0 ++
    faultIf ((k != .mmaR && descOff x.aDesc % 64 != 0) || (bScratch && descOff x.b % 64 != 0) || descOff x.dDesc % 256 != 0)
      0x20 3 0 ++
    faultIf differs 0x20 4 0 ++ faultIf countBad 0x20 5 0 ++
    (if k == .mmaR then [] else allocFault fd.scratch 0x19 x.aDesc (aBytes k x)) ++
    (if bScratch then allocFault fd.scratch 0x19 x.b (x.k * x.n * fmtBits x.bfmt / 8) else []) ++
    allocFault fd.acc 0x1A x.dDesc (x.rows k * x.rowBytes k) ++
    (if k == .mmaR then
      faultIf (!mine) 0x25 0 x.queue ++ faultIf (mine && q.bound.isSome) 0x25 7 x.queue ++
        faultIf (mine && bitsOf q.desc.toNat 55 40 < x.k * fmtBits x.afmt / 8) 0x25 8 x.queue
     else []) ++ rec'.2.1, rec'.2.2)

/-- A new entry of a reservation table; `now` dates its operands, which are ready with its last post. -/
def newEntry (k : ArrKind) (fold : Nat) (x : ArrBlk) (p : Post) (now gen : Nat) : ResEntry :=
  ⟨k, fold, x.tag, if k == .mmaJ then x.count else 1, [p], 0, none, none, none, [], [], 0, 0, none,
    if k == .mmaJ then none else some now, gen, [], [], 0, [], false, true⟩

/-- Posts by team index (R255). -/
def orderPosts (ps : List Post) : List Post := sortBy (fun a b => decide (a.team ≤ b.team)) ps

/-- An accepted array command: a new entry, or a post of a joint one; mma.r binds its queue (R252, R255, R274). -/
def arrAccept (k : ArrKind) (c : Nat) (s : State) (fd : Fold) (tm : Team) (b : List DWord) : State :=
  let x := arrBlk b
  let post : Post := ⟨s.cur, c, b, tm.pc, 0⟩
  let p := s.pad fd.paddock
  match (if k == .mmaJ then p.joint tm.fold x.tag else none) with
  | some i => s.updPad fd.paddock fun y => { y with table := upd y.table i fun e =>
      { e with posts := orderPosts (e.posts ++ [post])
               readyAt := if e.posts.length + 1 == e.count then some s.moves else e.readyAt } }
  | none =>
    s.updPad fd.paddock fun y =>
      { y with
        table := y.table ++ [newEntry k tm.fold x post s.moves ((p.queues.getD x.queue Queue.empty).gen)]
        queues := if k == .mmaR then upd y.queues x.queue fun q => { q with bound := some y.table.length } else y.queues }

/-- Does B come from a weight stream? -/
def ResEntry.stream (e : ResEntry) : Bool :=
  e.kind.product && ((e.posts.head?).map fun p => (arrBlk p.block).bKind == 1).getD false

/-- The block of a command: its first post's. -/
def ResEntry.blk (e : ResEntry) : ArrBlk := ((e.posts.head?).map fun p => arrBlk p.block).getD (arrBlk [])

/-- Slices of the whole command (R250), for a joint one those of its posts: a ragged one has none fixed. -/
def ResEntry.total (e : ResEntry) : Nat :=
  if e.kind == .mmaJ then e.count * posterSlices e.kind ((e.posts.head?.map (·.block)).getD []) else e.blk.m / 32

/-- Is a slice of the command still to be granted: not granted yet, and not committed before a replay (R269)? -/
def ResEntry.left (e : ResEntry) (k : Nat) : Bool :=
  let n := max 1 (posterSlices e.kind ((e.posts.head?.map (·.block)).getD []))
  e.next ≤ k && ((e.posts[if e.kind == .mmaJ then k / n else 0]?).map fun p => decide (p.done ≤ if e.kind == .mmaJ then k % n else k)).getD false

/-- Is any slice still to be granted? -/
def ResEntry.anyLeft (e : ResEntry) : Bool := (List.range e.total).any e.left

/-- Rows a ragged command may take now. -/
def State.raggedRows (s : State) (fd : Fold) (e : ResEntry) : Nat :=
  let q := (s.pad fd.paddock).queues.getD e.blk.queue Queue.empty
  min (q.a - q.k) (e.blk.m - e.rowsTaken)

/-- Is an entry eligible for a grant (R253)? Operands without a mopfence are read as they stand (R262). -/
def State.eligible (s : State) (e : ResEntry) : Bool :=
  match s.fold? e.fold with
  | none => false
  | some fd =>
    let q := (s.pad fd.paddock).queues.getD e.blk.queue Queue.empty
    e.live && fd.status == .resident && !fd.victim && e.posts.length == e.count && (!e.stream || e.header.isSome) &&
      (!e.kept.isEmpty ||
       (if e.kind == .mmaR then
         q.gen == e.gen && (32 ≤ s.raggedRows fd e || (q.closed && 0 < s.raggedRows fd e))
        else e.anyLeft))

/-- Entries that have become eligible for the first time are dated (R253). -/
def State.dateEntries (s : State) (pad : Nat) : State :=
  s.updPad pad fun p => { p with table := p.table.map fun e =>
    if e.since.isNone && s.eligible e then { e with since := some s.moves } else e }

/-! ## Work posted again (R269, R415) -/

/-- Rows of a context to a device that are not acknowledged, room for one more (R369). -/
def State.sendRoom (s : State) (c dev : Nat) : Bool := s.unacked c dev < 512

/-- A faulted operation is posted again from its block, and begins anew (R280); an nsend takes its next row sequence, and waits while its context has no
row left to that device (R369): the state, and whether it was accepted. -/
def State.repostOp (s : State) (fd : Fold) (n : Nat) : State × Bool :=
  match s.ops[n]? with
  | none => (s, true)
  | some o =>
    let o' : EngOp := { o with done := 0, acked := [], rails := [], fault := none, live := true, held := none }
    if o.kind != .nsend then ({ s with ops := s.ops ++ [o'] }, true)
    else
      let dev := bitsOf (blk o.block 0) 15 0
      if !s.sendRoom fd.ctx dev then (s, false)
      else
        let seq := ((s.ctx fd.ctx).rseq.lookup dev).getD 0
        let s := s.updCtx fd.ctx fun x => { x with rseq := (dev, (seq + 1) % 2 ^ 32) :: x.rseq.filter (·.1 != dev) }
        ({ s with ops := s.ops ++ [{ o' with start := seq }] }, true)

/-- Posts of a joint command that broke with one entry. -/
def jointPosts (bs : List Broken) (i : Nat) : List Post :=
  bs.filterMap fun b => match b with
    | .arr k p n => if k == ArrKind.mmaJ && n == i then some p else none
    | .op _ => none

/-- The posts of a joint command that are not done form one entry again, their number the joint count; only the slices not
committed run (R269). -/
def State.repostJoint (s : State) (fd : Fold) (fold : Nat) (ps : List Post) : State :=
  match ps with
  | [] => s
  | p :: _ => s.updPad fd.paddock fun y =>
      { y with table := y.table ++ [{ newEntry .mmaJ fold (arrBlk p.block) p s.moves 0 with
          count := ps.length, posts := orderPosts ps, readyAt := some s.moves }] }

/-- Is a piece of work of the posts of a joint command that broke with one entry? -/
def Broken.joint (i : Nat) : Broken → Bool
  | .arr k _ n => k == ArrKind.mmaJ && n == i
  | .op _ => false

/-- Engine work of a fold is posted again, its counters counted still (R415): the state, and what waits at acceptance, with no entry of
the table or no row to a device left (R252, R369). -/
def State.repost (s : State) (fd : Fold) (all : List Broken) : List Broken → State × List Broken
  | [] => (s, [])
  | .op n :: bs =>
    let a := s.repostOp fd n
    let r := a.1.repost fd all bs
    (r.1, if a.2 then r.2 else .op n :: r.2)
  | .arr k p i :: bs =>
    let full := Config.tableEntries ≤ (s.pad fd.paddock).heldEntries
    if k == ArrKind.mmaJ && bs.any (Broken.joint i) then s.repost fd all bs
    else if full then
      let r := s.repost fd all bs
      (r.1, (if k == ArrKind.mmaJ then all.filter (Broken.joint i) else [.arr k p i]) ++ r.2)
    else
      let s := match s.team? p.team with
        | none => s
        | some tm =>
          if k == ArrKind.mmaJ then s.repostJoint fd tm.fold (jointPosts all i)
          else { arrAccept k p.cc { s with cur := p.team } fd { tm with pc := p.pc } p.block with cur := s.cur }
      s.repost fd all bs

/-- Work of a fold that waits at acceptance is tried again; entries of its paddock that become eligible are dated (R253). -/
def State.retryFold (s : State) (n : Nat) : State :=
  match s.fold? n with
  | none => s
  | some f =>
    if f.status != .resident || f.victim || f.killedBy.isSome then s
    else if f.waiting.isEmpty then s.dateEntries f.paddock
    else
      let r := s.repost f f.waiting f.waiting
      (r.1.updFold n fun x => { x with waiting := r.2 }).dateEntries f.paddock

/-- Work that waits at acceptance is tried again as an entry or a row comes free (R252, R369). -/
def State.retryWaits (s : State) : State :=
  if s.folds.all (·.waiting.isEmpty) then s else (List.range s.folds.length).foldl State.retryFold s

/-- Faulted engine work of a fold is posted again by a replay; what finds no room waits. -/
def State.repostBroken (s : State) (n : Nat) (fd : Fold) : State :=
  let r := s.repost fd fd.broken fd.broken
  (r.1.updFold n fun f => { f with broken := [], waiting := f.waiting ++ r.2 }).dateEntries fd.paddock

/-! ## Entries that leave a table -/

/-- A ragged command with nothing left to take has completed: its entry and queue are free and its counter falls (R256, R364). -/
def raggedDone (q : Queue) (e : ResEntry) : Bool := q.closed && q.k == q.c && e.granted.isEmpty && e.kept.isEmpty

/-- A counter of a team falls by 1 (R268). -/
def State.ccFall (s : State) (t c : Nat) : State :=
  (s.updTeam t fun tm => { tm with cc := upd tm.cc c fun x => if x == 0#16 then x else x - 1#16 }).untaint

/-- Entry `i` of a table leaves it; a queue it bound is free; every counter that has not fallen falls. -/
def State.freeEntry (s : State) (pad i : Nat) (fall : List Post) : State :=
  let s := s.updPad pad fun y =>
    { y with
      table := upd y.table i fun e => { e with live := false, granted := [], kept := [] }
      queues := y.queues.map fun q => if q.bound == some i then { q with bound := none } else q }
  (fall.foldl (fun s p => s.ccFall p.team p.cc) s).retryWaits

/-- The ragged command bound to a queue completes where its queue is closed and every row has been taken. -/
def State.raggedCheck (s : State) (pad q : Nat) : State :=
  let p := s.pad pad
  let x := p.queues.getD q Queue.empty
  match x.bound with
  | none => s
  | some i =>
    match p.table[i]? with
    | none => s
    | some e => if e.live && raggedDone x e then (s.freeEntry pad i e.posts).updFold e.fold fun f => { f with progress := true } else s

/-- An array command. The decoder port sees what the team wrote before it posted a command on a weight stream (R309, R359). -/
def arrIssue (k : ArrKind) (c : BitVec 3) : EngIssue :=
  { n := 8
    checks := arrChecks k
    room := fun _ b => some (.table (if k == .mmaJ then some (arrBlk b).tag else none))
    accept := fun s fd tm b =>
      let s := if k.product && (arrBlk b).bKind == 1 then s.flushCore (s.coreOf tm) else s
      .ok (((arrAccept k c.toNat s fd tm b).raggedCheck fd.paddock (arrBlk b).queue).dateEntries fd.paddock) }

/-! ## The other engines (R277-R289) -/

/-- mzero (R277). DESIGN CHOICE (log entry 102): a bad field (subcode 1) comes before a region past the allocation (subcode 0). -/
def mzeroIssue (c : BitVec 3) : EngIssue :=
  { n := 2
    checks := fun s fd _ b =>
      let w0 := blk b 0
      let len := bitsOf (blk b 1) 20 0
      let bad := nz w0 63 34 || nz (blk b 1) 63 21 || descOff w0 % 256 != 0 || len % 256 != 0 || len == 0 || Config.accBytes < len
      (faultIf bad 0x1A 1 (bitsOf w0 33 0) ++ allocFault fd.acc 0x1A w0 len, s)
    room := fun _ _ => none
    accept := fun s _ tm b => .ok { s with ops := s.ops ++ [newOp s .mzero tm c.toNat b (descCore (blk b 0)) 0 0] } }

/-- Bytes of an output element of a drain, by format code. -/
def outBytes (c : Nat) : Nat := [1, 1, 1, 1, 2, 2, 2, 8, 4, 4, 8, 8].getD c 1

/-- Fields of a drain block (R278). -/
structure DrainBlk where
  acctype : Nat
  src : Nat
  round : Nat
  toRec : Bool
  sat : Bool
  fmt : Nat
  cols : Nat
  rows : Nat
  dst : Nat
  status : Nat
  scales : Bool
  scale : Nat
  deriving DecidableEq, Repr

/-- Reads a drain block. -/
def drainBlk (b : List DWord) : DrainBlk :=
  let w1 := blk b 1
  { acctype := bitsOf (blk b 0) 37 36, src := bitsOf (blk b 0) 33 0, round := bitsOf w1 39 38, toRec := w1.testBit 37
    sat := w1.testBit 36, fmt := bitsOf w1 35 32, cols := bitsOf w1 31 16, rows := bitsOf w1 15 0, dst := blk b 2
    status := bitsOf (blk b 3) 63 16, scales := (blk b 3).testBit 12, scale := bitsOf (blk b 3) 11 0 }

/-- Bytes of an accumulator element of a drain. -/
def DrainBlk.accSize (x : DrainBlk) : Nat := if x.acctype < 2 then 4 else 8

/-- The checks of mdrain (R278, R281). -/
def drainChecks (s : State) (fd : Fold) (tm : Team) (b : List DWord) : List BlkFault × State :=
  let x := drainBlk b
  let n := x.rows * x.cols
  let fieldBad := nz (blk b 0) 63 38 || nz (blk b 0) 35 34 || nz (blk b 1) 63 40 || nz (blk b 3) 15 13 ||
    (if x.toRec then nz x.dst 63 44 else nz x.dst 63 34 || descOff x.dst % 16 != 0) || 12 ≤ x.fmt ||
    !dimOk x.cols 64 256 || x.rows == 0 || 256 < x.rows || descOff x.src % 256 != 0 || x.status % 8 != 0
  let d := if x.toRec then s.engRec tm.fold (bitsOf x.dst 11 0) false true else (none, [], s)
  let sc := if x.scales then d.2.2.engRec tm.fold x.scale true false else (none, [], d.2.2)
  let dBad := (d.1.map fun r => r.size != outBytes x.fmt ||
    !(r.enc == 0 || r.enc == 4 || (r.coded && (x.fmt == 7 || x.fmt == 10)))).getD false
  let scBad := (sc.1.map fun r => r.size != 4).getD false
  (d.2.1 ++ sc.2.1 ++
    allocFault fd.acc 0x1A x.src (n * x.accSize) ++
    (if x.toRec || 12 ≤ x.fmt then [] else allocFault fd.scratch 0x19 x.dst (n * outBytes x.fmt)) ++
    faultIf (fieldBad || dBad || scBad) 0x20 2 0 ++
    faultIf ((d.1.map fun r => decide (r.count < bitsOf x.dst 43 12 + n)).getD false ||
      (sc.1.map fun r => decide (r.count < x.cols)).getD false)
      0x20 3 0, sc.2.2)

/-- mdrain (R278). -/
def mdrainIssue (c : BitVec 3) : EngIssue :=
  { n := 4
    checks := drainChecks
    room := fun _ _ => none
    accept := fun s _ tm b => .ok { s with ops := s.ops ++ [newOp s .mdrain tm c.toNat b (descCore (blk b 0)) 0 0] } }

/-- wtab (R283). It sees what the team wrote before it (R305, R359). -/
def wtabIssue (c : BitVec 3) : EngIssue :=
  { n := 2
    checks := fun s _ tm b =>
      let zero := nz (blk b 0) 63 4 || nz (blk b 1) 63 12
      let r := s.engRec tm.fold (bitsOf (blk b 1) 11 0) true false
      (r.2.1 ++ faultIf (zero || (r.1.map fun x => x.size != 2 || !(x.enc == 0 || x.enc == 4) || x.count < 256).getD false)
        0x22 2 (bitsOf (blk b 0) 3 0), r.2.2)
    room := fun _ _ => none
    accept := fun s _ tm b =>
      let s := s.flushCore (s.coreOf tm)
      .ok { s with ops := s.ops ++ [newOp s .wtab tm c.toNat b tm.core 0 0] } }

/-- One side of a copy: kind, and the operand bits (R284). -/
structure Side where
  kind : Nat
  x : Nat
  deriving DecidableEq, Repr

/-- Reads a side. -/
def sideOf (x : Nat) : Side := ⟨bitsOf x 63 62, bitsOf x 61 0⟩

/-- A nonzero zero-field of a side. -/
def Side.zeroBad (s : Side) : Bool :=
  match s.kind with
  | 0 => nz s.x 61 44
  | 3 => nz s.x 61 34 || nz s.x 31 22
  | _ => nz s.x 61 34

/-- Partition, window and byte offset of a landing. -/
def Side.landing (s : Side) : Nat × Nat × Nat × Nat :=
  (bitsOf s.x 33 32, bitsOf s.x 21 17, bitsOf s.x 16 12, bitsOf s.x 11 0)

/-- The faults of a record side (R285). -/
def recSide (r : Option Rec) (first len : Nat) : List BlkFault :=
  match r with
  | none => []
  | some r => faultIf (len % r.size != 0) 0x23 1 0 ++ faultIf r.coded 0x23 2 0 ++ faultIf (r.count < first + len / r.size) 0x23 3 0

/-- The faults of a scratch, accumulator or landing side (R285, R318, R376). -/
def State.localSide (s : State) (fold : Nat) (fd : Fold) (x : Side) (len : Nat) : List BlkFault :=
  match x.kind with
  | 1 => allocFault fd.scratch 0x19 x.x len
  | 2 => allocFault fd.acc 0x1A x.x len
  | 3 =>
    let (core, part, win, off) := x.landing
    let l := (s.landTeam (placeOf fd.paddock core part) win).bind s.team?
    let ok := match l with
      | some tm => tm.fold == fold && (tm.landings.any fun l => l.window == win && !l.byRow && off + len ≤ 4 * l.n)
      | none => false
    faultIf (!ok) 0x1B 1 (win + part * 2 ^ 8)
  | _ => []

/-- The checks of copy (R285). -/
def copyChecks (s : State) (fd : Fold) (tm : Team) (b : List DWord) : List BlkFault × State :=
  let src := sideOf (blk b 0)
  let dst := sideOf (blk b 1)
  let len := bitsOf (blk b 2) 31 0
  let zero := src.kind == 3 || src.zeroBad || dst.zeroBad || nz (blk b 2) 63 34
  let lenBad := len == 0 || 2 ^ 24 < len
  let a := if src.kind == 0 then s.engRec tm.fold (bitsOf src.x 11 0) true false else (none, [], s)
  let d := if dst.kind == 0 then a.2.2.engRec tm.fold (bitsOf dst.x 11 0) false true else (none, [], a.2.2)
  (a.2.1 ++ d.2.1 ++ (if src.kind == 3 then [] else s.localSide tm.fold fd src len) ++ s.localSide tm.fold fd dst len ++
    faultIf zero 0x23 0 0 ++ faultIf lenBad 0x23 1 0 ++
    (let fs := recSide a.1 (bitsOf src.x 43 12) len ++ recSide d.1 (bitsOf dst.x 43 12) len
     fs.filter (·.2.1 == 1) ++ fs.filter (·.2.1 == 2) ++ fs.filter (·.2.1 == 3)), d.2.2)

/-- The pointer of a channel for a fold: 0 where it holds no entry (R286). -/
def Fold.chanPtr (f : Fold) (core ch : Nat) : Nat := ((f.chan? core ch).map (·.ptr)).getD 0

/-- copy (R284-R286). It sees what the team wrote before it (R359). -/
def copyIssue (c : BitVec 3) : EngIssue :=
  { n := 3
    checks := copyChecks
    room := fun _ b => some (.channel (bitsOf (blk b 2) 33 32))
    accept := fun s fd tm b =>
      let ch := bitsOf (blk b 2) 33 32
      let s := if (fd.chan? tm.core ch).isSome then s
        else s.updFold tm.fold fun f => { f with chans := f.chans ++ [⟨tm.core, ch, 0⟩] }
      let s := s.flushCore (s.coreOf tm)
      .ok { s with ops := s.ops ++ [newOp s .copy tm c.toNat b tm.core ch 0] } }

/-- The operand kinds an operation allows: sources, destinations (R384). -/
def shKinds : Nat → List Nat × List Nat
  | 0 => ([0, 1], [0, 1])
  | 2 => ([0], [0, 1])
  | 4 => ([0], [0, 1])
  | 6 => ([2], [0, 1])
  | _ => ([0], [0])

/-- A nonzero zero-field of a source or destination of a request. -/
def shSideBad (x : Side) : Bool :=
  match x.kind with
  | 0 => nz x.x 61 44
  | 1 => nz x.x 61 34
  | _ => nz x.x 61 36

/-- A parameter of a request outside R384 or R300; the limit on the bytes written as far as the block shows it (log entry 28). -/
def shParamBad (b : List DWord) : Bool :=
  let n := bitsOf (blk b 3) 31 0
  let a := blk b 4
  match bitsOf (blk b 0) 63 56 with
  | 0 => n == 0
  | 1 => n == 0 || 65536 < n || bitsOf a 31 0 == 0 || 65536 < bitsOf a 31 0 || 2 ^ 24 < n * bitsOf a 31 0
  | 2 => n == 0 || bitsOf a 31 0 == 0 || 2 ^ 24 < bitsOf a 31 0
  | 3 => n == 0 || 2 ^ 24 < n * 16
  | 4 => n == 0 || 2 ^ 24 < n * 128
  | 5 => !dimOk (bitsOf a 15 0) 32 1024 || !dimOk (bitsOf a 31 16) 64 256 || bitsOf a 39 32 < 10 || 16 < bitsOf a 39 32 ||
      3 < bitsOf a 47 44 || n != bitsOf a 15 0 * bitsOf a 31 16
  | 6 => n == 0 || 65536 < n
  | _ => false

/-- A nonzero field that an operation does not use, or a zero field, or a reserved rounding (R383, R384). The first element of a coded
record is a field that the FP64 operations do not use: they take the first block from A (log entry 31). -/
def shZeroBad (b : List DWord) : Bool :=
  let w := blk b 0
  let op := bitsOf w 63 56
  let a := blk b 4
  nz w 50 48 || nz w 39 32 || nz (blk b 3) 63 32 || nz (blk b 6) 63 48 || 5 < bitsOf w 55 52 ||
    shSideBad (sideOf (blk b 1)) || shSideBad (sideOf (blk b 2)) ||
    (op != 0 && (nz w 55 51 || nz w 47 40 || nz w 31 0)) ||
    (match op with
     | 0 => a != 0 || blk b 5 != 0
     | 1 => nz a 63 33 || blk b 5 != 0
     | 2 => nz a 63 32 || blk b 5 != 0
     | 3 => nz a 63 32 || blk b 5 != 0 || nz (blk b 2) 43 12
     | 4 => nz a 63 32 || blk b 5 != 0 || nz (blk b 1) 43 12
     | 5 => nz a 63 48 || nz (blk b 5) 63 32
     | _ => blk b 5 != 0)

/-- The lowest subcode of cause 0x24 that a request raises (R385). -/
def shBad (b : List DWord) (configured : Bool) : Option Nat :=
  let w := blk b 0
  let op := bitsOf w 63 56
  let ks := shKinds op
  let comp := bitsOf (blk b 6) 47 0
  let convertLen := bitsOf (blk b 3) 31 0 * outBytes (bitsOf w 43 40)
  let tests : List (Nat × Bool) :=
    [(0, 6 < op), (1, op ≤ 6 && shZeroBad b),
      (2, op ≤ 6 && (!ks.1.contains (sideOf (blk b 1)).kind || !ks.2.contains (sideOf (blk b 2)).kind)),
      (3, op == 0 && (11 < bitsOf w 47 44 || 11 < bitsOf w 43 40)),
      (4, op ≤ 6 && (shParamBad b || (op == 0 && 2 ^ 24 < convertLen))), (5, comp == 0 || comp % 16 != 0),
      (6, !configured)]
  (tests.find? (·.2)).map (·.1)

/-- xpost (R288, R382): the request goes to the entry at the tail. An entry whose page may not be written faults as a store. -/
def xpostIssue (c : BitVec 3) (r : Nat) : EngIssue :=
  { n := 8
    checks := fun s fd _ b =>
      (match shBad b (((s.ctx fd.ctx).ring r).1.testBit 63) with | some n => [(0x24, n, 0)] | none => [], s)
    room := fun _ _ => some (.ring r)
    accept := fun s fd tm b =>
      let x := ringOf ((s.ctx fd.ctx).ring r)
      let va := x.2.1 + 64 * (x.2.2.2 % x.1)
      let s := s.walkSettle (pastureOf fd.paddock) fd.ctx va
      match s.translate (pastureOf fd.paddock) fd.ctx va .write with
      | .fault k sub => .error (k, sub, va / 64 * 64)
      | .ok pa _ =>
        match (s.releaseBy tm).putAll pa ((b.map fun w => bytesOf 8 w.toNat).flatten) with
        | .error (n, d) => .error (0x1B, n, d)
        | .ok s =>
        let s := s.updCtx fd.ctx fun y =>
          { y with desc := upd y.desc (15 + 2 * r) fun w => dwordOfNat (bitsOf w.toNat 63 32 * 2 ^ 32 + (x.2.2.2 + 1) % 2 ^ 32) }
        .ok { s with ops := s.ops ++ [newOp s .xpost tm c.toNat b tm.core r 0] } }

/-- nsend (R289, R369). -/
def nsendIssue (c : BitVec 3) : EngIssue :=
  { n := 3
    checks := fun s fd _ b =>
      let w0 := blk b 0
      let rails := bitsOf w0 47 32
      let len := bitsOf (blk b 2) 15 0
      let bad := nz w0 63 48 || rails == 0 || nz (blk b 1) 63 34 || nz (blk b 2) 63 48 || nz (blk b 2) 31 16 ||
        ((List.range 16).any fun i => rails.testBit i && !(s.ports.getD i Port.reset).en) ||
        descOff (blk b 1) % 16 != 0 || len % 16 != 0 || len == 0 || 32768 < len
      (faultIf bad 0x23 8 0 ++ allocFault fd.scratch 0x19 (blk b 1) len, s)
    room := fun _ b => some (.device (bitsOf (blk b 0) 15 0))
    accept := fun s fd tm b =>
      let dev := bitsOf (blk b 0) 15 0
      let n := ((s.ctx fd.ctx).rseq.lookup dev).getD 0
      let s := s.updCtx fd.ctx fun x => { x with rseq := (dev, (n + 1) % 2 ^ 32) :: x.rseq.filter (·.1 != dev) }
      .ok { s with ops := s.ops ++ [newOp s .nsend tm c.toNat b tm.core 0 n] } }

/-! ## Reading a channel pointer (R287) -/

/-- cwp: the pointer in a register; it is an acquire of the bytes below (R286, R354). -/
def cwpStep (sq : BitVec 3) (d : BitVec 7) (core : Option Nat) (ch : Nat) (s : State) : Out1 :=
  foldStep s fun e fd tm =>
    match tm.groupCheck [] [] [⟨d.toNat, 1⟩] true with
    | .wait w => stepped s (tm.block e w)
    | .trap t => stepped s (tm.trap e t 4 (some sq))
    | .go o =>
      stepped (s.acquire (s.coreOf tm))
        (tm.groupDone e 4 sq (o.dsts.map fun r => .uni r (dwordOfNat (fd.chanPtr (core.getD tm.core) ch))) none 0#6)

/-- cwait: until the pointer is at least the operand; it is an acquire of the bytes below (R286, R354). -/
def cwaitStep (sq : BitVec 3) (a : BitVec 7) (core : Option Nat) (ch : Nat) (s : State) : Out1 :=
  foldStep s fun e fd tm =>
    match tm.groupCheck [⟨a.toNat, 1⟩] [] [] true with
    | .wait w => stepped s (tm.block e w)
    | .trap t => stepped s (tm.trap e t 4 (some sq))
    | .go o =>
      if (o.us.headD 0#64).toNat ≤ fd.chanPtr (core.getD tm.core) ch then stepped (s.acquire (s.coreOf tm)) (tm.finish tm e 4 sq 0#6)
      else stepped s (tm.block e (.channel (core.getD tm.core) ch (o.us.headD 0#64).toNat))

/-- `MMA` (R272). -/
def execMma (sq : BitVec 3) (g : BitVec 10) (c : BitVec 3) (s : State) : Out1 :=
  engStep (arrIssue .mma c) sq g c s

/-- `MMA_J` (R255). -/
def execMmaJ (sq : BitVec 3) (g : BitVec 10) (c : BitVec 3) (s : State) : Out1 :=
  engStep (arrIssue .mmaJ c) sq g c s

/-- `MMA_R` (R256). -/
def execMmaR (sq : BitVec 3) (g : BitVec 10) (c : BitVec 3) (s : State) : Out1 :=
  engStep (arrIssue .mmaR c) sq g c s

/-- `MTRANS` (R273). -/
def execMtrans (sq : BitVec 3) (g : BitVec 10) (c : BitVec 3) (s : State) : Out1 :=
  engStep (arrIssue .mtrans c) sq g c s

/-- `MPERM` (R273). -/
def execMperm (sq : BitVec 3) (g : BitVec 10) (c : BitVec 3) (s : State) : Out1 :=
  engStep (arrIssue .mperm c) sq g c s

/-- `MRSUM` (R273). -/
def execMrsum (sq : BitVec 3) (g : BitVec 10) (c : BitVec 3) (s : State) : Out1 :=
  engStep (arrIssue .mrsum c) sq g c s

/-- `MZERO` (R277). -/
def execMzero (sq : BitVec 3) (g : BitVec 10) (c : BitVec 3) (s : State) : Out1 :=
  engStep (mzeroIssue c) sq g c s

/-- `MDRAIN` (R278). -/
def execMdrain (sq : BitVec 3) (g : BitVec 10) (c : BitVec 3) (s : State) : Out1 :=
  engStep (mdrainIssue c) sq g c s

/-- `WTAB` (R283). -/
def execWtab (sq : BitVec 3) (g : BitVec 10) (c : BitVec 3) (s : State) : Out1 :=
  engStep (wtabIssue c) sq g c s

/-- `COPY` (R284). -/
def execCopy (sq : BitVec 3) (g : BitVec 10) (c : BitVec 3) (s : State) : Out1 :=
  engStep (copyIssue c) sq g c s

/-- `NSEND` (R289). -/
def execNsend (sq : BitVec 3) (g : BitVec 10) (c : BitVec 3) (s : State) : Out1 :=
  engStep (nsendIssue c) sq g c s

/-- `XPOST` (R288). -/
def execXpost (sq : BitVec 3) (g : BitVec 10) (c : BitVec 3) (r : BitVec 2) (s : State) : Out1 :=
  engStep (xpostIssue c r.toNat) sq g c s

/-- `CWP` (R287). -/
def execCwp (sq : BitVec 3) (d : BitVec 7) (n : BitVec 2) (s : State) : Out1 :=
  cwpStep sq d none n.toNat s

/-- `CWP_CORE` (R287). -/
def execCwpCore (sq : BitVec 3) (d : BitVec 7) (c n : BitVec 2) (s : State) : Out1 :=
  cwpStep sq d (some c.toNat) n.toNat s

/-- `CWAIT` (R287). -/
def execCwait (sq : BitVec 3) (a : BitVec 7) (n : BitVec 2) (s : State) : Out1 :=
  cwaitStep sq a none n.toNat s

/-- `CWAIT_CORE` (R287). -/
def execCwaitCore (sq : BitVec 3) (a : BitVec 7) (c n : BitVec 2) (s : State) : Out1 :=
  cwaitStep sq a (some c.toNat) n.toNat s

end Sys2Proof.Machine
end

