-- ==== Sys2Proof/Machine/Queues.lean ====
section
/-!
DEFINITION. Sys2Proof/Machine/Queues.lean: paddock queues (R291-R296).
-/
namespace Sys2Proof.Machine

/-- Slots of a queue's descriptor. -/
def Queue.slots (q : Queue) : Nat := 2 ^ bitsOf q.desc.toNat 39 36
/-- Slot bytes of a queue's descriptor. -/
def Queue.size (q : Queue) : Nat := bitsOf q.desc.toNat 55 40
/-- Free slots (R291). -/
def Queue.free (q : Queue) : Nat := q.slots - (q.t - q.h)
/-- Closed with every row taken. -/
def Queue.drained (q : Queue) : Bool := q.closed && q.k == q.c
/-- Offset of a slot in the scratch of the queue's core. -/
def Queue.slotOff (q : Queue) (seq : Nat) : Nat := descOff q.desc.toNat + seq % q.slots * q.size

/-- Arrivals move over the contiguous published prefix; the published list bounds the recursion. -/
def advance : List Nat → Nat → List Nat → Nat × List Nat
  | [], a, pub => (a, pub)
  | _ :: fuel, a, pub => if pub.contains a then advance fuel (a + 1) (pub.filter (· != a)) else (a, pub)

/-- A sequence is published (R291, R294). -/
def Queue.publish (q : Queue) (seq : Nat) : Queue :=
  let r := advance (seq :: q.pub) q.a (seq :: q.pub)
  { q with a := r.1, pub := r.2 }

/-- May a queue be opened by a fold with a descriptor (R292)? -/
def openFaults (fold : Nat) (fd : Fold) (q : Queue) (n x : Nat) : List BlkFault :=
  let size := bitsOf x 55 40
  let bad := nz x 63 56 || nz x 35 34 || size % 16 != 0 || size == 0 || 32768 < size || 12 < bitsOf x 39 36 ||
    descOff x % 16 != 0 || !inAlloc fd.scratch (descCore x) (descOff x) (2 ^ bitsOf x 39 36 * size)
  faultIf (match q.owner with | none => false | some f => f != fold || !q.drained) 0x25 1 n ++ faultIf bad 0x25 2 n

/-- What a queue instruction does once its registers are read: traps, waits, or goes on with the queue, its results and
flags. -/
inductive QueueAct where
  | fault (fs : List BlkFault)
  | wait
  | done (q : Queue) (vals : List DWord) (z : Option Bool)
  deriving DecidableEq, Repr

/-- A queue instruction: its source and destination fields, and what it does. -/
structure QueueOp where
  srcs : List UUse
  dsts : List UUse
  wait : QWait
  act : Nat → Fold → Queue → Nat → QueueAct

/-- Old bytes of writes to a queue's taken slots count as observed by the fold (R262, R294). -/
def State.shareRange (s : State) (fold : Nat) (f : Fold) (ranges : List (Nat × Nat)) : State :=
  let hit (x : Nat × Byte) : Bool := inRegions ranges x.1
  let old := ((s.foldTeams f).map fun x => x.2.unfenced.filter hit).flatten
  let s := s.updFold fold fun x => { x with shared := x.shared ++ old }
  { s with teams := s.teams.map fun tm => if tm.fold == fold then { tm with unfenced := tm.unfenced.filter fun x => !hit x } else tm }

/-- The course of a queue instruction (R291-R296). `n` is the queue. Publishing a slot is a release, taking slots an acquire
(R294, R295, R354). -/
def queueStep (op : QueueOp) (sq : BitVec 3) (n : Nat) (s : State) : Out1 :=
  foldStep s fun e fd tm =>
    match tm.groupCheck op.srcs [] op.dsts true with
    | .wait w => stepped s (tm.block e w)
    | .trap t => stepped s (tm.trap e t 4 (some sq))
    | .go o =>
      let q := (s.pad fd.paddock).queues.getD n Queue.empty
      match op.act tm.fold fd q (o.us.headD 0#64).toNat with
      | .fault fs => (match blkTrap fs with | some t => stepped s (tm.trap e t 4 (some sq)) | none => .next s)
      | .wait => stepped s (tm.block e (.queue n op.wait (o.us.headD 0#64).toNat))
      | .done q' vals z =>
        let s' := s.updPad fd.paddock fun p => { p with queues := upd p.queues n fun _ => q' }
        let s' := (s'.raggedCheck fd.paddock n).dateEntries fd.paddock
        let took := (List.range (q'.k - q.k)).map fun i => (fd.scratchPa (descCore q.desc.toNat) (q.slotOff (q.k + i)), q.size)
        let s' := if q'.a != q.a || q'.pub != q.pub then s'.releaseBy tm else s'
        let s' := if took.isEmpty then s' else (s'.shareRange tm.fold fd took).acquireBy tm
        let ws := List.zipWith (fun d v => RegWrite.uni d v) o.dsts vals
        let fl := match z with | some z => ⟨z, false, false, false⟩ | none => tm.flags
        groupEnd s s' e tm { ((s'.team? s.cur).getD tm).results e.overlap ws [] false with flags := fl } 4 sq

/-- The conditions shared by the instructions on an open queue. -/
def notMine (fold : Nat) (q : Queue) (n : Nat) : List BlkFault := faultIf (q.owner != some fold) 0x25 0 n
/-- A count of 0 or above slots. -/
def badCount (q : Queue) (x n : Nat) : List BlkFault := faultIf (x == 0 || q.slots < x) 0x25 3 n
/-- A queue bound to an mma.r (R274). -/
def boundQ (q : Queue) (n : Nat) : List BlkFault := faultIf q.bound.isSome 0x25 7 n

/-- An action on an open queue: the conditions of its own, then what it does. -/
def onOpen (fold : Nat) (q : Queue) (n : Nat) (fs : List BlkFault) (act : QueueAct) : QueueAct :=
  if q.owner != some fold then .fault (notMine fold q n) else if fs.isEmpty then act else .fault fs

/-- Reserves slots (R293); a form that may not wait sets Z. -/
def reserve (try_ : Bool) (n fold : Nat) (q : Queue) (x : Nat) : QueueAct :=
  onOpen fold q n (badCount q x n ++ faultIf q.closed 0x25 6 n)
    (if x ≤ q.free then .done { q with t := q.t + x } [dwordOfNat q.t] (some false)
     else if try_ then .done q [0#64] (some true) else .wait)

/-- `QRES` (R293). -/
def execQres (sq : BitVec 3) (d a : BitVec 7) (n : BitVec 4) (s : State) : Out1 :=
  queueStep ⟨[⟨a.toNat, 1⟩], [⟨d.toNat, 1⟩], .free, fun f _ q x => reserve false n.toNat f q x⟩ sq n.toNat s

/-- `QRES_TRY` (R293). -/
def execQresTry (sq : BitVec 3) (d a : BitVec 7) (n : BitVec 4) (s : State) : Out1 :=
  queueStep ⟨[⟨a.toNat, 1⟩], [⟨d.toNat, 1⟩], .free, fun f _ q x => reserve true n.toNat f q x⟩ sq n.toNat s

/-- `QPUB` (R294). -/
def execQpub (sq : BitVec 3) (a : BitVec 7) (n : BitVec 4) (s : State) : Out1 :=
  queueStep ⟨[⟨a.toNat, 1⟩], [], .free, fun f _ q x =>
    onOpen f q n.toNat (faultIf (x < q.h || q.t ≤ x || x < q.a || q.pub.contains x) 0x25 4 n.toNat)
      (.done (q.publish x) [] none)⟩ sq n.toNat s

/-- `QTAKE` (R295). -/
def execQtake (sq : BitVec 3) (d a : BitVec 7) (n : BitVec 4) (s : State) : Out1 :=
  queueStep ⟨[⟨a.toNat, 1⟩], [⟨d.toNat, 2⟩], .take, fun f _ q x =>
    onOpen f q n.toNat (badCount q x n.toNat ++ boundQ q n.toNat)
      (if q.k < q.a || q.drained then
        let m := min x (q.a - q.k)
        .done { q with k := q.k + m } [dwordOfNat q.k, dwordOfNat m] (some (m == 0))
       else .wait)⟩ sq n.toNat s

/-- `QREL` (R295). -/
def execQrel (sq : BitVec 3) (a : BitVec 7) (n : BitVec 4) (s : State) : Out1 :=
  queueStep ⟨[⟨a.toNat, 1⟩], [], .free, fun f _ q x =>
    onOpen f q n.toNat (badCount q x n.toNat ++ faultIf (q.k < q.h + x) 0x25 5 n.toNat ++ boundQ q n.toNat)
      (.done { q with h := q.h + x } [] none)⟩ sq n.toNat s

/-- `QWAIT` (R295). -/
def execQwait (sq : BitVec 3) (a : BitVec 7) (n : BitVec 4) (s : State) : Out1 :=
  queueStep ⟨[⟨a.toNat, 1⟩], [], .count, fun f _ q x =>
    onOpen f q n.toNat (badCount q x n.toNat)
      (if x ≤ q.a - q.k || q.closed then .done q [] (some (q.a - q.k < x)) else .wait)⟩ sq n.toNat s

/-- `QCLOSE` (R295). -/
def execQclose (sq : BitVec 3) (n : BitVec 4) (s : State) : Out1 :=
  queueStep ⟨[], [], .free, fun f _ q _ =>
    onOpen f q n.toNat [] (.done { q with closed := true, c := q.t } [] none)⟩ sq n.toNat s

/-- `QOPEN` (R292). A ragged command that has taken every row of the queue as it was stays bound to it until it completes
(R274). -/
def execQopen (sq : BitVec 3) (a : BitVec 7) (n : BitVec 4) (s : State) : Out1 :=
  queueStep ⟨[⟨a.toNat, 1⟩], [], .free, fun f fd q x =>
    match openFaults f fd q n.toNat x with
    | [] => .done ⟨some f, 0, 0, 0, 0, 0, [], false, dwordOfNat x, q.bound, q.gen + 1⟩ [] none
    | fs => .fault fs⟩ sq n.toNat s

end Sys2Proof.Machine
end

