-- ==== Sys2Proof/Machine/Streams.lean ====
section
/-!
DEFINITION. Sys2Proof/Machine/Streams.lean: entropy-coded weight streams: layout, decoding and encoding (R299-R305), and
the bytes of a record as an engine reads and writes them.
-/
namespace Sys2Proof.Machine

/-! ## Records as engines use them -/

/-- A fault an engine finds: cause, subcode, detail. -/
abbrev EngErr := Nat × Nat × Nat

/-- The virtual address of byte `b` of a plain record, bytes counted element after element from element 0. -/
def Rec.byteAddr (r : Rec) (b : Nat) : Nat := (r.addr (b / r.size) + b % r.size) % 2 ^ 48

/-- A fault of an engine's translation: no soft residency; 0x14 on the on-chip space carries no address (R409). -/
def xlatErr (k sub va : Nat) (write : Bool) : EngErr :=
  (k, if k == 0x13 && write then 1 else sub, if k == 0x14 && sub == 2 then 0 else va / 64 * 64)

/-- One byte of a context's memory, with the poison of its unit. -/
def State.virtByte (s : State) (pasture c va : Nat) : Except EngErr (Byte × List Poison) :=
  match s.translate pasture c va .read with
  | .fault k sub => .error (xlatErr k sub va false)
  | .ok pa _ => .ok (s.busByte pa, s.poisonIn pa 1)

/-- The cause of poisoned data from memory, if any (R166). -/
def memPoison (ps : List Poison) : Option Nat :=
  if ps.contains .plain then some 0x17 else if ps.contains .margin then some 0x30 else none

/-- `n` bytes of a plain record from byte `b` on. -/
def State.recBytes (s : State) (pasture c : Nat) (r : Rec) (b : Nat) : Nat → Except EngErr (List Byte)
  | 0 => .ok []
  | n + 1 =>
    match s.virtByte pasture c (r.byteAddr b) with
    | .error e => .error e
    | .ok (x, ps) =>
      match memPoison ps with
      | some k => .error (k, 0, r.byteAddr b)
      | none =>
        match s.recBytes pasture c r (b + 1) n with
        | .error e => .error e
        | .ok xs => .ok (x :: xs)

/-- One byte written to a context's memory; a landing window may refuse it (R317). -/
def State.virtPut (s : State) (pasture c va : Nat) (x : Byte) : Except EngErr State :=
  let s := s.walkSettle pasture c va
  match s.translate pasture c va .write with
  | .fault k sub => .error (xlatErr k sub va true)
  | .ok pa _ =>
    match s.landRefusal pa with
    | some (n, d) => .error (0x1B, n, d)
    | none => .ok ((s.settle [(pa, 1)]).busWrite pa [x])

/-- Bytes written to a plain record from byte `b` on: the state after those written, and the fault that ended it. -/
def State.recPut (s : State) (pasture c : Nat) (r : Rec) (b : Nat) : List Byte → State × Option EngErr
  | [] => (s, none)
  | x :: xs =>
    match s.virtPut pasture c (r.byteAddr b) x with
    | .error e => (s, some e)
    | .ok s' => s'.recPut pasture c r (b + 1) xs

/-- Bytes written to a context's memory in ascending order: the state after those written, and the fault that ended it. -/
def State.virtPutAll (s : State) (pasture c va : Nat) : List Byte → State × Option EngErr
  | [] => (s, none)
  | x :: xs =>
    match s.virtPut pasture c va x with
    | .error e => (s, some e)
    | .ok s' => s'.virtPutAll pasture c (va + 1) xs

/-- The physical bytes of a plain record from byte `b` on, those that can be read. -/
def State.recReads (s : State) (pasture c : Nat) (r : Rec) (b n : Nat) : List (Nat × Nat) :=
  (List.range n).filterMap fun i =>
    match s.translate pasture c (r.byteAddr (b + i)) .read with
    | .ok pa _ => some (pa, 1)
    | .fault _ _ => none

/-- Before a plain access to bytes of a record the blocks held decoded there, and under the tables that translate them, are encoded
(R343); through encoding 4 the lines that it fills are compressible (R326). -/
def State.settleRec (s : State) (pasture c : Nat) (r : Rec) (b n : Nat) : State :=
  let s := if s.decoded.isEmpty then s
    else
      let s := s.walkSettles pasture c ((List.range n).map fun i => r.byteAddr (b + i))
      s.settle (s.recReads pasture c r b n)
  if r.enc == 4 then s.compress 4 (s.recReads pasture c r b n) else s

/-- The physical bytes of a plain record from byte `b` on, those that can be written. -/
def State.recPas (s : State) (pasture c : Nat) (r : Rec) (b n : Nat) : List (Nat × Nat) :=
  (List.range n).filterMap fun i =>
    match s.translate pasture c (r.byteAddr (b + i)) .write with
    | .ok pa _ => some (pa, 1)
    | .fault _ _ => none

/-- Bytes written to a plain record as `recPut` does; units replaced whole lose their poison (R460), and the lines written through
encoding 4 are compressible (R326). -/
def State.recWrite (s : State) (pasture c : Nat) (r : Rec) (b : Nat) (bs : List Byte) : State × Option EngErr :=
  let x := s.recPut pasture c r b bs
  let t := if r.enc == 4 then x.1.compress 4 (s.recPas pasture c r b bs.length) else x.1
  (if x.2.isNone then t.clearPoison (s.recPas pasture c r b bs.length) else t, x.2)

/-- The record a fold holds under a handle; engine operations were checked at issue, so it is there. -/
def State.recOfFold (s : State) (f : Fold) (h : Nat) : Option Rec :=
  match s.useRec (pastureOf f.paddock) f h with
  | .ok r _ => some r
  | .bad _ _ => none

/-! ## Layout (R299-R301) -/

/-- A number from bytes of a list. -/
def fieldOf (bs : List Byte) (at_ n : Nat) : Nat := numOf ((bs.drop at_).take n)

/-- Do restart offsets obey R301? -/
def startsOk (len : Nat) : List Nat → Bool
  | [] => true
  | [x] => x % 2 == 0 && x + 128 ≤ len
  | x :: y :: rest => x % 2 == 0 && x + 128 ≤ y && startsOk len (y :: rest)

/-- The state in which a tile's index entry, header and restart table are read: blocks held decoded there are encoded (R343). -/
def State.tileSettle (s : State) (pasture c : Nat) (r : Rec) (t : Nat) : State :=
  if s.decoded.isEmpty then s
  else
    let s := s.settleRec pasture c r (8 * t) 8
    match s.recBytes pasture c r (8 * t) 8 with
    | .error _ => s
    | .ok ix =>
      let off := bitsOf (numOf ix) 39 0
      let s := s.settleRec pasture c r off 32
      match s.recBytes pasture c r off 32 with
      | .error _ => s
      | .ok h => s.settleRec pasture c r (off + 32) (4 * min (fieldOf h 12 4) (r.count / 4))

/-- Reads a tile's index entry, header and restart table; a fault is cause 0x21 with its subcode, or of translation. A header of
another K or N than the command's is found as the header is read (0x20, subcode 6). DESIGN CHOICE (log entry 128): the segment of a fault
found here, of the restart table's too, is 0. -/
def State.tileOf (s : State) (pasture c : Nat) (r : Rec) (t bfmt : Nat) (kn : Nat × Nat) : Except EngErr Tile :=
  let bad (sub : Nat) : Except EngErr Tile := .error (0x21, sub, t)
  if r.count < 8 * t + 8 then bad 0
  else
    match s.recBytes pasture c r (8 * t) 8 with
    | .error e => .error e
    | .ok ix =>
      let x := numOf ix
      let off := bitsOf x 39 0
      let len := bitsOf x 63 40
      if off % 4 != 0 || len < 32 || r.count < off + len then bad 0
      else
        match s.recBytes pasture c r off 32 with
        | .error e => .error e
        | .ok h =>
          let k := fieldOf h 6 2
          let n := fieldOf h 8 2
          let iv := fieldOf h 10 1
          let count := fieldOf h 12 4
          let ok := fieldOf h 0 2 == 0x5753 && fieldOf h 2 1 == 1 && fieldOf h 3 1 == r.rate && fieldOf h 4 1 ≤ 3 &&
            fieldOf h 4 1 == bfmt && fieldOf h 5 1 == 0 && k % 32 == 0 && 32 ≤ k && k ≤ 1024 && n % 64 == 0 && 64 ≤ n &&
            n ≤ 256 && 10 ≤ iv && iv ≤ 16 && fieldOf h 11 1 == 0 && count == (k * n + 2 ^ iv - 1) / 2 ^ iv &&
            fieldOf h 16 16 == 0 && 32 + 4 * count ≤ len
          if !ok then bad 0
          else if (k, n) != kn then .error (0x20, 6, 0)
          else
            match s.recBytes pasture c r (off + 32) (4 * count) with
            | .error e => .error e
            | .ok tb =>
              let starts := (List.range count).map fun i => fieldOf tb (4 * i) 4
              let plen := len - 32 - 4 * count
              if starts.headD 1 != 0 || !startsOk plen starts then bad 2
              else .ok ⟨k, n, 2 ^ iv, fieldOf h 3 1, off + 32 + 4 * count, plen, starts⟩

/-! ## Decoding (R303) -/

/-- The symbol of a slot: symbol, frequency, cumulative frequency. -/
def findSym : List Nat → Nat → Nat → Nat → Option (Nat × Nat × Nat)
  | [], _, _, _ => none
  | f :: fs, k, cum, slot => if slot < cum + f then some (k, f, cum) else findSym fs (k + 1) (cum + f) slot

/-- What decoding answers where it needs a byte that could not be read: no subcode. -/
def unreadable : Nat := 16

/-- Decodes `n` symbols of a segment from symbol `i` of it: states, payload position, end; `pay` is the payload as far as it could
be read. The error is a subcode. -/
def decodeSyms (freqs : List Nat) (pay : List Byte) (end_ : Nat) : Nat → Nat → List Nat → Nat → Except Nat (List Nat × List Nat × Nat)
  | 0, _, x, p => .ok ([], x, p)
  | n + 1, i, x, p =>
    let q := i % 32
    let v := x.getD q 0
    match findSym freqs 0 0 (v % 4096) with
    | none => .error 4
    | some (sym, f, cum) =>
      let v' := f * (v / 4096) + v % 4096 - cum
      if v' < 2 ^ 16 then
        if end_ < p + 2 then .error 1
        else if pay.length < p + 2 then .error unreadable
        else
          match decodeSyms freqs pay end_ n (i + 1) (upd x q fun _ => v' * 2 ^ 16 + fieldOf pay p 2) (p + 2) with
          | .error e => .error e
          | .ok (ys, r) => .ok (sym :: ys, r)
      else
        match decodeSyms freqs pay end_ n (i + 1) (upd x q fun _ => v') p with
        | .error e => .error e
        | .ok (ys, r) => .ok (sym :: ys, r)

/-- The initial states of a segment from state `q` on, `n` of them: each is read, then tested (R303). -/
def initStates (pay : List Byte) (start q : Nat) : Nat → Except Nat (List Nat)
  | 0 => .ok []
  | n + 1 =>
    let v := fieldOf pay (start + 4 * q) 4
    if pay.length < start + 4 * q + 4 then .error unreadable
    else if v < 2 ^ 16 then .error 3
    else
      match initStates pay start (q + 1) n with
      | .error e => .error e
      | .ok vs => .ok (v :: vs)

/-- Decodes the segments of a tile, from segment `r` on; the error is a subcode and its segment. -/
def decodeSegs (freqs : List Nat) (pay : List Byte) (t : Tile) : Nat → List Nat → Except (Nat × Nat) (List Nat)
  | _, [] => .ok []
  | r, start :: rest =>
    let end_ := rest.headD t.len
    let n := min ((r + 1) * t.interval) (t.k * t.n) - r * t.interval
    match initStates pay start 0 32 with
    | .error e => .error (e, r)
    | .ok x =>
      match decodeSyms freqs pay end_ n 0 x (start + 128) with
      | .error e => .error (e, r)
      | .ok (ys, x', p) =>
        if p != end_ then .error (2, r)
        else if x'.any (· != 2 ^ 16) then .error (3, r)
        else
          match decodeSegs freqs pay t (r + 1) rest with
          | .error e => .error e
          | .ok zs => .ok (ys ++ zs)

/-- A context's decoder table; one never loaded holds zeros (R305). -/
def Ctx.table (c : Ctx) (t : Nat) : List Nat := (c.tables.lookup t).getD (List.replicate 256 0)

/-- Bytes of a record as far as they can be read, and the fault that ended them. -/
def State.recPrefix (s : State) (pasture c : Nat) (r : Rec) (b : Nat) : Nat → List Byte × Option EngErr
  | 0 => ([], none)
  | n + 1 =>
    match s.recBytes pasture c r b 1 with
    | .error e => ([], some e)
    | .ok x =>
      let y := s.recPrefix pasture c r (b + 1) n
      (x ++ y.1, y.2)

/-- Decodes a tile of a record with a table, from segment `seg` on. Faults are found in decode order: of a byte that cannot be
read where the decoder needs it (R304, R309). -/
def State.decodeTile (s : State) (pasture c : Nat) (r : Rec) (t : Nat) (tile : Tile) (freqs : List Nat) (seg : Nat) :
    Except EngErr (List Nat) :=
  let skip := tile.starts.getD seg 0
  let pay := s.recPrefix pasture c r (tile.at_ + skip) (tile.len - skip)
  match decodeSegs freqs (List.replicate skip 0#8 ++ pay.1) tile seg (tile.starts.drop seg) with
  | .error (sub, k) => .error (if sub == unreadable then pay.2.getD (0x21, 1, t) else (0x21, sub, t + k % 65536 * 2 ^ 32))
  | .ok ys => .ok ys

/-! ## Encoding (R304, R393) -/

/-- Encodes the symbols of a segment from the last to the first (given reversed, with their positions): states and the
words appended; none where a symbol has frequency 0. -/
def encodeSyms (freqs : List Nat) : List (Nat × Nat) → List Nat → List Nat → Option (List Nat × List Nat)
  | [], x, ws => some (x, ws)
  | (i, sym) :: rest, x, ws =>
    let q := i % 32
    let f := freqs.getD sym 0
    let cum := (freqs.take sym).sum
    let v := x.getD q 0
    if f == 0 then none
    else
      let r := if f * 2 ^ 20 ≤ v then (v / 2 ^ 16, ws ++ [v % 2 ^ 16]) else (v, ws)
      encodeSyms freqs rest (upd x q fun _ => r.1 / f * 4096 + r.1 % f + cum) r.2

/-- The bytes of a segment. -/
def encodeSeg (freqs syms : List Nat) : Option (List Byte) :=
  match encodeSyms freqs ((List.range syms.length).zip syms).reverse (List.replicate 32 (2 ^ 16)) [] with
  | none => none
  | some (x, ws) => some ((x.map (bytesOf 4)).flatten ++ (ws.reverse.map (bytesOf 2)).flatten)

/-- The segments of a tile's symbols; the fuel bounds their number. -/
def encodeSegs (freqs : List Nat) (interval : Nat) : Nat → List Nat → Option (List (List Byte))
  | 0, _ => some []
  | fuel + 1, syms =>
    if syms.isEmpty then some []
    else
      match encodeSeg freqs (syms.take interval), encodeSegs freqs interval fuel (syms.drop interval) with
      | some b, some bs => some (b :: bs)
      | _, _ => none

/-- A whole tile: header, restart table, payload. -/
def encodeTile (k n iv table fmt : Nat) (freqs syms : List Nat) : Option (List Byte) :=
  let count := (k * n + 2 ^ iv - 1) / 2 ^ iv
  match encodeSegs freqs (2 ^ iv) count syms with
  | none => none
  | some segs =>
    let starts := (List.range count).map fun i => ((segs.take i).map (·.length)).sum
    some (bytesOf 2 0x5753 ++ bytesOf 1 1 ++ bytesOf 1 table ++ bytesOf 1 fmt ++ bytesOf 1 0 ++ bytesOf 2 k ++ bytesOf 2 n ++
      bytesOf 1 iv ++ bytesOf 1 0 ++ bytesOf 4 count ++ bytesOf 16 0 ++ (starts.map (bytesOf 4)).flatten ++ segs.flatten)

end Sys2Proof.Machine
end

