-- ==== Sys2Proof/Machine/Array.lean ====
section
/-!
DEFINITION. Sys2Proof/Machine/Array.lean: faults that engines find (R269), the arbiter (R253), what a slice computes
(R257-R259, R272, R273) and commits, and the events of the array and the decoder port (R250-R256, R260, R303-R308).
-/
namespace Sys2Proof.Machine

/-! ## Faults after acceptance (R269, R411, R412) -/

/-- The record of kind 3 of a team: its next instruction's address, the engine instruction's in word 5, the block, and what the team has
issued since a halt arrived at it (R409, R410, R413). -/
def kind3 (tm : Team) (first : Bool) (cause sub : Nat) (detail : DWord) (pc : CodeAddr) (block : List DWord) : Stop :=
  { cause := cause, kind := 3, sub := sub, sec := 0#64, detail := detail, skid := (tm.halt.map (·.2.2)).getD 0, pc := tm.pc, origin := pc, fmt := tm.fmt
    map := [], block := block, first := first, stray := !tm.stray.isEmpty, depth2 := tm.stray.length == 2
    margin := cause == 0x30, seqno := none, run := none, len := 0, seq := none, was := tm.status }

/-- An engine fault halts the fold as a trap of the issuing team would: a team that had stopped as a sibling and has no
record yet gets this one; for a team that has its own record this one stands beside it. One of a team that stands at a stop which halts
no sibling, a debugger's under FREE, halts the fold (R407), as a late trap does. `br` is the work that broke. -/
def State.engineStop (s : State) (t : Nat) (cause sub : Nat) (detail : DWord) (pc : CodeAddr) (block : List DWord)
    (br : Broken) : State :=
  match s.team? t with
  | none => s
  | some tm =>
    let s := s.updFold tm.fold fun f => { f with broken := f.broken ++ [br] }
    let e := s.env t tm
    let st := kind3 tm (!e.halted) cause sub detail pc block
    let halt (st : Stop) : State := s.updTeam t fun _ => { tm with status := .stopped, stop := some st, wait := .none, blocked := 0 }
    if tm.status != .stopped then halt st
    else
      match tm.stop with
      | some old =>
        if (old.cause == 0x3B || old.cause == 0x3C) && old.seqno.isNone then
          halt { st with first := false, was := old.was, skid := old.skid }
        else if old.cause != 0x3B && old.cause != 0x3C && !s.halting (s.ctxOf tm) old then
          let s := if old.seqno.isNone then s.postAsync (s.ctxOf tm) (s.stopRec tm old) else s
          s.updTeam t fun _ => { tm with stop := some { st with was := old.was, len := old.len, seq := old.seq, skid := old.skid } }
        else
          let r := s.stopRec tm { st with first := false, skid := old.skid }
          if old.seqno.isNone then s.updFold tm.fold fun f => { f with extra := f.extra ++ [r.words] } else s.postAsync (s.ctxOf tm) r
      | none => halt st

/-- An entry is abandoned: it leaves the table; each poster whose rows are not all committed gets a record (R269). -/
def State.entryFault (s : State) (pad i cause sub : Nat) (detail : DWord) : State :=
  match (s.pad pad).table[i]? with
  | none => s
  | some e =>
    let open_ := e.posts.filter fun p => p.counted e.kind
    let s := s.freeEntry pad i []
    let s := s.updPad pad fun y => { y with table := upd y.table i fun x => { x with fault := some (cause, sub, detail) } }
    open_.foldl (fun s p => s.engineStop p.team cause sub detail p.pc p.block (.arr e.kind p i)) s

/-! ## Operands of a slice (R249, R272) -/

/-- `n` codes of `b` bytes as an engine reads them from a physical address. -/
def State.codes (s : State) (f : Fold) (pa b : Nat) : Nat → List Nat
  | 0 => []
  | n + 1 => numOf (s.engineRead f pa b) :: s.codes f (pa + b) b n

/-- `n` codes of `b` bytes as they stand in a queue slot: a published slot needs no mopfence (R294). -/
def State.slotCodes (s : State) (pa b : Nat) : Nat → List Nat
  | 0 => []
  | n + 1 => numOf (s.busRead pa b) :: s.slotCodes (pa + b) b n

/-- Rows of codes. -/
def State.codeRows (s : State) (f : Fold) (pa b cols : Nat) : Nat → List (List Nat)
  | 0 => []
  | n + 1 => s.codes f pa b cols :: s.codeRows f (pa + b * cols) b cols n

/-- Rows cut out of a flat list. -/
def cutRows (cols : Nat) : Nat → List Nat → List (List Nat)
  | 0, _ => []
  | n + 1, l => l.take cols :: cutRows cols n (l.drop cols)

/-- The float format of an accumulator type, where it is one. -/
def accFlt : AccTag → Option FFmt
  | .f32 => some fF32
  | .f64 => some fF64
  | _ => none

/-! ## Sums (R257, R258) -/

/-- Adjacent pairs are added and rounded. -/
def pairSums (f : FFmt) : List FVal → List FVal
  | a :: b :: rest => fdec f (fsumV f envRne false [a, b]).1 :: pairSums f rest
  | l => l

/-- Five levels of pairs: the sum of a block of 32 products. -/
def blockSum (f : FFmt) (ps : List FVal) : FVal :=
  (pairSums f (pairSums f (pairSums f (pairSums f (pairSums f ps))))).headD (.fin false 0 0)

/-- The blocks of 32 of a list. -/
def blocks32 {α : Type} : Nat → List α → List (List α)
  | 0, _ => []
  | n + 1, l => l.take 32 :: blocks32 n (l.drop 32)

/-- The sum of products over K-blocks, in normal service or conformance mode, from an accumulator or none. -/
def dotFlt (f : FFmt) (conf : Bool) (ps : List FVal) (acc : Option FVal) : FVal :=
  ((blocks32 (ps.length / 32) ps).foldl (fun (acc : Option FVal) b =>
    some (if conf then fdec f (fsumV f envRne false (b ++ acc.toList)).1
      else match acc with
        | none => blockSum f b
        | some a => fdec f (fsumV f envRne false [a, blockSum f b]).1)) acc).getD (.fin false 0 0)

/-- The code of a value already in a format. -/
def fltCode (f : FFmt) (v : FVal) : Nat := (convFlt f .rne false v).code

/-- Integer sums, block by block, wrapping: the result and whether a wrap happened (R257, R259). DESIGN CHOICE (log entry 106): a wrap
is judged at each K-block on the running accumulator, as the block's exact sum is added to it. -/
def dotInt (w : Nat) (ps : List Int) (acc : Int) : Int × Bool :=
  (blocks32 (ps.length / 32) ps).foldl (fun (r : Int × Bool) b =>
    let x := r.1 + b.foldl (· + ·) 0
    let y := toI true w (wrapI w x)
    (y, r.2 || y != x)) (acc, false)

/-- One output element of a product: the row of A, the column of B, the old D under accumulate. DESIGN CHOICE (log entry 127): a zero
product of an integer and a PSW8 element has the sign that the signs of the two give. -/
def prodElem (ty : AccTag) (afmt bfmt : Nat) (conf : Bool) (a b : List Nat) (old : Option Nat) : Nat × Bool :=
  match accFlt ty with
  | some f =>
    let ps := List.zipWith (fun x y => (fprod (codeVal afmt x) (codeVal bfmt y)).2) a b
    (fltCode f (dotFlt f conf ps (old.map (fdec f))), false)
  | none =>
    let w := 8 * accSize ty
    let ps := List.zipWith (fun x y => toI true (fmtBits afmt) x * toI true (fmtBits bfmt) y) a b
    let r := dotInt w ps ((old.map (toI true w)).getD 0)
    (wrapI w r.1, r.2)

/-- One copied element (mtrans, mperm); `none` for a row that selects nothing (R273). -/
def copyElem (ty : AccTag) (fmt : Nat) (x : Option Nat) (old : Option Nat) : Nat × Bool :=
  match accFlt ty with
  | some f =>
    match x, old with
    | some c, none => ((convFlt f .rne false (codeVal fmt c)).code, false)
    | some c, some d => ((fsumV f envRne false [fdec f d, codeVal fmt c]).1, false)
    | none, some d => (d, false)
    | none, none => (0, false)
  | none =>
    let w := 8 * accSize ty
    let y := (old.map (toI true w)).getD 0 + (x.map (toI true (fmtBits fmt))).getD 0
    (wrapI w y, toI true w (wrapI w y) != y)

/-- One element of mrsum: the row of S times ones. -/
def sumElem (ty : AccTag) (fmt : Nat) (conf : Bool) (a : List Nat) (old : Option Nat) : Nat × Bool :=
  match accFlt ty with
  | some f => (fltCode f (dotFlt f conf (a.map (codeVal fmt)) (old.map (fdec f))), false)
  | none =>
    let w := 8 * accSize ty
    let r := dotInt w (a.map (toI true (fmtBits fmt))) ((old.map (toI true w)).getD 0)
    (wrapI w r.1, r.2)

/-! ## A slice's rows -/

/-- Which post a row of D belongs to, and its row there. -/
def ResEntry.rowOf (e : ResEntry) (i : Nat) : Nat × Nat :=
  if e.kind == .mmaJ then (i / max 1 (e.blk.rows e.kind), i % max 1 (e.blk.rows e.kind)) else (0, i)

/-- Physical place of a row of D. -/
def ResEntry.dRow (e : ResEntry) (fd : Fold) (i : Nat) : Nat :=
  let p := e.rowOf i
  let x := ((e.posts[p.1]?).map fun q => arrBlk q.block).getD e.blk
  fd.accPa (descCore x.dDesc) (descOff x.dDesc + p.2 * x.rowBytes e.kind)

/-- Physical place of the A row that feeds a row of D: in the operand, or in the queue slot taken. -/
def ResEntry.aRow (e : ResEntry) (fd : Fold) (sl : Slice) (i : Nat) : Nat :=
  let p := e.rowOf i
  let x := ((e.posts[p.1]?).map fun q => arrBlk q.block).getD e.blk
  if e.kind == .mmaR then
    fd.scratchPa (descCore sl.desc.toNat) ({ Queue.empty with desc := sl.desc }.slotOff (sl.seqs.getD (i - sl.first) 0))
  else fd.scratchPa (descCore x.aDesc) (descOff x.aDesc + p.2 * (x.k * fmtBits x.afmt / 8))

/-- The new row `i` of D: its codes, and whether an integer wrapped. -/
def State.sliceRow (s : State) (e : ResEntry) (fd : Fold) (sl : Slice) (conf : Bool) (b : List (List Nat)) (i : Nat) : List Nat × Bool :=
  let x := e.blk
  let ty := accType e.kind x.afmt x.bfmt
  let old : Nat → Option Nat := if x.acc then
      let d := match sl.keep[i - sl.first]? with
        | some r => r
        | none => s.codes fd (e.dRow fd i) (accSize ty) x.n
      fun j => some (d.getD j 0)
    else fun _ => none
  let elems : List (Nat × Bool) := match e.kind with
    | .mtrans =>
      (List.range x.n).map fun j =>
        copyElem ty x.afmt (some (numOf (s.engineRead fd
          (fd.scratchPa (descCore x.aDesc) (descOff x.aDesc + (j * x.m + i) * (fmtBits x.afmt / 8))) (fmtBits x.afmt / 8)))) (old j)
    | .mperm =>
      let p := numOf (s.engineRead fd (fd.scratchPa (descCore x.aDesc) (descOff x.aDesc + 2 * i)) 2)
      (List.range x.n).map fun j => copyElem ty x.bfmt (if p < x.k then (b.getD p [])[j]? else none) (old j)
    | .mrsum =>
      let a := s.codes fd (e.aRow fd sl i) (fmtBits x.afmt / 8) x.k
      (List.range x.n).map fun j => sumElem ty x.afmt conf a (old j)
    | _ =>
      let b8 := fmtBits x.afmt / 8
      let a := if e.kind == .mmaR then s.slotCodes (e.aRow fd sl i) b8 x.k else s.codes fd (e.aRow fd sl i) b8 x.k
      let done := 32 * sl.from_
      let start (j : Nat) : Option Nat := if done == 0 then old j else some ((sl.run.getD (i - sl.first) []).getD j 0)
      (List.range x.n).map fun j =>
        prodElem ty x.afmt x.bfmt conf (a.drop done) ((b.map fun (r : List Nat) => r.getD j 0).drop done) (start j)
  (elems.map Prod.fst, elems.any Prod.snd)

/-- The rows of B: decoded, or from scratch. -/
def State.bRows (s : State) (e : ResEntry) (fd : Fold) : List (List Nat) :=
  let x := e.blk
  match e.codes with
  | some l => cutRows x.n x.k l
  | none =>
    if e.kind.product || e.kind == .mperm then
      s.codeRows fd (fd.scratchPa (descCore x.b) (descOff x.b)) (fmtBits x.bfmt / 8) x.n x.k
    else []

/-- Ranges of store that a slice reads: its A rows, B in scratch, and D under accumulate. -/
def ResEntry.sliceReads (e : ResEntry) (fd : Fold) (sl : Slice) : List (Nat × Nat) :=
  let x := e.blk
  let rows := (List.range sl.rows).map (sl.first + ·)
  (match e.kind with
   | .mtrans => [(fd.scratchPa (descCore x.aDesc) (descOff x.aDesc), x.n * x.m * fmtBits x.afmt / 8)]
   | .mperm => [(fd.scratchPa (descCore x.aDesc) (descOff x.aDesc), 2 * x.m)]
   | _ => rows.map fun i => (e.aRow fd sl i, x.k * fmtBits x.afmt / 8)) ++
  (if e.codes.isNone && (e.kind.product || e.kind == .mperm) then
    [(fd.scratchPa (descCore x.b) (descOff x.b), x.k * x.n * fmtBits x.bfmt / 8)] else []) ++
  (if x.acc && sl.keep.isEmpty then rows.map fun i => (e.dRow fd i, x.rowBytes e.kind) else [])

/-- The incoming rows that the array keeps of a slice whose command accumulates (R260, R310); none where one is poisoned, which then stops
the slice (R460). -/
def State.keptRows (s : State) (e : ResEntry) (fd : Fold) (sl : Slice) : List (List Nat) :=
  let x := e.blk
  if !x.acc || !sl.keep.isEmpty then sl.keep
  else if (List.range sl.rows).any fun r => !(s.poisonIn (e.dRow fd (sl.first + r)) (x.rowBytes e.kind)).isEmpty then []
  else (List.range sl.rows).map fun r => s.codes fd (e.dRow fd (sl.first + r)) (accSize (accType e.kind x.afmt x.bfmt)) x.n

/-- The accumulator rows a range covers get a type tag (R276). -/
def State.setTag (s : State) (pa n : Nat) (ty : AccTag) : State :=
  let s := s.untag pa n
  { s with tags := s.tags ++ (List.range ((pa + n - 1) / 256 + 1 - pa / 256)).map fun i => (pa / 256 + i, ty) }

/-- The rows of a slice are committed. -/
def State.commitRows (s : State) (ty : AccTag) : List (Nat × List Nat) → State
  | [] => s
  | r :: rs =>
    let bs := (r.2.map (bytesOf (accSize ty))).flatten
    (((s.engineWrite r.1 bs).clearPoison [(r.1, bs.length)]).setTag r.1 bs.length ty).commitRows ty rs

/-! ## Grants (R253, R256, R308) -/

/-- Is one entry chosen before another: promoted and older, or of higher priority, or as high and older? -/
def State.before (s : State) (a b : ResEntry) : Bool :=
  let prio (e : ResEntry) : Nat := ((s.fold? e.fold).map (·.prio)).getD 0
  let old (e : ResEntry) : Nat := e.since.getD s.moves
  let pa := 1024 ≤ a.passed
  let pb := 1024 ≤ b.passed
  if pa && pb then old a ≤ old b
  else if pa then true
  else if pb then false
  else prio b < prio a || (prio a == prio b && old a ≤ old b)

/-- The entry the arbiter chooses among those eligible. DESIGN CHOICE (log entry 126): of two that became eligible at one moment the
one of the lower table index is the older. -/
def State.choose (s : State) (pad : Nat) : Option Nat :=
  let t := (s.pad pad).table
  let js := (List.range t.length).filter fun i => ((t[i]?).map s.eligible).getD false
  js.find? fun i => js.all fun k => k == i || match t[i]?, t[k]? with
    | some a, some b => s.before a b && (!s.before b a || i ≤ k)
    | _, _ => false

/-- The slices a grant gives: those that a restart record kept (R310, R424), else one, or every available one at a stream-fed
command's first grant (R308). DESIGN CHOICE (log entry 107): of a closed queue fewer than 32 arrived rows are a partial slice even
while reserved slots below its close point are unpublished (R256). -/
def State.sliceList (s : State) (fd : Fold) (e : ResEntry) : List Slice :=
  let conf := (s.pad fd.paddock).arrctl.getLsbD 0
  let all := e.stream && e.codes.isNone
  if !e.kept.isEmpty then (if e.stream then e.kept else (e.kept.take 1).map fun (sl : Slice) => { sl with conf := conf })
  else if e.kind == .mmaR then
    let q := (s.pad fd.paddock).queues.getD e.blk.queue Queue.empty
    let have_ := s.raggedRows fd e
    let n := if all then (if have_ < 32 then 1 else have_ / 32) else 1
    (List.range n).map fun i =>
      let rows := min 32 (have_ - 32 * i)
      ⟨e.next + i, e.rowsTaken + 32 * i, rows, (List.range rows).map fun r => q.k + 32 * i + r, conf, q.desc, false, 0, [], []⟩
  else
    ((List.range e.total).filter e.left).take (if all then e.total else 1) |>.map fun k => ⟨k, 32 * k, 32, [], conf, 0#64, false, 0, [], []⟩

/-- D rows of an accumulating slice that carry another type (R276). -/
def State.tagBad (s : State) (e : ResEntry) (fd : Fold) (sl : Slice) : Bool :=
  let x := e.blk
  let ty := accType e.kind x.afmt x.bfmt
  x.acc && (List.range sl.rows).any fun r =>
    let pa := e.dRow fd (sl.first + r)
    s.tags.any fun t => pa / 256 ≤ t.1 && t.1 ≤ (pa + x.rowBytes e.kind - 1) / 256 && t.2 != ty

/-- A grant to entry `i`. DESIGN CHOICE (log entry 108): a tile that an earlier command keeps in the B buffer does not hold it up; each
command's tile is kept whole (R308). DESIGN CHOICE (log entry 126): a command that ends here, its D rows of another type (R276), counts as no
grant for the others. -/
def State.grant (s : State) (pad i : Nat) (e : ResEntry) (fd : Fold) : State :=
  let sls := s.sliceList fd e
  if sls.any (s.tagBad e fd) then s.entryFault pad i 0x20 7 0#64
  else
    let rows := (sls.map (·.rows)).sum
    let elig := s.eligible
    s.updPad pad fun p =>
      { p with
        table := (List.range p.table.length).filterMap fun k => (p.table[k]?).map fun x =>
          if k == i then
            if !e.kept.isEmpty then { x with passed := 0, granted := sls, kept := x.kept.drop sls.length }
            else { x with passed := 0, granted := sls
                          next := (sls.getLast?.map (·.num + 1)).getD x.next
                          rowsTaken := if e.kind == .mmaR then x.rowsTaken + rows else x.rowsTaken }
          else if elig x then { x with passed := x.passed + sls.length } else x
        queues := if e.kind == .mmaR && e.kept.isEmpty then upd p.queues e.blk.queue fun q => { q with k := q.k + rows } else p.queues }

/-- The slice in the array of a paddock: the entry and the slice. -/
def Paddock.running (p : Paddock) : Option (Nat × ResEntry × Slice) :=
  (List.range p.table.length).findSome? fun i => (p.table[i]?).bind fun e =>
    match e.live, e.granted with
    | true, sl :: _ => some (i, e, sl)
    | _, _ => none

/-- The slice that has the array brings its D rows in, and the array keeps them (R260). -/
def State.bringRows (s : State) (pad : Nat) : State :=
  match (s.pad pad).running with
  | none => s
  | some (i, e, sl) =>
    match s.fold? e.fold with
    | none => s
    | some fd => s.updPad pad fun p => { p with table := upd p.table i fun _ =>
        { e with granted := { sl with keep := s.keptRows e fd sl } :: e.granted.drop 1 } }

/-! ## Completion -/

/-- Slots a slice took are released to the head of the queue that is still bound to the command (R256), unless it has been
opened anew meanwhile, with every count at zero. -/
def releaseSlots (i gen n : Nat) (q : Queue) : Queue :=
  if q.bound == some i && q.gen == gen then { q with h := q.h + n } else q

/-- After the first granted slice of entry `i` has been committed: posters, queue, and the command's end. -/
def State.sliceDone (s : State) (pad i : Nat) (e : ResEntry) (sl : Slice) : State :=
  let owner := (e.rowOf sl.first).1
  let posts := if e.kind == .mmaR then e.posts else upd e.posts owner fun p => { p with done := p.done + 1 }
  let fell := match posts[owner]? with
    | some p => e.kind != .mmaR && p.done == posterSlices e.kind p.block
    | none => false
  let gone (pa : Nat) : Bool := fell && match posts[owner]?, s.fold? e.fold with
    | some p, some fd => inRegions [postRegion fd e.kind p] pa
    | _, _ => false
  let e' := { e with posts := posts, granted := e.granted.drop 1, before := e.before.filter fun x => !gone x.1 }
  let s := s.updPad pad fun p =>
    { p with
      table := upd p.table i fun _ => e'
      queues := if e.kind == .mmaR then p.queues.map (releaseSlots i e.gen sl.rows) else p.queues }
  let s := s.updFold e.fold fun f => { f with progress := true }
  if e.kind == .mmaR then
    let q := (s.pad pad).queues.getD e.blk.queue Queue.empty
    let done := e'.granted.isEmpty && e'.kept.isEmpty &&
      (e.blk.m ≤ e'.rowsTaken || q.bound != some i || q.gen != e.gen || (q.closed && q.k == q.c))
    if done then s.freeEntry pad i e.posts else s
  else
    let s := match posts[owner]? with
      | some p => if fell then s.ccFall p.team p.cc else s
      | none => s
    if e'.granted.isEmpty && e'.kept.isEmpty && !e'.anyLeft then s.freeEntry pad i [] else s

/-- `SLICE_GRANT` (R253, R308). At a slice boundary the array takes the next slice. -/
def execSliceGrant (paddock : Nat) (s : State) : Out1 :=
  if (s.pad paddock).running.isSome then .next s
  else
    let s := s.dateEntries paddock
    match s.choose paddock with
    | none => .next s
    | some i =>
      match (s.pad paddock).table[i]? with
      | none => .next s
      | some e =>
        match s.fold? e.fold with
        | none => .next s
        | some fd => moved ((s.grant paddock i e fd).bringRows paddock)

/-- Does a stream-fed entry wait for the port: its operands are ready and its header is not read (R307)? -/
def State.unread (s : State) (e : ResEntry) : Bool :=
  e.live && e.stream && e.header.isNone && e.posts.length == e.count &&
    ((s.fold? e.fold).map fun f => f.status == .resident && !f.victim).getD false

/-- The entry that the port reads next: entries are read in the order in which they became ready (R307). -/
def State.readNext (s : State) (pad : Nat) : Option Nat :=
  let t := (s.pad pad).table
  let js := (List.range t.length).filter fun i => ((t[i]?).map s.unread).getD false
  let at_ (i : Nat) : Nat := ((t[i]?).bind (·.readyAt)).getD 0
  js.find? fun i => js.all fun k => at_ i < at_ k || (at_ i == at_ k && i ≤ k)

/-- `STREAM_HEADER_READ` (R304, R307). The port reads a stream-fed entry's index entry, header and restart table. -/
def execStreamHeaderRead (paddock entry : Nat) (s : State) : Out1 :=
  match (s.pad paddock).table[entry]? with
  | none => .next s
  | some e =>
    match s.fold? e.fold with
    | none => .next s
    | some fd =>
      let x := e.blk
      let tile := bitsOf x.b 47 16
      match s.recOfFold fd (bitsOf x.b 11 0) with
      | none => .next s
      | some r =>
        if s.readNext paddock != some entry then .next s
        else
          let s := s.tileSettle (pastureOf paddock) fd.ctx r tile
          match s.tileOf (pastureOf paddock) fd.ctx r tile x.bfmt (x.k, x.n) with
          | .error (k, sub, d) => moved (s.entryFault paddock entry k sub (dwordOfNat d))
          | .ok t =>
              moved ((s.updPad paddock fun p => { p with table := upd p.table entry fun e => { e with header := some t } }).dateEntries
                paddock)

/-- `STREAM_DECODE` (R303, R306, R311). The port decodes the tile of the command that holds the array, by the header it has read, with
the table as it stands; for a restart record with the table of that record, from its segment r. -/
def execStreamDecode (paddock : Nat) (s : State) : Out1 :=
  match (s.pad paddock).running with
  | none => .next s
  | some (i, e, _) =>
    match s.fold? e.fold with
    | none => .next s
    | some fd =>
      let x := e.blk
      let tile := bitsOf x.b 47 16
      match s.recOfFold fd (bitsOf x.b 11 0), e.header with
      | some r, some t =>
        if !e.stream || e.codes.isSome || fd.status != .resident || fd.victim then .next s
        else
          let seg := e.seg
          let s := s.settleRec (pastureOf paddock) fd.ctx r (t.at_ + t.starts.getD seg 0) (t.len - t.starts.getD seg 0)
          let freqs := if e.freqs.isEmpty then (s.ctx fd.ctx).table t.table else e.freqs
          match s.decodeTile (pastureOf paddock) fd.ctx r tile t freqs seg with
          | .error (k, sub, d) => moved (s.entryFault paddock i k sub (dwordOfNat d))
          | .ok ys =>
            moved (s.updPad paddock fun p => { p with table := upd p.table i fun e =>
              { e with codes := some (e.prior.take (seg * t.interval) ++ ys), freqs := freqs } })
      | _, _ => .next s

/-- `SLICE_COMPLETE` (R250-R260). The slice commits its D rows; one being replayed runs in conformance mode. -/
def execSliceComplete (paddock : Nat) (s : State) : Out1 :=
  match (s.pad paddock).running with
  | none => .next s
  | some (i, e, sl) =>
    match s.fold? e.fold with
    | none => .next s
    | some fd =>
      if (e.stream && e.codes.isNone) || fd.status != .resident || fd.victim then .next s
      else
        let bad := (e.sliceReads fd sl).map fun r => s.poisonIn r.1 r.2
        match poisonTrap (bad.flatten.map fun p => (0, p)) with
        | some t => moved (s.entryFault paddock i t.cause 0 0#64)
        | none =>
          let x := e.blk
          let conf := sl.conf || sl.replay
          let b := s.bRows e fd
          let rows := (List.range sl.rows).map fun r => (e.dRow fd (sl.first + r), s.sliceRow e fd sl conf b (sl.first + r))
          let wrapped := ((List.range sl.rows).zip rows).filter (·.2.2.2)
          let cores := wrapped.map fun r => descCore (((e.posts[(e.rowOf (sl.first + r.1)).1]?).map fun q => arrBlk q.block).getD x).dDesc
          -- until the counter falls a reader of D may see what the rows were (R262)
          let old := (rows.map fun r => (List.range (x.rowBytes e.kind)).map fun k => (r.1 + k, s.busByte (r.1 + k))).flatten
          let s := s.commitRows (accType e.kind x.afmt x.bfmt) (rows.map fun r => (r.1, r.2.1))
          let s := s.updFold e.fold fun f => { f with iovf := (f.iovf ++ cores).eraseDups }
          moved ((s.sliceDone paddock i { e with before := e.before ++ old } sl).bringRows paddock)

end Sys2Proof.Machine
end

