-- ==== Sys2Proof/Machine/Control.lean ====
section
/-!
DEFINITION. Sys2Proof/Machine/Control.lean: sequencing: target slots, calls, arms and the end of a team (R46-R54, R203, R204).
-/
namespace Sys2Proof.Machine

/-- Sets a target slot; SEQ then acts, on the slot as it is now (R46, R48). -/
def Team.setSlot (tm : Team) (n : Nat) (a : CodeAddr) (cond : Nat) : Team :=
  { tm with slots := upd tm.slots n fun _ => some ⟨a, cond⟩ }

/-- An address offset from the team's pc, modulo 2^48 (R97). -/
def Team.relative (tm : Team) (off : BitVec 30) : CodeAddr :=
  tm.pc + (off ++ 0#2 : BitVec 32).signExtend 48

/-- The code address in a register: bits 47:0, bits 1:0 ignored (R203). -/
def codeAddr (x : DWord) : CodeAddr := (x.extractLsb' 2 46) ++ 0#2

/-- gcall: pushes the next address and jumps (R49). A full stack and a target outside the extent trap, nothing pushed. DESIGN
CHOICE (log entry 76): from the last word of the space it pushes address 0; only a fetch there counts as past the space (R57). -/
def Team.gcall (tm : Team) (e : Env) (len : Nat) (target : CodeAddr) : Team :=
  let causes := causeIf (64 ≤ tm.calls.length) 0x0A ++ causeIf (!tm.inExtent e target.toNat) 0x0C
  match Trap.ofCauses causes with
  | some t => tm.trap e t len (some 0#3)
  | none =>
    ({ tm with calls := BitVec.ofNat 48 (tm.pc.toNat + len) :: tm.calls }.goto target.toNat).retired e

/-- gend acts as -> end; its SEQ field is 000, which a resume applies (R54, R415). -/
def Team.gend (tm : Team) (e : Env) : Team :=
  match tm.seq e 7#3 tm.flags 0 with
  | .error t => tm.trap e t 4 (some 0#3)
  | .ok tm' => tm'.retired e

/-- Lanes given to the guards in operand order: each lane to the first whose map holds it (R50). -/
def firstWins : List Nat → List VReg → List VReg
  | _, [] => []
  | taken, g :: gs =>
    let js := (lanesOf g.lanes).filter fun j => !taken.contains j
    let ls := (List.range g.lanes.length).map fun j => if js.contains j then g.lanes.getD j none else none
    ⟨ls, true, g.poison.filter fun p => js.contains p.1⟩ :: firstWins (taken ++ js) gs

/-- bcase (R50, R52, R204): the registers, then the slots of the non-empty arms, then the depth of the stack. DESIGN CHOICE (log
entry 76): the join address after the last word of the space is 0. -/
def Team.bcase (tm : Team) (e : Env) (guards : List (BitVec 7)) : Team :=
  let refs := guards.map fun g => (tm.vrefs g.toNat 1 1).written
  if !refs.all (fun r => r.regs.all fun v => (tm.getV v).full) then tm.block e (tm.await (refs.map (·.regs)).flatten [])
  else match Trap.ofCauses (refs.map (·.causes)).flatten with
    | some t => tm.trap e t 8 (some 0#3)
    | none =>
      let regs := (refs.map (·.regs)).flatten
      let cut := firstWins [] (regs.map tm.getV)
      let arms := (List.range cut.length).filter fun i => !(lanesOf (cut.getD i (VReg.fresh tm.w)).lanes).isEmpty
      let next := BitVec.ofNat 48 (tm.pc.toNat + 8)
      match allSlots (arms.map fun i => tm.slots.getD i none) with
      | none => tm.trap e (.sub' 0x0C 2) 8 (some 0#3)
      | some ts =>
        match ts with
        | [] => ((tm.results e.overlap (ws regs cut) [] false).goto (tm.pc.toNat + 8)).retired e
        | t :: rest =>
          if 256 < tm.arms.length + 1 + rest.length then tm.trap e (.sub' 0x09 0) 8 (some 0#3)
          else
            let tm' := tm.results e.overlap (ws regs cut) [] false
            let stack := rest.map (fun x => (⟨false, x.addr, tm.fmt⟩ : ArmEntry)) ++ ⟨true, next, tm.fmt⟩ :: tm.arms
            match { tm' with arms := stack }.jump e t.addr.toNat with
            | .error x => tm.trap e x 8 (some 0#3)
            | .ok tm'' => tm''.retired e
where
  ws (regs : List VRef) (cut : List VReg) : List RegWrite := (regs.zip cut).map fun p => .vec p.1 p.2.lanes p.2.poison
  allSlots : List (Option TSlot) → Option (List TSlot)
    | [] => some []
    | none :: _ => none
    | some t :: rest => (allSlots rest).map (t :: ·)

/-- `GTGT_GX` (R48). -/
def execGtgtGx (sq : BitVec 3) (s : BitVec 2) (cond : BitVec 4) (off : BitVec 30) (st : State) : Out1 :=
  teamStep st fun e tm => tm.finish (tm.setSlot s.toNat (tm.relative off) cond.toNat) e 8 sq 0#6

/-- `GTGT_GA` (R48). -/
def execGtgtGa (sq : BitVec 3) (s : BitVec 2) (c : BitVec 4) (a : BitVec 7) (st : State) : Out1 :=
  teamStep st fun e tm =>
    match tm.groupCheck [⟨a.toNat, 1⟩] [] [] true with
    | .wait w => tm.block e w
    | .trap t => tm.trap e t 4 (some sq)
    | .go o => tm.finish (tm.setSlot s.toNat (codeAddr (o.us.headD 0#64)) c.toNat) e 4 sq 0#6

/-- `GCALL_GX` (R49). -/
def execGcallGx (off : BitVec 30) (s : State) : Out1 :=
  teamStep s fun e tm => tm.gcall e 8 (tm.relative off)

/-- `GCALL_GA` (R49). -/
def execGcallGa (a : BitVec 7) (s : State) : Out1 :=
  teamStep s fun e tm =>
    match tm.groupCheck [⟨a.toNat, 1⟩] [] [] true with
    | .wait w => tm.block e w
    | .trap t => tm.trap e t 4 (some 0#3)
    | .go o => tm.gcall e 4 (codeAddr (o.us.headD 0#64))

/-- `GEND` (R54). -/
def execGend (s : State) : Out1 :=
  teamStep s fun e tm => tm.gend e

/-- `GEND_DROP` (R54). -/
def execGendDrop (s : State) : Out1 :=
  teamStep s fun e tm => Team.gend { tm with arms := [] } e

/-- `BCASE` (R50). -/
def execBcase (n : BitVec 3) (g0 g1 g2 g3 : BitVec 7) (s : State) : Out1 :=
  teamStep s fun e tm => tm.bcase e ([g0, g1, g2, g3].take n.toNat)

/-- `GNOP` (R203). -/
def execGnop (sq : BitVec 3) (s : State) : Out1 :=
  teamStep s fun e tm => tm.finish tm e 4 sq 0#6

end Sys2Proof.Machine
end

