-- ==== Sys2Proof/Machine/LaneMem.lean ====
section
/-!
DEFINITION. Sys2Proof/Machine/LaneMem.lean: lane loads, stores, prefetch and atomics on records (R158-R183).
-/
namespace Sys2Proof.Machine

/-- A memory instruction of the L set: its length, index, handle, data field with its wait bit, what it does to `n`
elements a lane, the keep form, and its scope (0 team; 5 none). -/
structure MemOp where
  len : Nat
  i : BitVec 7
  wi : Bool
  g : BitVec 7
  d : BitVec 7
  wd : Bool
  kind : AccKind
  n : Nat
  keep : Bool
  miss : Bool
  scope : Nat
  op : AtOp
  uns : Bool
  ret : Bool
  deriving DecidableEq, Repr

/-- A plain load. -/
def MemOp.load (d i g : BitVec 7) (wa k : Bool) (n : Nat) : MemOp :=
  ⟨4, i, wa, g, d, false, .load, n, k, false, 5, .add, false, false⟩
/-- A plain store. -/
def MemOp.store (d i g : BitVec 7) (wa wb : Bool) (n : Nat) : MemOp :=
  ⟨4, i, wa, g, d, wb, .store, n, false, false, 5, .add, false, false⟩
/-- An atomic. -/
def MemOp.atom (op : AtOp) (uns : Bool) (d i g : BitVec 7) (wa wb k ret : Bool) (sc : BitVec 3) : MemOp :=
  ⟨8, i, wa, g, d, wb, .atom, 1, k, false, sc.toNat, op, uns, ret⟩

/-- Is it a strong access: acquire, release or atomic at fold scope or wider (R358)? -/
def MemOp.strong (m : MemOp) : Bool := 1 ≤ m.scope && m.scope ≤ 4

/-- Registers and alignment of the data field for a record's element size (R168, R172, R176, R178). -/
def MemOp.shape (m : MemOp) (size : Nat) : Nat × Nat :=
  let b := m.n * size
  let k := if 16 < b then 1 else (b + 3) / 4
  match m.kind with
  | .pref => (0, 1)
  | .atom => let q := (if m.op == .cas then 2 else 1) * (if size == 8 then 2 else 1); (q, q)
  | _ => if m.miss then (k + 1, 2 * k) else (k, k)

/-- Checks of step 1 of R166 on a record: the access field, the width, the size of an atomic: cause, subcode. -/
def MemOp.recFaults (m : MemOp) (r : Rec) : List (Nat × Nat) :=
  let access := match m.kind with
    | .load => r.mayRead
    | .store => r.mayWrite
    | .atom => r.access == 0
    | .pref => true
  (if access then [] else [(0x14, 0)]) ++
    (if m.kind != .atom && 16 < m.n * r.size then [(0x15, 1)] else []) ++
    (if m.kind == .atom && r.size != 4 && r.size != 8 then [(0x15, 2)] else [])

/-- The data registers a field names: a load, and an atomic that returns the old value (R179), write them. -/
def MemOp.given (m : MemOp) (x : Refs VRef) : Refs VRef :=
  if m.kind == .store || (m.kind == .atom && !m.ret) then x else x.written

/-- Lanes of one register. -/
def colLanes (w : Nat) (vals : List (Nat × List Byte)) (q : Nat) : List (Option Word) :=
  (List.range w).map fun j => (vals.lookup j).map fun bs => wordOfNat (numOf ((bs.drop (4 * q)).take 4))

/-- Register writes of one group from columns, under the replace or keep form, which starts from the lanes that all registers
of the group hold (log entry 84) and with no new lane leaves them unchanged (R24). -/
def colWrites (tm : Team) (keep : Bool) (refs : List VRef) (cols : List (List (Option Word))) : List RegWrite :=
  let common := commonLanes (refs.map tm.getV)
  (refs.zip cols).map fun p =>
    let old := tm.getV p.1
    if keep && cols.all (fun ls => ls.all Option.isNone) then .vec p.1 old.lanes old.poison
    else if keep then .vec p.1 (keepLanes (maskLanes common old.lanes) p.2) (old.poison.filter fun x => (p.2.getD x.1 none).isNone && common x.1)
    else .vec p.1 p.2 []

/-- The bytes of a lane's value from the words of consecutive registers. -/
def laneBytes (regs : List VReg) (j n : Nat) : List Byte :=
  ((regs.map fun r => bytesOfWord ((r.lanes.getD j none).getD 0#32)).flatten).take n

/-- The operands of a memory instruction whose checks of issue have passed: the record, the index of each lane of I that can be
read, the data registers, and the lanes that meet poison (R460). -/
structure MemArgs where
  r : Rec
  idx : List (Option Nat)
  regs : List VRef
  ill : List (Nat × Poison)
  deriving DecidableEq, Repr

/-- Issue of a memory instruction (R113, step 1 of R166): the fields, the maps under STRICT, the record, then the registers its
size implies; the lowest cause is delivered and the rest are secondary. The state carries the record read for the fold.
DESIGN CHOICE (log entry 74): STRICT compares the index with each register of stored data as a source of its own. -/
def State.memIssue (s : State) (fd : Fold) (tm : Team) (m : MemOp) : Check MemArgs × State :=
  let full (r : VRef) : Bool := (tm.getV r).full
  let vi := tm.vrefs m.i.toNat 1 1
  let gr := tm.uref m.g.toNat false
  let store := m.kind == .store || m.kind == .atom
  let vd := if m.kind == .pref then ⟨[], []⟩ else m.given (tm.vrefs m.d.toNat 1 1)
  if (!m.wi && !vi.regs.all full) || !gr.regs.all tm.opndFull || (!m.wd && !vd.regs.all full) then
    (.wait (tm.await ((if m.wi then [] else vi.regs) ++ if m.wd then [] else vd.regs) gr.regs), s)
  else
    let differ (rs : List VRef) : Bool :=
      (fmtEnv tm.fmt).strict && mapsDiffer ((vi.regs ++ if store then rs else []).map fun x => (tm.getV x).lanes.map (Option.map BitVec.toNat))
    let early := vi.causes ++ gr.causes ++ vd.causes ++
      causeIf ((m.wi && !vi.regs.all full) || (m.wd && !vd.regs.all full)) 0x06 ++ causeIf (differ vd.regs) 0x07
    -- a handle that cannot be read, or is poisoned (R460), names no record to check
    let handle := (gr.regs.filterMap tm.opndPoison).map poisonCode
    match (if gr.causes.isEmpty && handle.isEmpty then none else Trap.ofCauses (early ++ handle)) with
    | some t =>
      let i := groupLanes tm.w (vi.regs.map tm.getV)
      let i := if store then List.zipWith (fun (a b : Option Nat) => if b.isSome then a else none) i (groupAnd tm vd.regs) else i
      (.trap (if handle.contains t.cause then { t with map := lanesOf i } else t), s)
    | none =>
      let h := ((gr.regs.map tm.opnd).headD 0#64).toNat
      match s.useRec (s.tlbOf tm) fd h with
      | .bad t keep => (.trap (if early.isEmpty then t else t.join early), s.keepRec (s.tlbOf tm) tm.fold h keep)
      | .ok r keep =>
        let s := s.keepRec (s.tlbOf tm) tm.fold h keep
        let sh := m.shape r.size
        let ds := if m.kind == .pref then ⟨[], []⟩ else m.given (tm.vrefs m.d.toNat sh.1 sh.2)
        if !m.wd && !ds.regs.all full then (.wait (tm.await ds.regs []), s)
        else
          let fs := m.recFaults r
          let causes := vi.causes ++ ds.causes ++ fs.map (·.1) ++
            causeIf ((m.wi && !vi.regs.all full) || (m.wd && !ds.regs.all full)) 0x06 ++ causeIf (differ ds.regs) 0x07
          match Trap.ofCauses causes with
          | some t =>
            let sub := match fs.find? (·.1 == t.cause) with | some f => f.2 | none => 0
            (.trap { t with sub := sub, detail := if t.cause == 0x14 then dwordOfNat h else 0#64 }, s)
          | none =>
            -- a lane whose index is poisoned has no address; the other lanes are checked with it (R408, R460)
            let met := poisonMet tm [vi.regs, if store then ds.regs else []] [.value, .value]
              [groupLanes tm.w (vi.regs.map tm.getV), if store then groupAnd tm ds.regs else List.replicate tm.w (some 0)] []
            let iv := tm.getV (vi.regs.headD (.team 0))
            let idx := iv.lanes.mapIdx fun j x => if iv.poison.any (·.1 == j) then none else x.map BitVec.toNat
            let idx := if store then
                List.zipWith (fun (a b : Option Nat) => if b.isSome then a else none) idx (groupAnd tm ds.regs)
              else idx
            (.go ⟨r, idx, ds.regs, met⟩, s)
where
  groupAnd (tm : Team) (rs : List VRef) : List (Option Nat) :=
    (List.range tm.w).map fun j => if rs.all fun r => ((tm.getV r).lanes.getD j none).isSome then some 0 else none

/-- The team traps on a memory instruction. -/
def memTrap (s : State) (e : Env) (tm : Team) (m : MemOp) (t : Trap) : Out1 := stepped s (tm.trap e t m.len none)

/-- The team goes on after a memory instruction. -/
def memDone (s : State) (e : Env) (tm : Team) (m : MemOp) (ws : List RegWrite) (lines : List LoadLine) : Out1 :=
  stepped s (((tm.results e.overlap ws lines m.strong).goto (tm.pc.toNat + m.len)).retired e)

/-- The lines of lanes whose data is to arrive, one a 64-byte line, in the order in which lanes meet them, with the bytes read
for their lanes and the faults found. -/
def loadLines (va : Nat → Nat) (b : Nat) (comp : Bool) (bytes : List (Nat × List Byte)) (faults : List (Nat × Nat × Nat × Nat))
    (xs : List (Nat × Nat × List Piece)) : List LoadLine :=
  xs.foldl (fun ls x =>
    let line := va x.2.1 / 64 * 64
    let me := (x.1, pieceAddr x.2.2, b)
    let bs := bytes.filter (·.1 == x.1)
    let fs := faults.filter (·.1 == x.1)
    if ls.any (·.va == line) then ls.map fun l => if l.va == line then
      { l with lanes := l.lanes ++ [me], bytes := l.bytes ++ bs, faults := l.faults ++ fs } else l
    else ls ++ [⟨line, [me], bs, fs, comp⟩]) []

/-- The lanes whose 64-byte line no fault was found on: those that a load or an atomic with faults of step 4 is performed for
(R166, R358). -/
def goodLanes (r : Rec) (fs : List (Nat × Nat × Nat × Nat)) (ok : List (Nat × Nat × List Piece)) : List (Nat × Nat × List Piece) :=
  ok.filter fun x => !(fs.any fun f => f.2.2.2 / 64 == r.addr x.2.1 / 64)

/-- Loads (R170, R172, R173, R176): the lanes that stay, their data now or as lines in flight. The load is performed here, in
program order with every other access of the team (R171, R202); an acquire first drops what is clean in the L1 (R323).
Lines in flight hold the bytes read and the faults found until they arrive (log entry 3). -/
def State.memLoad (s : State) (e : Env) (fd : Fold) (tm : Team) (m : MemOp) (a : MemArgs)
    (fates : List (Nat × Nat × LaneFate)) : Out1 :=
  let b := m.n * a.r.size
  let ok := goingOn fates
  let missing := (fates.filter fun x => x.2.2 == .missing).map fun x => (x.1, x.2.1)
  let k := a.regs.length - (if m.miss then 1 else 0)
  let zeros := if m.miss then missing.map fun x => (x.1, List.replicate b (0#8 : Byte)) else []
  let missCol := if m.miss then [(List.range tm.w).map fun j => (missing.lookup j).map wordOfNat] else []
  let writes (vals : List (Nat × List Byte)) : List RegWrite :=
    colWrites tm m.keep (a.regs.take k) ((List.range k).map (colLanes tm.w (zeros ++ vals))) ++
      colWrites tm m.keep (a.regs.drop k) missCol
  let blank := writes (ok.map fun x => (x.1, List.replicate b (0#8 : Byte)))
  if e.slots < slotsDrawn tm blank then stepped s (tm.block e (.slots (slotsDrawn tm blank)))
  else
    let core := s.coreOf tm
    let s := (if m.strong then s.acquireBy tm else s).opens core a.r ok
    let tm := s.teamOr tm
    let fs := s.arrivalFaults core fd.ctx b m.strong a.r ok
    let good := goodLanes a.r fs ok
    let d := s.readLanes core fd.ctx a.r good
    let s' := d.2.note fd.ctx m.strong b good
    if e.overlap && !a.r.coded && !ok.isEmpty then memDone s' e tm m blank (loadLines a.r.addr b (a.r.enc == 4) d.1 fs ok)
    else
      match trapOfLanes fs with
      | some t => memTrap s' e tm m t
      | none => memDone s' e tm m (writes d.1) []

/-- Stores (R170-R173, R182): all or nothing but for the mixed-size trap (R166, R358) and bytes that a landing window refuses
(R317). -/
def State.memStoreLanes (s : State) (e : Env) (fd : Fold) (tm : Team) (m : MemOp) (a : MemArgs)
    (fates : List (Nat × Nat × LaneFate)) : Out1 :=
  let b := m.n * a.r.size
  let ok := goingOn fates
  let regs := a.regs.map tm.getV
  let core := s.coreOf tm
  let s := if a.r.coded then s.coreLeaves core (ok.map fun x => (x.2.2.map (·.segs)).flatten).flatten else s
  let mixes := (ok.filter fun x => m.strong && s.mix fd.ctx && s.mixed fd.ctx (pieceAddr x.2.2) b).map fun x =>
    (x.1, 0x16, 0, a.r.addr x.2.1)
  if a.r.coded then
    let xs := (ok.map fun x => (List.range x.2.2.length).map fun q =>
      (x.2.2.getD q ⟨true, 0, [], false⟩, numOf (((laneBytes regs x.1 b).drop (8 * q)).take 8))).flatten
    let bs := groupBlocks xs
    let bad := (bs.filter fun k => !k.whole && !(s.poisonRuns k.segs).isEmpty).map (·.segs)
    let fs := (ok.map fun x => if x.2.2.any fun p => bad.contains p.segs then
      (poisonCauses (s.poisonOf x.2.2)).map fun k => (x.1, k, 0, a.r.addr x.2.1) else []).flatten
    -- no block of a line that a mixed size stops is merged (R358); nothing is where poison would be read
    let stopped := linesOf ((ok.filter fun x => mixes.any (·.1 == x.1)).map fun x => (x.2.2.map (·.segs)).flatten).flatten
    let go := if fs.isEmpty then bs.filter fun k => !(linesOf k.segs).any stopped.contains else []
    let lands := ((s.refused ((List.range go.length).map fun q => (q, ((go[q]?).map (·.segs)).getD []))).map fun f =>
      (ok.filter fun x => x.2.2.any fun p => (go[f.1]?).any fun k => k.segs == p.segs).map fun x => (x.1, f.2)).flatten
    let s := if m.strong then s.releaseBy tm else s
    let s := (s.coreBlocks core fd.ctx a.r go).note fd.ctx m.strong b
      (ok.filter fun x => x.2.2.all fun p => go.any (·.segs == p.segs))
    match trapOfLanes (mixes ++ fs ++ lands) with
    | some t => memTrap s e (s.teamOr tm) m t
    | none => memDone s e (s.teamOr tm) m [] []
  else
    let runs := (ok.map fun x => (x.2.2.map (·.segs)).flatten).flatten
    let part := (ok.map fun x => (poisonCauses (s.partPoison runs ((x.2.2.map (·.segs)).flatten))).map fun k =>
      (x.1, k, 0, a.r.addr x.2.1)).flatten
    let go := if part.isEmpty then goodLanes a.r mixes ok else []
    let lands := s.refused (go.map fun x => (x.1, (x.2.2.map (·.segs)).flatten))
    let s := if m.strong then s.releaseBy tm else s
    let through := s.through m.scope
    let s := s.writeLanes core (a.r.enc == 4) through (go.map fun x => ((x.2.2.map (·.segs)).flatten, laneBytes regs x.1 b))
    let s := if through then s.clearPoison (go.map fun x => (x.2.2.map (·.segs)).flatten).flatten else s
    let s := s.note fd.ctx m.strong b go
    match trapOfLanes (mixes ++ part ++ lands) with
    | some t => memTrap s e (s.teamOr tm) m t
    | none => memDone s e (s.teamOr tm) m [] []

/-- The atomics of lanes, in ascending lane order: the old values. -/
def State.atomLanes (s : State) (op : AtOp) (uns : Bool) (size : Nat) : List (Nat × Nat × Nat × Nat) → List (Nat × List Byte) × State
  | [] => ([], s)
  | x :: xs =>
    let r := s.atomAt op uns size x.2.1 x.2.2.1 x.2.2.2
    let t := r.2.atomLanes op uns size xs
    ((x.1, bytesOf size r.1) :: t.1, t.2)

/-- Atomics (R179): a lane of a line that arrives poisoned or in another size is not performed (R166, R358). -/
def State.memAtom (s : State) (e : Env) (fd : Fold) (tm : Team) (m : MemOp) (a : MemArgs)
    (fates : List (Nat × Nat × LaneFate)) : Out1 :=
  let size := a.r.size
  let ok := goingOn fates
  let regs := a.regs.map tm.getV
  let k := if m.op == .cas then a.regs.length / 2 else a.regs.length
  let dest := a.regs.take k
  let blank := if m.ret then
      colWrites tm m.keep dest ((List.range k).map (colLanes tm.w (ok.map fun x => (x.1, List.replicate size (0#8 : Byte)))))
    else []
  if e.slots < slotsDrawn tm blank then stepped s (tm.block e (.slots (slotsDrawn tm blank)))
  else
    let core := s.coreOf tm
    let s := s.atomBegin tm m.scope a.r.enc (ok.map fun x => (x.2.2.map (·.segs)).flatten).flatten
    let fs := s.arrivalFaults core fd.ctx size m.strong a.r ok
    let go := goodLanes a.r fs ok
    let v (j q : Nat) : Nat := numOf (((laneBytes regs j (2 * size)).drop (size * q)).take size)
    let lands := s.refused (go.map fun x => (x.1, (x.2.2.map (·.segs)).flatten))
    let d := s.atomLanes m.op m.uns size (go.map fun x => (x.1, pieceAddr x.2.2, v x.1 0, v x.1 1))
    let s := d.2.note fd.ctx m.strong size go
    match trapOfLanes (fs ++ lands) with
    | some t => memTrap s e (s.teamOr tm) m t
    | none =>
      memDone s e (s.teamOr tm) m (if m.ret then colWrites tm m.keep dest ((List.range k).map (colLanes tm.w d.1)) else []) []

/-- A memory instruction of the L set (R166): issue, then bounds, alignment and the coded checks, then lines, then data. -/
def memExec (m : MemOp) (s : State) : Out1 :=
  foldStep s fun e fd tm =>
    match s.memIssue fd tm m with
    | (.wait w, s) => stepped s (tm.block e w)
    | (.trap t, s) => memTrap s e tm m t
    | (.go a, s) =>
      let tlb := s.tlbOf tm
      let lanes := (List.range tm.w).filterMap fun j => (a.idx.getD j none).map fun i => (j, i)
      let lanes := if m.kind == .pref && !a.r.mayRead then [] else lanes
      let fates := lanes.map fun x => (x.1, x.2, s.laneFate tlb fd.ctx a.r m.kind m.n x.2)
      let s := s.tlbFills tlb fd.ctx (a.r.touched m.n (lanes.map (·.2)))
      match trapOfLanes (faultsOf fates ++ a.ill.map fun p => (p.1, poisonCode p.2, 0, 0)) with
      | some t => memTrap s e tm m t
      | none =>
        match m.kind with
        | .load => s.memLoad e fd tm m a fates
        | .store => s.memStoreLanes e fd tm m a fates
        | .atom => s.memAtom e fd tm m a fates
        | .pref =>
          -- the lines come into the core's L1, whole (R174); a poisoned coded block is not decoded
          let core := s.coreOf tm
          let s := s.opens core a.r (goingOn fates)
          let ok := (goingOn fates).filter fun x => x.2.2.all fun p => !p.coded || (s.poisonRuns p.segs).isEmpty
          let s := if a.r.coded then (s.readLanes core fd.ctx a.r ok).2
            else (s.readPlain core (a.r.enc == 4) (lineRuns (ok.map fun x => (x.2.2.map (·.segs)).flatten).flatten)).2
          memDone s e tm m [] []

/-- `VLD` (R170). -/
def execVld (d i g : BitVec 7) (wa k : Bool) (s : State) : Out1 :=
  memExec (.load d i g wa k 1) s

/-- `VLD_R` (R176). -/
def execVldR (d i g : BitVec 7) (wa k : Bool) (s : State) : Out1 :=
  memExec { MemOp.load d i g wa k 1 with miss := true } s

/-- `VST` (R170). -/
def execVst (s i g : BitVec 7) (wa wb : Bool) (st : State) : Out1 :=
  memExec (.store s i g wa wb 1) st

/-- `VLDW_X2` (R172). -/
def execVldwX2 (d i g : BitVec 7) (wa k : Bool) (s : State) : Out1 :=
  memExec (.load d i g wa k 2) s

/-- `VLDW_X4` (R172). -/
def execVldwX4 (d i g : BitVec 7) (wa k : Bool) (s : State) : Out1 :=
  memExec (.load d i g wa k 4) s

/-- `VSTW_X2` (R172). -/
def execVstwX2 (s i g : BitVec 7) (wa wb : Bool) (st : State) : Out1 :=
  memExec (.store s i g wa wb 2) st

/-- `VSTW_X4` (R172). -/
def execVstwX4 (s i g : BitVec 7) (wa wb : Bool) (st : State) : Out1 :=
  memExec (.store s i g wa wb 4) st

/-- `VLD_ACQ` (R173). -/
def execVldAcq (d i g : BitVec 7) (wa k : Bool) (sc : BitVec 3) (s : State) : Out1 :=
  memExec { MemOp.load d i g wa k 1 with len := 8, scope := sc.toNat } s

/-- `VST_REL` (R173). -/
def execVstRel (s i g : BitVec 7) (wa wb : Bool) (sc : BitVec 3) (st : State) : Out1 :=
  memExec { MemOp.store s i g wa wb 1 with len := 8, scope := sc.toNat } st

/-- `VATOM_ADD` (R179). -/
def execVatomAdd (s i g : BitVec 7) (wa wb k : Bool) (sc : BitVec 3) (ret : Bool) (st : State) : Out1 :=
  memExec (.atom .add false s i g wa wb k ret sc) st

/-- `VATOM_MIN` (R179). -/
def execVatomMin (s i g : BitVec 7) (wa wb k : Bool) (sc : BitVec 3) (ret u : Bool) (st : State) : Out1 :=
  memExec (.atom .min u s i g wa wb k ret sc) st

/-- `VATOM_MAX` (R179). -/
def execVatomMax (s i g : BitVec 7) (wa wb k : Bool) (sc : BitVec 3) (ret u : Bool) (st : State) : Out1 :=
  memExec (.atom .max u s i g wa wb k ret sc) st

/-- `VATOM_AND` (R179). -/
def execVatomAnd (s i g : BitVec 7) (wa wb k : Bool) (sc : BitVec 3) (ret : Bool) (st : State) : Out1 :=
  memExec (.atom .and false s i g wa wb k ret sc) st

/-- `VATOM_OR` (R179). -/
def execVatomOr (s i g : BitVec 7) (wa wb k : Bool) (sc : BitVec 3) (ret : Bool) (st : State) : Out1 :=
  memExec (.atom .or false s i g wa wb k ret sc) st

/-- `VATOM_XOR` (R179). -/
def execVatomXor (s i g : BitVec 7) (wa wb k : Bool) (sc : BitVec 3) (ret : Bool) (st : State) : Out1 :=
  memExec (.atom .xor false s i g wa wb k ret sc) st

/-- `VATOM_XCHG` (R179). -/
def execVatomXchg (s i g : BitVec 7) (wa wb k : Bool) (sc : BitVec 3) (ret : Bool) (st : State) : Out1 :=
  memExec (.atom .xchg false s i g wa wb k ret sc) st

/-- `VATOM_CAS` (R179). -/
def execVatomCas (s i g : BitVec 7) (wa wb k : Bool) (sc : BitVec 3) (ret : Bool) (st : State) : Out1 :=
  memExec (.atom .cas false s i g wa wb k ret sc) st

/-- `VPREF` (R174). -/
def execVpref (i g : BitVec 7) (wa : Bool) (s : State) : Out1 :=
  memExec { MemOp.load 0#7 i g wa false 1 with kind := .pref } s

end Sys2Proof.Machine
end

