-- ==== Sys2Proof/Machine/Stray.lean ====
section
/-!
DEFINITION. Sys2Proof/Machine/Stray.lean: taking a stray (R106, R107, R396, R416, R420) and leaving stray mode (R400,
R418).
-/
namespace Sys2Proof.Machine

/-- The engine opcodes (R265). -/
def engineOpcode (w : Word) : Bool :=
  isG w && ((0x58 ≤ (op7 w).toNat && (op7 w).toNat ≤ 0x5F) || [0x61, 0x62, 0x65, 0x66].contains (op7 w).toNat)

/-- The length of the opcode of a word in bytes (R107). -/
def opLen (w : Word) : Nat := if isPair w then 8 else 4

/-- SEQ of a G-set word. -/
def seqOf (w : Word) : Option (BitVec 3) := if isG w then some (gQ w) else none

/-- Registers that the data field of a memory stray takes by what its uniform operand names: the width of a scratch descriptor
(R184), the element size of a record (R168, R176, R178, R200); the least where that cannot be told. DESIGN CHOICE (log entry
78). -/
def State.straySpan (s : State) (fd : Fold) (tm : Team) (w0 w1 : Word) : Nat :=
  let op := (op7 w0).toNat
  let m := { MemOp.load (fD w0) (fA w0) (fB w0) false false
      (if op == 0x73 || op == 0x75 then 2 else if op == 0x74 || op == 0x76 then 4 else 1) with
    kind := if op == 0x79 then .atom else .load, op := if w1.extractLsb' 25 4 == 7#4 then .cas else .add, miss := op == 0x71 }
  let least := if isG w0 then 1 else (m.shape 4).1
  let named := tm.uref (if isG w0 then gA w0 else fB w0).toNat false
  match named.regs with
  | [x] =>
    if !tm.opndFull x || (tm.opndPoison x).isSome then least
    else if !isG w0 && 0x7B ≤ op then 2 ^ (bitsOf (tm.opnd x).toNat 63 62 % 3)
    else match s.useRec (s.tlbOf tm) fd (tm.opnd x).toNat with
      | .ok r _ => if isG w0 then (if r.size == 16 then 2 else 1) else (m.shape r.size).1
      | .bad _ _ => least
  | _ => least

/-- The registers of a stray's data field: one but for a memory access. -/
def State.spanOf (s : State) (tm : Team) (w0 w1 : Word) : Nat :=
  let op := (op7 w0).toNat
  if (if isG w0 then 0x28 ≤ op && op ≤ 0x2B else 0x70 ≤ op && op != 0x7A) then
    ((s.fold? tm.fold).map fun fd => s.straySpan fd tm w0 w1).getD 1
  else 1

/-- A team takes a stray: it enters stray mode with fresh private registers, flags and target slots, and goes on at the
handler; with no handler, or at depth 2, it traps. The counter an engine opcode names is raised (R297). -/
def Team.enterStray (tm : Team) (e : Env) (r : Reject) (w0 w1 : Word) (span : Nat) : Team :=
  if tm.stray.length == 2 then tm.trap e (.sub' 0x28 r.cause) (opLen w0) (seqOf w0)
  else if e.hLo == 0 then
    tm.trap e { Trap.sub' 0x29 r.cause with detail := dwordOfNat r.cap } (opLen w0) (seqOf w0)
  else
    let n := (gC w0).toNat
    let engine := engineOpcode w0
    let nocount := engine && tm.cc.getD n 0#16 == 65535#16
    Team.issued { tm with
      cc := if engine && !nocount then upd tm.cc n (· + 1#16) else tm.cc
      stray :=
        { cause := r.cause, cap := r.cap, raw0 := w0, raw1 := if isPair w0 then w1 else 0#32, pc := tm.pc, fmt := tm.fmt
          nocount := nocount, span := span, ev := Vector.replicate 8 (VReg.fresh tm.w), fu := Vector.replicate 16 UReg.zero
          flags := tm.flags, slots := tm.slots } :: tm.stray
      flags := Flags.clear
      slots := List.replicate 4 none
      lastPc := tm.pc
      pc := BitVec.ofNat 48 e.hLo
      pcOver := false } e

/-- Issue of two words (the second counts for a pair) that are not an instruction of the part. -/
def strayStep (ws : Word × Word) (s : State) : Out1 :=
  match strayOf ws.1 ws.2 with
  | none => .next s
  | some r => teamStep s fun e tm => tm.enterStray e r ws.1 ws.2 (s.spanOf tm ws.1 ws.2)

/-- `STRAY` (R106). Words that are an instruction of the part are no stray: nothing happens. -/
def execStray (w0 w1 : BitVec 32) (s : State) : Out1 :=
  strayStep (w0, w1) s

/-- Is a register private to a depth? -/
def VRef.atDepth (d : Nat) : VRef → Bool
  | .team _ | .const _ => false
  | .priv k _ => k == d

/-- Is a write to a register private to a depth? -/
def RegWrite.atDepth (d : Nat) : RegWrite → Bool
  | .vec r _ _ => r.atDepth d
  | .uni (.priv k _) _ => k == d
  | .uni _ _ => false

/-- The team after it has left the innermost stray: private registers are released, target slots are as at entry; the
flags are as at entry for an L-set stray and the handler's for a G-set one (R400). -/
def Team.leave (tm : Team) (fr : Frame) (rest : List Frame) : Team :=
  let d := rest.length + 1
  { tm with
    stray := rest
    flags := if isG fr.raw0 then tm.flags else fr.flags
    slots := fr.slots
    landings := tm.landings.filter fun l => !l.reg.atDepth d
    inflight := tm.inflight.map fun i => { i with writes := i.writes.filter fun w => !w.atDepth d } }

/-- A team leaves stray mode past the stray: by the stray's length, or where a G-set stray's SEQ selects (R107). -/
def Team.sret (tm : Team) (e : Env) : Team :=
  match tm.stray with
  | [] => tm.trap e (.sub' 0x2A 1) 4 (some 0#3)
  | fr :: rest =>
    let t := tm.leave fr rest
    let at_ := { t with pc := fr.pc }
    let next := fr.pc.toNat + opLen fr.raw0
    match seqOf fr.raw0 with
    | none => (t.goto next).retired e
    | some sq =>
      match t.seq e sq t.flags next with
      | .error x => at_.trap e x (opLen fr.raw0) (some sq)
      | .ok t' => t'.retired e

/-- A team leaves stray mode and executes the stray again (R400). -/
def Team.sretAgain (tm : Team) (e : Env) : Team :=
  match tm.stray with
  | [] => tm.trap e (.sub' 0x2A 1) 4 (some 0#3)
  | fr :: rest =>
    Team.issued { tm.leave fr rest with lastPc := tm.pc, pc := fr.pc, pcOver := false } e

/-- A team leaves stray mode with a trap of the stray (R418). -/
def Team.sretTrap (tm : Team) (e : Env) (c : Nat) : Team :=
  match tm.stray with
  | [] => tm.trap e (.sub' 0x2A 1) 4 (some 0#3)
  | fr :: rest =>
    { tm.leave fr rest with pc := fr.pc, pcOver := false }.trap e (.of c) (opLen fr.raw0) (seqOf fr.raw0)

/-- `SRET` (R400). -/
def execSret (s : State) : Out1 := teamStep s fun e tm => tm.sret e

/-- `SRET_AGAIN` (R400). -/
def execSretAgain (s : State) : Out1 := teamStep s fun e tm => tm.sretAgain e

/-- `SRET_TRAP` (R418). -/
def execSretTrap (c : BitVec 6) (s : State) : Out1 := teamStep s fun e tm => tm.sretTrap e c.toNat

end Sys2Proof.Machine
end

