-- ==== Sys2Proof/Machine/GroupSys.lean ====
section
/-!
DEFINITION. Sys2Proof/Machine/GroupSys.lean: format and allotment, fences, counters, special registers and software traps (R208-R213, R218, R220).
-/
namespace Sys2Proof.Machine

/-- Writes FMT; a reserved type code in P or S traps (R33, R208). -/
def Team.setFmt (tm : Team) (e : Env) (sq : BitVec 3) (x : BitVec 14) : Team :=
  let f : Word := x.setWidth 32
  if (fmtType f false).isNone || (fmtType f true).isNone then tm.trap e (.of 0x0E) 4 (some sq)
  else tm.finish { tm with fmt := f } e 4 sq 0#6

/-- Bytes of a team area (R44). -/
def teamArea (w vregs uregs : Nat) : Nat := 8192 + 128 * vregs * (w / 32) + 8 * uregs

/-- Bytes of a context's save area (R429 word 3). -/
def Ctx.saveSize (c : Ctx) : Nat := bitsOf (c.word 3) 31 0 * 65536

/-- Bytes of a fold image: 65,536, and its scratch and accumulator bytes on each of its cores (R427). -/
def Fold.imageBytes (f : Fold) : Nat := 65536 + (f.scratch.map (·.size)).sum + (f.acc.map (·.size)).sum

/-- What the folds of a context hold of its save area: the team areas of every fold that has not ended, those of its ended
teams among them, and the images of those saved (R44, R427). -/
def State.saveHeld (s : State) (c : Nat) : Nat :=
  ((s.folds.filter fun f => f.ctx == c && f.status != .ended).map fun f =>
    (if f.status == .saved then f.imageBytes else 0) +
    (f.teams.map fun t => match s.team? t with
      | some tm => tm.area
      | none => 0).sum).sum

/-- Room that a team's area may still grow by. -/
def State.saveRoom (s : State) (tm : Team) : Nat :=
  (s.ctx (s.ctxOf tm)).saveSize - s.saveHeld (s.ctxOf tm)

/-- grow (R38, R209): the vector (`uni` false) or the uniform allotment. -/
def Team.grow (tm : Team) (e : Env) (room : Nat) (uni : Bool) (n : Nat) (sq : BitVec 3) : Team :=
  let v := tm.vregs.length + (if uni then 0 else n)
  let u := tm.uregs.length + (if uni then n else 0)
  let ok := n == 0 || (v ≤ 128 && u ≤ 1024 && v * (tm.w / 32) ≤ Config.poolSlots && (!uni || n ≤ e.unis) &&
    teamArea tm.w v u - tm.area ≤ room)
  let tm' := if ok then
      { tm with
        area := max tm.area (if n == 0 then 0 else teamArea tm.w v u)
        vregs := tm.vregs ++ List.replicate (v - tm.vregs.length) (VReg.fresh tm.w)
        uregs := tm.uregs ++ List.replicate (u - tm.uregs.length) UReg.zero }
    else tm
  tm.finish { tm' with flags := { tm.flags with z := !ok } } e 4 sq 0#6

/-- shrink (R38, R210): it waits until the registers released are full. -/
def Team.shrink (tm : Team) (e : Env) (uni : Bool) (n : Nat) (sq : BitVec 3) : Team :=
  let v := tm.vregs.length - (if uni then 0 else n)
  let u := tm.uregs.length - (if uni then n else 0)
  if (if uni then u < 32 else v < 1) && n != 0 then tm.trap e (.sub' 0x04 1) 4 (some sq)
  else if !(tm.vregs.drop v).all (·.full) || !(tm.uregs.drop u).all (·.full) then
    tm.block e (tm.await ((List.range (tm.vregs.length - v)).map fun i => .team (v + i)) ((List.range (tm.uregs.length - u)).map fun i => .reg (.team (u + i))))
  else
    tm.finish { tm with vregs := tm.vregs.take v, uregs := tm.uregs.take u, resv := min tm.resv (v * (tm.w / 32)) }
      e 4 sq 0#6

/-- waitlt (R213). -/
def Team.waitLt (tm : Team) (e : Env) (c n : Nat) (sq : BitVec 3) : Team :=
  if (tm.cc.getD c 0#16).toNat < n then tm.finish tm e 4 sq 0#6 else tm.block e (.counter c n)

/-- ccadd (R213). -/
def Team.ccAdd (tm : Team) (e : Env) (c : Nat) (n : Int) (sq : BitVec 3) : Team :=
  let x := Int.ofNat (tm.cc.getD c 0#16).toNat + n
  if x < 0 || 65535 < x then tm.trap e (.of 0x27) 4 (some sq)
  else tm.finish { tm with cc := upd tm.cc c fun _ => BitVec.ofInt 16 x } e 4 sq 0#6

/-- SDESC of the innermost stray (R417). -/
def Frame.sdesc (fr : Frame) (depth : Nat) : Nat :=
  let op := (op7 fr.raw0).toNat
  let eng := engineOpcode fr.raw0
  (if fr.nocount then 2 ^ 63 else 0) + (if depth == 2 then 2 ^ 62 else 0) +
    (if eng then (gC fr.raw0).toNat * 2 ^ 21 + 2 ^ 20 else 0) + fr.cause * 2 ^ 18 +
    (if isPair fr.raw0 then 2 ^ 17 else 0) + (if isG fr.raw0 then 2 ^ 16 else 0) + op * 2 ^ 9 + opClass (isG fr.raw0) op

/-- The completion counters from one up, 16 bits each. -/
def ccWord (cc : List (BitVec 16)) (from_ : Nat) : Nat :=
  ((List.range 4).map fun i => (cc.getD (from_ + i) 0#16).toNat * 2 ^ (16 * i)).sum

/-- The content of a special register (R218); none for a stray word outside stray mode. -/
def State.special (s : State) (tm : Team) (n : Nat) : Option DWord :=
  if 32 ≤ n then
    match tm.stray with
    | [] => none
    | fr :: _ =>
      some (if n == 32 then fr.raw0.setWidth 64 else if n == 33 then fr.raw1.setWidth 64
        else if n == 34 then dwordOfNat (fr.sdesc tm.stray.length) else dwordOfNat fr.cap)
  else some (dwordOfNat (match n with
    | 0 => tm.fx.toNat
    | 1 => s.clock (s.place tm)
    | 2 => tm.part + tm.core * 2 ^ 5 + s.padOf tm * 2 ^ 7
    | 3 => s.ctxOf tm
    | 4 => tm.held + tm.resv * 2 ^ 16
    | 5 => tm.vregs.length + tm.uregs.length * 2 ^ 16
    | 6 => tm.arms.length + tm.calls.length * 2 ^ 16
    | 7 => ccWord tm.cc 0
    | _ => ccWord tm.cc 4))

/-- gsys.rd: a stray word read outside stray mode traps, with the register checks (R113, R218). -/
def Team.special (tm : Team) (e : Env) (sq : BitVec 3) (d : BitVec 7) (v : Option DWord) : Team :=
  match tm.groupCheck [] [] [⟨d.toNat, 1⟩] true, v with
  | .wait w, _ => tm.block e w
  | .trap t, none => tm.trap e { t with others := t.others ++ causeIf (t.cause != 0x2A) 0x2A } 4 (some sq)
  | .trap t, some _ => tm.trap e t 4 (some sq)
  | .go _, none => tm.trap e (.sub' 0x2A 2) 4 (some sq)
  | .go o, some x => tm.groupDone e 4 sq (o.dsts.map fun r => .uni r x) none 0#6

/-- `SETFMT_GK` (R208). -/
def execSetfmtGk (sq : BitVec 3) (i : BitVec 14) (s : State) : Out1 :=
  teamStep s fun e tm => tm.setFmt e sq i

/-- `SETFMT_GA` (R208). -/
def execSetfmtGa (sq : BitVec 3) (a : BitVec 7) (s : State) : Out1 :=
  teamStep s fun e tm =>
    match tm.groupCheck [⟨a.toNat, 1⟩] [] [] true with
    | .wait w => tm.block e w
    | .trap t => tm.trap e t 4 (some sq)
    | .go o => tm.setFmt e sq ((o.us.headD 0#64).setWidth 14)

/-- getfmt: FMT, zero-extended (R208). -/
def fmtOp (d : BitVec 7) (tm : Team) : GroupOp :=
  { unis := [], vecs := [], dsts := [⟨d.toNat, 1⟩], typed := true, fxt := false
    sem := fun _ _ _ => ⟨[tm.fmt.setWidth 64], none, 0#6⟩ }

/-- `GETFMT` (R208). -/
def execGetfmt (sq : BitVec 3) (d : BitVec 7) (s : State) : Out1 :=
  groupExec 4 sq (fmtOp d) s

/-- `GROW` (R209). -/
def execGrow (sq : BitVec 3) (s : BitVec 7) (n : BitVec 14) (st : State) : Out1 :=
  match st.team? st.cur with
  | some t => teamStep st fun e tm => tm.grow e (st.saveRoom t) (s == 1#7) n.toNat sq
  | none => .next st

/-- `SHRINK` (R210). -/
def execShrink (sq : BitVec 3) (s : BitVec 7) (n : BitVec 14) (st : State) : Out1 :=
  teamStep st fun e tm => tm.shrink e (s == 1#7) n.toNat sq

/-- `FENCE` (R212). Loads still in flight hold the team. At fold scope and wider it is a release and an acquire (R354). -/
def execFence (sq sc : BitVec 3) (s : State) : Out1 :=
  foldStep s fun e _ tm =>
    if !tm.inflight.isEmpty then stepped s (tm.block e (.loads false))
    else
      let s' := if sc == 0#3 then s else (s.releaseBy tm).acquireBy tm
      groupEnd s s' e tm (s'.teamOr tm) 4 sq

/-- What engines have written is there for the team that issues: its core's L1 drops what it holds clean (R213, R286, R354). -/
def State.seeEngines (s : State) : State :=
  match s.team? s.cur with
  | some tm => s.acquire (s.coreOf tm)
  | none => s

/-- `WAITLT` (R213). A wait that ends acquires the engine's results for the team (R354). -/
def execWaitlt (sq c : BitVec 3) (n : BitVec 14) (s : State) : Out1 :=
  teamStep s.seeEngines fun e tm => tm.waitLt e c.toNat n.toNat sq

/-- `CCADD` (R213). -/
def execCcadd (sq c : BitVec 3) (n : BitVec 14) (s : State) : Out1 :=
  teamStep s fun e tm => tm.ccAdd e c.toNat n.toInt sq

/-- `GSYS_RD` (R218). A read of FX waits for the flags of earlier instructions (R233). -/
def execGsysRd (sq : BitVec 3) (d : BitVec 7) (n : BitVec 12) (s : State) : Out1 :=
  match s.team? s.cur with
  | some t => teamStep s fun e tm =>
      if n == 0#12 && tm.computing then tm.block e .flags else tm.special e sq d (s.special t n.toNat)
  | none => .next s

/-- `GSYS_WR` (R218): only FX is written, after the flags of earlier instructions (R233). -/
def execGsysWr (sq : BitVec 3) (s : BitVec 7) (_n : BitVec 12) (st : State) : Out1 :=
  teamStep st fun e tm =>
    if tm.computing then tm.block e .flags
    else
    match tm.groupCheck [⟨s.toNat, 1⟩] [] [] true with
    | .wait w => tm.block e w
    | .trap t => tm.trap e t 4 (some sq)
    | .go o => tm.finish { tm with fx := (o.us.headD 0#64).setWidth 6 } e 4 sq 0#6

/-- `GTRAP` (R220). -/
def execGtrap (sq : BitVec 3) (c : BitVec 14) (s : State) : Out1 :=
  teamStep s fun e tm => tm.trap e (.sub' 0x0F c.toNat) 4 (some sq)

/-- `GBRK` (R220). -/
def execGbrk (sq : BitVec 3) (c : BitVec 14) (s : State) : Out1 :=
  teamStep s fun e tm => tm.trap e (.sub' 0x38 c.toNat) 4 (some sq)

end Sys2Proof.Machine
end

