-- ==== Sys2Proof/Machine/Work.lean ====
section
/-!
DEFINITION. Sys2Proof/Machine/Work.lean: submitting work (R58-R60, R214, R215), system calls (R219), power state (R221, R222) and mopfence (R282).
-/
namespace Sys2Proof.Machine

/-! ## Submitting work (R60, R214, R215, R441) -/

/-- The extents a job takes: those beyond its dimensions are 1. -/
def shapeOf (dims x y z : Nat) : Nat × Nat × Nat := (x, if 2 ≤ dims then y else 1, if 3 ≤ dims then z else 1)

/-- Is a shape beyond 2^32 folds, or Y or Z beyond 65,536 (R215)? -/
def shapeBad (x : Nat × Nat × Nat) : Bool := 2 ^ 32 < x.1 * x.2.1 * x.2.2 || 65536 < x.2.1 || 65536 < x.2.2

/-- Does a kernel at a width break the bound of R39: could a team not hold all its registers at full occupancy? -/
def Kernel.tooWide (k : Kernel) (w : Nat) : Bool := Config.poolSlots < k.vregs * (w / 32)

/-- Does kernel `i` of a table break it, or a kernel of a node of it at the node's coalesce count (R59)? -/
def kernelOver (ks : List Kernel) (i : Nat) : Bool :=
  match ks[i]? with
  | some k => k.tooWide k.w || k.nodes.any fun n => ((ks[n.2.2]?).map fun x => x.tooWide n.2.1).getD false
  | none => false

/-- The checks of R215 on the words gw to gw+6, for a table of kernels, and the bound of R39. -/
def launchBad (w : Nat → Nat) (ks : List Kernel) : Bool :=
  let dims := bitsOf (w 0) 17 16
  let addrBad (x a : Nat) : Bool := bitsOf x 63 48 != 0 || x % a != 0
  bitsOf (w 0) 63 21 != 0 || dims == 0 || ks.length ≤ bitsOf (w 0) 15 0 || kernelOver ks (bitsOf (w 0) 15 0) ||
    (if (w 0).testBit 18 then addrBad (w 1) 4 || w 2 != 0
     else bitsOf (w 2) 63 32 != 0 || shapeBad (shapeOf dims (bitsOf (w 1) 31 0) (bitsOf (w 1) 63 32) (bitsOf (w 2) 31 0))) ||
    addrBad (w 3) 8 || addrBad (w 4) 8 || addrBad (w 6) 8

/-- A job of a launch block. Its resources are the kernel table's (R86). -/
def jobOf (w : Nat → Nat) (ctx queue index : Nat) (k : Kernel) : Job :=
  let x := shapeOf (bitsOf (w 0) 17 16) (bitsOf (w 1) 31 0) (bitsOf (w 1) 63 32) (bitsOf (w 2) 31 0)
  { ctx := ctx, queue := queue, index := index, kernel := bitsOf (w 0) 15 0, prio := bitsOf (w 0) 20 19
    indirect := (w 0).testBit 18, dims := bitsOf (w 0) 17 16, x := x.1, y := x.2.1, z := x.2.2
    shapeAddr := bitsOf (w 1) 47 0, events := if w 3 == 0 then [] else [bitsOf (w 3) 47 0]
    deps := if w 4 == 0 then [] else [(bitsOf (w 4) 47 0, w 5, false)], args := bitsOf (w 6) 47 0, argVals := []
    barrier := false, scratch := k.scratch, acc := k.acc, energy := k.energy, peak := k.peak
    nodes := k.nodes.map fun n => ⟨n.1, n.2.1, n.2.2, [], []⟩, next := 0, refusals := 0, refused := false, tryDue := false, readyAt := 0
    parent := none, failCause := (0, 0), reported := false, status := .waiting }

/-- Has a job ended, completed or failed? -/
def Job.ended (j : Job) : Bool := j.status == .done || j.status == .failed

/-- The queue number of jobs that launch submits, and the number node teams carry, which are in no queue. -/
def deviceQueue : Nat := 16
/-- The queue number of a node team's job. -/
def nodeQueue : Nat := 17

/-- Jobs of a context's device launch queue. DESIGN CHOICE (log entry 101): a job takes its place of the 256 until it begins to
dispatch, or ends. -/
def State.launchHeld (s : State) (c : Nat) : Nat :=
  s.jobs.countP fun j => j.ctx == c && j.queue == deviceQueue && (j.status == .waiting || j.status == .ready)

/-- A job joins the jobs: one without a dependence is ready at once (R443, R446). -/
def State.addJob (s : State) (j : Job) : State :=
  let j' := if j.deps.isEmpty && j.failCause == (0, 0) then { j with status := .ready, readyAt := s.moves } else j
  { s with jobs := s.jobs ++ [j'] }

/-- A job submitted by launch. -/
def State.submit (s : State) (c : Nat) (w : Nat → Nat) (k : Kernel) : State :=
  (s.updCtx c fun x => { x with launched := x.launched + 1 }).addJob (jobOf w c deviceQueue (s.ctx c).launched k)

/-- The work-graph job of a fold: its job, or the job whose node team it is. -/
def State.rootJob (s : State) (f : Fold) : Nat :=
  match s.jobs[f.job]? with
  | some j => (j.parent.map (·.1)).getD f.job
  | none => f.job

/-- Bytes of the coalescer region. -/
def Ctx.coalSize (c : Ctx) : Nat := bitsOf (c.word 27) 31 0 * 65536

/-- What stands in a context's coalescer region, as offset and size: the areas of gathered records and the batches of
running node teams (R59). -/
def State.coalHeld (s : State) (c : Nat) : List (Nat × Nat) :=
  ((s.jobs.filter fun j => j.ctx == c).map fun j =>
    (j.nodes.map fun n => n.areas.map fun o => (o, n.count * n.recSize)).flatten).flatten ++
  (s.ctx c).batch.map fun b => (b.2.1, b.2.2)

/-- The lowest place for `n` bytes in a region of `size` among those held: at its start or behind one of them. -/
def coalFit (size n : Nat) (held : List (Nat × Nat)) : Option Nat :=
  (sortBy (fun a b => decide (a ≤ b)) (0 :: held.map fun b => b.1 + b.2)).find? fun o =>
    o + n ≤ size && !held.any (meets (o, n))

/-- `k` areas of `n` bytes beside those held, none where one finds no room. -/
def coalAreas (size n : Nat) (held : List (Nat × Nat)) : Nat → Option (List Nat)
  | 0 => some []
  | k + 1 =>
    match coalFit size n held with
    | none => none
    | some o => (coalAreas size n ((o, n) :: held) k).map fun os => o :: os

/-- Bytes go to a context's memory, none where a page cannot be written. -/
def State.virtPuts (s : State) (c va : Nat) : List Byte → Option State
  | [] => some s
  | b :: bs =>
    match s.virtPut 0 c va b with
    | .ok s' => s'.virtPuts c (va + 1) bs
    | .error _ => none

/-- The address of an offset in a context's coalescer region. -/
def Ctx.coalAddr (c : Ctx) (off : Nat) : Nat := (bitsOf (c.word 26) 47 0 + off) % 2 ^ 48

/-- Records, the first of them the node's record `i`, are written where they stand in the areas. -/
def State.putRecs (s : State) (c count size : Nat) (areas : List Nat) (i : Nat) : List (List Byte) → Option State
  | [] => some s
  | r :: rs =>
    (s.virtPuts c ((s.ctx c).coalAddr (areas.getD (i / count) 0 + i % count * size)) r).bind fun s =>
      s.putRecs c count size areas (i + 1) rs

/-- Records reach a node in lane order and are written into the region (R59); none where the buffer or the region has no
room for them (R453). DESIGN CHOICE (log entry 77): nor where a page of the region cannot be written. -/
def State.gather (s : State) (job n : Nat) (c : Nat) (x : Node) (rs : List (List Byte)) : Option State :=
  let all := x.recs.length + rs.length
  if 65536 < all then none
  else if rs.isEmpty then some s
  else if x.count == 0 then none
  else
    (coalAreas (s.ctx c).coalSize (x.count * x.recSize) (s.coalHeld c) ((all + x.count - 1) / x.count - x.areas.length)).bind
      fun more =>
        (s.putRecs c x.count x.recSize (x.areas ++ more) x.recs.length rs).map fun s =>
          s.updJob job fun j => { j with nodes := upd j.nodes n fun y =>
            { y with recs := y.recs ++ rs, areas := y.areas ++ more } }

/-- The records an emit sends: lane by lane, register q giving bytes 4q to 4q + 3. -/
def recordsOf (w : Nat) (regs : List VReg) : List (List Byte) :=
  (List.range w).filterMap fun j =>
    if regs.all fun r => (r.lanes.getD j none).isSome then
      some ((regs.map fun r => bytesOf 4 (((r.lanes.getD j none).getD 0#32).toNat)).flatten)
    else none

/-! ## Power state (R221) -/

/-- Boost slots free in a pasture. -/
def State.slotsLeft (s : State) (pasture : Nat) : Nat :=
  4 - (List.range 8).countP fun i => (s.pad (8 * pasture + i)).slot

/-- The word of R221 for a paddock. -/
def State.powerWord (s : State) (p : Nat) : DWord :=
  let x := s.pad p
  dwordOfNat (s.slotsLeft (pastureOf p) * 2 ^ 24 + (s.domains.getD (domainOf p) Domain.reset).volt * 2 ^ 16 +
    x.clock * 2 ^ 8 + (if x.slot then 2 ^ 7 else 0) + x.permits)

/-- pwclaim's answer: the word and Z (R222). -/
def Team.claimed (tm : Team) (e : Env) (d : URef) (sq : BitVec 3) (v : DWord) (z : Bool) : Team :=
  tm.finish { tm.results e.overlap [.uni d v] [] false with flags := ⟨z, false, false, false⟩ } e 4 sq 0#6

/-! ## System calls (R219, R436) -/

/-- Are the pages of an element's bytes resident? -/
def State.elemResident (s : State) (c : Nat) (r : Rec) (i : Nat) : Bool :=
  (r.ranges i 1).all fun x =>
    (s.walk c (x.1 % 2 ^ 48 / 65536)).isSome && (s.walk c ((x.1 + x.2.1 - 1) % 2 ^ 48 / 65536)).isSome

/-- The answer of the page request: 1 for a bad record, 0 for no page, else 0 once the pages are resident and 1 where the
OS finds a page outside the context's mapping. -/
def State.pageAnswer (s : State) (f : Fold) (h first count result : Nat) : Option Nat :=
  match s.useRec (pastureOf f.paddock) f h with
  | .bad _ _ => some 1
  | .ok r _ =>
    if count == 0 || r.count ≤ first then some 0
    else
      let resident := (List.range (min count (r.count - first))).all fun k => s.elemResident f.ctx r (first + k)
      if resident then some 0 else if result == 1 then some 1 else none

/-- The message record of call 2 (R219, R409). -/
def State.messageRec (s : State) (tm : Team) (args : List DWord) : FaultRec :=
  { cause := 0, kind := 2, first := false, margin := false, stray := !tm.stray.isEmpty, depth2 := tm.stray.length == 2
    sub := 0, sec := 0#64, skid := 0, pc := tm.pc, ctx := s.ctxOf tm, team := tm.idx
    fold := ((s.fold? tm.fold).map (·.linear)).getD 0, paddock := s.padOf tm, core := tm.core, part := tm.part
    detail := 0#64, origin := tm.origin, fmt := tm.fmt, w := tm.w, map := [], block := args }

/-- The answer of a call reaches its team, which acquires at system scope (R219): at once, or, where the team is stopped, when it
goes on (R428). -/
def State.answer (s : State) (t : Nat) (tm : Team) (d : URef) (sq : BitVec 3) (v : DWord) : State :=
  let tm' := { tm with call := none }
  if tm.status == .run then
    (s.updTeam t fun _ => tm'.finish (tm'.results s.overlap [.uni d v] [] false) (s.env t tm) 4 sq 0#6).acquireOf t tm
  else s.updTeam t fun _ => { tm' with reply := some (d, sq, v) }

/-- An answer that came while a team was stopped is delivered, once it goes on. -/
def State.deliver (s : State) (t : Nat) : State :=
  match s.team? t with
  | none => s
  | some tm =>
    match tm.reply, tm.status with
    | some (d, sq, v), .run => { s with teams := upd s.teams t fun x => { x with reply := none } }.answer t { tm with reply := none } d sq v
    | _, _ => s

/-- The number of the register that a vector field names, through a window that of the aliased one (R399). -/
def Team.vnumber (tm : Team) (f : Nat) : Nat :=
  match nameV tm.stray f with
  | some (.team r, _, _) | some (.priv _ r, _, _) => r
  | _ => 0

/-- `EMIT` (R214). The registers of va are checked for the node's
record, or as one where no node is named; of all causes the lowest is delivered (R408). It is a release at device scope. -/
def execEmit (sq : BitVec 3) (d a : BitVec 7) (s : State) : Out1 :=
  foldStep s fun e fd tm =>
    let gd := tm.urefs d.toNat 1 false
    if !gd.regs.all tm.opndFull then stepped s (tm.block e (tm.await [] gd.regs))
    else
      let root := s.rootJob fd
      let x? := (gd.regs.map tm.opnd).head?.map BitVec.toNat
      let node := x?.bind fun x => (s.jobs[root]?).bind fun j => if x < 2 ^ 16 then (j.nodes[x]?).map fun n => (x, n) else none
      let r := (node.map fun n => n.2.recSize / 4).getD 1
      let bad := causeIf ((x?.isSome && node.isNone) || tm.vnumber a.toNat % 4 != 0) 0x1E
      match tm.groupCheck [⟨d.toNat, 1⟩] [⟨a.toNat, r, 1, false, .value⟩] [] true with
      | .wait w => stepped s (tm.block e w)
      | .trap t => stepped s (tm.trap e (t.join bad) 4 (some sq))
      | .go _ =>
        match node, bad.isEmpty with
        | some (x, n), true =>
          match s.gather root x fd.ctx n (recordsOf tm.w ((tm.vrefs a.toNat r 1).regs.map tm.getV)) with
          | none => stepped s (tm.block e (.engine (.node root x a.toNat r)))
          | some s' => groupEnd s (s'.releaseBy tm) e tm tm 4 sq
        | _, _ => stepped s (tm.trap e (.of 0x1E) 4 (some sq))

/-- `LAUNCH` (R60, R215). The submission is a release at device scope. -/
def execLaunch (sq : BitVec 3) (g : BitVec 10) (s : State) : Out1 :=
  foldStep s fun e fd tm =>
    match tm.groupCheck [⟨g.toNat, 8⟩] [] [] true with
    | .wait w => stepped s (tm.block e w)
    | .trap t => stepped s (tm.trap e t 4 (some sq))
    | .go o =>
      let w (i : Nat) : Nat := (o.us.getD i 0#64).toNat
      let c := s.ctx fd.ctx
      if w 7 != 0 || launchBad w c.kernels then stepped s (tm.trap e (.sub' 0x1E 1) 4 (some sq))
      else if 256 ≤ s.launchHeld fd.ctx then stepped s (tm.block e .full)
      else
        match c.kernels[bitsOf (w 0) 15 0]? with
        | none => stepped s (tm.trap e (.sub' 0x1E 1) 4 (some sq))
        | some k => groupEnd s ((s.releaseBy tm).submit fd.ctx w k) e tm tm 4 sq

/-- `GSYS_CALL` (R219). The call is posted after a release at system scope; SYSCALL_ANSWER gives the result. -/
def execGsysCall (sq : BitVec 3) (d : BitVec 7) (n : BitVec 12) (s : State) : Out1 :=
  foldStep s fun e _ tm =>
    if tm.call.isSome then stepped s (tm.block e .syscall)
    else
      match tm.groupCheck [⟨d.toNat, 4⟩] [] [⟨d.toNat, 1⟩] true with
      | .wait w => stepped s (tm.block e w)
      | .trap t => stepped s (tm.trap e t 4 (some sq))
      | .go o =>
        stepped (s.releaseBy tm) { tm.block e .syscall with call := some (n.toNat, o.us, o.dsts.headD (.team 0), sq) }

/-- `SYSCALL_ANSWER` (R219). -/
def execSyscallAnswer (team : Nat) (result : BitVec 64) (s : State) : Out1 :=
  match s.team? team with
  | none => .next s
  | some tm =>
    match tm.call, s.fold? tm.fold with
    | some (n, args, d, sq), some f =>
      if !(tm.status == .run && f.status == .resident || tm.status == .stopped) then .next s
      else if n == 1 then
        match s.pageAnswer f (args.getD 0 0#64).toNat (args.getD 1 0#64).toNat (args.getD 2 0#64).toNat result.toNat with
        | some v => moved (s.answer team tm d sq (dwordOfNat v))
        | none => .next s
      else if n == 2 then moved ((s.postAsync f.ctx (s.messageRec tm args)).answer team tm d sq 0#64)
      else moved (s.answer team tm d sq (BitVec.allOnes 64))
    | _, _ => .next s

/-- The claims of a fold that wait in other teams are withdrawn with it (R222): DESIGN CHOICE (log entry 91), each is answered at
once as a claim refused. -/
def State.withdraw (s : State) (fold p : Nat) : State :=
  { s with teams := s.teams.zipIdx.map fun (x : Team × Nat) =>
    match x.1.claim with
    | some (d, sq) =>
      if x.1.fold == fold && x.2 != s.cur && x.1.status == .run then
        { x.1 with claim := none }.claimed (s.env x.2 x.1) d sq (s.powerWord p) true
      else x.1
    | none => x.1 }

/-- `PWCLAIM` (R222). A claim that waits is decided at INTERVAL_BOUNDARY. -/
def execPwclaim (sq : BitVec 3) (d a : BitVec 7) (s : State) : Out1 :=
  foldStep s fun e fd tm =>
    match tm.groupCheck [⟨a.toNat, 1⟩] [] [⟨d.toNat, 1⟩] true with
    | .wait w => stepped s (tm.block e w)
    | .trap t => stepped s (tm.trap e t 4 (some sq))
    | .go o =>
      let p := fd.paddock
      let dst := o.dsts.headD (.team 0)
      let x := s.pad p
      let word := s.powerWord p
      if tm.claim.isSome then stepped s (tm.block e .claim)
      else
        let others := x.claims.filter (· != tm.fold)
        let done := { tm.results e.overlap [.uni dst word] [] false with flags := Flags.clear }
        if !(o.us.headD 0#64).getLsbD 0 then
          groupEnd s ((s.withdraw tm.fold p).updPad p fun y => { y with claims := others }) e tm done 4 sq
        else if x.slot && !x.fall then
          groupEnd s (s.updPad p fun y => { y with claims := tm.fold :: others }) e tm done 4 sq
        else stepped s { tm.block e .claim with claim := some (dst, sq) }

/-- `PWSTAT` (R221). -/
def execPwstat (sq : BitVec 3) (d : BitVec 7) (s : State) : Out1 :=
  foldStep s fun e fd tm =>
    match tm.groupCheck [] [] [⟨d.toNat, 1⟩] true with
    | .wait w => stepped s (tm.block e w)
    | .trap t => stepped s (tm.trap e t 4 (some sq))
    | .go o => stepped s (tm.groupDone e 4 sq (o.dsts.map fun r => .uni r (s.powerWord fd.paddock)) none 0#6)

/-- `MOPFENCE` (R282). The writes of the team, those of others that it has observed, and those every team of the fold has
observed become visible to the array. -/
def execMopfence (sq : BitVec 3) (s : State) : Out1 :=
  foldStep s fun e _ tm =>
    let rest (l : List (Nat × Byte)) : List (Nat × Byte) := l.filter fun x => !tm.unfenced.any (·.1 == x.1)
    let s' := s.updFold tm.fold fun f => { f with shared := [], released := rest f.released }
    let s' := { s' with teams := s'.teams.map fun (x : Team) =>
      if x.fold == tm.fold then { x with unfenced := rest x.unfenced } else x }
    groupEnd s (s'.flushCore (s.coreOf tm)) e tm { tm with unfenced := [] } 4 sq

end Sys2Proof.Machine
end

