-- ==== Sys2Proof/Machine/Partition.lean ====
section
/-!
DEFINITION. Sys2Proof/Machine/Partition.lean: what a partition does by itself: results complete and load lines arrive
(R27, R166), issue and the active set (R450-R452), spilling (R43), the end of a team (R55, R56), and the move of a fold (R66).
-/
namespace Sys2Proof.Machine

/-! ## Results (R27, R113, R166) -/

/-- Removes entry `n` of a list. -/
def dropAt {α : Type} (l : List α) (n : Nat) : List α := l.take n ++ l.drop (n + 1)

/-- The first entry in flight of a team that lines still (or no longer) keep waiting. -/
def Team.firstFlight (tm : Team) (withLines : Bool) : Option (Nat × InFlight) :=
  (List.range tm.inflight.length).findSome? fun n => (tm.inflight[n]?).bind fun i =>
    if i.lines.isEmpty == withLines then none else some (n, i)

/-- `INSTRUCTION_COMPLETE` (R27). The oldest result of a team whose data is all there. -/
def execInstructionComplete (team : Nat) (s : State) : Out1 :=
  match s.team? team with
  | none => .next s
  | some tm =>
    match tm.firstFlight false with
    | none => .next s
    | some (n, i) => moved (s.updTeam team fun _ => i.writes.foldl Team.complete { tm with inflight := dropAt tm.inflight n })

/-- A destination of a load that traps keeps its content and is full (R113). -/
def Team.keepOld (tm : Team) : RegWrite → Team
  | .vec r _ _ => tm.setV r fun x => { x with full := true }
  | .uni r _ => tm.setU r fun x => { x with full := true }

/-- Bytes of lanes that have arrived go into register `q` of a load's destinations. -/
def fillWrite (vals : List (Nat × List Byte)) (q : Nat) : RegWrite → RegWrite
  | .vec r lanes p => .vec r (vals.foldl (fun (ls : List (Option Word)) (x : Nat × List Byte) =>
      if 4 * q < x.2.length then upd ls x.1 fun _ => some (wordOfNat (numOf ((x.2.drop (4 * q)).take 4))) else ls) lanes) p
  | w => w

/-- A trap that a team meets after it went on: its own stop, or a record beside one it has (R411, R412). One of a team that stands
at a stop which halts no sibling, a debugger's under FREE, halts the fold (R407): the stop is the trap's from then on, and
a resume still retires what the debugger stopped at. -/
def State.lateTrap (s : State) (t : Nat) (tm : Team) (tr : Trap) (pc : CodeAddr) : State :=
  let e := s.env t tm
  let fresh := tm.trapAt e tr 0 pc tm.origin [] 0 none
  if tm.status != .stopped then s.updTeam t fun _ => fresh
  else
    match tm.stop, fresh.stop with
    | some old, some st =>
      if (old.cause == 0x3B || old.cause == 0x3C) && old.seqno.isNone then
        s.updTeam t fun _ => { tm with stop := some { st with was := old.was, skid := old.skid } }
      else if old.cause != 0x3B && old.cause != 0x3C && !s.halting (s.ctxOf tm) old then
        let s := if old.seqno.isNone then s.postAsync (s.ctxOf tm) (s.stopRec tm old) else s
        s.updTeam t fun _ => { tm with stop := some { st with was := old.was, len := old.len, seq := old.seq, skid := old.skid } }
      else
        let r := s.stopRec tm { st with first := false, skid := old.skid }
        if old.seqno.isNone then (s.updTeam t fun _ => tm).updFold tm.fold fun f => { f with extra := f.extra ++ [r.words] }
        else (s.updTeam t fun _ => tm).postAsync (s.ctxOf tm) r
    | _, _ => s.updTeam t fun _ => tm

/-- `LOAD_LINE_ARRIVAL` (R166, R358, R460). The oldest line that a team waits for: its bytes were read when the load was
performed, at issue (log entry 3); here they reach the registers, or the faults found with them are delivered. -/
def execLoadLineArrival (team : Nat) (s : State) : Out1 :=
  match s.team? team with
  | none => .next s
  | some tm =>
    match tm.firstFlight true with
    | none => .next s
    | some (n, i) =>
      match i.lines with
      | [] => .next s
      | l :: rest =>
        match trapOfLanes l.faults with
        | some t =>
          let tm' := i.writes.foldl Team.keepOld { tm with inflight := dropAt tm.inflight n, late := tm.late ++ [i] }
          moved (s.lateTrap team tm' t i.pc)
        | none =>
          let ws := (List.range i.writes.length).filterMap fun q => (i.writes[q]?).map (fillWrite l.bytes q)
          moved (s.updTeam team fun x => { x with inflight := upd x.inflight n fun y => { y with writes := ws, lines := rest } })

/-! ## The active set (R450-R452) -/

/-- Does a team that has not ended stand on a partition? -/
def State.standsAt (s : State) (place : Nat) (tm : Team) : Bool := tm.status != .gone && s.place tm == place && s.resident tm

/-- Does a queue keep a team of a fold waiting (R293, R295)? It goes on, too, where its instruction now traps. -/
def Queue.keeps (q : Queue) (fold : Nat) (k : QWait) (x : Nat) : Bool :=
  q.owner == some fold && match k with
    | .free => !q.closed && q.free < x
    | .take => !(q.k < q.a || q.drained)
    | .count => !(x ≤ q.a - q.k || q.closed)

/-- Does a node take the records that an emit of a team sends (R214, R453)? -/
def State.nodeTakes (s : State) (fd : Fold) (tm : Team) (job n f k : Nat) : Bool :=
  match (s.jobs[job]?).bind fun j => j.nodes[n]? with
  | none => true
  | some x => (s.gather job n fd.ctx x (recordsOf tm.w ((tm.vrefs f k 1).regs.map tm.getV))).isSome

/-- Does a team still wait? It found a wait when it last tried to issue, and what ends that wait has not come since (R42, R43,
R451): slots are too few, a register is not full, a counter, a channel pointer or a queue stands short, an engine has no room,
the meeting, the call or the claim is open. -/
def State.waits (s : State) (t : Nat) (tm : Team) : Bool :=
  match tm.wait with
  | .none => false
  | .slots n => s.slotsFree t tm < n
  | .source vs us => !(vs.all fun r => (tm.getV r).full) || !(us.all fun r => (tm.getU r).full)
  | .loads _ => !tm.inflight.isEmpty
  | .flags => tm.computing
  | .counter c n => n ≤ (tm.cc.getD c 0#16).toNat
  | .channel core ch x => match s.fold? tm.fold with
    | some fd => fd.chanPtr core ch < x
    | none => false
  | .engine (.node job n f k) => match s.fold? tm.fold with
    | some fd => !s.nodeTakes fd tm job n f k
    | none => false
  | .engine r => match s.fold? tm.fold with
    | some fd => !s.hasRoom fd tm r
    | none => false
  | .queue q k x => ((s.pad (s.padOf tm)).queues.getD q Queue.empty).keeps tm.fold k x
  | .full => 256 ≤ s.launchHeld (s.ctxOf tm)
  | .barrier | .move => tm.arrived.isSome
  | .syscall => tm.call.isSome
  | .claim => tm.claim.isSome

/-- Has a team a line in flight whose arrival will trap? DEDUCED (log entry 63): it issues nothing before, so that a replay
performs the load before every later access of the team (R171, R173). -/
def Team.doomed (tm : Team) : Bool := tm.inflight.any fun i => i.lines.any fun l => !l.faults.isEmpty

/-- Could a team issue in this clock: it runs, it is not spilled, and no wait stands that it has met or that the partition has found as it
looked at the team's next instruction (R450; log entry 104)? -/
def State.ready (s : State) (t : Nat) (tm : Team) : Bool := tm.status == .run && !tm.spilled && !tm.doomed && !s.waits t tm

/-- Teams of a partition, oldest first (R15), with their numbers. -/
def State.teamsOn (s : State) (place : Nat) : List (Nat × Team) :=
  (List.range s.teams.length).filterMap fun t => (s.team? t).bind fun tm => if s.standsAt place tm then some (t, tm) else none

/-- Free places of the active set go to the oldest ready pending teams. -/
def State.fillActive (s : State) (place : Nat) : State :=
  let ts := s.teamsOn place
  let room := 8 - ts.countP fun x => x.2.active
  ((ts.filter fun x => !x.2.active && s.ready x.1 x.2).take room).foldl
    (fun (s : State) x => s.updTeam x.1 fun tm => { tm with active := true, blocked := 0 }) s

/-- Free places of the active sets of several partitions are filled (R451). -/
def State.fillPlaces (s : State) (places : List Nat) : State := places.foldl State.fillActive s

/-- The partitions on which the teams of a fold stand. -/
def State.foldPlaces (s : State) (f : Fold) : List Nat := ((s.foldTeams f).map fun x => s.place x.2).eraseDups

/-- The ready active team of a partition whose last issue is oldest, ties to the older team (R452). -/
def State.pickTeam (s : State) (place : Nat) : Option Nat :=
  let rs := (s.teamsOn place).filter fun x => x.2.active && s.ready x.1 x.2
  (rs.find? fun x => rs.all fun y => x.2.lastIssue ≤ y.2.lastIssue).map (·.1)

/-- The team that issues next: of the partition of the current team the one that R452 chooses, else the current team, which tries
again. -/
def State.issuer (s : State) : Nat := ((s.team? s.cur).bind fun tm => s.pickTeam (s.place tm)).getD s.cur

/-- `ISSUE_SELECT` (R17, R68, R452). `clocks` clocks of the partition pass, in which a team that waits is blocked (R451), and its
next issue is chosen. -/
def execIssueSelect (place clocks : Nat) (s : State) : Out1 :=
  if Config.paddocks * 128 ≤ place then .next s
  else
    let ts := s.teamsOn place
    let s' := ts.foldl (fun (s : State) x => if x.2.active then
        s.updTeam x.1 fun tm => { tm with blocked := if s.waits x.1 x.2 then tm.blocked + clocks else 0 } else s)
      { s with cycles := (place, s.clock place + clocks) :: s.cycles.filter (·.1 != place) }
    let s' := s'.fillActive place
    let pick := (s'.pickTeam place).getD s'.cur
    moved { s' with cur := pick }

/-- The slots a wait is for (R42). -/
def Wait.need : Wait → Option Nat
  | .slots n => some n
  | _ => Option.none

/-- Blocks that count for the swap (R451). -/
def Wait.swaps : Wait → Bool
  | .source .. | .counter .. | .channel .. | .engine _ | .queue .. | .barrier | .syscall | .claim => true
  | .loads counts => counts
  | .none | .slots _ | .flags | .full | .move => false

/-- `SWAP_TO_PENDING` (R42, R451). -/
def execSwapToPending (place : Nat) (s : State) : Out1 :=
  let ts := s.teamsOn place
  let waiting := ts.any fun x => !x.2.active && s.ready x.1 x.2
  match ts.find? fun x => x.2.active && x.2.status == .run && s.waits x.1 x.2 &&
      (x.2.wait.need.isSome || (x.2.wait.swaps && 33 ≤ x.2.blocked && waiting)) with
  | none => .next s
  | some (t, _) =>
    let s := s.updTeam t fun tm => { tm with active := false, blocked := 0 }
    let room := 8 - (s.teamsOn place).countP fun x => x.2.active
    moved (((s.teamsOn place).filter fun x => x.1 != t && !x.2.active && s.ready x.1 x.2).take room |>.foldl
      (fun (s : State) x => s.updTeam x.1 fun tm => { tm with active := true, blocked := 0 }) s)

/-! ## Spilling (R43, R44) -/

/-- Does a team wait on slots still: those its instruction wants are not free? -/
def State.wantsSlots (s : State) (t : Nat) (tm : Team) : Bool :=
  match tm.wait.need with
  | some n => s.slotsFree t tm < n
  | none => false

/-- Does the pool hold the registers of a spilled team together with the slots that its instruction wants (R43; log entry 105)? -/
def State.returns (s : State) (t : Nat) (tm : Team) : Bool :=
  tm.held + max (tm.wait.need.getD 0) tm.wants ≤ s.slotsFree t { tm with vregs := [], stray := [], inflight := [] }

/-- Does a team wait for nothing but slots: its instruction's, or where it is spilled those of its registers? -/
def State.slotsOnly (s : State) (t : Nat) (tm : Team) : Bool := tm.wait.need.isSome || (tm.spilled && !s.waits t tm)

/-- Does a team wait on slots that are not there: for its instruction, or to return where it is spilled and waits for nothing else? -/
def State.lacksSlots (s : State) (t : Nat) (tm : Team) : Bool :=
  if tm.spilled then s.slotsOnly t tm && !s.returns t tm else s.wantsSlots t tm

/-- Does every team of a partition that runs wait? -/
def State.allWait (s : State) (place : Nat) : Bool :=
  (s.teamsOn place).all fun x => x.2.spilled || x.2.status != .run || s.waits x.1 x.2

/-- `SLOT_SPILL` (R43). Every team that runs waits, one of them on slots that are not free, the claimant: the youngest of the others
that holds its registers is spilled. -/
def execSlotSpill (place : Nat) (s : State) : Out1 :=
  if !s.allWait place then .next s
  else
    match (s.teamsOn place).find? fun x => s.lacksSlots x.1 x.2 with
    | none => .next s
    | some (c, _) =>
      match ((s.teamsOn place).filter fun x => x.1 != c && !x.2.spilled).getLast? with
      | none => .next s
      | some (t, tm) => if tm.inflight.isEmpty then moved (s.updTeam t fun x => { x with spilled := true }) else .next s

/-- The spilled team that returns next: the oldest, and where all the others wait the oldest that waits for nothing but slots (R43; log
entry 105). -/
def State.nextBack (s : State) (place : Nat) : Option (Nat × Team) :=
  let back := (s.teamsOn place).filter fun x => x.2.spilled
  match if s.allWait place then back.find? fun x => s.slotsOnly x.1 x.2 else none with
  | some x => some x
  | none => back.head?

/-- `SPILL_RESTORE` (R43). A spilled team returns once the pool holds its registers and the slots its waiting instruction wants. -/
def execSpillRestore (place : Nat) (s : State) : Out1 :=
  match s.nextBack place with
  | none => .next s
  | some (t, tm) => if s.returns t tm then moved (s.updTeam t fun x => { x with spilled := false }) else .next s

/-! ## The end of a team (R54-R56) -/

/-- A team ends: its registers, slots and windows are free. -/
def Team.ended (tm : Team) (now : Nat) : Team :=
  { tm with
    status := .gone, vregs := [], uregs := [], landings := [], stray := [], arms := [], calls := [], late := []
    wait := .none, active := false, spilled := false, arrived := none, call := none, claim := none
    stop := none, halt := none, before := 0, work := tm.ran + (now - tm.start) }

/-- A team ends: it releases what it holds, and a link row bound to a window of it is completed without effect (R56). -/
def State.endTeam (s : State) (t : Nat) : State :=
  let now := ((s.team? t).map fun tm => s.clock (s.place tm)).getD 0
  { s.updTeam t fun x => x.ended now with
    rows := s.rows.map fun r => match r.target with
      | .landing k _ => if k == t then { r with closed := true } else r
      | _ => r }

/-- `TEAM_END` (R55, R56, R211). A team that has issued its end and whose results are all complete. -/
def execTeamEnd (team : Nat) (s : State) : Out1 :=
  match s.team? team with
  | none => .next s
  | some tm =>
    if tm.status != .ending || !tm.inflight.isEmpty || !((s.fold? tm.fold).map (·.status == .resident)).getD false then .next s
    else
      moved (((s.endTeam team).fillActive (s.place tm)).meetCheck tm.fold)

/-! ## A fold moves (R66, R451) -/

/-- `FMOVE_TRANSFER` (R66). Every team of the fold has reached fmove and every completion counter is zero. The places that its teams leave
are filled at once (R451). -/
def execFmoveTransfer (fold : Nat) (s : State) : Out1 :=
  match s.fold? fold with
  | none => .next s
  | some f =>
    let live := s.live f
    let ready := fun (tm : Team) => tm.status == .run && tm.cc.all (· == 0#16) &&
      match tm.arrived with | some (.fmove _ _ _, _) => true | _ => false
    match live with
    | [] => .next s
    | (t, tm) :: _ =>
      -- engine work that an ended team issued is counted still, and holds the move (R66, R55)
      if f.status != .resident || !live.all (fun x => ready x.2) || !(s.foldTeams f).all (fun x => x.2.cc.all (· == 0#16)) then
        .next s
      else
        match tm.arrived with
        | some (.fmove _ mode val, sq) =>
          match s.moveTarget fold f mode val with
          | .error (tr, s) =>
            moved (s.updTeam t fun _ => { tm with arrived := none }.trap (s.env t tm) tr 4 (some sq))
          | .ok (p, s) =>
            let fail := moved (s.leaveMoves true f.paddock live)
            match p with
            | none => fail
            | some p =>
              if p == f.paddock || s.queueOpen fold f then fail
              else
                match s.canMove f p with
                | none => fail
                | some (sc, ac) =>
                  let old := s.foldPlaces f
                  let s := s.moveFold fold f p sc ac
                  moved ((s.leaveMoves false p (s.live f)).fillPlaces old)
        | _ => .next s

end Sys2Proof.Machine
end

