-- ==== Sys2Proof/Machine/Drover.lean ====
section
/-!
DEFINITION. Sys2Proof/Machine/Drover.lean: host queues and packets (R440-R442, R474, R475), dependences (R443), dispatch and
admission (R446-R449, R44, R45), the ends of folds and jobs (R55, R56, R61, R62, R444), and the coalescer (R59, R453).
-/
namespace Sys2Proof.Machine

/-! ## Host queues (R440-R442, R474, R475) -/

/-- Bus address of word `k` of a context's host queue. -/
def Ctx.hqWord (c : Ctx) (q k : Nat) : Nat := c.hqbase.toNat + 32 * q + 8 * k

/-- Word `k` of a context's host queue as its table holds it: of a block held decoded what its encode gives (R343). -/
def State.hq (s : State) (c q k : Nat) : Nat := s.plain64 ((s.ctx c).hqWord q k)

/-- Packets a host queue holds at most. -/
def State.hqSize (s : State) (c q : Nat) : Nat := 2 ^ (s.hq c q 1 % 32)

/-- May an address that a host gave be used: it lies in neither the on-chip nor the control space, which only the firmware and
context 0 reach (R315, R477)? DESIGN CHOICE (log entry 111): the access is not made where it does. -/
def hostMay (pa : Nat) : Bool := cacheable pa

/-- Is a host queue enabled, with a size that the manual allows, in a table that may be reached? -/
def State.hqOn (s : State) (c q : Nat) : Bool :=
  hostMay ((s.ctx c).hqWord q 3) && (s.hq c q 1).testBit 63 && s.hq c q 1 % 32 ≤ 16

/-- The blocks held decoded under a host queue's words are encoded before these are used (R343). -/
def State.hqSettle (s : State) (c q : Nat) : State := s.settle [((s.ctx c).hqWord q 0, 32)]

/-- A function's request ring after a write at BAR0 offset 0x1000 + 8q: base, size, doorbell (R479; log entry 96). -/
def FnRing.write (r : FnRing) (q : Nat) (value : BitVec 64) : FnRing :=
  match q with
  | 0 => { r with base := value }
  | 1 => { r with size := value.toNat }
  | 2 => { r with tail := value.toNat }
  | _ => r

/-- The contexts assigned to a function, by number (R474). -/
def State.ctxsOf (s : State) (fn : Nat) : List Nat := (List.range s.ctxs.length).filter fun c => (s.ctx c).fn == some fn

/-- Does the host reach the part: bring-up has ended (R485)? -/
def State.hostUp (s : State) : Bool := s.bring == 7

/-- A write to a doorbell of a context: the queue's tail, or the event of one that is ignored (R475). -/
def State.ringBell (s : State) (fn ctx q : Nat) (value : BitVec 64) : State :=
  let h := (s.ctx ctx).hostq.getD q ⟨0, 0⟩
  let s := s.hqSettle ctx q
  if s.hqOn ctx q && h.tail ≤ value.toNat && value.toNat ≤ h.tail + s.hqSize ctx q then
    (s.updCtx ctx fun c => { c with hostq := upd c.hostq q fun x => { x with tail := value.toNat } }).busWrite
      ((s.ctx ctx).hqWord q 2) (bytesOf 8 value.toNat)
  else s.log fn 8 9 (dwordOfNat (ctx % 64 + q * 256)) value

/-- `DOORBELL_WRITE` (R474, R475, R479). The value written at an offset of a function's BAR0 (log entry 96): its request ring, or in the
page of the i-th of its contexts a doorbell at 8q, or HQBASE at 0x100. -/
def execDoorbellWrite (fn offset : Nat) (value : BitVec 64) (s : State) : Out1 :=
  if !s.hostUp || offset % 8 != 0 then .next s
  else if offset < 0x10000 then
    if 0x1000 ≤ offset && offset < 0x1018 && fn < s.fnRings.length then
      moved { s with fnRings := upd s.fnRings fn fun r => r.write ((offset - 0x1000) / 8) value }
    else .next s
  else
    match (s.ctxsOf fn)[(offset - 0x10000) / 0x1000]? with
    | none => .next s
    | some ctx =>
      let o := offset % 0x1000
      if o == 0x100 then moved (s.updCtx ctx fun c => { c with hqbase := dwordOfNat (value.toNat / 512 * 512) })
      else if o < 128 then moved (s.ringBell fn ctx (o / 8) value)
      else .next s

/-- The checks of R441 on the words of a packet beyond those of R215, with the kernel it names. -/
def packetBad (w : Nat → Nat) (k : Kernel) : Bool :=
  let acc := bitsOf (w 11) 63 32
  let scr := bitsOf (w 11) 31 0
  let peak := bitsOf (w 12) 39 32
  let energy := bitsOf (w 12) 31 0
  bitsOf (w 7) 63 1 != 0 || bitsOf (w 8) 63 48 != 0 || w 8 % 8 != 0 || bitsOf (w 9) 63 48 != 0 || w 9 % 8 != 0 ||
    bitsOf (w 12) 63 40 != 0 || w 13 != 0 || w 14 != 0 || w 15 != 0 ||
    (scr != 0 && (scr % 4096 != 0 || Config.scratchBytes < scr || scr < k.scratch)) ||
    (acc != 0 && (acc % 8192 != 0 || Config.accBytes < acc || acc < k.acc)) || 80 < peak || 200000 < energy

/-- A value that replaces the kernel table's where it is not zero. -/
def orElse (x y : Nat) : Nat := if x == 0 then y else x

/-- The job of a packet of host queue `q`. -/
def packetJob (w : Nat → Nat) (ctx q index : Nat) (k : Kernel) : Job :=
  let j := jobOf w ctx q index k
  { j with
    events := j.events ++ (if w 8 == 0 then [] else [bitsOf (w 8) 47 0])
    deps := j.deps ++ (if w 9 == 0 then [] else [(bitsOf (w 9) 47 0, w 10, false)])
    barrier := (w 7).testBit 0
    scratch := orElse (bitsOf (w 11) 31 0) k.scratch
    acc := orElse (bitsOf (w 11) 63 32) k.acc
    energy := orElse (bitsOf (w 12) 31 0) k.energy
    peak := orElse (bitsOf (w 12) 39 32) k.peak }

/-- A kernel of nothing, for a packet that names none. -/
def Kernel.none : Kernel := ⟨0#48, 0, 32, 1, 1, 32, 0, 0, 0, 0, 0, [], 0, 0, []⟩

/-- `PACKET_READ` (R442). The next packet of a queue becomes a job; one that breaks the rules is discarded and its job will
fail with cause 0x1E, subcode 1. -/
def execPacketRead (ctx q : Nat) (s : State) : Out1 :=
  let h := (s.ctx ctx).hostq.getD q ⟨0, 0⟩
  let pa := s.hq ctx q 0 + 128 * (h.read % s.hqSize ctx q)
  if 16 ≤ q || (s.ctx ctx).fn.isNone || !s.hqOn ctx q || h.tail ≤ h.read || !hostMay pa then .next s
  else
    let s := (s.hqSettle ctx q).settle [(pa, 128)]
    let w (i : Nat) : Nat := s.bus64 (pa + 8 * i)
    let ks := (s.ctx ctx).kernels
    let s' := s.updCtx ctx fun c => { c with hostq := upd c.hostq q fun x => { x with read := x.read + 1 } }
    let good := match ks[bitsOf (w 0) 15 0]? with
      | some k => if launchBad w ks || packetBad w k then none else some k
      | none => none
    match good with
    | some k => moved (s'.addJob (packetJob w ctx q h.read k))
    | none =>
      let j := jobOf w ctx q h.read Kernel.none
      moved (s'.addJob { j with events := [], deps := [], failCause := (0x1E, 1) })

/-! ## Dependences (R443) -/

/-- The record of an event or dependence word that cannot be used: 0x13, subcode 0, or 0x14, subcode 1 (R62, R443). A word in the
on-chip or control space is one that the context may not use. -/
def wordRec (c k va : Nat) : FaultRec := asyncRec c k (if k == 0x14 then 1 else 0) (dwordOfNat va)

/-- Tests one dependence of a job: met, and the state after a word that cannot be read was reported, unless one for it was (`told`). -/
def State.testDep (s : State) (c : Nat) (told : List Nat) (d : Nat × Nat × Bool) : Bool × (Nat × Nat × Bool) × State :=
  let s := s.readSettle 0 c d.1 8
  match s.virt64 0 c d.1 with
  | .ok x => (d.2.1 ≤ x, d, s)
  | .error (k, _) =>
    (false, (d.1, d.2.1, true),
      if told.contains d.1 then s else s.postAsync c (wordRec c k d.1))

/-- Tests the dependences of a job: all met, the list after, the state after. -/
def State.testDeps (s : State) (c : Nat) (told : List Nat) : List (Nat × Nat × Bool) → Bool × List (Nat × Nat × Bool) × State
  | [] => (true, [], s)
  | d :: ds =>
    let r := s.testDep c told d
    let q := r.2.2.testDeps c (if r.2.1.2.2 then d.1 :: told else told) ds
    (r.1 && q.1, r.2.1 :: q.2.1, q.2.2)

/-- Tests one waiting job. -/
def State.testJob (s : State) (n : Nat) : State :=
  match s.jobs[n]? with
  | none => s
  | some j =>
    if j.status != .waiting || j.failCause != (0, 0) then s
    else
      let r := s.testDeps j.ctx ((j.deps.filter (·.2.2)).map (·.1)) j.deps
      r.2.2.updJob n fun x => { x with deps := r.2.1, status := if r.1 then .ready else .waiting, readyAt := s.moves }

/-- Tests every waiting job. -/
def State.testJobs (s : State) : State := (List.range s.jobs.length).foldl State.testJob s

/-- `DEPENDENCE_TEST` (R443). The drover tests after a completion event was incremented or an interval ended. -/
def execDependenceTest (s : State) : Out1 := if s.testDue then moved { s.testJobs with testDue := false } else .next s

/-! ## Dispatch (R442, R446, R59, R61, R215) -/

/-- Has a job begun to dispatch? -/
def Job.begun (j : Job) : Bool := j.status == .dispatching || j.ended

/-- Earlier jobs of the same queue of the same context. -/
def State.earlier (s : State) (n : Nat) (j : Job) : List Job :=
  (s.jobs.take n).filter fun i => i.ctx == j.ctx && i.queue == j.queue

/-- May a job begin to dispatch? Node teams' jobs are in no queue. -/
def State.mayDispatch (s : State) (n : Nat) (j : Job) : Bool :=
  j.status == .ready && j.failCause == (0, 0) &&
    (j.queue == nodeQueue || ((((s.earlier n j).getLast?).map Job.begun).getD true &&
      (!j.barrier || (s.earlier n j).all Job.ended)))

/-- Does one job come before another: higher priority, or ready earlier, or submitted earlier? -/
def jobBefore (a b : Nat × Job) : Bool :=
  b.2.prio < a.2.prio || (a.2.prio == b.2.prio && (a.2.readyAt < b.2.readyAt || (a.2.readyAt == b.2.readyAt && a.1 < b.1)))

/-- The jobs of the state with their numbers. -/
def State.jobList (s : State) : List (Nat × Job) := (List.range s.jobs.length).filterMap fun n => (s.jobs[n]?).map fun j => (n, j)

/-- The blocks held decoded under the launch data of a job are encoded before it is read (R343). -/
def State.launchSettle (s : State) (j : Job) : State :=
  let words (va n : Nat) : List Nat := (List.range (n / 4)).map fun i => va + 4 * i
  if s.decoded.isEmpty then s
  else ((if j.indirect then words j.shapeAddr 12 else []) ++ if j.args == 0 then [] else words j.args 192).foldl
    (fun (s : State) va => s.readSettle 0 j.ctx va 4) s

/-- `n` words of `b` bytes of a context's memory, none where one cannot be read. -/
def State.virtWords (s : State) (c va b : Nat) : Nat → Option (List Nat)
  | 0 => some []
  | n + 1 =>
    match s.translate 0 c va .read, s.virtWords c (va + b) b n with
    | .ok pa _, some rest => some (numOf (s.busRead pa b) :: rest)
    | _, _ => none

/-- The launch data read at dispatch: shape and arguments, or the subcode of cause 0x1E. -/
def State.launchData (s : State) (j : Job) : Except Nat ((Nat × Nat × Nat) × List DWord) :=
  let shape : Except Nat (Nat × Nat × Nat) :=
    if j.indirect then
      match s.virtWords j.ctx j.shapeAddr 4 3 with
      | some l => .ok (shapeOf j.dims (l.getD 0 0) (l.getD 1 0) (l.getD 2 0))
      | none => .error 5
    else .ok (j.x, j.y, j.z)
  match shape with
  | .error e => .error e
  | .ok x =>
    if shapeBad x then .error 3
    else if j.args == 0 then .ok (x, j.argVals)
    else
      match s.virtWords j.ctx j.args 8 24 with
      | some l => .ok (x, l.map dwordOfNat)
      | none => .error 5

/-- No paddock is reserved for a job's next fold any more (R449). -/
def State.unreserve (s : State) (job : Nat) : State :=
  { s with paddocks := s.paddocks.map fun (p : Paddock) => { p with reserved := if p.reserved == some job then none else p.reserved } }

/-- A job is to fail: it dispatches no further fold, and a reservation for one ends; the job whose node team it is fails with it. -/
def State.doom (s : State) (job : Nat) (cause : Nat × Nat) : State :=
  let mark (s : State) (n : Nat) : State :=
    (s.unreserve n).updJob n fun j => if j.failCause == (0, 0) && !j.ended then { j with failCause := cause } else j
  let s := mark s job
  match (s.jobs[job]?).bind (·.parent) with
  | some (root, _) => mark s root
  | none => s

/-- `JOB_DISPATCH` (R446). The job before all others that may begin reads its launch data; one that fails will end at
JOB_FAIL. -/
def execJobDispatch (job : Nat) (s : State) : Out1 :=
  match s.jobs[job]? with
  | none => .next s
  | some j =>
    if !s.mayDispatch job j || s.jobList.any (fun x => s.mayDispatch x.1 x.2 && jobBefore x (job, j)) then .next s
    else
      let c := s.ctx j.ctx
      if !j.nodes.isEmpty && (bitsOf (c.word 1) 60 48 < 4096 || c.coalSize == 0) then
        moved (s.doom job (0x1E, 4))
      else
        let s := s.launchSettle j
        match s.launchData j with
        | .error sub => moved (s.doom job (0x1E, sub))
        | .ok (x, args) =>
          moved (s.updJob job fun k => { k with status := .dispatching, x := x.1, y := x.2.1, z := x.2.2, argVals := args })

/-! ## Admission (R13, R40, R44, R45, R447-R449) -/

/-- Folds of a job. -/
def Job.total (j : Job) : Nat := j.x * j.y * j.z

/-- The kernel a job's folds run as: the table's with the job's resources; a node team has one team of the coalesce
count's width (R59). A reservation is at most the vector allotment times W/32 (R40). -/
def State.jobKernel (s : State) (j : Job) : Option Kernel :=
  ((s.ctx j.ctx).kernels[j.kernel]?).map fun k =>
    let k := { k with scratch := j.scratch, acc := j.acc, energy := j.energy, peak := j.peak }
    let k := match j.parent, j.nodes with
      | some _, n :: _ => { k with w := n.count, teams := 1 }
      | _, _ => k
    { k with slots := min k.slots (k.vregs * (k.w / 32)) }

/-- Teams, reserved slots and uniform registers of each partition of a paddock. -/
def State.loads (s : State) (p : Nat) : List (Nat × Nat × Nat) :=
  (List.range 128).map fun k =>
    let ts := s.teamsAt (p * 128 + k)
    (ts.length, (ts.map (·.resv)).sum, (ts.map (·.uregs.length)).sum)

/-- The partition with the fewest teams, ties to the lowest. -/
def leastAt (ls : List (Nat × Nat × Nat)) : Nat :=
  ((List.range ls.length).find? fun k => ls.all fun y => (ls.getD k (0, 0, 0)).1 ≤ y.1).getD 0

/-- Partitions for `n` teams, in team-index order, none where one finds no room (R447 items 1 and 2). -/
def placeTeams (slots unis : Nat) : Nat → List (Nat × Nat × Nat) → Option (List Nat)
  | 0, _ => some []
  | n + 1, ls =>
    let k := leastAt ls
    let x := ls.getD k (0, 0, 0)
    if 32 ≤ x.1 || Config.poolSlots < x.2.1 + slots || Config.poolUniform < x.2.2 + unis then none
    else (placeTeams slots unis n (upd ls k fun y => (y.1 + 1, y.2.1 + slots, y.2.2 + unis))).map fun r => k :: r

/-- Where a saved fold may be restored: the allocations on a paddock that takes it, with its queues' numbers free there. -/
def State.canRestore (s : State) (f : Fold) (p : Nat) : Option (List Alloc × List Alloc) :=
  if f.queues.all fun q => ((s.pad p).queues.getD q.1 Queue.empty).owner.isNone then s.canMove f p else none

/-- Where the next fold of a job fits on a paddock (R447), a paddock that could hold a saved fold of its context apart
(R426): the teams' partitions and the allocations. -/
def State.fits (s : State) (n : Nat) (j : Job) (k : Kernel) (p : Nat) : Option (List Nat × List Alloc × List Alloc) :=
  if !s.takes p (some n) k.energy k.peak then none
  else if s.folds.any fun f => f.ctx == j.ctx && f.status == .saved && (s.canRestore f p).isSome then none
  else
    match placeTeams k.slots k.gregs k.teams (s.loads p) with
    | none => none
    | some ks =>
      let cores := (List.range 4).filter fun c => ks.any fun q => q / 32 == c
      match s.allocs p false k.scratch cores, s.allocs p true k.acc cores with
      | some sc, some ac =>
        if s.saveHeld j.ctx + k.teams * teamArea k.w k.vregs k.gregs ≤ (s.ctx j.ctx).saveSize then some (ks, sc, ac) else none
      | _, _ => none

/-- Paddocks in the order of the scan for a context (R448). -/
def State.scan (s : State) (c : Nat) : List Nat :=
  let start := match (s.ctx c).last with | some p => p + 1 | none => c
  (List.range 32).map fun i => (start + i) % 32

/-- May a job's next fold be admitted at all? -/
def Job.more (j : Job) : Bool := j.status == .dispatching && j.failCause == (0, 0) && j.next < j.total

/-- The first paddock of the scan on which the next fold of a job fits. -/
def State.findPlace (s : State) (n : Nat) (j : Job) : Option (Kernel × Nat × List Nat × List Alloc × List Alloc) :=
  if !j.more then none
  else
    match s.jobKernel j with
    | none => none
    | some k => (s.scan j.ctx).findSome? fun p => (s.fits n j k p).map fun r => (k, p, r)

/-- Uniform registers at launch (R45, R59). -/
def launchRegs (j : Job) (k : Kernel) (idx : Nat) : List UReg :=
  let n := j.next
  let head := [idx, n, n % j.x, n / j.x % j.y, n / (j.x * j.y), k.w, k.teams,
    (j.z - 1) * 2 ^ 48 + (j.y - 1) * 2 ^ 32 + (j.x - 1)]
  (List.range k.gregs).map fun i =>
    ⟨if i < 8 then dwordOfNat (head.getD i 0) else if i < 32 then j.argVals.getD (i - 8) 0#64 else 0#64, true, none⟩

/-- A team at launch (R45). -/
def launchTeam (fold idx core part now : Nat) (active : Bool) (j : Job) (k : Kernel) : Team :=
  { fold := fold, idx := idx, w := k.w, core := core, part := part, pc := k.entry, pcOver := false, lastPc := k.entry
    vregs := List.replicate k.vregs (VReg.fresh k.w), uregs := launchRegs j k idx, resv := k.slots, fmt := 4#32, fx := 0#6
    flags := Flags.clear, slots := [none, none, none, none], arms := [], calls := [], cc := List.replicate 8 0#16
    landings := [], stray := [], inflight := [], late := [], status := .run, stop := none, wait := .none, waitAt := 0, wants := 0
    area := teamArea k.w k.vregs k.gregs, halt := none, before := 0, arrived := none, call := none, reply := none, claim := none, active := active, lastIssue := 0, blocked := 0, spilled := false
    stepOne := false, start := now, ran := 0, work := 0, unfenced := [] }

/-- The teams of a fold take their partitions, each active where the set has room (R450). -/
def State.addTeams (s : State) (fold p : Nat) (j : Job) (k : Kernel) : Nat → List Nat → State
  | _, [] => s
  | i, q :: qs =>
    let place := p * 128 + q
    let act := (s.teamsAt place).countP fun tm => tm.active
    let tm := launchTeam fold i (q / 32) (q % 32) (s.clock place) (act < 8) j k
    { s with teams := s.teams ++ [tm] }.addTeams fold p j k (i + 1) qs

/-- The next fold of a job is admitted to a paddock; its start is an acquire (R354), and its kernel's lines are pinned (R78). -/
def State.seat (s : State) (n : Nat) (j : Job) (k : Kernel) (p : Nat) (ks : List Nat) (sc ac : List Alloc) : State :=
  let fold := s.folds.length
  let f : Fold :=
    { ctx := j.ctx, job := n, linear := j.next, paddock := p, kernel := k
      teams := (List.range k.teams).map (s.teams.length + ·), scratch := sc, acc := ac, recs := [], chans := [], sched := 0
      phases := 0, iovf := [], prio := j.prio, status := .resident, victim := false, extra := [], broken := []
      marginHalts := 0, progress := true, seen := s.moves, idle := 0, left := false, killedBy := none, shared := [], released := []
      queues := [], image := [], tags := [], waiting := [] }
  let s := { s with folds := s.folds ++ [f] }.addTeams fold p j k 0 ks
  let s := (s.updJob n fun x => { x with next := x.next + 1, refusals := 0, refused := false, tryDue := false }).updCtx j.ctx fun c => { c with last := some p }
  let s := ac.foldl (fun (s : State) a => s.untag (accAddr (p * 4 + a.core) a.base) a.size) s
  (s.unreserve n).enterCores ((ks.map fun q => 4 * p + q / 32).eraseDups) j.ctx k

/-- A job whose next fold was found to fit no paddock, or to fit: the first refusal since an interval boundary counts as that boundary's
(R448, R449). -/
def Job.tried (j : Job) (refused : Bool) : Job :=
  if refused && j.tryDue then { j with refused := true, refusals := j.refusals + 1, tryDue := false } else { j with refused := refused }

/-- The drover tries every job's next fold again, at an interval boundary or as a fold ends: one that fits no paddock is refused until
the next time (R448). -/
def State.retryJobs (s : State) : State :=
  { s with jobs := s.jobs.zipIdx.map fun (x : Job × Nat) => x.1.tried (x.1.more && (s.findPlace x.2 x.1).isNone) }

/-- At an interval boundary: a fold that has been neither refused nor admitted since the last one is judged as it stands, so that its
refusals go on or begin anew, then every next fold is due to be tried (R448, R449). -/
def State.tryFolds (s : State) : State :=
  State.retryJobs { s with jobs := s.jobs.zipIdx.map fun (x : Job × Nat) =>
    let waits := x.1.more && (s.findPlace x.2 x.1).isNone
    let j := if x.1.tryDue || !x.1.more then { x.1 with refusals := if waits then x.1.refusals + 1 else 0 } else x.1
    { j with tryDue := x.1.more } }

/-- Does a job come before another whose fold is tried: it may begin to dispatch, or its fold is not refused and fits (R446)? -/
def State.goesFirst (s : State) (x y : Nat × Job) : Bool :=
  jobBefore x y && (s.mayDispatch x.1 x.2 || (!x.2.refused && (s.findPlace x.1 x.2).isSome))

/-- `FOLD_ADMIT` (R13, R446-R448). The drover tries the next fold of the job that comes before all others: it is admitted, or where it fits
no paddock refused until the next interval boundary or the end of a fold. -/
def execFoldAdmit (job : Nat) (s : State) : Out1 :=
  match s.jobs[job]? with
  | none => .next s
  | some j =>
    if !j.more || j.refused || s.jobList.any (fun x => s.goesFirst x (job, j)) then .next s
    else
      match s.findPlace job j with
      | none => moved (s.updJob job fun x => x.tried true)
      | some (k, p, ks, sc, ac) => moved (s.seat job j k p ks sc ac)

/-- Unclaimed energy of a paddock. -/
def State.unclaimed (s : State) (p : Nat) : Nat := (s.budget p).1 - (s.declared p).1

/-- `FOLD_RESERVATION` (R449). -/
def execFoldReservation (job : Nat) (s : State) : Out1 :=
  match s.jobs[job]? with
  | none => .next s
  | some j =>
    if !j.more || j.refusals < 64 || s.paddocks.any (fun p => p.reserved == some job) then .next s
    else
      let ps := (List.range 32).filter fun p => (s.pad p).reserved.isNone && !s.vacates.any (·.mask.getLsbD p)
      match ps.find? fun p => ps.all fun q => s.unclaimed q ≤ s.unclaimed p with
      | none => .next s
      | some p => moved (s.updPad p fun x => { x with reserved := some job })

/-! ## The end of a fold (R55, R56, R415) -/

/-- Entries of a table that a fold holds. -/
def Paddock.entriesOf (p : Paddock) (fold : Nat) : List Nat :=
  (List.range p.table.length).filter fun i => ((p.table[i]?).map fun e => e.live && e.fold == fold).getD false

/-- Has a fold engine work left? -/
def State.engineBusy (s : State) (n : Nat) (f : Fold) : Bool :=
  s.ops.any (fun o => o.live && o.fold == n) || !f.waiting.isEmpty || !((s.pad f.paddock).entriesOf n).isEmpty

/-- The batch slot of a node team's job is free again (R59), once: slot 64 stands for one given back. -/
def State.freeBatch (s : State) (job : Nat) : State :=
  match s.jobs[job]? with
  | some j => match j.parent with
    | some (root, slot) =>
      (s.updCtx j.ctx fun c => { c with batch := c.batch.filter (·.1 != slot) }).updJob job fun x => { x with parent := some (root, 64) }
    | none => s
  | none => s

/-- A fold is killed: its teams end, the places they leave being filled at once (R451), its engine work is abandoned, and its job will
fail (R415). -/
def State.killFold (s : State) (n : Nat) (f : Fold) (sub : Nat) : State :=
  let old := s.foldPlaces f
  let s := f.teams.foldl (fun (s : State) t => match s.team? t with
    | some tm => if tm.status == .gone then s else s.endTeam t
    | none => s) s
  let s := { s with ops := s.ops.map fun (o : EngOp) => if o.fold == n then { o with live := false } else o }
  let s := if f.status == .resident then
      ((s.pad f.paddock).entriesOf n).foldl (fun (s : State) i => s.freeEntry f.paddock i []) s
    else s
  let s := s.updPad f.paddock fun p => { p with claims := p.claims.filter (· != n) }
  let s := s.updFold n fun (x : Fold) =>
    { x with killedBy := some sub, victim := false, extra := [], broken := [], waiting := [], queues := [], image := [], tags := []
             status := if x.status == .saved then .ended else x.status }
  (((if f.status == .saved then (s.freeBatch f.job).retryJobs else s.unpin).doom f.job (0x3D, sub)).retryWaits).fillPlaces old

/-- `FOLD_END` (R55, R13, R62, R328, R437). Every team has ended and all engine work has completed. -/
def execFoldEnd (fold : Nat) (s : State) : Out1 :=
  match s.fold? fold with
  | none => .next s
  | some f =>
    if f.status != .resident || !(s.foldTeams f).all (fun x => x.2.status == .gone) || s.engineBusy fold f then .next s
    else
      let s := (s.leaveCores f).updFold fold fun x =>
        { x with status := .ended, victim := false, recs := [], chans := [], shared := [], released := [] }
      moved ((s.unpin.updPad f.paddock fun p => { p with claims := p.claims.filter (· != fold) }).freeBatch f.job).retryJobs

/-- `QUEUE_RELEASE` (R56). The fold that held a queue has ended and no link row opened into it is open. -/
def execQueueRelease (paddock q : Nat) (s : State) : Out1 :=
  let x := (s.pad paddock).queues.getD q Queue.empty
  let ended := ((x.owner.bind s.fold?).map fun f => f.status == .ended || f.killedBy.isSome).getD false
  let open_ := s.rows.any fun r => !r.closed && match r.target with | .queue p k _ => p == paddock && k == q | _ => false
  if !ended || open_ then .next s
  else moved (s.updPad paddock fun p => { p with queues := upd p.queues q fun _ => Queue.empty })

/-! ## The end of a job (R61, R62, R444) -/

/-- The folds of a job, and whether they have all ended. -/
def State.foldsEnded (s : State) (job : Nat) : Bool := s.folds.all fun f => f.job != job || f.status == .ended

/-- A completion event is incremented, upon which the drover tests dependences (R443), or its word reported (R62). -/
def State.bumpEvent (s : State) (c va : Nat) : State :=
  let s := s.walkSettle 0 c va
  match s.translate 0 c va .write with
  | .ok pa _ =>
    let s := s.settle [(pa, 8)]
    { s.busWrite pa (bytesOf 8 (s.bus64 pa + 1)) with testDue := true }
  | .fault k _ => s.postAsync c (wordRec c k va)

/-- The report of a host queue: leading packets whose jobs have ended, and how many of those failed. -/
def State.report (s : State) (c q : Nat) : State :=
  let pa := s.hq c q 3 / 16 * 16
  if 16 ≤ q || !hostMay ((s.ctx c).hqWord q 3) || !hostMay pa then s
  else
    let s := (s.hqSettle c q).settle [(pa, 16)]
    let lead := (s.jobs.filter fun j => j.ctx == c && j.queue == q).takeWhile Job.ended
    s.busWrite pa (bytesOf 8 lead.length ++ bytesOf 8 (lead.countP fun j => j.status == .failed))

/-- The node teams' jobs of a job. -/
def State.children (s : State) (job : Nat) : List (Nat × Job) := s.jobList.filter fun x => (x.2.parent.map (·.1)) == some job

/-- `JOB_COMPLETE` (R444, R61, R453). -/
def execJobComplete (job : Nat) (s : State) : Out1 :=
  match s.jobs[job]? with
  | none => .next s
  | some j =>
    if j.status != .dispatching || j.failCause != (0, 0) || j.next < j.total || !s.foldsEnded job ||
        j.nodes.any (fun n => !n.recs.isEmpty) || (s.children job).any (fun x => !x.2.ended) then .next s
    else
      let s := j.events.foldl (fun (s : State) va => s.bumpEvent j.ctx va) s
      moved ((s.updJob job fun x => { x with status := .done, reported := true }).report j.ctx j.queue)

/-- A node team's job that never started ends with its root (R444). -/
def State.dropChild (s : State) (x : Nat × Job) : State :=
  let s := s.folds.zipIdx.foldl (fun (s : State) y =>
    if y.1.job == x.1 && y.1.status != .ended then s.killFold y.2 y.1 0 else s) s
  if x.2.ended then s
  else
    let s := (s.unreserve x.1).updJob x.1 fun j => { j with status := .failed, failCause := (0x3D, 0) }
    if s.foldsEnded x.1 then s.freeBatch x.1 else s

/-- A job fails: its resident folds are killed and its record is posted. -/
def State.failJob (s : State) (job : Nat) (j : Job) : State :=
  let s := s.folds.zipIdx.foldl (fun (s : State) y =>
    if y.1.job == job && y.1.status != .ended && y.1.killedBy.isNone then s.killFold y.2 y.1 j.failCause.2 else s) s
  let s := (s.children job).foldl State.dropChild s
  let s := (s.unreserve job).updJob job fun x => { x with status := .failed, nodes := x.nodes.map fun n => { n with recs := [], areas := [] } }
  if j.parent.isSome then (if s.foldsEnded job then s.freeBatch job else s)
  else s.postAsync j.ctx (asyncRec j.ctx j.failCause.1 j.failCause.2 (dwordOfNat (j.queue + j.index * 256)))

/-- `JOB_FAIL` (R444). First the failure with its record; then, once the job's folds have ended, the queue's report. -/
def execJobFail (job : Nat) (s : State) : Out1 :=
  match s.jobs[job]? with
  | none => .next s
  | some j =>
    if j.failCause == (0, 0) || j.status == .done || j.reported then .next s
    else
      let s' := if j.status == .failed then s else s.failJob job j
      if s'.foldsEnded job then moved ((s'.updJob job fun x => { x with reported := true }).report j.ctx j.queue)
      else if j.status == .failed then .next s
      else moved s'

/-! ## The coalescer (R59, R453) -/

/-- The words of a batch's record: plain, element size 16, one row (R59, R158). -/
def batchRec (base bytes : Nat) : List Nat := [4 * 2 ^ 48 + base, 2 ^ 32 + bytes / 16, bytes, 0]

/-- The coalescer launches one node team over the first `n` records of a node, which stand in its first area. DESIGN CHOICE
(log entry 77): where the record-table entry cannot be written nothing is launched and nothing is posted. -/
def State.launchNode (s : State) (job : Nat) (j : Job) (node : Nat) (x : Node) (n : Nat) : Option State :=
  let c := s.ctx j.ctx
  match (List.range 64).find? (fun i => !c.batch.any (·.1 == i)), x.areas.head?, c.kernels[x.kernel]? with
  | some slot, some off, some k =>
    let entry := bitsOf (c.word 1) 47 0 + 32 * (4032 + slot)
    match s.virtPuts j.ctx entry (((batchRec (c.coalAddr off) (n * x.recSize)).map (bytesOf 8)).flatten) with
    | none => none
    | some s =>
      let child : Job :=
        { ctx := j.ctx, queue := nodeQueue, index := job, kernel := x.kernel, prio := j.prio, indirect := false, dims := 1
          x := 1, y := 1, z := 1, shapeAddr := 0, events := [], deps := [], args := 0
          argVals := [dwordOfNat (4032 + slot), dwordOfNat n, dwordOfNat x.recSize], barrier := false, scratch := k.scratch
          acc := k.acc, energy := k.energy, peak := k.peak, nodes := [{ x with recs := [], areas := [] }], next := 0
          refusals := 0, refused := false, tryDue := false, readyAt := 0, parent := some (job, slot), failCause := (0, 0), reported := false, status := .waiting }
      let s := s.updJob job fun y => { y with nodes := upd y.nodes node fun z =>
        { z with recs := z.recs.drop n, areas := z.areas.drop 1 } }
      some ((s.updCtx j.ctx fun y => { y with batch := y.batch ++ [(slot, off, x.count * x.recSize)] }).addJob child)
  | _, _, _ => none

/-- `COALESCER_LAUNCH` (R59). A coalesce count of records has gathered. -/
def execCoalescerLaunch (job node : Nat) (s : State) : Out1 :=
  match s.jobs[job]? with
  | none => .next s
  | some j =>
    match j.nodes[node]? with
    | none => .next s
    | some x =>
      if j.parent.isSome || j.failCause != (0, 0) || x.recs.length < x.count || x.count == 0 then .next s
      else
        match s.launchNode job j node x x.count with
        | some s' => moved s'
        | none => .next s

/-- `JOB_FLUSH_LAUNCH` (R59). Every producer of the node has ended: the job's folds, its node teams, and the nodes before. -/
def execJobFlushLaunch (job node : Nat) (s : State) : Out1 :=
  match s.jobs[job]? with
  | none => .next s
  | some j =>
    match j.nodes[node]? with
    | none => .next s
    | some x =>
      if j.parent.isSome || j.failCause != (0, 0) || j.status != .dispatching || j.next < j.total || !s.foldsEnded job ||
          (s.children job).any (fun c => !c.2.ended) || x.recs.isEmpty || x.count ≤ x.recs.length ||
          (j.nodes.take node).any (fun n => !n.recs.isEmpty) then .next s
      else
        match s.launchNode job j node x x.recs.length with
        | some s' => moved s'
        | none => .next s

end Sys2Proof.Machine
end

