-- ==== Sys2Proof/Machine/LaneScratch.lean ====
section
/-!
DEFINITION. Sys2Proof/Machine/LaneScratch.lean: lane access to scratch and the accumulator store (R184-R188).
-/
namespace Sys2Proof.Machine

/-- A scratch or accumulator instruction (R185): `acc` the accumulator store, `bcast` vbld. -/
structure StoreOp where
  i : BitVec 7
  wi : Bool
  g : BitVec 7
  d : BitVec 7
  wd : Bool
  store : Bool
  acc : Bool
  bcast : Bool
  keep : Bool
  deriving DecidableEq, Repr

/-- Registers of an element of a width code (R184). -/
def widthRegs (x : Nat) : Nat := 2 ^ bitsOf x 63 62

/-- The lanes of a scratch or accumulator instruction: lane and byte offset in the allocation. -/
def StoreOp.offsets (m : StoreOp) (w base : Nat) (idx : List (Option Word)) (data : List (List (Option Word))) :
    List (Nat × Nat) :=
  (List.range w).filterMap fun j =>
    match idx.getD j none with
    | none => none
    | some x =>
      if m.store && !(data.all fun ls => (ls.getD j none).isSome) then none
      else some (j, if m.bcast then base else base + x.toNat)

/-- Writes lanes into a core's store. Bytes that counted engine work writes too (`counted`) are left unspecified once both have written
them: here where the work has (`wrote`), else as it does (R188). -/
def State.putLanes (s : State) (counted : List (Nat × Nat)) (wrote : Nat → Bool) : List (Nat × List Byte) → State
  | [] => s
  | x :: xs =>
    let bs := (List.range x.2.length).map fun i =>
      if inRegions counted (x.1 + i) && wrote (x.1 + i) then Config.freeByte s.moves (x.1 + i) else x.2.getD i 0#8
    let hit := ((List.range x.2.length).map fun i => x.1 + i).filter (inRegions counted)
    { (s.busWrite x.1 bs).putLanes counted wrote xs with
      tainted := ((s.busWrite x.1 bs).putLanes counted wrote xs).tainted ++ hit }

/-- The old bytes a team's writes replace, kept until its mopfence (R262). -/
def Team.noteOld (tm : Team) (s : State) (runs : List (Nat × Nat)) : Team :=
  { tm with unfenced := runs.foldl (fun l r => (List.range r.2).foldl (fun l i =>
      if l.any (·.1 == r.1 + i) then l else (r.1 + i, s.busByte (r.1 + i)) :: l) l) tm.unfenced }

/-- A team that reads bytes which other teams of its fold wrote observes those writes: its mopfence covers them too (R282). -/
def State.observe (s : State) (tm : Team) (runs : List (Nat × Nat)) : Team :=
  { tm with unfenced := addOld tm.unfenced ((s.teams.filter fun x => x.fold == tm.fold).map fun x =>
      x.unfenced.filter fun y => inRegions runs y.1).flatten }

/-- A scratch or accumulator instruction of the team (R184-R188). DESIGN CHOICE: STRICT compares the index with each data register
as a source of its own (log entry 74); a store over a part of a poisoned word of a core's store neither traps nor clears the
poison (log entry 83). -/
def storeExec (m : StoreOp) (s : State) : Out1 :=
  foldStep s fun e fd tm =>
    let full (r : VRef) : Bool := (tm.getV r).full
    let vi := tm.vrefs m.i.toNat 1 1
    let gr := tm.uref m.g.toNat false
    let desc := ((gr.regs.map tm.opnd).headD 0#64).toNat
    let bad := bitsOf desc 61 34 != 0 || bitsOf desc 63 62 == 3
    -- a descriptor that cannot be read, or is poisoned (R460), names nothing to check
    let ill := (gr.regs.filterMap tm.opndPoison).map poisonCode
    let lost := !gr.causes.isEmpty || !ill.isEmpty
    let k := if bad || lost then 1 else widthRegs desc
    let ds := if m.store then tm.vrefs m.d.toNat k k else (tm.vrefs m.d.toNat k k).written
    let past := if m.acc then 0x1A else 0x19
    let trap (t : Trap) : Out1 := stepped s (tm.trap e t 4 none)
    if (!m.wi && !vi.regs.all full) || !gr.regs.all tm.opndFull || (!m.wd && !ds.regs.all full) then
      stepped s (tm.block e (tm.await ((if m.wi then [] else vi.regs) ++ if m.wd then [] else ds.regs) gr.regs))
    else
      let regs := ds.regs.map tm.getV
      let iv := tm.getV (vi.regs.headD (.team 0))
      let maps := (iv.lanes :: (if m.store then regs.map (·.lanes) else [])).map (List.map (Option.map BitVec.toNat))
      let issue := vi.causes ++ gr.causes ++ ds.causes ++
        causeIf ((m.wi && !vi.regs.all full) || (m.wd && !ds.regs.all full)) 0x06
      let compared := (vi.regs ++ if m.store then ds.regs else []).map fun x => (tm.getV x).lanes.map (Option.map BitVec.toNat)
      let causes := issue ++ causeIf ((fmtEnv tm.fmt).strict && mapsDiffer compared) 0x07 ++
        causeIf (!lost && bad) past ++ ill
      match Trap.ofCauses causes with
      | some t => trap (if t.cause == past then { t with sub := 1, detail := dwordOfNat (bitsOf desc 33 0) }
          else if ill.contains t.cause then { t with map := (List.range tm.w).filter fun j => maps.all fun ls => (ls.getD j none).isSome } else t)
      | none =>
        let lanes := m.offsets tm.w (descOff desc) iv.lanes (regs.map (·.lanes))
        let met := poisonMet tm [if m.bcast then [] else vi.regs, if m.store then ds.regs else []] [.table, .table] maps
          (lanes.map (·.1))
          -- a lane whose offset is poisoned names no bytes; the other lanes are checked with it (R408, R460)
          let known := lanes.filter fun x => m.bcast || !(iv.poison.any (·.1 == x.1))
          let core := descCore desc
          let b := 4 * k
          let allocs := if m.acc then fd.acc else fd.scratch
          let fs := met.map (fun p => (p.1, poisonCode p.2, 0, 0)) ++ (known.map fun x =>
            (if x.2 % b != 0 then [(x.1, 0x15, 0, 0)] else []) ++
              (if inAlloc allocs core x.2 b then [] else [(x.1, past, 0, bitsOf desc 33 0)])).flatten
          match trapOfLanes fs with
          | some t => trap t
          | none =>
            let pa (off : Nat) : Nat := if m.acc then fd.accPa core off else fd.scratchPa core off
            if m.store then
              let xs := lanes.map fun x => (pa x.2, laneBytes regs x.1 b)
              let runs := xs.map fun x => (x.1, b)
              let s' := ((s.keepOlds runs).putLanes (if m.acc then s.accWritten tm.fold fd else [])
                (s.accWrote tm.fold fd) xs).clearPoison runs
              let s' := if m.acc then runs.foldl (fun s r => s.untag r.1 r.2) s' else s'
              stepped s' (((tm.noteOld s runs).goto (tm.pc.toNat + 4)).retired e)
            else
              let touched := if m.acc then s.accTouched tm.fold fd else []
              let bytes (off : Nat) : List Byte := (List.range b).map fun i =>
                if inRegions touched (pa off + i) then Config.freeByte s.moves (pa off + i)
                else if m.acc then s.accByte fd.paddock (pa off + i) else s.busByte (pa off + i)
              let ps := (lanes.map fun x => (s.poisonIn (pa x.2) b).map fun p => (x.1, p)).flatten
              match poisonTrap ps with
              | some t => trap t
              | none =>
                let vals := lanes.map fun x => (x.1, bytes x.2)
                let ws := colWrites tm m.keep ds.regs ((List.range k).map (colLanes tm.w vals))
                if e.slots < slotsDrawn tm ws then stepped s (tm.block e (.slots (slotsDrawn tm ws)))
                else stepped s ((((s.observe tm (lanes.map fun x => (pa x.2, b))).results e.overlap ws [] false).goto (tm.pc.toNat + 4)).retired e)

/-- `VLDS` (R185). -/
def execVlds (d i g : BitVec 7) (wa k : Bool) (s : State) : Out1 :=
  storeExec ⟨i, wa, g, d, false, false, false, false, k⟩ s

/-- `VSTS` (R185). -/
def execVsts (s i g : BitVec 7) (wa wb : Bool) (st : State) : Out1 :=
  storeExec ⟨i, wa, g, s, wb, true, false, false, false⟩ st

/-- `VBLD` (R185). -/
def execVbld (d i g : BitVec 7) (wa k : Bool) (s : State) : Out1 :=
  storeExec ⟨i, wa, g, d, false, false, false, true, k⟩ s

/-- `VLDACC` (R185). -/
def execVldacc (d i g : BitVec 7) (wa k : Bool) (s : State) : Out1 :=
  storeExec ⟨i, wa, g, d, false, false, true, false, k⟩ s

/-- `VSTACC` (R185). -/
def execVstacc (s i g : BitVec 7) (wa wb : Bool) (st : State) : Out1 :=
  storeExec ⟨i, wa, g, s, wb, true, true, false, false⟩ st

end Sys2Proof.Machine
end

