-- ==== Sys2Proof/Machine/EngineWork.lean ====
section
/-!
DEFINITION. Sys2Proof/Machine/EngineWork.lean: the work of mzero, mdrain, wtab and the copy channels (R277-R286), their
faults (R269), and coded blocks in the L2 (R341-R343).
-/
namespace Sys2Proof.Machine

/-! ## Operations and their ends -/

/-- A live operation of a kind, with its fold in place; `stops` for work that a victim's stop holds at a boundary (R424). -/
def State.liveOp (s : State) (n : Nat) (stops : Bool) : Option (EngOp × Fold) :=
  match s.ops[n]? with
  | none => none
  | some o =>
    match s.fold? o.fold with
    | none => none
    | some f => if o.live && f.status == .resident && !(stops && f.victim) then some (o, f) else none

/-- An operation completes: its counter falls (R268). -/
def State.opDone (s : State) (n : Nat) (o : EngOp) : State :=
  (((s.updOp n fun x => { x with live := false }).ccFall o.team o.cc).updFold o.fold fun f => { f with progress := true }).retryWaits

/-- An operation is abandoned: its fold halts and the counter stays (R269). -/
def State.opFault (s : State) (n : Nat) (o : EngOp) (cause sub : Nat) (detail : DWord) : State :=
  ((s.updOp n fun x => { x with live := false, fault := some (cause, sub, detail) }).engineStop o.team cause sub detail o.pc o.block
    (.op n)).retryWaits

/-- Marks the unit of a byte poisoned, as data that carries poison is written (R460). -/
def State.addPoison (s : State) : List (Nat × List Poison) → State
  | [] => s
  | x :: xs =>
    { s with poison := s.poison ++ (x.2.map fun p => (x.1 / 8, p)).filter fun p => !s.poison.contains p }.addPoison xs

/-! ## mzero (R277) -/

/-- The bytes of an mzero up to byte `upto` of it are written, those that stand already apart (R424). -/
def State.zeroUpTo (s : State) (f : Fold) (o : EngOp) (upto : Nat) : State :=
  let pa := f.accPa (descCore (blk o.block 0)) (descOff (blk o.block 0)) + o.done
  let n := upto - o.done
  if n == 0 then s else ((s.engineWrite pa (List.replicate n 0#8)).clearPoison [(pa, n)]).untag pa n

/-- `MZERO_COMPLETE` (R277). -/
def execMzeroComplete (op : Nat) (s : State) : Out1 :=
  match s.liveOp op true with
  | none => .next s
  | some (o, f) =>
    if o.kind != .mzero then .next s
    else
      let s := s.zeroUpTo f o (bitsOf (blk o.block 1) 20 0)
      moved ((s.updFold o.fold fun x => { x with iovf := x.iovf.filter (· != descCore (blk o.block 0)) }).opDone op o)

/-! ## mdrain (R278-R281) -/

/-- The outputs of a drain with the status bits nan, inexact, range; or the fault of reading its source or scales. -/
def State.drainVals (s : State) (f : Fold) (o : EngOp) : Except EngErr (List Conv) :=
  let x := drainBlk o.block
  let pasture := pastureOf f.paddock
  let src := f.accPa (descCore x.src) (descOff x.src)
  let n := x.rows * x.cols
  let accFmt := [8, 9, 10, 11].getD x.acctype 8
  match poisonTrap ((s.poisonIn src (n * x.accSize)).map fun p => (0, p)) with
  | some t => .error (t.cause, 0, 0)
  | none =>
    let scales := if x.scales then
        match s.recOfFold f x.scale with
        | some r => s.recBytes pasture f.ctx r 0 (4 * x.cols)
        | none => .ok []
      else .ok []
    match scales with
    | .error e => .error e
    | .ok sb =>
      .ok ((List.range n).map fun e =>
        let c := numOf (s.drainRead f (src + e * x.accSize) x.accSize)
        let v := codeVal accFmt c
        if !x.scales && ((x.acctype == 0 && x.fmt == 8) || (x.acctype == 1 && x.fmt == 9)) then
          ⟨c, x.acctype == 0 && v.isNan, false, false, false⟩
        else
          let v := if x.scales then (fprod v (fdec fF32 (fieldOf sb (4 * (e % x.cols)) 4))).2 else v
          convert x.fmt (rmOf x.round) x.sat v)

/-- The blocks of elements of a coded record, each stored once. -/
def State.putCoded (s : State) (pasture c : Nat) (r : Rec) (first : Nat) (codes : List Nat) : State × Option EngErr :=
  let s := s.walkSettles pasture c (r.touched 1 ((List.range codes.length).map (first + ·)))
  let go := (List.range codes.length).foldl (fun (acc : List (Piece × Nat) × Option EngErr) i =>
    match acc.2 with
    | some _ => acc
    | none =>
      match s.pieces pasture c .write (r.ranges (first + i) 1) with
      | .ok (p :: _) => (acc.1 ++ [(p, codes.getD i 0)], none)
      | .ok [] => acc
      | .error es =>
        let x := firstFault es
        (acc.1, some (xlatErr x.1 x.2.1 x.2.2 true))) ([], none)
  -- a block of which a landing window refuses a byte (R317), or that is written in part where a merge would read what is poisoned (R166),
  -- ends the drain
  let bs := groupBlocks go.1
  let ends (b : BlockStore) : Option EngErr :=
    match (b.segs.map fun r => (List.range r.2).filterMap fun k => s.landRefusal (r.1 + k)).flatten.head? with
    | some e => some (0x1B, e.1, e.2)
    | none => if b.whole then none else (memPoison (s.poisonRuns b.segs)).map fun k => (k, 0, 0)
  let good := bs.takeWhile fun b => (ends b).isNone
  let met := (bs.drop good.length).head?.bind ends
  (s.storeBlocks c r good, if met.isSome then met else go.2)

/-- The outputs `vs` of a drain from byte `o.done` on are written: the state after those written, and the fault that ended it. -/
def State.drainOut (s : State) (f : Fold) (o : EngOp) (vs : List Conv) : State × Option EngErr :=
  let x := drainBlk o.block
  let b := outBytes x.fmt
  if x.toRec then
    match s.recOfFold f (bitsOf x.dst 11 0) with
    | none => (s, none)
    | some r =>
      let first := bitsOf x.dst 43 12 + o.done / b
      if r.coded then s.putCoded (pastureOf f.paddock) f.ctx r first (vs.map (·.code))
      else s.recWrite (pastureOf f.paddock) f.ctx r (first * b) ((vs.map fun v => bytesOf b v.code).flatten)
  else
    let pa := f.scratchPa (descCore x.dst) (descOff x.dst) + o.done
    ((s.engineWrite pa ((vs.map fun v => bytesOf b v.code).flatten)).clearPoison [(pa, vs.length * b)], none)

/-- The status bits of outputs (R280). -/
def drainFlags (vs : List Conv) : Nat :=
  (if vs.any (·.nan) then 8 else 0) + (if vs.any (·.inexact) then 4 else 0) + (if vs.any (·.range) then 2 else 0)

/-- The status bits of a drain before its next outputs: those of the outputs written, with the sticky overflow bit as it stood when
the drain began, which is now where none has been written (R280). -/
def EngOp.statusSoFar (o : EngOp) (f : Fold) : Nat :=
  o.held.getD (if f.iovf.contains (descCore (drainBlk o.block).src) then 1 else 0)

/-- A word of 8 bytes written to a context's memory, which cures its poison (R460). -/
def State.putWord (s : State) (pasture c va x : Nat) : State × Option EngErr :=
  let r := s.virtPutAll pasture c va (bytesOf 8 x)
  match r.2, s.translate pasture c va .write with
  | none, .ok pa _ => (r.1.clearPoison [(pa, 8)], none)
  | e, _ => (r.1, e)

/-- The blocks held decoded under a drain's scales are encoded before they are read (R343). -/
def State.scaleSettle (s : State) (f : Fold) (o : EngOp) : State :=
  let x := drainBlk o.block
  if !x.scales then s
  else match s.recOfFold f x.scale with
    | some r => s.settleRec (pastureOf f.paddock) f.ctx r 0 (4 * x.cols)
    | none => s

/-- A whole drain: the state it leaves, and the fault that ended it. -/
def State.drain (s : State) (f : Fold) (o : EngOp) : State × Option EngErr :=
  let s := s.scaleSettle f o
  match s.drainVals f o with
  | .error e => (s, some e)
  | .ok vs =>
    let vs := vs.drop (o.done / outBytes (drainBlk o.block).fmt)
    match s.drainOut f o vs with
    | (s, some e) => (s, some e)
    | (s, none) =>
      let x := drainBlk o.block
      if x.status == 0 then (s, none)
      else s.putWord (pastureOf f.paddock) f.ctx x.status (o.statusSoFar f ||| drainFlags vs)

/-- `MDRAIN_COMPLETE` (R278-R280). -/
def execMdrainComplete (op : Nat) (s : State) : Out1 :=
  match s.liveOp op true with
  | none => .next s
  | some (o, f) =>
    if o.kind != .mdrain then .next s
    else
      match s.drain f o with
      | (_, some _) => .next s
      | (s', none) => moved (s'.opDone op o)

/-! ## wtab (R283, R305) -/

/-- The blocks held decoded under the table that a wtab reads are encoded first (R343). -/
def State.tableSettle (s : State) (f : Fold) (o : EngOp) : State :=
  match s.recOfFold f (bitsOf (blk o.block 1) 11 0) with
  | some r => s.settleRec (pastureOf f.paddock) f.ctx r 0 512
  | none => s

/-- The frequencies a wtab loads, or its fault. -/
def State.tableLoad (s : State) (f : Fold) (o : EngOp) : Except EngErr (List Nat) :=
  match s.recOfFold f (bitsOf (blk o.block 1) 11 0) with
  | none => .ok []
  | some r =>
    match s.recBytes (pastureOf f.paddock) f.ctx r 0 512 with
    | .error e => .error e
    | .ok bs =>
      let fs := (List.range 256).map fun i => fieldOf bs (2 * i) 2
      if fs.sum == 4096 then .ok fs else .error (0x22, 0, bitsOf (blk o.block 0) 3 0)

/-- `WTAB_LOAD_COMPLETE` (R283). -/
def execWtabLoadComplete (op : Nat) (s : State) : Out1 :=
  match s.liveOp op false with
  | none => .next s
  | some (o, f) =>
    if o.kind != .wtab then .next s
    else
      let s' := s.tableSettle f o
      match s'.tableLoad f o with
      | .error _ => .next s
      | .ok fs =>
        let s := s'
        let t := bitsOf (blk o.block 0) 3 0
        moved ((s.updCtx f.ctx fun c => { c with tables := (t, fs) :: c.tables.filter (·.1 != t) }).opDone op o)

/-! ## Copies (R284-R286) -/

/-- Bytes of a side from byte `b` on, with the poison they carry. -/
def State.sideRead (s : State) (f : Fold) (x : Side) (b : Nat) : Nat → Except EngErr (List (Byte × List Poison))
  | 0 => .ok []
  | n + 1 =>
    let one := match x.kind with
      | 0 =>
        match s.recOfFold f (bitsOf x.x 11 0) with
        | some r => s.virtByte (pastureOf f.paddock) f.ctx (r.byteAddr (bitsOf x.x 43 12 * r.size + b))
        | none => .ok (0#8, [])
      | k =>
        let pa := if k == 1 then f.scratchPa (descCore x.x) (descOff x.x + b) else f.accPa (descCore x.x) (descOff x.x + b)
        .ok (s.busByte pa, s.poisonIn pa 1)
    match one, s.sideRead f x (b + 1) n with
    | .error e, _ => .error e
    | .ok _, .error e => .error e
    | .ok y, .ok ys => .ok (y :: ys)

/-- Bytes delivered into a landing window; bytes for a window that was released go nowhere (R56). A byte that the window refuses
stays unwritten and ends the delivery, those before it standing (R317): how many were delivered, the state, the subcode. DESIGN
CHOICE (log entry 75): where a team of the fold has bound the window of that partition anew meanwhile, the bytes land in the new
binding. -/
def State.landLine (s : State) (place win off fold : Nat) : List (Byte × List Poison) → Nat × State × Option Nat
  | [] => (0, s, none)
  | x :: xs =>
    let mine := match (s.landTeam place win).bind s.team? with
      | some tm => if tm.fold == fold then (if tm.landings.any fun l => l.window == win && l.byRow then some false else some true) else none
      | none => none
    let one : Except Nat State := match mine with
      | none => .ok s
      | some false => .error 1
      | some true => s.landWrite place win off x.1 x.2 true false
    match one with
    | .error n => (0, s, some n)
    | .ok s' =>
      let r := s'.landLine place win (off + 1) fold xs
      (r.1 + 1, r.2)

/-- Bytes delivered to a record from byte `b` of it on, each with the poison it carries: how many, the state, the fault that ended
them. -/
def State.recDeliver (s : State) (f : Fold) (r : Rec) (b : Nat) : List (Byte × List Poison) → Nat × State × Option EngErr
  | [] => (0, s, none)
  | x :: xs =>
    let pasture := pastureOf f.paddock
    match s.virtPut pasture f.ctx (r.byteAddr b) x.1 with
    | .error e => (0, s, some e)
    | .ok s' =>
      let y := s'.recDeliver f r (b + 1) xs
      (y.1 + 1, y.2)

/-- Bytes delivered to a side from byte `b` on: how many, the state after, and the fault that ended them. -/
def State.sideWrite (s : State) (fold : Nat) (f : Fold) (x : Side) (b : Nat) (bs : List (Byte × List Poison)) :
    Nat × State × Option EngErr :=
  let bytes := bs.map (·.1)
  let onCore (pa : Nat) (acc : Bool) : State :=
    let old := (List.range bytes.length).map fun i => (pa + i, s.busByte (pa + i))
    let s' := (s.engineWrite pa bytes).clearPoison [(pa, bytes.length)]
    let s' := s'.addPoison ((List.range bs.length).map fun i => (pa + i, (bs.getD i (0#8, [])).2))
    let s' := s'.updFold fold fun y => { y with shared := y.shared ++ old.filter fun o => !y.shared.any (·.1 == o.1) }
    if acc then s'.untag pa bytes.length else s'
  match x.kind with
  | 0 =>
    match s.recOfFold f (bitsOf x.x 11 0) with
    | none => (bs.length, s, none)
    | some r =>
      let b0 := bitsOf x.x 43 12 * r.size + b
      let d := s.recDeliver f r b0 bs
      let pas := s.recPas (pastureOf f.paddock) f.ctx r b0 d.1
      let t := if r.enc == 4 then d.2.1.compress 4 pas else d.2.1
      (d.1, (t.clearPoison pas).addPoison ((pas.zip bs).map fun p => (p.1.1, p.2.2)), d.2.2)
  | 1 => (bs.length, onCore (f.scratchPa (descCore x.x) (descOff x.x + b)) false, none)
  | 2 => (bs.length, onCore (f.accPa (descCore x.x) (descOff x.x + b)) true, none)
  | _ =>
    let (core, part, win, off) := x.landing
    let r := s.landLine (placeOf f.paddock core part) win (off + b) fold bs
    (r.1, r.2.1, r.2.2.map fun n => (0x1B, n, win + part * 2 ^ 8))

/-- Bytes of a copy. -/
def copyLen (o : EngOp) : Nat := bitsOf (blk o.block 2) 31 0

/-- Has an earlier copy of the fold on the channel bytes left to deliver (R270)? -/
def State.copyHeld (s : State) (n : Nat) (o : EngOp) : Bool :=
  (List.range n).any fun k => ((s.ops[k]?).map fun p =>
    p.live && p.kind == .copy && p.fold == o.fold && p.core == o.core && p.ring == o.ring && p.done < copyLen p).getD false

/-- A copy's write pointer passes the bytes it has delivered (R286). -/
def State.advance (s : State) (o : EngOp) (n : Nat) : State :=
  s.updFold o.fold fun x =>
    { x with chans := x.chans.map fun c => if c.core == o.core && c.ch == o.ring then { c with ptr := c.ptr + n } else c }

/-- The next line of a copy: the bytes it delivers, the state after with the write pointer past them, and its fault. -/
def State.copyLine (s : State) (f : Fold) (o : EngOp) : Nat × State × Option EngErr :=
  let n := min 64 (copyLen o - o.done)
  let src := sideOf (blk o.block 0)
  let s := if src.kind == 0 then
      match s.recOfFold f (bitsOf src.x 11 0) with
      | some r => s.settleRec (pastureOf f.paddock) f.ctx r (bitsOf src.x 43 12 * r.size + o.done) n
      | none => s
    else s
  match s.sideRead f src o.done n with
  | .error e => (0, s, some e)
  | .ok bs =>
    let r := s.sideWrite o.fold f (sideOf (blk o.block 1)) o.done bs
    (r.1, r.2.1.advance o r.1, r.2.2)

/-- `COPY_LINE_DELIVER` (R286). -/
def execCopyLineDeliver (op : Nat) (s : State) : Out1 :=
  match s.liveOp op true with
  | none => .next s
  | some (o, f) =>
    if o.kind != .copy || copyLen o ≤ o.done || s.copyHeld op o then .next s
    else
      match s.copyLine f o with
      | (_, _, some _) => .next s
      | (n, s', none) => moved (s'.updOp op fun x => { x with done := o.done + n })

/-- `COPY_COMPLETE` (R284, R320). -/
def execCopyComplete (op : Nat) (s : State) : Out1 :=
  match s.liveOp op true with
  | none => .next s
  | some (o, _) => if o.kind == .copy && copyLen o ≤ o.done then moved (s.opDone op o) else .next s

/-! ## Faults of operations (R269) -/

/-- The fault an operation meets at its next boundary, with what it has committed by then. -/
def State.opMeets (s : State) (n : Nat) (o : EngOp) (f : Fold) : Option (EngErr × State) :=
  match o.kind with
  | .mdrain => match s.drain f o with | (s', some e) => some (e, s') | _ => none
  | .wtab => match (s.tableSettle f o).tableLoad f o with | .error e => some (e, s.tableSettle f o) | .ok _ => none
  | .copy =>
    if copyLen o ≤ o.done || s.copyHeld n o then none
    else match s.copyLine f o with | (_, s', some e) => some (e, s') | _ => none
  | _ => none

/-- Work of a fold that runs to completion before it is saved (R305, R290, R395). -/
def EngOp.runsOut (o : EngOp) : Bool :=
  match o.kind with
  | .wtab | .nsend => true
  | .xpost => bitsOf (blk o.block 1) 63 62 == 1 || bitsOf (blk o.block 2) 63 62 == 1
  | .mzero | .mdrain | .copy => false

/-- `ENGINE_FAULT` (R269). An operation of mdrain, wtab or copy meets a fault; those of array commands, nsend and rows arrive
in the steps that find them. A victim's work that runs to completion ends here too (R424). -/
def execEngineFault (op : Nat) (s : State) : Out1 :=
  match s.liveOp op false with
  | none => .next s
  | some (o, f) =>
    if f.victim && !o.runsOut then .next s
    else
      match s.opMeets op o f with
      | none => .next s
      | some (e, s') => moved (s'.opFault op o e.1 e.2.1 (dwordOfNat e.2.2))

/-! ## Coded blocks in the L2 (R341-R343) -/

/-- Does a translation that a TLB holds of a page of a context name the page of a physical address, with DR set (R342, R434)? -/
def State.drPage (s : State) (c pa : Nat) : Bool :=
  s.tlb.any fun t => t.ctx == c && t.entry.getLsbD 4 && match t.span with
    | none => bitsOf t.entry.toNat 51 16 == pa / 65536
    | some m =>
      let base := bitsOf t.entry.toNat 51 16 - t.vpn % 16
      base ≤ pa / 65536 && m.getLsbD (pa / 65536 - base) && pa / 65536 < base + 16

/-- `BLOCK_MERGE` (R341). The home slice merges elements into the block at a physical address: base and block number fix the
virtual address of a block (R181), so that its physical one keeps what a page leaves of that alignment. A block held decoded
takes the merge in its decoded copy, and so does one of a page with DR set (R342); a merge would read what is poisoned in a block not
written whole, and such a block takes none (R460). -/
def execBlockMerge (ctx pa rate set : Nat) (elems : List (Nat × BitVec 64)) (s : State) : Out1 :=
  if 8 ≤ rate || pa % Nat.gcd (blockBytes rate) 65536 != 0 || elems.isEmpty || elems.any (fun e => 16 ≤ e.1) || regionOf pa != .memory || 64 ≤ set ||
      64 ≤ ctx then
    .next s
  else
    let vs := elems.map fun e => (e.1, e.2.toNat)
    if !(List.range 16).all (fun i => vs.any (·.1 == i)) && !(s.poisonIn pa (blockBytes rate)).isEmpty then .next s
    else moved (s.storeBlock ctx rate set [(pa, blockBytes rate)] (s.drPage ctx pa) vs)

/-- `DECODED_BLOCK_ENCODE` (R342). The lines of a block held decoded leave the L2, which encodes it; a line that an L1 instruction
cache holds pinned stays (R325), and its block is encoded as it stands. -/
def execDecodedBlockEncode (pa : Nat) (s : State) : Out1 :=
  match s.decoded.find? fun b => (b.segs.head?.map (·.1)) == some pa with
  | none => .next s
  | some b =>
    let go (s : State) (l : Nat) : State := if s.pinnedIn (l / 4) then s else s.evictL2 (l / 4)
    moved (((linesOf b.segs).foldl go s).settle b.segs)

end Sys2Proof.Machine
end

