-- ==== Sys2Proof/Machine/Flags.lean ====
section
/-!
DEFINITION. Sys2Proof/Machine/Flags.lean: the results and the flags Z N C V of uniform integer and float instructions
(R192-R194, R197, R207).
-/
namespace Sys2Proof.Machine

/-- Uniform integer operations (R192). -/
inductive GOp where
  | add | sub | mul | mulhi | div | and | or | xor | shl | shr | sra | min | max
  deriving DecidableEq, Repr

/-- Z and N of a 64-bit result, with C and V given. -/
def flagsOf (r : DWord) (c v : Bool) : Flags := ⟨r == 0#64, r.msb, c, v⟩

/-- Is an exact signed number outside i64? -/
def outI64 (x : Int) : Bool := x < -(2 ^ 63 : Nat) || (2 ^ 63 : Nat) ≤ x

/-- The last bit moved out of a value shifted left by `s` (R193). -/
def outLeft (a : DWord) (s : Nat) : Bool := if s == 0 || 64 < s then false else a.getLsbD (64 - s)
/-- The last bit moved out of a value shifted right by `s`, zeros or copies of bit 63 following (R193). -/
def outRight (a : DWord) (s : Nat) (arith : Bool) : Bool :=
  if s == 0 then false else if 64 < s then arith && a.msb else a.getLsbD (s - 1)

/-- Result and flags of a uniform integer operation (R192-R194). -/
def GOp.run (op : GOp) (a b : DWord) : DWord × Flags :=
  match op with
  | .add => (a + b, flagsOf (a + b) (2 ^ 64 ≤ a.toNat + b.toNat) (outI64 (a.toInt + b.toInt)))
  | .sub => (a - b, flagsOf (a - b) (b.toNat ≤ a.toNat) (outI64 (a.toInt - b.toInt)))
  | .mul => (a * b, flagsOf (a * b) (2 ^ 64 ≤ a.toNat * b.toNat) (outI64 (a.toInt * b.toInt)))
  | .mulhi =>
    let r := dwordOfNat (a.toNat * b.toNat / 2 ^ 64)
    (r, flagsOf r false false)
  | .div =>
    let r := if b == 0#64 then -1#64 else BitVec.ofInt 64 (Int.tdiv a.toInt b.toInt)
    (r, flagsOf r (b == 0#64) (outI64 (Int.tdiv a.toInt b.toInt)))
  | .and => (a &&& b, flagsOf (a &&& b) false false)
  | .or => (a ||| b, flagsOf (a ||| b) false false)
  | .xor => (a ^^^ b, flagsOf (a ^^^ b) false false)
  | .shl =>
    let r := if b.toNat < 64 then a <<< b.toNat else 0#64
    (r, flagsOf r (outLeft a b.toNat) false)
  | .shr =>
    let r := if b.toNat < 64 then a >>> b.toNat else 0#64
    (r, flagsOf r (outRight a b.toNat false) false)
  | .sra =>
    let r := a.sshiftRight (Nat.min b.toNat 63)
    (r, flagsOf r (outRight a b.toNat true) false)
  | .min =>
    let r := if b.toInt < a.toInt then b else a
    (r, flagsOf r false false)
  | .max =>
    let r := if a.toInt < b.toInt then b else a
    (r, flagsOf r false false)

/-- Flags of a float result code: Z for a zero, N for a value below zero, C for a NaN (R197). -/
def floatFlags (f : FFmt) (c : Nat) : Flags :=
  match fdec f c with
  | .nan _ => ⟨false, false, true, false⟩
  | .inf n => ⟨false, n, false, false⟩
  | .fin n m _ => ⟨m == 0, n && m != 0, false, false⟩

/-- Flags of two float elements of one lane (R207). -/
def floatFlags2 (a b : Flags) : Flags := ⟨a.z && b.z, a.n || b.n, a.c || b.c, false⟩

/-- Flags of a reduction's result in a type: the lane value and the 64-bit gd (R207). -/
def redFlags (t : Ty) (v : Nat) (gd : DWord) : Flags :=
  match t.elem with
  | .flt f =>
    if t.elems == 2 then floatFlags2 (floatFlags f (elemAt t v 0)) (floatFlags f (elemAt t v 1)) else floatFlags f v
  | .int _ _ => flagsOf gd false false

end Sys2Proof.Machine
end

