-- ==== Sys2Proof/Machine/GroupFloat.lean ====
section
/-!
DEFINITION. Sys2Proof/Machine/GroupFloat.lean: uniform floating point (R197, R198).
-/
namespace Sys2Proof.Machine

/-- The element kind of f32 or f64. -/
def fk (wide : Bool) : FFmt := if wide then fF64 else fF32

/-- The code of a float operand: bits 31:0, or all 64 (R197). -/
def fopnd (wide : Bool) (x : DWord) : Nat := if wide then x.toNat else x.toNat % 2 ^ 32

/-- A uniform float instruction (R197). -/
def floatU (wide : Bool) (d : BitVec 7) (src : List (BitVec 7)) (f : FmtEnv → List Nat → Nat × Fx) (tm : Team) : GroupOp :=
  { unis := src.map fun x => ⟨x.toNat, 1⟩, vecs := [], dsts := [⟨d.toNat, 1⟩], typed := true, fxt := true
    sem := fun _ _ us =>
      let r := f (fmtEnv tm.fmt) (us.map (fopnd wide))
      ⟨[dwordOfNat r.1], some (floatFlags (fk wide) r.1), r.2⟩ }

/-- gfadd, gfmul. -/
def float2 (op : AOp) (wide : Bool) (d a b : BitVec 7) : Team → GroupOp :=
  floatU wide d [a, b] fun fe xs => arithElem op (.flt (fk wide)) fe (xs.getD 0 0) (xs.getD 1 0)

/-- gfma: one rounding. -/
def floatMad (wide : Bool) (d a b c : BitVec 7) : Team → GroupOp :=
  floatU wide d [a, b, c] fun fe xs => madLane (if wide then .f64 else .f32) fe (xs.getD 0 0) (xs.getD 1 0) (xs.getD 2 0)

/-- gfcvt between two element kinds (R198). -/
def floatCvt (dst src : EK) (d a : BitVec 7) (tm : Team) : GroupOp :=
  { unis := [⟨a.toNat, 1⟩], vecs := [], dsts := [⟨d.toNat, 1⟩], typed := true, fxt := true
    sem := fun _ _ us =>
      let fe := fmtEnv tm.fmt
      let r := cvtElem src dst fe.env fe.sat ((us.getD 0 0#64).toNat % 2 ^ src.width)
      let v := dwordOfNat r.1
      ⟨[v], some (match dst with | .flt f => floatFlags f r.1 | .int _ _ => flagsOf v false false), r.2⟩ }

/-- `GFADD_F32` (R197). -/
def execGfaddF32 (sq : BitVec 3) (d a b : BitVec 7) (s : State) : Out1 :=
  groupExec 4 sq (float2 .add false d a b) s

/-- `GFADD_F64` (R197). -/
def execGfaddF64 (sq : BitVec 3) (d a b : BitVec 7) (s : State) : Out1 :=
  groupExec 4 sq (float2 .add true d a b) s

/-- `GFMUL_F32` (R197). -/
def execGfmulF32 (sq : BitVec 3) (d a b : BitVec 7) (s : State) : Out1 :=
  groupExec 4 sq (float2 .mul false d a b) s

/-- `GFMUL_F64` (R197). -/
def execGfmulF64 (sq : BitVec 3) (d a b : BitVec 7) (s : State) : Out1 :=
  groupExec 4 sq (float2 .mul true d a b) s

/-- `GFMA_F32` (R197). -/
def execGfmaF32 (sq : BitVec 3) (d a b c : BitVec 7) (s : State) : Out1 :=
  groupExec 8 sq (floatMad false d a b c) s

/-- `GFMA_F64` (R197). -/
def execGfmaF64 (sq : BitVec 3) (d a b c : BitVec 7) (s : State) : Out1 :=
  groupExec 8 sq (floatMad true d a b c) s

/-- `GFCVT_F64_F32` (R198). -/
def execGfcvtF64F32 (sq : BitVec 3) (d a : BitVec 7) (s : State) : Out1 :=
  groupExec 4 sq (floatCvt (.flt fF64) (.flt fF32) d a) s

/-- `GFCVT_F32_F64` (R198). -/
def execGfcvtF32F64 (sq : BitVec 3) (d a : BitVec 7) (s : State) : Out1 :=
  groupExec 4 sq (floatCvt (.flt fF32) (.flt fF64) d a) s

/-- `GFCVT_F64_I64` (R198). -/
def execGfcvtF64I64 (sq : BitVec 3) (d a : BitVec 7) (s : State) : Out1 :=
  groupExec 4 sq (floatCvt (.flt fF64) (.int true 64) d a) s

/-- `GFCVT_I64_F64` (R198). -/
def execGfcvtI64F64 (sq : BitVec 3) (d a : BitVec 7) (s : State) : Out1 :=
  groupExec 4 sq (floatCvt (.int true 64) (.flt fF64) d a) s

/-- `GFCVT_F32_I64` (R198). -/
def execGfcvtF32I64 (sq : BitVec 3) (d a : BitVec 7) (s : State) : Out1 :=
  groupExec 4 sq (floatCvt (.flt fF32) (.int true 64) d a) s

/-- `GFCVT_I64_F32` (R198). -/
def execGfcvtI64F32 (sq : BitVec 3) (d a : BitVec 7) (s : State) : Out1 :=
  groupExec 4 sq (floatCvt (.int true 64) (.flt fF32) d a) s

/-- `GFCVT_F64_N64` (R198). -/
def execGfcvtF64N64 (sq : BitVec 3) (d a : BitVec 7) (s : State) : Out1 :=
  groupExec 4 sq (floatCvt (.flt fF64) (.int false 64) d a) s

/-- `GFCVT_N64_F64` (R198). -/
def execGfcvtN64F64 (sq : BitVec 3) (d a : BitVec 7) (s : State) : Out1 :=
  groupExec 4 sq (floatCvt (.int false 64) (.flt fF64) d a) s

end Sys2Proof.Machine
end

