-- ==== Sys2Proof/Machine/GroupInt.lean ====
section
/-!
DEFINITION. Sys2Proof/Machine/GroupInt.lean: uniform integer arithmetic, moves and constants (R192-R196).
-/
namespace Sys2Proof.Machine

/-- A uniform integer instruction on two registers. -/
def intRR (op : GOp) (d a b : BitVec 7) (_tm : Team) : GroupOp :=
  { unis := [⟨a.toNat, 1⟩, ⟨b.toNat, 1⟩], vecs := [], dsts := [⟨d.toNat, 1⟩], typed := true, fxt := false
    sem := fun _ _ us =>
      let r := op.run (us.getD 0 0#64) (us.getD 1 0#64)
      ⟨[r.1], some r.2, 0#6⟩ }

/-- A uniform integer instruction on a register and imm7, sign-extended (R192). -/
def intRI (op : GOp) (d a i : BitVec 7) (_tm : Team) : GroupOp :=
  { unis := [⟨a.toNat, 1⟩], vecs := [], dsts := [⟨d.toNat, 1⟩], typed := true, fxt := false
    sem := fun _ _ us =>
      let r := op.run (us.getD 0 0#64) (i.signExtend 64)
      ⟨[r.1], some r.2, 0#6⟩ }

/-- A uniform move: one source, no flags (R196). -/
def moveU (d : Nat) (src : List UUse) (f : List DWord → DWord) (_tm : Team) : GroupOp :=
  { unis := src, vecs := [], dsts := [⟨d, 1⟩], typed := true, fxt := false, sem := fun _ _ us => ⟨[f us], none, 0#6⟩ }

/-- A comparison of a register with a second operand: the flags of a subtraction (R192). -/
def cmpU (unis : List UUse) (b : List DWord → DWord) (_tm : Team) : GroupOp :=
  { unis := unis, vecs := [], dsts := [], typed := true, fxt := false
    sem := fun _ _ us => ⟨[], some (GOp.sub.run (us.getD 0 0#64) (b us)).2, 0#6⟩ }

/-- gsel: one of two registers by a condition on the flags (R195). -/
def selU (d a b : BitVec 7) (cond : BitVec 4) (tm : Team) : GroupOp :=
  { unis := [⟨a.toNat, 1⟩, ⟨b.toNat, 1⟩], vecs := [], dsts := [⟨d.toNat, 1⟩], typed := true, fxt := false
    sem := fun _ _ us => ⟨[if tm.flags.holds cond.toNat then us.getD 0 0#64 else us.getD 1 0#64], none, 0#6⟩ }

/-- `GADD_GA` (R192). -/
def execGaddGa (sq : BitVec 3) (d a b : BitVec 7) (s : State) : Out1 :=
  groupExec 4 sq (intRR .add d a b) s

/-- `GADD_GI` (R192). -/
def execGaddGi (sq : BitVec 3) (d a i : BitVec 7) (s : State) : Out1 :=
  groupExec 4 sq (intRI .add d a i) s

/-- `GSUB_GA` (R192). -/
def execGsubGa (sq : BitVec 3) (d a b : BitVec 7) (s : State) : Out1 :=
  groupExec 4 sq (intRR .sub d a b) s

/-- `GSUB_GI` (R192). -/
def execGsubGi (sq : BitVec 3) (d a i : BitVec 7) (s : State) : Out1 :=
  groupExec 4 sq (intRI .sub d a i) s

/-- `GMUL_GA` (R192). -/
def execGmulGa (sq : BitVec 3) (d a b : BitVec 7) (s : State) : Out1 :=
  groupExec 4 sq (intRR .mul d a b) s

/-- `GMUL_GI` (R192). -/
def execGmulGi (sq : BitVec 3) (d a i : BitVec 7) (s : State) : Out1 :=
  groupExec 4 sq (intRI .mul d a i) s

/-- `GMULHI_GA` (R194). -/
def execGmulhiGa (sq : BitVec 3) (d a b : BitVec 7) (s : State) : Out1 :=
  groupExec 4 sq (intRR .mulhi d a b) s

/-- `GMULHI_GI` (R194). -/
def execGmulhiGi (sq : BitVec 3) (d a i : BitVec 7) (s : State) : Out1 :=
  groupExec 4 sq (intRI .mulhi d a i) s

/-- `GDIV_GA` (R194). -/
def execGdivGa (sq : BitVec 3) (d a b : BitVec 7) (s : State) : Out1 :=
  groupExec 4 sq (intRR .div d a b) s

/-- `GDIV_GI` (R194). -/
def execGdivGi (sq : BitVec 3) (d a i : BitVec 7) (s : State) : Out1 :=
  groupExec 4 sq (intRI .div d a i) s

/-- `GAND_GA` (R192). -/
def execGandGa (sq : BitVec 3) (d a b : BitVec 7) (s : State) : Out1 :=
  groupExec 4 sq (intRR .and d a b) s

/-- `GAND_GI` (R192). -/
def execGandGi (sq : BitVec 3) (d a i : BitVec 7) (s : State) : Out1 :=
  groupExec 4 sq (intRI .and d a i) s

/-- `GOR_GA` (R192). -/
def execGorGa (sq : BitVec 3) (d a b : BitVec 7) (s : State) : Out1 :=
  groupExec 4 sq (intRR .or d a b) s

/-- `GOR_GI` (R192). -/
def execGorGi (sq : BitVec 3) (d a i : BitVec 7) (s : State) : Out1 :=
  groupExec 4 sq (intRI .or d a i) s

/-- `GXOR_GA` (R192). -/
def execGxorGa (sq : BitVec 3) (d a b : BitVec 7) (s : State) : Out1 :=
  groupExec 4 sq (intRR .xor d a b) s

/-- `GXOR_GI` (R192). -/
def execGxorGi (sq : BitVec 3) (d a i : BitVec 7) (s : State) : Out1 :=
  groupExec 4 sq (intRI .xor d a i) s

/-- `GSHL_GA` (R193). -/
def execGshlGa (sq : BitVec 3) (d a b : BitVec 7) (s : State) : Out1 :=
  groupExec 4 sq (intRR .shl d a b) s

/-- `GSHL_GI` (R193). -/
def execGshlGi (sq : BitVec 3) (d a i : BitVec 7) (s : State) : Out1 :=
  groupExec 4 sq (intRI .shl d a i) s

/-- `GSHR_GA` (R193). -/
def execGshrGa (sq : BitVec 3) (d a b : BitVec 7) (s : State) : Out1 :=
  groupExec 4 sq (intRR .shr d a b) s

/-- `GSHR_GI` (R193). -/
def execGshrGi (sq : BitVec 3) (d a i : BitVec 7) (s : State) : Out1 :=
  groupExec 4 sq (intRI .shr d a i) s

/-- `GSRA_GA` (R193). -/
def execGsraGa (sq : BitVec 3) (d a b : BitVec 7) (s : State) : Out1 :=
  groupExec 4 sq (intRR .sra d a b) s

/-- `GSRA_GI` (R193). -/
def execGsraGi (sq : BitVec 3) (d a i : BitVec 7) (s : State) : Out1 :=
  groupExec 4 sq (intRI .sra d a i) s

/-- `GMIN_GA` (R192). -/
def execGminGa (sq : BitVec 3) (d a b : BitVec 7) (s : State) : Out1 :=
  groupExec 4 sq (intRR .min d a b) s

/-- `GMIN_GI` (R192). -/
def execGminGi (sq : BitVec 3) (d a i : BitVec 7) (s : State) : Out1 :=
  groupExec 4 sq (intRI .min d a i) s

/-- `GMAX_GA` (R192). -/
def execGmaxGa (sq : BitVec 3) (d a b : BitVec 7) (s : State) : Out1 :=
  groupExec 4 sq (intRR .max d a b) s

/-- `GMAX_GI` (R192). -/
def execGmaxGi (sq : BitVec 3) (d a i : BitVec 7) (s : State) : Out1 :=
  groupExec 4 sq (intRI .max d a i) s

/-- `GCMP_GA` (R192). -/
def execGcmpGa (sq : BitVec 3) (a b : BitVec 7) (s : State) : Out1 :=
  groupExec 4 sq (cmpU [⟨a.toNat, 1⟩, ⟨b.toNat, 1⟩] fun us => us.getD 1 0#64) s

/-- `GCMP_GI` (R192). -/
def execGcmpGi (sq : BitVec 3) (a i : BitVec 7) (s : State) : Out1 :=
  groupExec 4 sq (cmpU [⟨a.toNat, 1⟩] fun _ => i.signExtend 64) s

/-- `GSEL` (R195). -/
def execGsel (sq : BitVec 3) (d a b : BitVec 7) (cond : BitVec 4) (s : State) : Out1 :=
  groupExec 8 sq (selU d a b cond) s

/-- `GMOV` (R196). -/
def execGmov (sq : BitVec 3) (d s : BitVec 10) (st : State) : Out1 :=
  groupExec 4 sq (moveU d.toNat [⟨s.toNat, 1⟩] (fun us => us.getD 0 0#64)) st

/-- `GLI` (R196). -/
def execGli (sq : BitVec 3) (d : BitVec 7) (i : BitVec 14) (s : State) : Out1 :=
  groupExec 4 sq (moveU d.toNat [] (fun _ => i.signExtend 64)) s

/-- `GLIW` (R196). -/
def execGliw (sq : BitVec 3) (d : BitVec 10) (i : BitVec 32) (s : State) : Out1 :=
  groupExec 8 sq (moveU d.toNat [] (fun _ => i.signExtend 64)) s

end Sys2Proof.Machine
end

