-- ==== Sys2Proof/Machine/GroupMap.lean ====
section
/-!
DEFINITION. Sys2Proof/Machine/GroupMap.lean: map instructions and reductions (R205-R207).
-/
namespace Sys2Proof.Machine

/-- Flags of a count or a map word: Z when it is zero (R205). -/
def zFlags (z : Bool) : Flags := ⟨z, false, false, false⟩

/-- Map word `k` of a register: bit i is lane 32k + i; a word beyond the map reads as zero (R18, R103). -/
def mapWord (ls : List Bool) (k : Nat) : Nat :=
  ((List.range 32).map fun i => if ls.getD (32 * k + i) false then 2 ^ i else 0).sum

/-- A map instruction that reads one vector register. -/
def mapRead (d a : BitVec 7) (use : SrcUse) (f : Nat → List (Option Nat) → Nat × Bool) (_tm : Team) : GroupOp :=
  { unis := [], vecs := [⟨a.toNat, 1, 1, false, use⟩], dsts := [⟨d.toNat, 1⟩], typed := true, fxt := false
    sem := fun w vals _ =>
      let r := f w (vals.getD 0 [])
      ⟨[dwordOfNat r.1], some (zFlags r.2), 0#6⟩ }

/-- mapcnt: the number of occupied lanes (R205). -/
def countOp (d a : BitVec 7) : Team → GroupOp :=
  mapRead d a .map fun _ ls => (ls.countP (·.isSome), ls.countP (·.isSome) == 0)

/-- mapget: one map word (R205). -/
def wordOp (d a k : BitVec 7) : Team → GroupOp :=
  mapRead d a .map fun _ ls => (mapWord (ls.map (·.isSome)) k.toNat, mapWord (ls.map (·.isSome)) k.toNat == 0)

/-- gballot: occupied lanes whose value has bit `n` set (R205). -/
def ballotOp (d a n : BitVec 7) : Team → GroupOp :=
  mapRead d a .value fun _ ls =>
    (ls.countP fun x => (x.getD 0).testBit n.toNat, ls.countP (fun x => (x.getD 0).testBit n.toNat) == 0)

/-- gfirst: the lowest occupied lane, W where there is none (R205). -/
def lowestOp (d a : BitVec 7) : Team → GroupOp :=
  mapRead d a .map fun w ls => ((lanesOf ls).headD w, (lanesOf ls).isEmpty)

/-- mapset and mapclr: a new lane list for one vector register, with its slots (R206). -/
def Team.mapWrite (tm : Team) (e : Env) (sq : BitVec 3) (src : List (BitVec 7)) (a : BitVec 7)
    (f : List DWord → List (Option Word) → List (Option Word)) : Team :=
  let dst := (tm.vrefs a.toNat 1 1).written
  match tm.groupCheck (src.map fun x => ⟨x.toNat, 1⟩) [⟨a.toNat, 1, 1, false, .map⟩] [] true with
  | .wait w => tm.block e w
  | .trap t => tm.trap e (t.join dst.causes) 4 (some sq)
  | .go o =>
    match dst.regs with
    | r :: _ =>
      let old := tm.getV r
      let new := f o.us old.lanes
      let ws := [RegWrite.vec r new (old.poison.filter fun p => (new.getD p.1 none).isSome)]
      if e.slots < slotsDrawn tm ws then tm.block e (.slots (slotsDrawn tm ws)) else tm.groupDone e 4 sq ws none 0#6
    | [] => tm.trap e (.of 0x2A) 4 (some sq)

/-- gred (R207). -/
def redOp (op : ROp) (sv : Bool) (d a : BitVec 7) (tm : Team) : GroupOp :=
  let ty := match fmtType tm.fmt sv with | some t => (t, true) | none => (Ty.i32, false)
  let t := ty.1
  let fe := fmtEnv tm.fmt
  let bits := op == .and || op == .or || op == .xor
  { unis := [], vecs := [⟨a.toNat, t.regs, t.regs, false, .value⟩], dsts := [⟨d.toNat, 1⟩]
    typed := ty.2 && !(bits && t.isFlt), fxt := true
    sem := fun _ vals _ =>
      let r := redLanes op t fe ((vals.getD 0 []).filterMap id)
      let v := if t == .i32 then (wordOfNat r.1).signExtend 64 else dwordOfNat r.1
      ⟨[v], some (redFlags t r.1 v), r.2⟩ }

/-- `MAPCNT` (R205). -/
def execMapcnt (sq : BitVec 3) (d a : BitVec 7) (s : State) : Out1 :=
  groupExec 4 sq (countOp d a) s

/-- `MAPGET` (R205). -/
def execMapget (sq : BitVec 3) (d a k : BitVec 7) (s : State) : Out1 :=
  groupExec 4 sq (wordOp d a k) s

/-- `MAPSET` (R206). -/
def execMapset (sq : BitVec 3) (s a k : BitVec 7) (st : State) : Out1 :=
  teamStep st fun e tm => tm.mapWrite e sq [s] a fun us ls =>
    (List.range ls.length).map fun j =>
      if j / 32 == k.toNat then
        (if (us.headD 0#64).getLsbD (j % 32) then some ((ls.getD j none).getD 0#32) else none)
      else ls.getD j none

/-- `MAPCLR` (R206). -/
def execMapclr (sq : BitVec 3) (a : BitVec 7) (s : State) : Out1 :=
  teamStep s fun e tm => tm.mapWrite e sq [] a fun _ ls => ls.map fun _ => none

/-- `GBALLOT` (R205). -/
def execGballot (sq : BitVec 3) (d a n : BitVec 7) (s : State) : Out1 :=
  groupExec 4 sq (ballotOp d a n) s

/-- `GFIRST` (R205). -/
def execGfirst (sq : BitVec 3) (d a : BitVec 7) (s : State) : Out1 :=
  groupExec 4 sq (lowestOp d a) s

/-- `GRED_ADD` (R207). -/
def execGredAdd (sv : Bool) (sq : BitVec 3) (d a : BitVec 7) (s : State) : Out1 :=
  groupExec 4 sq (redOp .add sv d a) s

/-- `GRED_MIN` (R207). -/
def execGredMin (sv : Bool) (sq : BitVec 3) (d a : BitVec 7) (s : State) : Out1 :=
  groupExec 4 sq (redOp .min sv d a) s

/-- `GRED_MAX` (R207). -/
def execGredMax (sv : Bool) (sq : BitVec 3) (d a : BitVec 7) (s : State) : Out1 :=
  groupExec 4 sq (redOp .max sv d a) s

/-- `GRED_AND` (R207). -/
def execGredAnd (sv : Bool) (sq : BitVec 3) (d a : BitVec 7) (s : State) : Out1 :=
  groupExec 4 sq (redOp .and sv d a) s

/-- `GRED_OR` (R207). -/
def execGredOr (sv : Bool) (sq : BitVec 3) (d a : BitVec 7) (s : State) : Out1 :=
  groupExec 4 sq (redOp .or sv d a) s

/-- `GRED_XOR` (R207). -/
def execGredXor (sv : Bool) (sq : BitVec 3) (d a : BitVec 7) (s : State) : Out1 :=
  groupExec 4 sq (redOp .xor sv d a) s

end Sys2Proof.Machine
end

