-- ==== Sys2Proof/Machine/Lane.lean ====
section
/-!
DEFINITION. Sys2Proof/Machine/Lane.lean: the moulds of lane instructions on registers (05_lane_compute): one function
applied lane by lane to the intersection of its sources, and the instructions that reshape maps.
-/
namespace Sys2Proof.Machine

/-- All values present, or none. -/
def allSome : List (Option Nat) → Option (List Nat)
  | [] => some []
  | some x :: xs => (allSome xs).map (x :: ·)
  | none :: _ => none

/-- Or of the flags raised in any lane. -/
def orFx (xs : List (Option (Nat × Fx))) : Fx :=
  xs.foldl (fun a x => match x with | some p => a ||| p.2 | none => a) 0#6

/-- The lanes that raised NV. -/
def nvLanes (xs : List (Option (Nat × Fx))) : List Nat :=
  (List.range xs.length).filter fun j => match xs.getD j none with | some p => p.2.getLsbD 0 | none => false

/-- One destination from values and flags by lane. -/
def oneOut (xs : List (Option (Nat × Fx))) : LaneResult := ⟨[xs.map (Option.map (·.1))], orFx xs, nvLanes xs, []⟩

/-- A function on each lane of the intersection I of the sources (R21, R22). -/
def lanewise (w : Nat) (vals : List (List (Option Nat))) (f : List Nat → Nat × Fx) : LaneResult :=
  oneOut ((List.range w).map fun j => (allSome (vals.map fun v => v.getD j none)).map f)

/-- Entry `n` of a list of lane values. -/
def nth (xs : List Nat) (n : Nat) : Nat := xs.getD n 0

/-- The lane type in the slot of a variant, and whether the slot holds one (R33). -/
def Team.ty (tm : Team) (sv : Bool) : Ty × Bool :=
  match fmtType tm.fmt sv with
  | some t => (t, true)
  | none => (.i32, false)

/-- A value source of a register group. -/
def vsrc (f : BitVec 7) (t : Ty) (wait : Bool) : VSrc := ⟨f.toNat, t.regs, t.regs, wait, .value⟩
/-- A destination of a register group. -/
def vdst (f : BitVec 7) (t : Ty) : VDst := ⟨f.toNat, t.regs, t.regs, 1⟩
/-- A single 32-bit register as a value source: type-free instructions never pair (R115). -/
def vsrc1 (f : BitVec 7) (wait : Bool) : VSrc := ⟨f.toNat, 1, 1, wait, .value⟩
/-- A map source (R110). -/
def msrc (f : BitVec 7) (wait : Bool) : VSrc := ⟨f.toNat, 1, 1, wait, .map⟩
/-- A table source (R110). -/
def tsrc (f : BitVec 7) (wait : Bool) : VSrc := ⟨f.toNat, 1, 1, wait, .table⟩
/-- A single destination register. -/
def vdst1 (f : BitVec 7) : VDst := ⟨f.toNat, 1, 1, 1⟩
/-- A uniform source of a lane instruction. -/
def usrc (f : BitVec 7) (wait : Bool) : USrc := ⟨f.toNat, wait⟩

/-- A step of a lane instruction of the team. -/
def laneExec (len : Nat) (op : Team → LaneOp) (s : State) : Out1 := teamStep s fun e tm => tm.laneStep e len (op tm)

/-! ## Generic arithmetic (R114, R118-R125) -/

/-- Where the second (or third) operand of a generic instruction comes from. -/
inductive Second where
  | vec (f : BitVec 7) (wait : Bool)
  | uni (f : BitVec 7) (wait : Bool)
  | imm (f : Ty → Nat)

/-- A generic instruction with sources va and a second operand. -/
def gen2 (sv : Bool) (d a : BitVec 7) (b : Second) (wa k : Bool) (def_ : Ty → Bool) (f : Ty → FmtEnv → Nat → Nat → Nat × Fx)
    (tm : Team) : LaneOp :=
  let (t, ok) := tm.ty sv
  let fe := fmtEnv tm.fmt
  { srcs := vsrc a t wa :: (match b with | .vec x wx => [vsrc x t wx] | _ => [])
    unis := match b with | .uni x wx => [usrc x wx] | _ => []
    dsts := [vdst d t], keep := k, typed := ok && def_ t
    sem := fun w vals us => lanewise w vals fun xs =>
      f t fe (nth xs 0) (match b with | .vec _ _ => nth xs 1 | .uni _ _ => uniLane t (us.headD 0#64) | .imm g => g t) }

/-- A two-operand arithmetic instruction (R120). -/
def arithOp (op : AOp) (sv : Bool) (d a : BitVec 7) (b : Second) (wa k : Bool) : Team → LaneOp :=
  gen2 sv d a b wa k op.defined fun t fe x y => arithLane op t fe x y

/-- A signed imm8 as the second operand (R92, R95). -/
def imm8 (i : BitVec 8) : Second := .imm fun t => immLane t i.toInt
/-- An IMM32 as the second operand (R93, R95). -/
def imm32 (i : BitVec 32) : Second := .imm fun t => imm32Lane t i

/-- A three-operand instruction; the third is a vector or a uniform register (R124). -/
def gen3 (sv : Bool) (d a b : BitVec 7) (c : Second) (wa wb k : Bool) (f : Ty → FmtEnv → Nat → Nat → Nat → Nat × Fx)
    (tm : Team) : LaneOp :=
  let (t, ok) := tm.ty sv
  let fe := fmtEnv tm.fmt
  { srcs := [vsrc a t wa, vsrc b t wb] ++ (match c with | .vec x wx => [vsrc x t wx] | _ => [])
    unis := match c with | .uni x wx => [usrc x wx] | _ => []
    dsts := [vdst d t], keep := k, typed := ok
    sem := fun w vals us => lanewise w vals fun xs =>
      f t fe (nth xs 0) (nth xs 1) (match c with | .vec _ _ => nth xs 2 | _ => uniLane t (us.headD 0#64)) }

/-- A one-operand generic instruction. -/
def gen1 (sv : Bool) (d a : BitVec 7) (wa k : Bool) (def_ : Ty → Bool) (f : Ty → FmtEnv → Nat → Nat × Fx) (tm : Team) :
    LaneOp :=
  let (t, ok) := tm.ty sv
  let fe := fmtEnv tm.fmt
  { srcs := [vsrc a t wa], unis := [], dsts := [vdst d t], keep := k, typed := ok && def_ t
    sem := fun w vals _ => lanewise w vals fun xs => f t fe (nth xs 0) }

/-! ## Type-free instructions (R126, R127) -/

/-- A function of one 32-bit lane and an amount or second value. -/
def free2 (d a : BitVec 7) (b : Second) (wa k : Bool) (f : Word → Word → Word) : LaneOp :=
  { srcs := vsrc1 a wa :: (match b with | .vec x wx => [vsrc1 x wx] | _ => [])
    unis := match b with | .uni x wx => [usrc x wx] | _ => []
    dsts := [vdst1 d], keep := k, typed := true
    sem := fun w vals us => lanewise w vals fun xs =>
      ((f (wordOfNat (nth xs 0)) (match b with
        | .vec _ _ => wordOfNat (nth xs 1)
        | .uni _ _ => (us.headD 0#64).setWidth 32
        | .imm g => wordOfNat (g .n32))).toNat, 0#6) }

/-- An unsigned imm8 as an amount (R92). -/
def amount (i : BitVec 8) : Second := .imm fun _ => i.toNat

/-- A function of one 32-bit lane. -/
def free1 (d a : BitVec 7) (wa k : Bool) (f : Word → Word) : LaneOp :=
  { srcs := [vsrc1 a wa], unis := [], dsts := [vdst1 d], keep := k, typed := true
    sem := fun w vals _ => lanewise w vals fun xs => ((f (wordOfNat (nth xs 0))).toNat, 0#6) }

/-- A type-free instruction that computes its whole destination from the lanes of its sources. -/
def reshape (srcs : List VSrc) (unis : List USrc) (d : BitVec 7) (k : Bool)
    (f : Nat → List (List (Option Nat)) → List DWord → List (Option Nat)) : LaneOp :=
  { srcs := srcs, unis := unis, dsts := [vdst1 d], keep := k, typed := true
    sem := fun w vals us => ⟨[f w vals us], 0#6, [], []⟩ }

end Sys2Proof.Machine
end

