-- ==== Sys2Proof/Machine/LaneArith.lean ====
section
/-!
DEFINITION. Sys2Proof/Machine/LaneArith.lean: generic lane arithmetic: vadd to vrem, vmad, vclamp, vabs, vneg, vsat (R118-R125).
-/
namespace Sys2Proof.Machine

/-- `VADD_LA` (R120). -/
def execVaddLa (sv : Bool) (d a b : BitVec 7) (wa wb k : Bool) (s : State) : Out1 :=
  laneExec 4 (arithOp .add sv d a (.vec b wb) wa k) s

/-- `VADD_LU` (R120). -/
def execVaddLu (sv : Bool) (d a g : BitVec 7) (wa wb k : Bool) (s : State) : Out1 :=
  laneExec 4 (arithOp .add sv d a (.uni g wb) wa k) s

/-- `VADD_LI` (R120). -/
def execVaddLi (sv : Bool) (d a : BitVec 7) (wa k : Bool) (i : BitVec 8) (s : State) : Out1 :=
  laneExec 4 (arithOp .add sv d a (imm8 i) wa k) s

/-- `VADD_LX` (R120). -/
def execVaddLx (sv : Bool) (d a : BitVec 7) (wa k : Bool) (i : BitVec 32) (s : State) : Out1 :=
  laneExec 8 (arithOp .add sv d a (imm32 i) wa k) s

/-- `VMUL_LA` (R120). -/
def execVmulLa (sv : Bool) (d a b : BitVec 7) (wa wb k : Bool) (s : State) : Out1 :=
  laneExec 4 (arithOp .mul sv d a (.vec b wb) wa k) s

/-- `VMUL_LU` (R120). -/
def execVmulLu (sv : Bool) (d a g : BitVec 7) (wa wb k : Bool) (s : State) : Out1 :=
  laneExec 4 (arithOp .mul sv d a (.uni g wb) wa k) s

/-- `VMUL_LI` (R120). -/
def execVmulLi (sv : Bool) (d a : BitVec 7) (wa k : Bool) (i : BitVec 8) (s : State) : Out1 :=
  laneExec 4 (arithOp .mul sv d a (imm8 i) wa k) s

/-- `VMUL_LX` (R120). -/
def execVmulLx (sv : Bool) (d a : BitVec 7) (wa k : Bool) (i : BitVec 32) (s : State) : Out1 :=
  laneExec 8 (arithOp .mul sv d a (imm32 i) wa k) s

/-- `VSUB_LA` (R120). -/
def execVsubLa (sv : Bool) (d a b : BitVec 7) (wa wb k : Bool) (s : State) : Out1 :=
  laneExec 4 (arithOp .sub sv d a (.vec b wb) wa k) s

/-- `VSUB_LU` (R120). -/
def execVsubLu (sv : Bool) (d a g : BitVec 7) (wa wb k : Bool) (s : State) : Out1 :=
  laneExec 4 (arithOp .sub sv d a (.uni g wb) wa k) s

/-- `VSUB_LI` (R120). -/
def execVsubLi (sv : Bool) (d a : BitVec 7) (wa k : Bool) (i : BitVec 8) (s : State) : Out1 :=
  laneExec 4 (arithOp .sub sv d a (imm8 i) wa k) s

/-- `VMIN_LA` (R121). -/
def execVminLa (sv : Bool) (d a b : BitVec 7) (wa wb k : Bool) (s : State) : Out1 :=
  laneExec 4 (arithOp .min sv d a (.vec b wb) wa k) s

/-- `VMIN_LU` (R121). -/
def execVminLu (sv : Bool) (d a g : BitVec 7) (wa wb k : Bool) (s : State) : Out1 :=
  laneExec 4 (arithOp .min sv d a (.uni g wb) wa k) s

/-- `VMIN_LI` (R121). -/
def execVminLi (sv : Bool) (d a : BitVec 7) (wa k : Bool) (i : BitVec 8) (s : State) : Out1 :=
  laneExec 4 (arithOp .min sv d a (imm8 i) wa k) s

/-- `VMAX_LA` (R121). -/
def execVmaxLa (sv : Bool) (d a b : BitVec 7) (wa wb k : Bool) (s : State) : Out1 :=
  laneExec 4 (arithOp .max sv d a (.vec b wb) wa k) s

/-- `VMAX_LU` (R121). -/
def execVmaxLu (sv : Bool) (d a g : BitVec 7) (wa wb k : Bool) (s : State) : Out1 :=
  laneExec 4 (arithOp .max sv d a (.uni g wb) wa k) s

/-- `VMAX_LI` (R121). -/
def execVmaxLi (sv : Bool) (d a : BitVec 7) (wa k : Bool) (i : BitVec 8) (s : State) : Out1 :=
  laneExec 4 (arithOp .max sv d a (imm8 i) wa k) s

/-- `VMULHI_LA` (R122). -/
def execVmulhiLa (sv : Bool) (d a b : BitVec 7) (wa wb k : Bool) (s : State) : Out1 :=
  laneExec 4 (arithOp .mulhi sv d a (.vec b wb) wa k) s

/-- `VMULHI_LU` (R122). -/
def execVmulhiLu (sv : Bool) (d a g : BitVec 7) (wa wb k : Bool) (s : State) : Out1 :=
  laneExec 4 (arithOp .mulhi sv d a (.uni g wb) wa k) s

/-- `VDIV_LA` (R123). -/
def execVdivLa (sv : Bool) (d a b : BitVec 7) (wa wb k : Bool) (s : State) : Out1 :=
  laneExec 4 (arithOp .div sv d a (.vec b wb) wa k) s

/-- `VDIV_LU` (R123). -/
def execVdivLu (sv : Bool) (d a g : BitVec 7) (wa wb k : Bool) (s : State) : Out1 :=
  laneExec 4 (arithOp .div sv d a (.uni g wb) wa k) s

/-- `VREM_LA` (R123). -/
def execVremLa (sv : Bool) (d a b : BitVec 7) (wa wb k : Bool) (s : State) : Out1 :=
  laneExec 4 (arithOp .rem sv d a (.vec b wb) wa k) s

/-- `VREM_LU` (R123). -/
def execVremLu (sv : Bool) (d a g : BitVec 7) (wa wb k : Bool) (s : State) : Out1 :=
  laneExec 4 (arithOp .rem sv d a (.uni g wb) wa k) s

/-- `VMAD_VECTOR_C` (R124). -/
def execVmadVectorC (sv : Bool) (d a b : BitVec 7) (wa wb k : Bool) (c : BitVec 7) (wc : Bool) (s : State) : Out1 :=
  laneExec 8 (gen3 sv d a b (.vec c wc) wa wb k madLane) s

/-- `VMAD_UNIFORM_C` (R124). -/
def execVmadUniformC (sv : Bool) (d a b : BitVec 7) (wa wb k : Bool) (c : BitVec 7) (wc : Bool) (s : State) : Out1 :=
  laneExec 8 (gen3 sv d a b (.uni c wc) wa wb k madLane) s

/-- `VCLAMP_VECTOR_C` (R124). -/
def execVclampVectorC (sv : Bool) (d a b : BitVec 7) (wa wb k : Bool) (c : BitVec 7) (wc : Bool) (s : State) : Out1 :=
  laneExec 8 (gen3 sv d a b (.vec c wc) wa wb k clampLane) s

/-- `VCLAMP_UNIFORM_C` (R124). -/
def execVclampUniformC (sv : Bool) (d a b : BitVec 7) (wa wb k : Bool) (c : BitVec 7) (wc : Bool) (s : State) : Out1 :=
  laneExec 8 (gen3 sv d a b (.uni c wc) wa wb k clampLane) s

/-- `VABS` (R125). -/
def execVabs (sv : Bool) (d a : BitVec 7) (wa k : Bool) (s : State) : Out1 :=
  laneExec 4 (gen1 sv d a wa k (fun _ => true) (unLane .abs)) s

/-- `VNEG` (R125). -/
def execVneg (sv : Bool) (d a : BitVec 7) (wa k : Bool) (s : State) : Out1 :=
  laneExec 4 (gen1 sv d a wa k (fun _ => true) (unLane .neg)) s

/-- `VSAT` (R125). -/
def execVsat (sv : Bool) (d a : BitVec 7) (wa k : Bool) (s : State) : Out1 :=
  laneExec 4 (gen1 sv d a wa k (fun _ => true) (unLane .sat)) s

end Sys2Proof.Machine
end

