-- ==== Sys2Proof/Machine/LaneBits.lean ====
section
/-!
DEFINITION. Sys2Proof/Machine/LaneBits.lean: bitwise, shift and bit-field lane instructions, type-free (R126-R128).
-/
namespace Sys2Proof.Machine

/-- `VAND_LA` (R127). -/
def execVandLa (d a b : BitVec 7) (wa wb k : Bool) (s : State) : Out1 :=
  laneExec 4 (fun _ => free2 d a (.vec b wb) wa k fun x y => x &&& y) s

/-- `VAND_LU` (R127). -/
def execVandLu (d a g : BitVec 7) (wa wb k : Bool) (s : State) : Out1 :=
  laneExec 4 (fun _ => free2 d a (.uni g wb) wa k fun x y => x &&& y) s

/-- `VAND_LX` (R127). -/
def execVandLx (d a : BitVec 7) (wa k : Bool) (i : BitVec 32) (s : State) : Out1 :=
  laneExec 8 (fun _ => free2 d a (.imm fun _ => i.toNat) wa k fun x y => x &&& y) s

/-- `VOR_LA` (R127). -/
def execVorLa (d a b : BitVec 7) (wa wb k : Bool) (s : State) : Out1 :=
  laneExec 4 (fun _ => free2 d a (.vec b wb) wa k fun x y => x ||| y) s

/-- `VOR_LU` (R127). -/
def execVorLu (d a g : BitVec 7) (wa wb k : Bool) (s : State) : Out1 :=
  laneExec 4 (fun _ => free2 d a (.uni g wb) wa k fun x y => x ||| y) s

/-- `VOR_LX` (R127). -/
def execVorLx (d a : BitVec 7) (wa k : Bool) (i : BitVec 32) (s : State) : Out1 :=
  laneExec 8 (fun _ => free2 d a (.imm fun _ => i.toNat) wa k fun x y => x ||| y) s

/-- `VXOR_LA` (R127). -/
def execVxorLa (d a b : BitVec 7) (wa wb k : Bool) (s : State) : Out1 :=
  laneExec 4 (fun _ => free2 d a (.vec b wb) wa k fun x y => x ^^^ y) s

/-- `VXOR_LU` (R127). -/
def execVxorLu (d a g : BitVec 7) (wa wb k : Bool) (s : State) : Out1 :=
  laneExec 4 (fun _ => free2 d a (.uni g wb) wa k fun x y => x ^^^ y) s

/-- `VXOR_LX` (R127). -/
def execVxorLx (d a : BitVec 7) (wa k : Bool) (i : BitVec 32) (s : State) : Out1 :=
  laneExec 8 (fun _ => free2 d a (.imm fun _ => i.toNat) wa k fun x y => x ^^^ y) s

/-- `VNOT` (R127). -/
def execVnot (d a : BitVec 7) (wa k : Bool) (s : State) : Out1 :=
  laneExec 4 (fun _ => free1 d a wa k fun x => ~~~ x) s

/-- `VSHL_LA` (R127). -/
def execVshlLa (d a b : BitVec 7) (wa wb k : Bool) (s : State) : Out1 :=
  laneExec 4 (fun _ => free2 d a (.vec b wb) wa k fun x y => shlW x y.toNat) s

/-- `VSHL_LI` (R127). -/
def execVshlLi (d a : BitVec 7) (wa k : Bool) (i : BitVec 8) (s : State) : Out1 :=
  laneExec 4 (fun _ => free2 d a (amount i) wa k fun x y => shlW x y.toNat) s

/-- `VSHR_LA` (R127). -/
def execVshrLa (d a b : BitVec 7) (wa wb k : Bool) (s : State) : Out1 :=
  laneExec 4 (fun _ => free2 d a (.vec b wb) wa k fun x y => shrW x y.toNat) s

/-- `VSHR_LI` (R127). -/
def execVshrLi (d a : BitVec 7) (wa k : Bool) (i : BitVec 8) (s : State) : Out1 :=
  laneExec 4 (fun _ => free2 d a (amount i) wa k fun x y => shrW x y.toNat) s

/-- `VSRA_LA` (R127). -/
def execVsraLa (d a b : BitVec 7) (wa wb k : Bool) (s : State) : Out1 :=
  laneExec 4 (fun _ => free2 d a (.vec b wb) wa k fun x y => sraW x y.toNat) s

/-- `VSRA_LI` (R127). -/
def execVsraLi (d a : BitVec 7) (wa k : Bool) (i : BitVec 8) (s : State) : Out1 :=
  laneExec 4 (fun _ => free2 d a (amount i) wa k fun x y => sraW x y.toNat) s

/-- `VROT_LA` (R127). -/
def execVrotLa (d a b : BitVec 7) (wa wb k : Bool) (s : State) : Out1 :=
  laneExec 4 (fun _ => free2 d a (.vec b wb) wa k fun x y => rotW x y.toNat) s

/-- `VROT_LI` (R127). -/
def execVrotLi (d a : BitVec 7) (wa k : Bool) (i : BitVec 8) (s : State) : Out1 :=
  laneExec 4 (fun _ => free2 d a (amount i) wa k fun x y => rotW x y.toNat) s

/-- `VPOPC` (R127). -/
def execVpopc (d a : BitVec 7) (wa k : Bool) (s : State) : Out1 :=
  laneExec 4 (fun _ => free1 d a wa k fun x => wordOfNat (popcW x)) s

/-- `VCLZ` (R127). -/
def execVclz (d a : BitVec 7) (wa k : Bool) (s : State) : Out1 :=
  laneExec 4 (fun _ => free1 d a wa k fun x => wordOfNat (clzW x)) s

/-- `VBREV` (R127). -/
def execVbrev (d a : BitVec 7) (wa k : Bool) (s : State) : Out1 :=
  laneExec 4 (fun _ => free1 d a wa k brevW) s

/-- `VBFX` (R127). -/
def execVbfx (d a : BitVec 7) (wa k : Bool) (pos : BitVec 5) (len : BitVec 6) (s : State) : Out1 :=
  laneExec 8 (fun _ => free1 d a wa k fun x => bfxW x pos.toNat len.toNat) s

/-- `VBFI` (R127). -/
def execVbfi (d a b : BitVec 7) (wa wb k : Bool) (pos : BitVec 5) (len : BitVec 6) (s : State) : Out1 :=
  laneExec 8 (fun _ => free2 d a (.vec b wb) wa k fun x y => bfiW x y pos.toNat len.toNat) s

end Sys2Proof.Machine
end

