-- ==== Sys2Proof/Machine/LaneFun.lean ====
section
/-!
DEFINITION. Sys2Proof/Machine/LaneFun.lean: floating-point functions, conversion and packing (R129-R136).
-/
namespace Sys2Proof.Machine

/-- vcvt: the source type stands in the slot, the target type in the word (R133). -/
def cvtOp (sv : Bool) (d a c : BitVec 7) (wa k : Bool) (tm : Team) : LaneOp :=
  let (t, ok) := tm.ty sv
  let target := Ty.ofCode c.toNat
  let u := target.getD t
  let fe := fmtEnv tm.fmt
  { srcs := [vsrc a t wa], unis := [], dsts := [vdst d u], keep := k, typed := ok && target.isSome && cvtDefined t u
    sem := fun w vals _ => lanewise w vals fun xs => cvtLane t u fe (nth xs 0) }

/-- vpack: the packed type stands in FMT.P (R135). -/
def packOp (d a b : BitVec 7) (wa wb k : Bool) (tm : Team) : LaneOp :=
  let (t, ok) := tm.ty false
  let from? := packSrc t
  let fe := fmtEnv tm.fmt
  { srcs := [vsrc1 a wa, vsrc1 b wb], unis := [], dsts := [vdst1 d], keep := k, typed := ok && from?.isSome
    sem := fun w vals _ => lanewise w vals fun xs => packLane t (from?.getD t) fe (nth xs 0) (nth xs 1) }

/-- vunpk: the selector is in the word; it ignores FMT and raises no flag (R136). -/
def unpkOp (d a : BitVec 7) (e : BitVec 2) (t : BitVec 4) (wa k : Bool) : LaneOp :=
  { srcs := [vsrc1 a wa], unis := [], dsts := [vdst1 d], keep := k, typed := true
    sem := fun w vals _ => lanewise w vals fun xs =>
      (unpkLane ((Ty.ofCode t.toNat).getD .i32) e.toNat (nth xs 0), 0#6) }

/-- `VSQRT` (R130). -/
def execVsqrt (sv : Bool) (d a : BitVec 7) (wa k : Bool) (s : State) : Out1 :=
  laneExec 4 (gen1 sv d a wa k Ty.isFlt (funLane .sqrt)) s

/-- `VRCP` (R131). -/
def execVrcp (sv : Bool) (d a : BitVec 7) (wa k : Bool) (s : State) : Out1 :=
  laneExec 4 (gen1 sv d a wa k Ty.isFlt (funLane .rcp)) s

/-- `VRSQ` (R131). -/
def execVrsq (sv : Bool) (d a : BitVec 7) (wa k : Bool) (s : State) : Out1 :=
  laneExec 4 (gen1 sv d a wa k Ty.isFlt (funLane .rsq)) s

/-- `VEXP2` (R131). -/
def execVexp2 (sv : Bool) (d a : BitVec 7) (wa k : Bool) (s : State) : Out1 :=
  laneExec 4 (gen1 sv d a wa k Ty.isFlt (funLane .exp2)) s

/-- `VLOG2` (R131). -/
def execVlog2 (sv : Bool) (d a : BitVec 7) (wa k : Bool) (s : State) : Out1 :=
  laneExec 4 (gen1 sv d a wa k Ty.isFlt (funLane .log2)) s

/-- `VCVT` (R134). -/
def execVcvt (sv : Bool) (d a t : BitVec 7) (wa k : Bool) (s : State) : Out1 :=
  laneExec 4 (cvtOp sv d a t wa k) s

/-- `VPACK` (R135). -/
def execVpack (d a b : BitVec 7) (wa wb k : Bool) (s : State) : Out1 :=
  laneExec 4 (packOp d a b wa wb k) s

/-- `VUNPK` (R136). -/
def execVunpk (d a : BitVec 7) (e : BitVec 2) (t : BitVec 4) (wa k : Bool) (s : State) : Out1 :=
  laneExec 4 (fun _ => unpkOp d a e t wa k) s

end Sys2Proof.Machine
end

