-- ==== Sys2Proof/Machine/LaneMap.lean ====
section
/-!
DEFINITION. Sys2Proof/Machine/LaneMap.lean: lane instructions that create, cut, join and reshape maps, and vland (R137-R152, R156, R157).
-/
namespace Sys2Proof.Machine

/-- What vsplit compares with: a vector register, a uniform register, or an immediate (R137). -/
def splitOp (sv : Bool) (d a : BitVec 7) (b : Second) (wa k : Bool) (cond : Nat) (tm : Team) : LaneOp :=
  let (t, ok) := tm.ty sv
  let fe := fmtEnv tm.fmt
  let n := 2 * t.regs
  { srcs := vsrc a t wa :: (match b with | .vec x wx => [vsrc x t wx] | _ => [])
    unis := match b with | .uni x wx => [usrc x wx] | _ => []
    dsts := [⟨d.toNat, n, n, 2⟩], keep := k, typed := ok && condDefined cond t
    sem := fun w vals us =>
      let second (xs : List Nat) : Nat :=
        match b with | .vec _ _ => nth xs 1 | .uni _ _ => uniLane t (us.headD 0#64) | .imm g => g t
      let test (xs : List Nat) : Bool × Fx :=
        if cond == 10 then ((nth xs 0).testBit (second xs), 0#6) else condLane cond t fe (nth xs 0) (second xs)
      let lanes := (List.range w).map fun j => (allSome (vals.map fun v => v.getD j none)).map fun xs =>
        (nth xs 0, test xs)
      let side (c : Bool) := lanes.map fun x => match x with
        | some (v, r, _) => if r == c then some v else none
        | none => none
      let fl := lanes.map (Option.map fun x => (x.1, x.2.2))
      ⟨[side true, side false], orFx fl, nvLanes fl, []⟩ }

/-- The immediate of vsplit: imm26 in the type, or the bit number of .bit (R137). -/
def splitImm (cond : Nat) (i : BitVec 26) : Second :=
  .imm fun t => if cond == 10 then i.toNat else immLane t i.toInt

/-- A lane of a source. -/
def laneAt (vals : List (List (Option Nat))) (n j : Nat) : Option Nat := (vals.getD n []).getD j none

/-- The occupied lanes and their values, in lane order. -/
def occupied (ls : List (Option Nat)) : List Nat := ls.filterMap id

/-- A register whose lanes `js` hold the values `vs`, in order. -/
def placed (w : Nat) (js vs : List Nat) : List (Option Nat) :=
  (List.range w).map fun j => ((js.zip vs).lookup j)

/-- A type-free instruction with one value source whose lanes it takes selectively: `read` says which (R460). -/
def select (srcs : List VSrc) (unis : List USrc) (d : BitVec 7) (k : Bool)
    (f : Nat → List (List (Option Nat)) → List DWord → List (Option Nat))
    (read : Nat → List (List (Option Nat)) → List DWord → List Nat) : LaneOp :=
  { srcs := srcs, unis := unis, dsts := [vdst1 d], keep := k, typed := true
    sem := fun w vals us => ⟨[f w vals us], 0#6, [], read w vals us⟩ }

/-- vmerge: the union of the maps, va winning (R140). -/
def mergeOp (d a b : BitVec 7) (wa wb k : Bool) : LaneOp :=
  reshape [⟨a.toNat, 1, 1, wa, .merge⟩, ⟨b.toNat, 1, 1, wb, .merge⟩] [] d k fun w vals _ =>
    (List.range w).map fun j => match laneAt vals 0 j with | some x => some x | none => laneAt vals 1 j

/-- vmask: va cut to vb's map (R141). -/
def maskOp (d a b : BitVec 7) (wa wb k : Bool) : LaneOp :=
  let both (w : Nat) (vals : List (List (Option Nat))) : List Nat :=
    (List.range w).filter fun j => (laneAt vals 0 j).isSome && (laneAt vals 1 j).isSome
  select [tsrc a wa, msrc b wb] [] d k
    (fun w vals _ => (List.range w).map fun j => if (both w vals).contains j then laneAt vals 0 j else none)
    (fun w vals _ => both w vals)

/-- vfill: lanes outside va's map take the constant (R142). -/
def fillOp (d a : BitVec 7) (unis : List USrc) (wa : Bool) (c : List DWord → Nat) : LaneOp :=
  reshape [vsrc1 a wa] unis d false fun w vals us =>
    (List.range w).map fun j => match laneAt vals 0 j with | some x => some x | none => some (c us)

/-- vfirst: the first n occupied lanes (R143). -/
def firstOp (d a : BitVec 7) (unis : List USrc) (wa k : Bool) (n : List DWord → Nat) : LaneOp :=
  let js (vals : List (List (Option Nat))) (us : List DWord) : List Nat := (lanesOf (vals.getD 0 [])).take (n us)
  select [tsrc a wa] unis d k
    (fun w vals us => placed w (js vals us) (occupied (vals.getD 0 [])))
    (fun _ vals us => js vals us)

/-- vcompress: the p-th occupied lane goes to lane p (R144). -/
def compressOp (d a : BitVec 7) (wa k : Bool) : LaneOp :=
  reshape [vsrc1 a wa] [] d k fun w vals _ => placed w (List.range w) (occupied (vals.getD 0 []))

/-- vexpand: va's values in lane order into vb's occupied lanes (R145). -/
def expandOp (d a b : BitVec 7) (wa wb k : Bool) : LaneOp :=
  select [tsrc a wa, msrc b wb] [] d k
    (fun w vals _ => placed w (lanesOf (vals.getD 1 [])) (occupied (vals.getD 0 [])))
    (fun _ vals _ => (lanesOf (vals.getD 0 [])).take (lanesOf (vals.getD 1 [])).length)

/-- vbcast: every lane of va's map takes the value of lane n (R149). -/
def bcastOp (d a : BitVec 7) (unis : List USrc) (wa k : Bool) (n : List DWord → Nat) : LaneOp :=
  select [tsrc a wa] unis d k
    (fun w vals us => (List.range w).map fun j =>
      if (laneAt vals 0 j).isSome && n us < w then laneAt vals 0 (n us) else none)
    (fun _ _ us => [n us])

/-- vperm and vshfl LA: lane j takes the value of the lane that `ix j (vb[j])` names (R150, R151). -/
def permOp (d a b : BitVec 7) (wa wb k : Bool) (ix : Nat → Nat → Nat) : LaneOp :=
  { srcs := [tsrc a wa, vsrc1 b wb], unis := [], dsts := [vdst1 d], keep := k, typed := true
    sem := fun w vals _ =>
      let at_ (j : Nat) : Option Nat := (laneAt vals 1 j).bind fun x => if ix j x < w then some (ix j x) else none
      ⟨[(List.range w).map fun j => (at_ j).bind fun i => laneAt vals 0 i], 0#6, [], (List.range w).filterMap at_⟩ }

/-- vshfl LI, over all W lanes (R151). -/
def shflImmOp (d a : BitVec 7) (wa k : Bool) (n : Nat) : LaneOp :=
  select [tsrc a wa] [] d k
    (fun w vals _ => (List.range w).map fun j => if j ^^^ n < w then laneAt vals 0 (j ^^^ n) else none)
    (fun w _ _ => (List.range w).map fun j => j ^^^ n)

/-- vscan (R152). -/
def scanOp (op : ROp) (excl : Bool) (sv : Bool) (d a : BitVec 7) (wa k : Bool) (tm : Team) : LaneOp :=
  let (t, ok) := tm.ty sv
  let fe := fmtEnv tm.fmt
  { srcs := [vsrc a t wa], unis := [], dsts := [vdst d t], keep := k, typed := ok
    sem := fun w vals _ =>
      let js := lanesOf (vals.getD 0 [])
      let rs := scanLanes op excl t fe (scanStart op t) (occupied (vals.getD 0 []))
      oneOut ((List.range w).map fun j => (js.zip rs).lookup j) }

/-- Is a landing window bound to a register of any team resident on a partition (R157, R319)? -/
def State.windowBound (s : State) (place win : Nat) : Bool :=
  s.teams.any fun o => s.resident o && s.place o == place && o.landings.any (·.window == win)

/-- vland binds a window (R156, R157): the checks of issue, then those of the descriptor, then slots. -/
def Team.land (tm : Team) (e : Env) (bound : Nat → Bool) (d : BitVec 7) (g : BitVec 7) (wb : Bool) : Team :=
  let op : LaneOp :=
    { srcs := [], unis := [usrc g wb], dsts := [vdst1 d], keep := false, typed := true
      sem := fun _ _ _ => ⟨[[]], 0#6, [], []⟩ }
  match tm.laneIssue { e with slots := Config.poolSlots } op with
  | .wait w => tm.block e w
  | .trap t => tm.trap e t 4 none
  | .go (ws, _) =>
    let x := (((tm.uref g.toNat false).regs.map tm.opnd).headD 0#64).toNat
    let win := bitsOf x 15 11
    let n := bitsOf x 10 0
    if bitsOf x 63 16 != 0 || n == 0 || tm.w < n || bound win then
      tm.trap e { Trap.of 0x1B with detail := dwordOfNat (win + tm.part * 256) } 4 none
    else
      match ws with
      | .vec r _ _ :: _ =>
        let ls := (List.range tm.w).map fun j => if j < n then some 0#32 else none
        if e.slots < slotsOf ls - slotsOf (tm.getV r).lanes then tm.block e (.slots (slotsOf ls - slotsOf (tm.getV r).lanes))
        else
          let tm := tm.setV r fun _ => ⟨ls, false, []⟩
          (({ tm with landings := tm.landings ++ [(⟨win, r, n, List.replicate (4 * n) none, [], false, false⟩ : Landing)] }).goto
            (tm.pc.toNat + 4)).retired e
      | _ => tm

/-- `VSPLIT_VECTOR` (R138). -/
def execVsplitVector (sv : Bool) (d a b : BitVec 7) (wa wb k : Bool) (cond : BitVec 4) (s : State) : Out1 :=
  laneExec 8 (splitOp sv d a (.vec b wb) wa k cond.toNat) s

/-- `VSPLIT_UNIFORM` (R138). -/
def execVsplitUniform (sv : Bool) (d a g : BitVec 7) (wa wb k : Bool) (cond : BitVec 4) (s : State) : Out1 :=
  laneExec 8 (splitOp sv d a (.uni g wb) wa k cond.toNat) s

/-- `VSPLIT_IMMEDIATE` (R138). -/
def execVsplitImmediate (sv : Bool) (d a : BitVec 7) (wa k : Bool) (cond : BitVec 4) (i : BitVec 26) (s : State) : Out1 :=
  laneExec 8 (splitOp sv d a (splitImm cond.toNat i) wa k cond.toNat) s

/-- `VMERGE` (R140). -/
def execVmerge (d a b : BitVec 7) (wa wb k : Bool) (s : State) : Out1 :=
  laneExec 4 (fun _ => mergeOp d a b wa wb k) s

/-- `VMASK` (R141). -/
def execVmask (d a b : BitVec 7) (wa wb k : Bool) (s : State) : Out1 :=
  laneExec 4 (fun _ => maskOp d a b wa wb k) s

/-- `VFILL_LU` (R142). -/
def execVfillLu (d a g : BitVec 7) (wa wb : Bool) (s : State) : Out1 :=
  laneExec 4 (fun _ => fillOp d a [usrc g wb] wa fun us => (us.headD 0#64).toNat % 2 ^ 32) s

/-- `VFILL_LX` (R142). -/
def execVfillLx (d a : BitVec 7) (wa : Bool) (i : BitVec 32) (s : State) : Out1 :=
  laneExec 8 (fun _ => fillOp d a [] wa fun _ => i.toNat) s

/-- `VFIRST_LU` (R143). -/
def execVfirstLu (d a g : BitVec 7) (wa wb k : Bool) (s : State) : Out1 :=
  laneExec 4 (fun _ => firstOp d a [usrc g wb] wa k fun us => (us.headD 0#64).toNat) s

/-- `VFIRST_LI` (R143). -/
def execVfirstLi (d a : BitVec 7) (wa k : Bool) (n : BitVec 8) (s : State) : Out1 :=
  laneExec 4 (fun _ => firstOp d a [] wa k fun _ => n.toNat) s

/-- `VCOMPRESS` (R144). -/
def execVcompress (d a : BitVec 7) (wa k : Bool) (s : State) : Out1 :=
  laneExec 4 (fun _ => compressOp d a wa k) s

/-- `VEXPAND` (R145). -/
def execVexpand (d a b : BitVec 7) (wa wb k : Bool) (s : State) : Out1 :=
  laneExec 4 (fun _ => expandOp d a b wa wb k) s

/-- `VLANE` (R146). Every lane is written, also where the table of R313 shows its registers with empty maps (log entry 92). -/
def execVlane (d : BitVec 7) (s : State) : Out1 :=
  laneExec 4 (fun _ => reshape [] [] d false fun w _ _ => (List.range w).map some) s

/-- `VMOV` (R147). -/
def execVmov (d a : BitVec 7) (wa k : Bool) (s : State) : Out1 :=
  laneExec 4 (fun _ => reshape [vsrc1 a wa] [] d k fun _ vals _ => vals.getD 0 []) s

/-- `VKEY` (R148). -/
def execVkey (d a : BitVec 7) (wa k : Bool) (s : State) : Out1 :=
  laneExec 4 (fun _ => free1 d a wa k keyW) s

/-- `VBCAST_LU` (R149). -/
def execVbcastLu (d a g : BitVec 7) (wa wb k : Bool) (s : State) : Out1 :=
  laneExec 4 (fun _ => bcastOp d a [usrc g wb] wa k fun us => (us.headD 0#64).toNat) s

/-- `VBCAST_LI` (R149). -/
def execVbcastLi (d a : BitVec 7) (wa k : Bool) (n : BitVec 8) (s : State) : Out1 :=
  laneExec 4 (fun _ => bcastOp d a [] wa k fun _ => n.toNat) s

/-- `VPERM` (R150). -/
def execVperm (d a b : BitVec 7) (wa wb k : Bool) (s : State) : Out1 :=
  laneExec 4 (fun _ => permOp d a b wa wb k fun _ x => x) s

/-- `VSHFL_LA` (R151). -/
def execVshflLa (d a b : BitVec 7) (wa wb k : Bool) (s : State) : Out1 :=
  laneExec 4 (fun _ => permOp d a b wa wb k fun j x => j ^^^ x) s

/-- `VSHFL_LI` (R151). -/
def execVshflLi (d a : BitVec 7) (wa k : Bool) (n : BitVec 8) (s : State) : Out1 :=
  laneExec 4 (fun _ => shflImmOp d a wa k n.toNat) s

/-- `VSCAN_ADD` (R152). -/
def execVscanAdd (sv : Bool) (d a : BitVec 7) (wa k : Bool) (s : State) : Out1 :=
  laneExec 4 (scanOp .add false sv d a wa k) s

/-- `VSCAN_ADD_X` (R152). -/
def execVscanAddX (sv : Bool) (d a : BitVec 7) (wa k : Bool) (s : State) : Out1 :=
  laneExec 4 (scanOp .add true sv d a wa k) s

/-- `VSCAN_MIN` (R152). -/
def execVscanMin (sv : Bool) (d a : BitVec 7) (wa k : Bool) (s : State) : Out1 :=
  laneExec 4 (scanOp .min false sv d a wa k) s

/-- `VSCAN_MIN_X` (R152). -/
def execVscanMinX (sv : Bool) (d a : BitVec 7) (wa k : Bool) (s : State) : Out1 :=
  laneExec 4 (scanOp .min true sv d a wa k) s

/-- `VSCAN_MAX` (R152). -/
def execVscanMax (sv : Bool) (d a : BitVec 7) (wa k : Bool) (s : State) : Out1 :=
  laneExec 4 (scanOp .max false sv d a wa k) s

/-- `VSCAN_MAX_X` (R152). -/
def execVscanMaxX (sv : Bool) (d a : BitVec 7) (wa k : Bool) (s : State) : Out1 :=
  laneExec 4 (scanOp .max true sv d a wa k) s

/-- `VLAND` (R156). -/
def execVland (d g : BitVec 7) (wb : Bool) (s : State) : Out1 :=
  match s.team? s.cur with
  | some tm => teamStep s fun e t => t.land e (s.windowBound (s.place tm)) d g wb
  | none => .next s

end Sys2Proof.Machine
end

