-- ==== Sys2Proof/Machine/LanePixel.lean ====
section
/-!
DEFINITION. Sys2Proof/Machine/LanePixel.lean: packed-pixel instructions (R153-R155).
-/
namespace Sys2Proof.Machine

/-- vsad and vavg (R153). DESIGN CHOICE (log entry 79), here and in dotOp: where the slot holds a 64-bit type, which R153 does not
define, va and vb are checked as pairs of that type and vd is one register; the reserved type's cause joins theirs. -/
def pixOp (op : POp) (sv : Bool) (d a b : BitVec 7) (wa wb k : Bool) (tm : Team) : LaneOp :=
  let (t, ok) := tm.ty sv
  let fe := fmtEnv tm.fmt
  { srcs := [vsrc a t wa, vsrc b t wb], unis := [], dsts := [vdst1 d], keep := k, typed := ok && op.defined t
    sem := fun w vals _ => lanewise w vals fun xs => pixLane op t fe (nth xs 0) (nth xs 1) 0 }

/-- vdot4 and vdot2: vd is a third value source with a clear wait bit (R154). -/
def dotOp (op : POp) (sv : Bool) (d a b : BitVec 7) (wa wb : Bool) (tm : Team) : LaneOp :=
  let (t, ok) := tm.ty sv
  let fe := fmtEnv tm.fmt
  { srcs := [vsrc a t wa, vsrc b t wb, vsrc1 d false], unis := [], dsts := [vdst1 d], keep := false
    typed := ok && op.defined t
    sem := fun w vals _ => lanewise w vals fun xs => pixLane op t fe (nth xs 0) (nth xs 1) (nth xs 2) }

/-- `VSAD` (R153). -/
def execVsad (sv : Bool) (d a b : BitVec 7) (wa wb k : Bool) (s : State) : Out1 :=
  laneExec 4 (pixOp .sad sv d a b wa wb k) s

/-- `VAVG` (R153). -/
def execVavg (sv : Bool) (d a b : BitVec 7) (wa wb k : Bool) (s : State) : Out1 :=
  laneExec 4 (pixOp .avg sv d a b wa wb k) s

/-- `VDOT4` (R154). -/
def execVdot4 (sv : Bool) (d a b : BitVec 7) (wa wb : Bool) (s : State) : Out1 :=
  laneExec 4 (dotOp .dot4 sv d a b wa wb) s

/-- `VDOT2` (R154). -/
def execVdot2 (sv : Bool) (d a b : BitVec 7) (wa wb : Bool) (s : State) : Out1 :=
  laneExec 4 (dotOp .dot2 sv d a b wa wb) s

/-- `VMED3_VECTOR_C` (R153). Its group PX2 is absent on the Cargor 9 (R105): the word is a stray of cause 0x02, capability 2 (R155).
A handler that works in a 64-bit type on one-register windows traps with cause 0x05 (R26, R115; log entry 92). -/
def execVmed3VectorC (sv : Bool) (d a b : BitVec 7) (wa wb k : Bool) (c : BitVec 7) (wc : Bool) (s : State) : Out1 :=
  strayStep (rawWords (.vmed3VectorC sv d a b wa wb k c wc)) s

/-- `VMED3_UNIFORM_C` (R153). Its group PX2 is absent on the Cargor 9 (R105): the word is a stray of cause 0x02, capability 2 (R155). -/
def execVmed3UniformC (sv : Bool) (d a b : BitVec 7) (wa wb k : Bool) (c : BitVec 7) (wc : Bool) (s : State) : Out1 :=
  strayStep (rawWords (.vmed3UniformC sv d a b wa wb k c wc)) s

end Sys2Proof.Machine
end

