-- ==== Sys2Proof/Machine/Links.lean ====
section
/-!
DEFINITION. Sys2Proof/Machine/Links.lean: cells (R367, R368), spraying and acknowledgement (R370, R371), the opening and
completion of rows (R373-R376), bounce rings (R377-R379) and link ports (R381).
-/
namespace Sys2Proof.Machine

/-! ## Cells -/

/-- One bit of CRC-32C, reflected. -/
def crcBit (c : BitVec 32) : BitVec 32 := if c.getLsbD 0 then (c >>> 1) ^^^ 0x82F63B78#32 else c >>> 1

/-- One byte of CRC-32C. -/
def crcByte (c : BitVec 32) (b : Byte) : BitVec 32 :=
  let x := c ^^^ b.setWidth 32
  crcBit (crcBit (crcBit (crcBit (crcBit (crcBit (crcBit (crcBit x)))))))

/-- CRC-32C of bytes. -/
def crc32c (bs : List Byte) : BitVec 32 := ~~~(bs.foldl crcByte 0xFFFFFFFF#32)

/-- The CRC of a cell: words 0 and 1, bits 31:0 of word 2, the payload (R367). -/
def cellCrc (w0 w1 w2 : Nat) (pay : List Byte) : Nat :=
  (crc32c (bytesOf 8 w0 ++ bytesOf 8 w1 ++ bytesOf 4 (w2 % 2 ^ 32) ++ pay)).toNat

/-- Fields of a cell header (R367). -/
structure CellHdr where
  qname : Nat
  kind : Nat
  sctx : Nat
  sdev : Nat
  ddev : Nat
  count : Nat
  cseq : Nat
  token : Nat
  rseq : Nat
  plen : Nat
  rlen : Nat
  deriving DecidableEq, Repr

/-- Reads the fields of a header. -/
def hdrOf (w0 w1 w2 : Nat) : CellHdr :=
  { qname := bitsOf w0 63 48, kind := bitsOf w0 47 40, sctx := bitsOf w0 39 32, sdev := bitsOf w0 31 16, ddev := bitsOf w0 15 0
    count := bitsOf w1 63 56, cseq := bitsOf w1 55 48, token := bitsOf w1 47 32, rseq := bitsOf w1 31 0
    plen := bitsOf w2 24 16, rlen := bitsOf w2 15 0 }

/-- The cell of a header and payload, refusal bits beside, with its CRC. -/
def cellOf (port : Nat) (h : CellHdr) (refusal : Nat) (pay : List Byte) : Cell :=
  let w0 := h.qname * 2 ^ 48 + h.kind * 2 ^ 40 + h.sctx * 2 ^ 32 + h.sdev * 2 ^ 16 + h.ddev
  let w1 := h.count * 2 ^ 56 + h.cseq * 2 ^ 48 + h.token * 2 ^ 32 + h.rseq
  let w2 := refusal * 2 ^ 25 + h.plen * 2 ^ 16 + h.rlen
  ⟨port, [dwordOfNat w0, dwordOfNat w1, dwordOfNat (cellCrc w0 w1 w2 pay * 2 ^ 32 + w2), 0#64], pay⟩

/-- Is a row cell dropped (R368; log entry 44)? -/
def cellBad (dev : Nat) (w0 w1 w2 w3 : Nat) (pay : List Byte) : Bool :=
  let h := hdrOf w0 w1 w2
  bitsOf w2 63 32 != cellCrc w0 w1 w2 pay || 4 ≤ h.kind || nz w2 31 25 || w3 != 0 || h.ddev != dev || h.count ≤ h.cseq ||
    h.count != (h.rlen + 255) / 256 || h.plen != min 256 (h.rlen - 256 * h.cseq) || pay.length != h.plen

/-- Is an acknowledgement dropped? -/
def ackBad (dev : Nat) (w0 w1 w2 w3 : Nat) : Bool :=
  let h := hdrOf w0 w1 w2
  bitsOf w2 63 32 != cellCrc w0 w1 w2 [] || h.kind == 0 || 4 ≤ h.kind || nz w2 31 28 || (h.kind != 3 && nz w2 27 25) || w3 != 0 ||
    h.ddev != dev || h.plen != 0 || h.count ≤ h.cseq

/-- The answer to a cell (R368). -/
def ackOf (port : Nat) (h : CellHdr) (kind sub : Nat) : Cell :=
  cellOf port { h with kind := kind, sdev := h.ddev, ddev := h.sdev, plen := 0 } sub []

/-- Changes a port. -/
def State.updPort (s : State) (n : Nat) (f : Port → Port) : State := { s with ports := upd s.ports n f }

/-- Is a port up? -/
def State.portUp (s : State) (n : Nat) : Bool := ((s.ports[n]?).map fun p => p.en && p.up).getD false

/-! ## Sending (R289, R290, R370, R371) -/

/-- The ports of a rail mask, from port 0 upward. -/
def railsOf (o : EngOp) : List Nat := (List.range 16).filter fun i => (bitsOf (blk o.block 0) 47 32).testBit i

/-- Cells of a row. -/
def cellsOf (o : EngOp) : Nat := (bitsOf (blk o.block 2) 15 0 + 255) / 256

/-- The first up port of the mask from position `k` on, taken in ascending order modulo its length. -/
def State.pickRail (s : State) (ps : List Nat) (k : Nat) : Option Nat :=
  ((List.range ps.length).map fun i => ps.getD ((k + i) % ps.length) 0).find? s.portUp

/-- The header of cell `c` of a row. -/
def State.hdrFor (s : State) (f : Fold) (o : EngOp) (c : Nat) : CellHdr :=
  let w0 := blk o.block 0
  let len := bitsOf (blk o.block 2) 15 0
  { qname := bitsOf w0 31 16, kind := 0, sctx := f.ctx, sdev := s.dev, ddev := bitsOf w0 15 0, count := cellsOf o, cseq := c
    token := bitsOf (blk o.block 2) 47 32, rseq := o.start, plen := min 256 (len - 256 * c), rlen := len }

/-- A cell leaves on a port; with no port up the nsend ends with cause 0x33. Poisoned source bytes end it as their read does. -/
def State.sendCell (s : State) (n : Nat) (o : EngOp) (f : Fold) (c : Nat) (rail : Option Nat) : State :=
  match rail with
  | none => s.opFault n o 0x33 0 0#64
  | some p =>
    let h := s.hdrFor f o c
    let pa := f.scratchPa (descCore (blk o.block 1)) (descOff (blk o.block 1) + 256 * c)
    match poisonTrap ((s.poisonIn pa h.plen).map fun q => (0, q)) with
    | some t => s.opFault n o t.cause 0 0#64
    | none =>
      { s.updOp n fun x => { x with rails := (c, p) :: x.rails.filter (·.1 != c) } with
        wire := s.wire ++ [cellOf p h 0 (s.busRead pa h.plen)] }

/-- `CELL_TRANSMIT` (R370). The next cell of a row leaves. -/
def execCellTransmit (op : Nat) (s : State) : Out1 :=
  match s.liveOp op false with
  | none => .next s
  | some (o, f) =>
    match (if o.kind == .nsend then (List.range (cellsOf o)).find? fun c => !o.rails.any (·.1 == c) else none) with
    | none => .next s
    | some c =>
      let ps := railsOf o
      moved (s.sendCell op o f c (s.pickRail ps ((o.start + c) % max 1 ps.length)))

/-- `CELL_RETRANSMIT` (R371). A cell without an answer leaves again on the next rail after the one it last used. -/
def execCellRetransmit (op cell : Nat) (s : State) : Out1 :=
  match s.liveOp op false with
  | none => .next s
  | some (o, f) =>
    match (if o.kind == .nsend && !o.acked.contains cell then o.rails.lookup cell else none) with
    | none => .next s
    | some last =>
      let ps := railsOf o
      moved (s.sendCell op o f cell (s.pickRail ps (ps.findIdx (· == last) + 1)))

/-- The nsend that a row sequence belongs to. -/
def State.sender (s : State) (ctx dev rseq : Nat) : Option (Nat × EngOp) :=
  ((List.range s.ops.length).filterMap fun i => (s.ops[i]?).bind fun o =>
    if o.live && o.kind == .nsend && o.start == rseq && bitsOf (blk o.block 0) 15 0 == dev &&
        ((s.fold? o.fold).map (·.ctx == ctx)).getD false then some (i, o) else none).head?

/-- The codewords that a port's FEC has corrected since it last received are counted (R381; log entry 94). -/
def State.corrected (s : State) (port : Nat) : State :=
  s.updPort port fun p => { p with fecc := (p.fecc + Config.freeCount s.moves port) % 2 ^ 32 }

/-- A dropped cell is counted (R368). -/
def State.dropCell (s : State) (port : Nat) : State := s.updPort port fun p => { p with drop := min 0xFFFF (p.drop + 1) }

/-- `ACK_RECEIVE` (R371, R290). -/
def execAckReceive (port : Nat) (h0 h1 h2 h3 : BitVec 64) (s : State) : Out1 :=
  if !s.portUp port then .next s
  else if ackBad s.dev h0.toNat h1.toNat h2.toNat h3.toNat then moved (s.dropCell port)
  else
    let h := hdrOf h0.toNat h1.toNat h2.toNat
    let s := s.corrected port
    match s.sender h.sctx h.sdev h.rseq with
    | none => moved s
    | some (n, o) =>
      if h.kind == 3 then
        moved (s.opFault n o 0x26 (bitsOf h2.toNat 27 25) (dwordOfNat (h.qname + h.sdev * 2 ^ 16 + h.rseq * 2 ^ 32)))
      else
        let acked := (h.cseq :: o.acked).eraseDups
        let s := s.updOp n fun x => { x with acked := acked }
        if (List.range (cellsOf o)).all acked.contains then moved (s.opDone n o) else moved s

/-! ## Receiving (R372-R376) -/

/-- A translation-table entry of a queue name, if there is one (R372). -/
def State.nameEntry (s : State) (name : Nat) : Option Nat :=
  if 1024 ≤ name then none
  else
    let x := ((s.xlate.lookup name).getD 0#64).toNat
    if x.testBit 63 then some x else none

/-- Is a row open, with a target that holds a place? -/
def Row.openTarget (r : Row) : Bool :=
  !r.closed && match r.target with | .queue _ _ _ | .landing _ _ => true | _ => false

/-- What opening a row decides: its target, or to wait (R374). `replayed` is the context whose ring is replayed, whose RD is
ignored (R378). -/
def State.openRow (s : State) (h : CellHdr) (replayed : Option Nat) : Option (Nat × RowTarget) :=
  match s.nameEntry h.qname with
  | none => some (0, .refused 0)
  | some x =>
    let c := bitsOf x 60 55
    let pad := bitsOf x 54 50
    if x.testBit 62 && replayed != some c then some (c, .bounce)
    else if !x.testBit 61 then
      let q := (s.pad pad).queues.getD (bitsOf x 47 44) Queue.empty
      let mine := ((q.owner.bind s.fold?).map fun f => f.ctx == c && f.status == .resident).getD false
      if !mine || q.closed then some (c, .refused 2)
      else if q.size < h.rlen + 8 then some (c, .refused 1)
      else if q.free == 0 || 1024 ≤ s.rows.countP Row.openTarget then none
      else some (c, .queue pad (bitsOf x 47 44) q.t)
    else
      let win := bitsOf x 38 34
      match s.landTeam (placeOf pad (bitsOf x 49 48) (bitsOf x 43 39)) win with
      | none => some (c, .refused 3)
      | some t =>
        match s.team? t with
        | none => some (c, .refused 3)
        | some tm =>
          if s.ctxOf tm != c then some (c, .refused 3)
          else
            match tm.landings.find? (·.window == win) with
            | none => some (c, .refused 3)
            | some l =>
              if 4 * l.n < h.rlen then some (c, .refused 4)
              else if l.byCopy || s.rows.any (fun r => !r.closed && r.target == .landing t win) then some (c, .refused 5)
              else if 1024 ≤ s.rows.countP Row.openTarget then none
              else some (c, .landing t win)

/-- The highest row sequence that the port has opened for a sender, in the order of sequences modulo 2^32; rows redirected to a
bounce ring are not opened by it (R375, R378; log entry 93). -/
def State.highest (s : State) (h : CellHdr) : Option Nat :=
  ((s.rows.filter fun r => r.sdev == h.sdev && r.sctx == h.sctx && r.target != .bounce).map (·.rseq)).foldl (fun m r =>
    match m with
    | none => some r
    | some x => some (if (r + 2 ^ 32 - x) % 2 ^ 32 < 2 ^ 31 then r else x)) none

/-- How far a cell's sequence lies below the highest; none where it lies above, or no row was opened. -/
def State.below (s : State) (h : CellHdr) : Option Nat :=
  (s.highest h).bind fun x =>
    let d := (x + 2 ^ 32 - h.rseq) % 2 ^ 32
    if d < 2 ^ 31 then some d else none

/-- Is a row refused? -/
def RowTarget.isRefusal : RowTarget → Bool
  | .refused _ => true
  | _ => false

/-- The port forgets closed rows, and refused ones, of a cell's sender that lie more than 1,024 below the highest, whose cells are answered
without them (R375; log entry 93). -/
def State.forget (s : State) (h : CellHdr) : State :=
  { s with rows := s.rows.map fun (r : Row) =>
    if r.sdev == h.sdev && r.sctx == h.sctx && !r.old && (r.closed || r.target.isRefusal) && r.target != .bounce &&
        !((s.below { h with rseq := r.rseq }).map fun d => decide (d ≤ 1024)).getD false then { r with old := true } else r }

/-- A row is opened, from a bounce ring or live: it reserves its slot, or is bound to its window. Of the sender's closed rows those whose
sequences are the 1,024 up to the highest opened are remembered (R375). -/
def State.addRow (s : State) (h : CellHdr) (c : Nat) (tg : RowTarget) (replayed : Bool) : State :=
  let s := { s with rows := s.rows ++ [(⟨h.sdev, h.sctx, h.ddev, h.rseq, c, h.qname, h.rlen, h.count, h.token, tg, [], false, replayed, false⟩ : Row)] }
  let s := s.forget h
  match tg with
  | .queue pad q _ => s.updPad pad fun p => { p with queues := upd p.queues q fun x => { x with t := x.t + 1 } }
  | .landing t win => s.updTeam t fun tm =>
      { tm with landings := tm.landings.map fun l => if l.window == win then { l with byRow := true } else l }
  | _ => s

/-- The physical place of a byte of a queue's slot, in the scratch of its owner. -/
def State.slotPa (s : State) (pad q seq : Nat) : Option Nat :=
  let x := (s.pad pad).queues.getD q Queue.empty
  (x.owner.bind s.fold?).map fun f => f.scratchPa (descCore x.desc.toNat) (x.slotOff seq)

/-- Row bytes reach a window; a byte already set is a duplicate (R376), and a released window takes none (R56). -/
def State.landRow (s : State) (t win off : Nat) : List Byte → State
  | [] => s
  | b :: bs =>
    (match s.team? t with
     | none => s
     | some tm =>
       match tm.landByte win off b [] false true with
       | .error _ => s
       | .ok tm' => s.updTeam t fun _ => tm').landRow t win (off + 1) bs

/-- The payload of a cell is written at its place. -/
def State.putCell (s : State) (tg : RowTarget) (cseq : Nat) (pay : List Byte) : State :=
  match tg with
  | .queue pad q seq =>
    match s.slotPa pad q seq with
    | some pa => (s.busWrite (pa + 256 * cseq) pay).clearPoison [(pa + 256 * cseq, pay.length)]
    | none => s
  | .landing t win => s.landRow t win (256 * cseq) pay
  | _ => s

/-- The last cell of a row has landed: the tag is written and the slot published (R363, R375). -/
def State.closeRow (s : State) (i : Nat) (r : Row) : State :=
  let s := { s with rows := upd s.rows i fun x => { x with closed := true } }
  match r.target with
  | .queue pad q seq =>
    let s := match s.slotPa pad q seq with
      | some pa => s.busWrite (pa + r.rlen) (bytesOf 8 (r.sdev + r.sctx * 2 ^ 16 + r.token * 2 ^ 32))
      | none => s
    (s.updPad pad fun p => { p with queues := upd p.queues q fun x => x.publish seq }).dateEntries pad
  | _ => s

/-- Does a sequence lie more than 1,024 below the highest one opened (R375)? -/
def State.tooOld (s : State) (h : CellHdr) : Bool := ((s.below h).map fun d => decide (1024 < d)).getD false

/-- Is a context's bounce ring being replayed (R378)? -/
def State.replaying (s : State) (c : Nat) : Bool := s.replay.msb && bitsOf s.replay.toNat 5 0 == c

/-- The row of a cell, the last opened of its name: a redirected row counts while its cells go to the ring, and not for a replay; one
that a replay has opened counts not for a live cell while the replay goes on, which the ring takes too (R378); and no row that the
port has forgotten, or of the past for a sequence above the highest. -/
def State.rowFor (s : State) (h : CellHdr) (replay : Bool) : Option (Nat × Row) :=
  ((List.range s.rows.length).filterMap fun i => (s.rows[i]?).bind fun r =>
    if r.sdev == h.sdev && r.sctx == h.sctx && r.ddev == h.ddev && r.rseq == h.rseq && !r.old &&
        (if r.target == .bounce then !(replay || r.closed)
         else (s.below h).isSome && (replay || !(r.replayed && s.replaying r.ctx))) then some (i, r) else none).getLast?

/-- Base, size, tail and head of a context's bounce ring (R377). -/
def Ctx.bounce (c : Ctx) : Nat × Nat × Nat × Nat := (bitsOf (c.word 10) 51 0, 2 ^ (c.word 11 % 32), c.word 12, c.word 13)

/-- May an entry of a context's bounce ring be used: it lies in neither the on-chip nor the control space, which only the firmware and
context 0 reach (R315, R477; log entry 111)? -/
def bounceMay (c pa : Nat) : Bool := c == 0 || cacheable (pa + 319)

/-- A cell is written whole into a bounce ring, none where the ring is full (R377) or its place may not be used. -/
def State.bouncePut (s : State) (c port : Nat) (hdr : List DWord) (pay : List Byte) : Option State :=
  let (base, size, tail, head) := (s.ctx c).bounce
  let pa := base + tail % size * 320
  if size ≤ tail - head || !bounceMay c pa then none
  else
    let bytes := ((hdr.map fun w => bytesOf 8 w.toNat).flatten ++ pay ++ List.replicate 256 0#8).take 288 ++ bytesOf 8 port ++
      List.replicate 24 0#8
    some (((s.settle [(pa, 320)]).busWrite pa bytes).updCtx c fun x => { x with desc := upd x.desc 12 (· + 1#64) })

/-- What becomes of a cell: the kind it is answered with and the refusal, or no answer yet. -/
inductive CellFate where
  | answer (kind sub : Nat)
  | unanswered
  deriving DecidableEq, Repr

/-- A cell of a row whose target is known. -/
def State.rowCell (s : State) (port : Nat) (hdr : List DWord) (h : CellHdr) (pay : List Byte) (i : Nat) (r : Row) : CellFate × State :=
  match r.target with
  | .refused sub => (.answer 3 sub, s)
  | .bounce =>
    match s.bouncePut r.ctx port hdr pay with
    | none => (.unanswered, s)
    | some s' => (.answer 2 0, s')
  | tg =>
    if r.got.contains h.cseq then (.answer 1 0, s)
    else
      let s := s.putCell tg h.cseq pay
      let got := h.cseq :: r.got
      let s := { s with rows := upd s.rows i fun x => { x with got := got } }
      (.answer 1 0, if (List.range r.count).all got.contains then s.closeRow i r else s)

/-- A cell arrives (R373-R376), on a port or from the ring of a context that is replayed (R378). -/
def State.cellIn (s : State) (port : Nat) (hdr : List DWord) (h : CellHdr) (pay : List Byte) (replayed : Option Nat) :
    CellFate × State :=
  if s.tooOld h then (.answer 1 0, s)
  else
    match s.rowFor h replayed.isSome with
    | some (i, r) => if r.closed then (.answer 1 0, s) else s.rowCell port hdr h pay i r
    | none =>
      match s.openRow h replayed with
      | none => (.unanswered, s)
      | some (c, tg) =>
        let s := s.addRow h c tg replayed.isSome
        match s.rows.getLast? with
        | none => (.unanswered, s)
        | some r => s.rowCell port hdr h pay (s.rows.length - 1) r

/-- `CELL_RECEIVE` (R368, R371). -/
def execCellReceive (port : Nat) (h0 h1 h2 h3 : BitVec 64) (payload : List (BitVec 8)) (s : State) : Out1 :=
  let h := hdrOf h0.toNat h1.toNat h2.toNat
  if !s.portUp port || (1 ≤ h.kind && h.kind ≤ 3) then .next s
  else if cellBad s.dev h0.toNat h1.toNat h2.toNat h3.toNat payload then moved (s.dropCell port)
  else
    match (s.corrected port).cellIn port [h0, h1, h2, h3] h payload none with
    | (.unanswered, s') => moved s'
    | (.answer k sub, s') => moved { s' with wire := s'.wire ++ [ackOf port h k sub] }

/-- Is RD set for a row's context under its name, or has the fold that held its queue ended (R56, R379)? -/
def State.mayAbandon (s : State) (r : Row) : Bool :=
  ((s.nameEntry r.name).map fun x => x.testBit 62 && bitsOf x 60 55 == r.ctx).getD false ||
  match r.target with
  | .queue pad q _ =>
    (((s.pad pad).queues.getD q Queue.empty).owner.bind s.fold?).map (fun f => f.status == .ended) |>.getD false
  | _ => false

/-- `ROW_ABANDON` (R379). The 1 ms is not counted (log entry 1): the step may come once RD is set. -/
def execRowAbandon (row : Nat) (s : State) : Out1 :=
  match s.rows[row]? with
  | none => .next s
  | some r =>
    if !r.openTarget || !s.mayAbandon r then .next s
    else
      let detail := match r.target with | .queue _ q seq => q * 2 ^ 60 + seq % 2 ^ 60 | _ => 0
      moved ({ s with rows := upd s.rows row fun x => { x with closed := true } }.postAsync r.ctx
        (asyncRec r.ctx 0x33 2 (dwordOfNat detail)))

/-! ## Replay of a bounce ring (R378, R478) -/

/-- Head has reached tail: RD is cleared in every entry of the context, its rows are no longer redirected, GO reads 0. -/
def State.replayEnd (s : State) (c : Nat) : State :=
  { s with
    replay := s.replay &&& 0x3F#64
    rows := s.rows.map fun r => if r.ctx == c && r.target == .bounce then { r with closed := true } else r
    xlate := s.xlate.map fun e =>
      if bitsOf e.2.toNat 60 55 == c then (e.1, e.2 &&& ~~~0x4000000000000000#64) else e }

/-- One entry of a context's bounce ring is handled as an arriving cell. -/
def State.replayOne (s : State) (c : Nat) : Option State :=
  let (base, size, tail, head) := (s.ctx c).bounce
  let pa := base + head % size * 320
  if tail ≤ head || !bounceMay c pa then none
  else
    let s := s.settle [(pa, 320)]
    let hdr := (List.range 4).map fun k => dwordOfNat (s.bus64 (pa + 8 * k))
    let h := hdrOf (hdr.getD 0 0#64).toNat (hdr.getD 1 0#64).toNat (hdr.getD 2 0#64).toNat
    let port := s.bus64 (pa + 288) % 16
    let known := (s.rowFor h true).isSome
    match s.cellIn port hdr h (s.busRead (pa + 32) h.plen) (some c) with
    | (.unanswered, _) => none
    | (.answer k sub, s') =>
      let s' := s'.updCtx c fun x => { x with desc := upd x.desc 13 (· + 1#64) }
      some (if k == 3 && !known then
        s'.postAsync c (asyncRec c 0x26 sub (dwordOfNat (h.qname + h.sdev * 2 ^ 16 + h.rseq * 2 ^ 32)))
      else s')

/-- `BOUNCE_RING_REPLAY` (R378). The ports take one entry while GO reads 1. -/
def execBounceRingReplay (ctx : Nat) (s : State) : Out1 :=
  if !s.replaying ctx then .next s
  else
    let (_, _, tail, head) := (s.ctx ctx).bounce
    if tail ≤ head then moved (s.replayEnd ctx)
    else
      match s.replayOne ctx with
      | none => .next s
      | some s' =>
        let (_, _, tail, head) := (s'.ctx ctx).bounce
        moved (if tail ≤ head then s'.replayEnd ctx else s')

/-! ## Ports (R381) -/

/-- `PORT_ENABLE` (R381). The port trains. -/
def execPortEnable (port : Nat) (s : State) : Out1 :=
  moved (s.updPort port fun p => { p with en := true, trn := p.trn || !p.up })

/-- `DROP_CLEAR` (R381). -/
def execDropClear (port : Nat) (s : State) : Out1 := moved (s.updPort port fun p => { p with drop := 0 })

/-- `FECU_CLEAR` (R381). -/
def execFecuClear (port : Nat) (s : State) : Out1 := moved (s.updPort port fun p => { p with fecu := 0 })

/-- `LINK_UP` (R381). Training ends on 8, 4, 2 or 1 lanes; with none the port is down. -/
def execLinkUp (port lanes : Nat) (s : State) : Out1 :=
  match s.ports[port]? with
  | none => .next s
  | some p =>
    if !p.en || !p.trn then .next s
    else if lanes == 0 then moved (s.updPort port fun p => { p with trn := false })
    else if [1, 2, 4, 8].contains lanes then
      moved ((s.updPort port fun p => { p with up := true, trn := false, lanes := lanes }).log port (8 + port / 4) 7
        (dwordOfNat (1 + lanes * 16)) 0#64)
    else .next s

/-- `LINK_DOWN` (R381). -/
def execLinkDown (port : Nat) (s : State) : Out1 :=
  if s.portUp port then moved ((s.updPort port fun p => { p with up := false, lanes := 0 }).log port (8 + port / 4) 7 0#64 0#64)
  else .next s

/-- `UNCORRECTABLE_CODEWORD` (R381). The cells it carried do not arrive. -/
def execUncorrectableCodeword (port : Nat) (s : State) : Out1 :=
  moved ((s.corrected port).updPort port fun p => { p with fecu := min 0xFF (p.fecu + 1) })

end Sys2Proof.Machine
end

