-- ==== Sys2Proof/Machine/Power.lean ====
section
/-!
DEFINITION. Sys2Proof/Machine/Power.lean: the control intervals: permits and boost slots (R222, R437), guard voltages
(R456), the margin controller and margin events (R457-R461), budgets, thermal levels and sensors (R462-R467).
-/
namespace Sys2Proof.Machine

/-! ## Domains -/

/-- A domain; one that does not exist is as at reset. -/
def State.domain (s : State) (d : Nat) : Domain := s.domains.getD d Domain.reset
/-- Changes a domain. -/
def State.updDom (s : State) (d : Nat) (f : Domain → Domain) : State := { s with domains := upd s.domains d f }

/-- The number of set bits of a health mask among `n`. -/
def healthy {w : Nat} (x : BitVec w) : Nat := (List.range w).countP fun i => x.getLsbD i

/-- The floor of a domain's voltage: 0.55 V for compute, 0.70 V for base domains (R457). -/
def floorOf (d : Nat) : Nat := if d < 8 then 0 else 30

/-- The voltage code below which a compute domain is in write-assist mode: 0.62 V (R458). -/
def assistAt : Nat := 14

/-- Unit, domain and event of the health words of a domain (R483). -/
def Domain.healthWord (x : Domain) : DWord := dwordOfNat (x.thealth.toNat + x.ihealth.toNat * 16)

/-- The domain's temperature: its hottest healthy sensor, 5 °C more where a sensor is suspect, 105 °C with none (R463, R466,
R467). -/
def Domain.hottest (x : Domain) : Int :=
  let good := (List.range 4).filterMap fun i => if x.thealth.getLsbD i then x.temps[i]? else none
  match good with
  | [] => 105
  | t :: ts => ts.foldl max t + (if good.length < 4 then 5 else 0)

/-- Threshold of a thermal level from 1 on (R463). -/
def levelAt (l : Nat) : Int := 85 + 10 * l

/-- The level at a temperature, from the level before: a level is left 5 °C below its threshold. -/
def nextLevel (old : Nat) (t : Int) : Nat :=
  ([4, 3, 2, 1].find? fun l => levelAt l ≤ t || (l ≤ old && levelAt l - 5 < t)).getD 0

/-- The effects that refuse a paddock a slot: an overrun, a thermal level, a capped domain (R462, R463, R467). -/
def State.barred (s : State) (p : Nat) : Bool :=
  (s.pad p).overrun || 1 ≤ (s.domain (domainOf p)).level || (s.domain (domainOf p)).cap

/-! ## Permits (R437) -/

/-- The end of an interval for a paddock: a permit charged, the fall, or the refill. -/
def Paddock.endInterval (p : Paddock) : Paddock :=
  if p.slot && !p.fall then
    let n := p.permits - 1
    if p.claims.isEmpty then { p with permits := n, slot := false, clock := 0, refill := 0 }
    else if n == 0 then { p with permits := 0, claims := [], fall := true, clock := 1 }
    else { p with permits := n }
  else if p.fall then { p with slot := false, fall := false, clock := 0, refill := 0, claims := [] }
  else { p with refill := p.refill + 1, permits := if p.refill % 2 == 1 then min 64 (p.permits + 1) else p.permits }

/-- A paddock at the boundary that ends the running interval, once. -/
def State.endPad (s : State) (p : Nat) : State :=
  s.updPad p fun x => if s.interval + 1 ≤ x.done then x else { x.endInterval with done := s.interval + 1 }

/-- A paddock's part of the boundary taken as a step of its own, where its condition holds. -/
def padEvent (p : Nat) (cond : Paddock → Bool) (s : State) : Out1 :=
  match s.paddocks[p]? with
  | none => .next s
  | some x => if x.done ≤ s.interval && cond x then moved (s.endPad p) else .next s

/-- `PERMITS_EXHAUSTED` (R437). At the boundary that takes the last permit. -/
def execPermitsExhausted (paddock : Nat) (s : State) : Out1 :=
  padEvent paddock (fun x => x.slot && !x.fall && x.permits ≤ 1 && !x.claims.isEmpty) s

/-- `FALL_END` (R437). -/
def execFallEnd (paddock : Nat) (s : State) : Out1 := padEvent paddock (·.fall) s

/-- `PERMIT_REFILL` (R437). -/
def execPermitRefill (paddock : Nat) (s : State) : Out1 :=
  padEvent paddock (fun x => !x.slot && !x.fall && x.refill % 2 == 1 && x.permits < 64) s

/-! ## Sensors (R465-R467; log entry 55) -/

/-- Is a reading within what a sensor may show: °C for temperature, mA for current? -/
def inRange (sensor : Nat) (reading : Int) : Bool :=
  if sensor < 4 then -40 ≤ reading && reading ≤ 150 else 0 ≤ reading && reading ≤ 400000

/-- The last reading of a sensor. -/
def Domain.reading (x : Domain) (sensor : Nat) : Int := if sensor < 4 then x.temps.getD sensor 0 else x.amps.getD (sensor - 4) 0

/-- The current of a domain: a suspect current sensor is replaced by the other one (R466). -/
def Domain.amp (x : Domain) : Int := x.amps.getD (if x.ihealth.getLsbD 0 then 0 else 1) 0

/-- Twice the median of up to three values. -/
def twiceMedian (l : List Int) : Option Int :=
  match sortBy (fun a b => decide (a ≤ b)) l with
  | [] => none
  | [a] => some (2 * a)
  | [a, b] => some (a + b)
  | _ :: b :: _ => some (2 * b)

/-- Is a sensor stuck: unchanged for 1 ms, 250 intervals, over which the domain's energy an interval has changed by more than 20 %? -/
def Domain.stuck (x : Domain) (sensor : Nat) : Bool :=
  250 ≤ x.still.getD sensor 0 && match x.joules[0]?, x.joules[250]? with
    | some now, some old => old < 5 * (max now old - min now old)
    | _, _ => false

/-- Does a sensor disagree: a temperature more than 10 °C from the median of the other healthy ones, or of two currents more than 20 % of
the larger apart the one farther from the regulator's estimate, the first where both are as far? -/
def Domain.disagrees (x : Domain) (sensor : Nat) : Bool :=
  let a := x.reading sensor
  if sensor < 4 then
    match twiceMedian ((List.range 4).filterMap fun i => if i != sensor && x.thealth.getLsbD i then x.temps[i]? else none) with
    | none => false
    | some m => 20 < (2 * a - m).natAbs
  else
    let b := x.reading (9 - sensor)
    max a b < 5 * (a - b).natAbs &&
      ((b - x.est).natAbs < (a - x.est).natAbs || ((b - x.est).natAbs == (a - x.est).natAbs && sensor == 4))

/-- Does a case of R465 hold of a sensor: 1 stuck, 2 out of range, 3 disagreeing? -/
def Domain.because (x : Domain) (sensor reason : Nat) : Bool :=
  match reason with
  | 1 => x.stuck sensor
  | 2 => !inRange sensor (x.reading sensor)
  | 3 => x.disagrees sensor
  | _ => false

/-- The first case that holds of a sensor, 0 for none. -/
def Domain.suspicion (x : Domain) (sensor : Nat) : Nat := (([1, 2, 3] : List Nat).find? (x.because sensor)).getD 0

/-- A new reading of a sensor: a changed one ends its standing still. -/
def Domain.put (x : Domain) (sensor : Nat) (reading : Int) : Domain :=
  let y := if reading == x.reading sensor then x else { x with still := upd x.still sensor fun _ => 0 }
  if sensor < 4 then { y with temps := upd y.temps sensor fun _ => reading }
  else { y with amps := upd y.amps (sensor - 4) fun _ => reading }

/-- The health masks with a sensor set or cleared; a suspect one's 16 ms begin anew. -/
def Domain.mark (x : Domain) (sensor : Nat) (ok : Bool) : Domain :=
  let x := if ok then x else { x with clean := upd x.clean sensor fun _ => 0 }
  if sensor < 4 then { x with thealth := if ok then x.thealth ||| 1#4 <<< sensor else x.thealth &&& ~~~(1#4 <<< sensor) }
  else { x with ihealth := if ok then x.ihealth ||| 1#2 <<< (sensor - 4) else x.ihealth &&& ~~~(1#2 <<< (sensor - 4)) }

/-- Is a sensor healthy? -/
def Domain.good (x : Domain) (sensor : Nat) : Bool := if sensor < 4 then x.thealth.getLsbD sensor else x.ihealth.getLsbD (sensor - 4)

/-- A sensor turns suspect, which is logged; a domain with too few healthy ones is capped (R465, R467). -/
def State.suspect (s : State) (d sensor reason : Nat) : State :=
  let y := (s.domain d).mark sensor false
  let s := (s.updDom d fun _ => y).log sensor d 3 (dwordOfNat (1 + reason * 2)) (BitVec.ofInt 64 (y.reading sensor))
  if !y.cap && (healthy y.thealth < 2 || healthy y.ihealth == 0) then
    (s.updDom d fun z => { z with cap := true, offset := 0 }).log 0 d 4 1#64 y.healthWord
  else s

/-- The readings of a boundary, as far as they are given: of the six sensors, then the regulator's estimate, with the domain's energy in
the interval that ends. -/
def Domain.sampled (x : Domain) (energy : Nat) (rs : List Int) : Domain :=
  let x := { x with still := x.still.map (· + 1), joules := (energy :: x.joules).take 251, est := rs.getD 6 x.est }
  let x := ((rs.take 6).zipIdx).foldl (fun (x : Domain) r => x.put r.2 r.1) x
  { x with clean := x.clean.mapIdx fun i n => if x.suspicion i == 0 then n + 1 else 0 }

/-! ## The interval boundary (R488) -/

/-- The energy in nJ and largest current window in mA measured for a paddock. -/
def measured (energy : List (Nat × Nat × Nat)) (p : Nat) : Nat × Nat := ((energy.find? (·.1 == p)).map (·.2)).getD (0, 0)

/-- Overruns of the interval that ends, against the budgets it had (R462). -/
def State.takeOverruns (s : State) (energy : List (Nat × Nat × Nat)) : State :=
  (List.range 32).foldl (fun (s : State) p =>
    let m := measured energy p
    let b := s.budget p
    let exceeds := decide (b.1 < m.1) || decide (1000 * b.2 < m.2)
    let s := s.updPad p fun x => { x with overrun := exceeds }
    if exceeds then s.log p (domainOf p) 2 (dwordOfNat m.1) (dwordOfNat m.2) else s) s

/-- A domain's sample at a boundary: its readings, the sensors they make suspect, temperature and level (R463, R465). At level 4 the
part is switched off. -/
def State.sample (s : State) (energy : List (Nat × Nat × Nat)) (reads : List (Nat × List Int)) (d : Nat) : State :=
  let spent := (((List.range 32).filter fun p => domainOf p == d).map fun p => (measured energy p).1).sum
  let x := (s.domain d).sampled spent ((reads.lookup d).getD [])
  let s := ((List.range 6).filter fun i => x.good i && x.suspicion i != 0).foldl
    (fun (s : State) i => s.suspect d i (x.suspicion i)) (s.updDom d fun _ => x)
  let t := (s.domain d).hottest
  let l := nextLevel x.level t
  let s := s.updDom d fun y => { y with temp := t, level := l }
  let s := if l == x.level then s else s.log 0 d 5 (dwordOfNat l) (BitVec.ofInt 64 t)
  if l == 4 && !s.off then { s.log 0 d 8 1#64 0#64 with off := true } else s

/-- A cap lifts once enough sensors are healthy (R467). -/
def State.liftCap (s : State) (d : Nat) : State :=
  let x := s.domain d
  if x.cap && 2 ≤ healthy x.thealth && 1 ≤ healthy x.ihealth then
    (s.updDom d fun y => { y with cap := false }).log 0 d 4 0#64 x.healthWord
  else s

/-- A slot that R462, R463 or R467 releases goes as by a withdrawal (R437, R464). -/
def State.release (s : State) (p : Nat) : State :=
  if (s.pad p).slot && s.barred p then
    s.updPad p fun x => { x with slot := false, fall := false, clock := 0, claims := [], refill := 0 }
  else s

/-- Teams that wait for a slot decision (R222): number, team. -/
def State.claimants (s : State) : List (Nat × Team) :=
  (List.range s.teams.length).filterMap fun t => (s.team? t).bind fun tm =>
    if tm.claim.isSome && tm.status == .run && ((s.fold? tm.fold).map (·.status == .resident)).getD false then some (t, tm) else none

/-- Paddocks of a pasture that get a free slot: most permits first, ties to the lower (R222). -/
def State.winners (s : State) (ts : List (Nat × Team)) (pasture : Nat) : List Nat :=
  let ps := ((List.range 8).map (8 * pasture + ·)).filter fun p =>
    (ts.any fun x => s.padOf x.2 == p) && 1 ≤ (s.pad p).permits && !(s.pad p).slot && !s.barred p
  (sortBy (fun a b => decide ((s.pad b).permits < (s.pad a).permits) ||
    ((s.pad a).permits == (s.pad b).permits && decide (a ≤ b))) ps).take (s.slotsLeft pasture)

/-- A paddock is granted a slot on behalf of the folds that claim. -/
def State.grantSlot (s : State) (ts : List (Nat × Team)) (p : Nat) : State :=
  s.updPad p fun x =>
    { x with
      slot := true, fall := false, clock := 2, refill := 0
      claims := ((ts.filter fun y => s.padOf y.2 == p).map (·.2.fold)).eraseDups }

/-- A waiting claim is answered. -/
def State.answerClaim (s : State) (won : List Nat) (x : Nat × Team) : State :=
  match x.2.claim with
  | none => s
  | some (d, sq) =>
    let p := s.padOf x.2
    let tm := { x.2 with claim := none }
    s.updTeam x.1 fun _ => tm.claimed (s.env x.1 tm) d sq (s.powerWord p) (!won.contains p)

/-- The slot decision (R222). -/
def State.decide (s : State) : State :=
  let ts := s.claimants
  let won := ((List.range 4).map (s.winners ts)).flatten
  let s := won.foldl (fun (s : State) p => s.grantSlot ts p) s
  ts.foldl (fun (s : State) x => s.answerClaim won x) s

/-- The guard voltage of a compute domain's highest clock; the offset returns to 0 as it changes (R455, R456). -/
def State.setGuard (s : State) (d : Nat) : State :=
  let c := ((List.range 4).map fun i => (s.pad (4 * d + i)).clock).foldl max 0
  let g := 40 + 10 * c
  s.updDom d fun x => if x.guard == g then x else { x with guard := g, offset := 0 }

/-- The counts of windows and holds (R457, R459). -/
def Domain.tick (x : Domain) : Domain := { x with window := x.window + 1, holdLeft := x.holdLeft - 1 }

/-- The intervals a fold has made no progress (R415). -/
def State.countIdle (s : State) (f : Fold) : Fold :=
  if f.status != .resident || f.victim || s.haltBegun f then f
  else
    let ran := f.progress || (s.foldTeams f).any fun x => f.seen < x.2.lastIssue
    { f with progress := false, seen := s.moves, idle := if ran then 0 else f.idle + 1 }

/-- `INTERVAL_BOUNDARY` (R488). What was measured in the interval, per paddock energy in nJ and largest current window in
mA, and per domain the readings of its four temperature sensors, of its two current sensors and the regulator's estimate of its
current, are the step's operands. Every write still dirty in an L1 is performed by then (R352; log entry 88), and the drover tests
dependences afterwards (R443). -/
def execIntervalBoundary (energy : List (Nat × Nat × Nat)) (temps : List (Nat × List Int)) (s : State) : Out1 :=
  let clocked (s : State) : State := { s with usec := s.usec + 4, interval := s.interval + 1 }
  if s.off then moved (clocked s)
  else
    let s := s.writeAll.takeOverruns energy
    let s := (List.range 8).foldl (fun (s : State) d => (s.sample energy temps d).liftCap d) s
    let s := (List.range 32).foldl State.endPad s
    let s := (List.range 32).foldl State.release s
    let s := (List.range 8).foldl State.setGuard s.decide
    let s := { s with domains := s.domains.map Domain.tick }
    let s := s.tryFolds
    moved (clocked { s with folds := s.folds.map s.countIdle, testDue := true })

/-! ## Voltage (R456, R458) -/

/-- The voltage code a domain is driven to. -/
def Domain.target (x : Domain) : Nat := x.guard - x.offset

/-- `VOLTAGE_REACHED` (R456, R458, R459). The regulator has slewed. -/
def execVoltageReached (domain : Nat) (s : State) : Out1 :=
  if domain < 12 then moved (s.updDom domain fun x =>
    { x with volt := x.target, wa := decide (domain < 8) && decide (x.target < assistAt) })
  else .next s

/-! ## The margin controller (R457) -/

/-- The offset after a window with a number of corrected canary errors. -/
def Domain.step (x : Domain) (floor errors : Nat) : Nat :=
  if !x.men || x.cap || x.hold then 0
  else if errors == 0 && floor + 1 ≤ x.target then x.offset + 1
  else if 4 ≤ errors then x.offset - 2
  else x.offset

/-- `MARGIN_WINDOW_END` (R457). Write-assist begins before a step below 0.62 V (R458). -/
def execMarginWindowEnd (domain errors : Nat) (s : State) : Out1 :=
  match s.domains[domain]? with
  | none => .next s
  | some x =>
    if x.window < 256 then .next s
    else
      let n := x.step (floorOf domain) errors
      moved (s.updDom domain fun y =>
        { y with offset := n, window := 0, wa := y.wa || (decide (domain < 8) && decide (y.guard - n < assistAt)) })

/-- `MARGIN_HOLD_END` (R459). The window count starts afresh. -/
def execMarginHoldEnd (domain : Nat) (s : State) : Out1 :=
  match s.domains[domain]? with
  | none => .next s
  | some x => if x.hold && x.holdLeft == 0 then moved (s.updDom domain fun y => { y with hold := false, window := 0 }) else .next s

/-! ## Errors and poison (R459-R461; the numbering of words is log entry 33) -/

/-- The slots that the teams of a partition hold, in the order of teams and registers: team, register, lanes. -/
def State.heldSlots (s : State) (place : Nat) : List (Nat × VRef × List Nat) :=
  let ofReg (t : Nat) (r : VRef) (v : VReg) : List (Nat × VRef × List Nat) :=
    (List.range (slotsOf v.lanes)).map fun i => (t, r, ((lanesOf v.lanes).drop (32 * i)).take 32)
  ((List.range s.teams.length).map fun t =>
    match s.team? t with
    | some tm =>
      if tm.spilled || s.place tm != place || !s.resident tm then []
      else
        ((List.range tm.vregs.length).map fun n => ofReg t (.team n) (tm.vregs.getD n (VReg.fresh 0))).flatten ++
          (tm.stray.mapIdx fun i fr =>
            (fr.ev.toList.mapIdx fun n r => ofReg t (.priv (tm.stray.length - i) n) r).flatten).flatten
    | none => []).flatten

/-- Poison on the 32 values of a slot. -/
def State.poisonSlot (s : State) (place k : Nat) (p : Poison) : State :=
  match (s.heldSlots place)[k]? with
  | none => s
  | some (t, r, lanes) =>
    s.updTeam t fun tm => tm.setV r fun v => { v with poison := v.poison ++ (lanes.map fun j => (j, p)).filter fun x => !v.poison.contains x }

/-- The uniform registers that the teams of a partition hold, in the order of teams and registers: team, register. -/
def State.heldUnis (s : State) (place : Nat) : List (Nat × URef) :=
  ((List.range s.teams.length).map fun t =>
    match s.team? t with
    | some tm =>
      if s.place tm != place || !s.resident tm then []
      else ((List.range tm.uregs.length).map fun n => (t, URef.team n)) ++
        ((List.range tm.stray.length).map fun i => (List.range 16).map fun n => (t, URef.priv (tm.stray.length - i) n)).flatten
    | none => []).flatten

/-- Poison on the value of a uniform register of a partition. -/
def State.poisonUni (s : State) (place k : Nat) (p : Poison) : State :=
  match (s.heldUnis place)[k]? with
  | none => s
  | some (t, r) => s.updTeam t fun tm => tm.setU r fun (u : UReg) =>
      { u with poison := if u.poison == some .plain then u.poison else some p }

/-- Poison on the word of memory at an address. -/
def State.poisonAt (s : State) (pa : Nat) (p : Poison) : State := s.addPoison [(pa, [p])]

/-- An entry added to poison that does not hold it. -/
def withPoison (l : List (Nat × Poison)) (n : Nat) (p : Poison) : List (Nat × Poison) := if l.contains (n, p) then l else l ++ [(n, p)]

/-- Poison on a word of the L1 caches of a paddock that hold it (R460): below 2^48 of a data line, from there of an instruction line,
and from 2^48 × (2 + k) on position k of a copy of the decoded block that begins in the word (log entry 33). -/
def State.poisonL1 (s : State) (paddock index : Nat) (p : Poison) : State :=
  let word := index % 2 ^ 48
  match index / 2 ^ 48 with
  | 0 => { s with l1d := s.l1d.map fun (x : L1Line) =>
      if x.core / 4 == paddock && x.line == word / 8 && ((x.bytes.drop (8 * (word % 8))).take 8).any (·.isSome) then
        { x with poison := withPoison x.poison (word % 8) p } else x }
  | 1 => { s with l1i := s.l1i.map fun (x : L1Code) =>
      if x.core / 4 == paddock && x.line == word / 16 then { x with poison := withPoison x.poison (word % 16) p } else x }
  | k + 2 => { s with l1b := s.l1b.map fun (x : L1Block) =>
      if x.core / 4 == paddock && (x.segs.headD (0, 0)).1 / 8 == word && k < 16 then
        { x with poison := withPoison x.poison k p } else x }

/-- Poison on the word in error, by the kind of its memory (R460, R483). -/
def State.poisonWord (s : State) (domain unit kind index : Nat) (p : Poison) : State :=
  match kind with
  | 0 => s.poisonSlot (unit * 128 + index / Config.poolSlots) (index % Config.poolSlots) p
  | 1 => s.poisonL1 unit index p
  | 4 => s.poisonAt (8 * index) p
  | 2 => s.poisonAt (scratchAddr (unit * 4 + index / 131072) (8 * (index % 131072))) p
  | 3 => s.poisonAt (accAddr (unit * 4 + index / 196608) (8 * (index % 196608))) p
  | 5 =>
    if 8 ≤ domain then (if s.decoded.any fun b => runsMeet b.segs [(8 * index, 8)] then s.poisonAt (8 * index) p else s)
    else s.poisonUni (unit * 128 + index / Config.poolUniform) (index % Config.poolUniform) p
  | 6 => s.poisonAt index p
  | _ => s

/-- Is the unit of a word in error one of its domain (R483): a paddock, a pasture, or one of the two HBM stacks of a pasture (R2)? -/
def unitOk (domain unit kind index : Nat) : Bool :=
  if domain < 8 then
    unit < 32 && domainOf unit == domain && (match kind with
      | 0 => index < 128 * Config.poolSlots
      | 2 => index < 4 * 131072
      | 3 => index < 4 * 196608
      | 5 => index < 128 * Config.poolUniform
      | 1 => true
      | _ => false)
  else if domain < 12 then (kind == 6 && unit < 8 && domain == 8 + unit / 2) || ((kind == 4 || kind == 5) && unit + 8 == domain)
  else false

/-- The slices in the arrays of a domain, all that a stream-fed command has been granted among them, are replayed from their kept
incoming rows in conformance mode (R260, R461). DESIGN CHOICE (log entry 118): one that pre-emption had stopped part-way is replayed from
its first K-block, with the symbols decoded before. -/
def State.replaySlices (s : State) (domain : Nat) : State :=
  { s with paddocks := s.paddocks.zipIdx.map fun (x : Paddock × Nat) =>
      if domainOf x.2 != domain then x.1
      else { x.1 with table := x.1.table.map fun (e : ResEntry) =>
        if e.live then { e with granted := e.granted.map fun (sl : Slice) =>
            { sl with replay := true, from_ := 0, run := [] } } else e } }

/-- `MARGIN_EVENT` (R459). -/
def execMarginEvent (domain unit kind index : Nat) (s : State) : Out1 :=
  let x := s.domain domain
  if x.offset == 0 || kind == 6 || !unitOk domain unit kind index then .next s
  else
    let s := s.log unit domain 1 (dwordOfNat (x.volt + x.offset * 2 ^ 8)) (dwordOfNat (kind + index * 2 ^ 8))
    let s := s.updDom domain fun y => { y with offset := 0, hold := true, holdLeft := 65536 }
    moved ((if domain < 8 then s.replaySlices domain else s).poisonWord domain unit kind index .margin)

/-- `UNCORRECTABLE_MEMORY_ERROR` (R459). -/
def execUncorrectableMemoryError (domain unit kind index : Nat) (s : State) : Out1 :=
  if (kind != 6 && (s.domain domain).offset != 0) || !unitOk domain unit kind index then .next s
  else moved ((s.log unit domain 6 (dwordOfNat kind) (dwordOfNat index)).poisonWord domain unit kind index .plain)

/-! ## Moves of the sensors (R465) -/

/-- `SENSOR_SUSPECT` (R465, R467). Reasons: 1 stuck, 2 out of range, 3 disagreeing; the sensor's reading gives that one. -/
def execSensorSuspect (domain sensor reason : Nat) (reading : Int) (s : State) : Out1 :=
  let x := (s.domain domain).put sensor reading
  if 8 ≤ domain || 6 ≤ sensor || !x.good sensor || !x.because sensor reason then .next s
  else moved ((s.updDom domain fun _ => x).suspect domain sensor reason)

/-- `SENSOR_HEALTHY` (R465). For 16 ms, 4,000 intervals, none of the conditions held, and its reading gives none. -/
def execSensorHealthy (domain sensor : Nat) (reading : Int) (s : State) : Out1 :=
  let x := (s.domain domain).put sensor reading
  if 8 ≤ domain || 6 ≤ sensor || x.good sensor || x.clean.getD sensor 0 < 4000 || x.suspicion sensor != 0 then .next s
  else moved ((s.updDom domain fun _ => x.mark sensor true).log sensor domain 3 0#64 (BitVec.ofInt 64 reading))

end Sys2Proof.Machine
end

