-- ==== Sys2Proof/Machine/Manage.lean ====
section
/-!
DEFINITION. Sys2Proof/Machine/Manage.lean: bring-up (R485), the capability list (R469-R471), and the shepherd port: PLDM, SPDM and
the black-box record (R480-R484).
-/
namespace Sys2Proof.Machine

/-! ## Bring-up (R485) -/

/-- The capability list (R469-R471): identity, opcode capabilities, control map. Serial number, revision and form are the
module's own (log entry 9); no CXL record (log entry 34). -/
def capList : List DWord :=
  [0x0000200020010001#64, dwordOfNat (Config.partNumber + (if Config.form then 2 ^ 16 else 0) + Config.revision.toNat * 2 ^ 24), Config.serial 0, Config.serial 1,
    0x0000300010010002#64, 0x0000001E0000001A#64, 0x0000000020010003#64, 0x10000#64, 0x20000#64, 0x100000#64]

/-- The part as a reset leaves it: State.reset, but for the bytes of memory, the firmware's banks and images, the always-on domain's
counter and black-box record, which only an unfreeze command or power-off changes (R482, R483), and the model's own fields (log
entry 35). -/
def State.powerOn (s : State) : State :=
  { State.reset with
    agenda := s.agenda
    overlap := s.overlap
    moves := s.moves
    mem := s.mem
    dev := s.dev
    images := s.images
    bank := s.bank
    bankNext := s.bankNext
    usec := s.usec
    bbox := s.bbox
    bbSeq := s.bbSeq
    frozen := s.frozen
    out := s.out }

/-- The firmware bank after a reset (R480, R483): an update that verifies is applied; one that does not falls back. -/
def State.chooseBank (s : State) : State :=
  match s.bankNext with
  | none => s
  | some (b, ok) =>
    let now := if ok then b else s.bank
    { s with bank := now, bankNext := none }.log now 12 10 (dwordOfNat s.bank) (if ok then 0#64 else 1#64)

/-- A domain starts at its guard voltage: 0.75 V of a compute domain, 0.80 V of a base domain (R455). -/
def Domain.start (v : Nat) (x : Domain) : Domain := { x with guard := v, volt := v }

/-- Domains from `a` up to `b` start. -/
def State.startDoms (s : State) (a b v : Nat) : State :=
  { s with domains := s.domains.mapIdx fun d x => if a ≤ d && d < b then x.start v else x }

/-- `BRING_UP` (R485). The next step of bring-up; where it has ended, or failed, or the part is off, a reset begins it anew. Steps 4 and
5 are one: whether self-test passed is the move's operand, and where it failed the part stays at step 4. Step 6 creates context 0: its
descriptor turns valid (R429), with zeros where the resident OS writes what it chooses (log entry 122). -/
def execBringUp (selfTest : Bool) (s : State) : Out1 :=
  match (if s.off || s.bring == 4 then 0 else s.bring) with
  | 1 => moved { s.chooseBank.startDoms 8 12 50 with bring := 2 }
  | 2 => moved { s with bring := 3 }
  | 3 =>
    let s := s.startDoms 0 8 40
    if selfTest then
      moved { s with
        domains := s.domains.map fun (x : Domain) => { x with men := true }
        paddocks := s.paddocks.map fun (p : Paddock) => { p with arrctl := 0#32 }
        bring := 5 }
    else moved { s.log 0 12 8 0#64 0#64 with bring := 4 }
  | 5 => moved ({ s with bring := 6 }.updCtx 0 fun c => { c with desc := upd c.desc 0 fun w => w ||| 0x8000000000000000#64 })
  | 6 => moved { s with caps := capList, bring := 7 }
  | _ => moved { s.powerOn with bring := 1 }

/-! ## PLDM (R480) -/

/-- The value of a numeric sensor (numbering: log entry 36): temperature in °C, voltage in mV, current in mA, module power. Base domains
have no sensors of R465: what theirs read is open (log entry 56). -/
def State.sensor (s : State) (n : Nat) : Option Int :=
  if n < 8 then some (s.domain n).temp
  else if 12 ≤ n && n < 24 then some (550 + 5 * (s.domain (n - 12)).volt)
  else if 24 ≤ n && n < 32 then some (s.domain (n - 24)).amp
  else if n ≤ 36 then some (Config.sensorReading s.moves n)
  else none

/-- `PLDM_PLATFORM_MONITORING` (R480). A sensor that does not exist is answered with PLDM's completion code 0x80. -/
def execPldmPlatformMonitoring (sensor : Nat) (s : State) : Out1 :=
  moved { s with out := s.out ++ [match s.sensor sensor with | some v => .sensor v | none => .mgmt 0x80 []] }

/-- `PLDM_FIRMWARE_UPDATE` (R480). The image goes to the other bank and applies at the next reset. -/
def execPldmFirmwareUpdate (image : List (BitVec 8)) (verified : Bool) (s : State) : Out1 :=
  let b := 1 - s.bank
  moved { s with images := (b, image) :: s.images.filter (·.1 != b), bankNext := some (b, verified) }

/-! ## SPDM (R481): the responder's codes and the order of requests are SPDM 1.3's (log entry 37) -/

/-- A response with the bytes given. -/
def State.respond (s : State) (code : Nat) (bs : List Byte) : Out1 := moved { s with out := s.out ++ [.mgmt code bs] }

/-- `n` bytes that the manual does not give: digests, certificates, signatures. -/
def State.mgmtBytes (s : State) (n : Nat) : List Byte := (List.range n).map fun i => Config.freeMgmt s.moves i

/-- An ERROR response with an error code. -/
def State.spdmError (s : State) (code : Nat) : Out1 := s.respond 0x7F [BitVec.ofNat 8 code]

/-- A request that needs the connection at a stage; otherwise ERROR UnexpectedRequest. -/
def State.atStage (s : State) (n : Nat) (x : Out1) : Out1 := if n ≤ s.spdm then x else s.spdmError 4

/-- `GET_VERSION` (R481). It begins the connection anew. -/
def execGetVersion (s : State) : Out1 := { s with spdm := 1 }.respond 0x04 [0x13#8]

/-- `GET_CAPABILITIES` (R481). -/
def execGetCapabilities (s : State) : Out1 := s.atStage 1 ({ s with spdm := max 2 s.spdm }.respond 0x61 (s.mgmtBytes 4))

/-- `NEGOTIATE_ALGORITHMS` (R481). SHA-384 is the only base hash; a request without it is invalid. The answer selects it and one extended
asymmetric algorithm, ECDSA over brainpoolP384r1 under Svetesk's vendor identifier, whose four bytes the manual does not give (log
entry 37). -/
def execNegotiateAlgorithms (algorithms : List Nat) (s : State) : Out1 :=
  s.atStage 2 (if algorithms.contains 2 then { s with spdm := 3 }.respond 0x63 ([2#8, 1#8] ++ s.mgmtBytes 4) else s.spdmError 1)

/-- `GET_DIGESTS` (R481). One certificate chain, its SHA-384 digest. -/
def execGetDigests (s : State) : Out1 := s.atStage 3 (s.respond 0x01 (s.mgmtBytes 48))

/-- `GET_CERTIFICATE` (R481). -/
def execGetCertificate (slot offset length : Nat) (s : State) : Out1 :=
  s.atStage 3 (if slot != 0 then s.spdmError 1
    else s.respond 0x02 ((List.range (min length 65535)).map fun i => Config.freeMgmt 0 (offset + i)))

/-- `CHALLENGE` (R481). The answer ends with the responder's nonce and a signature of 96 bytes over the nonce it got. -/
def execChallenge (slot : Nat) (_nonce : BitVec 256) (s : State) : Out1 :=
  s.atStage 3 (if slot != 0 then s.spdmError 1 else s.respond 0x03 (s.mgmtBytes (48 + 32 + 96)))

/-- `GET_MEASUREMENTS` (R481). Index 0 asks for their number; 1 to 4 are the firmware bank in use, the resident OS image, the
fused configuration and the capability list; 255 is all of them. -/
def execGetMeasurements (index : Nat) (_nonce : BitVec 256) (s : State) : Out1 :=
  s.atStage 3 (if index == 0 then s.respond 0x60 [4#8]
    else if index ≤ 4 then s.respond 0x60 (s.mgmtBytes (48 + 96))
    else if index == 255 then s.respond 0x60 (s.mgmtBytes (4 * 48 + 96))
    else s.spdmError 1)

/-! ## The black-box record (R482-R484) -/

/-- `BLACK_BOX_READ` (R484). At most 32 consecutive entries, and the sequence of the next one. -/
def execBlackBoxRead (first count : Nat) (s : State) : Out1 :=
  moved { s with out := s.out ++
    [.bbox (s.bbox.filter fun e => decide (first ≤ e.seq) && decide (e.seq < first + min count 32)) s.bbSeq] }

/-- `BLACK_BOX_UNFREEZE` (R483). -/
def execBlackBoxUnfreeze (s : State) : Out1 := moved { s with frozen := false }

end Sys2Proof.Machine
end

