-- ==== Sys2Proof/Machine/Preempt.lean ====
section
/-!
DEFINITION. Sys2Proof/Machine/Preempt.lean: fold control (R415, R418, R419, R422), the watchdog and fatal errors (R415,
R483), vacating paddocks (R423-R428), saved folds (R430).
-/
namespace Sys2Proof.Machine

/-! ## Fold control (R415, R479) -/

/-- What the resident OS answers a call with: its number, the result, a further value. -/
def State.osResult (s : State) (number result extra : Nat) : State := { s with out := s.out ++ [.osResult number result extra] }

/-- The resident OS runs from step 6 of bring-up on (R485). -/
def State.osRuns (s : State) : Bool := 6 ≤ s.bring

/-! ### The sources of a call (R479; log entry 96) -/

/-- Bus address of word `k` of the oldest request of a ring. -/
def FnRing.wordPa (r : FnRing) (k : Nat) : Nat := r.base.toNat + 64 * (r.head % r.size) + 8 * k

/-- Does a ring hold a request that is not answered, where it may be reached (R477)? -/
def FnRing.asks (r : FnRing) : Bool := r.size != 0 && r.head < r.tail && hostMay (r.wordPa 7)

/-- No function has a request that is not answered: a call comes by `ecall`. -/
def State.unasked (s : State) : Bool := s.fnRings.all fun r => !r.asks

/-- Is a ring's oldest request the call of a number and arguments? -/
def State.askedFor (s : State) (r : FnRing) (number : Nat) (args : List Nat) : Bool :=
  r.asks && s.bus64 (r.wordPa 0) % 65536 == number && args.zipIdx.all fun x => s.bus64 (r.wordPa (x.2 + 1)) == x.1

/-- The function whose request a call answers, the lowest; none for an `ecall`. -/
def State.caller (s : State) (number : Nat) (args : List Nat) : Option Nat :=
  s.fnRings.findIdx? fun r => s.askedFor r number args

/-- Is a ring's oldest request one that a call of a number turns away as a bad argument: an action or a mask that fits none of its
moves, or a number that is no call's? -/
def State.misasks (s : State) (number : Nat) (r : FnRing) : Bool :=
  let n := s.bus64 (r.wordPa 0) % 65536
  r.asks && (n == 0 || 8 < n || (n == number &&
    ((n == 4 && 2 < s.bus64 (r.wordPa 3)) || (n == 5 && 2 ^ 32 ≤ s.bus64 (r.wordPa 1)))))

/-- A function's oldest request is answered: what it returns in word 6, where it returns something, then the result in word 7. -/
def State.fillRequest (s : State) (fn result : Nat) (extra : Option Nat) : State :=
  match s.fnRings[fn]? with
  | none => s
  | some r =>
    let s := s.settle [(r.wordPa 6, 16)]
    let s := match extra with
      | none => s
      | some x => s.busWrite (r.wordPa 6) (bytesOf 8 x)
    { s.busWrite (r.wordPa 7) (bytesOf 8 result) with fnRings := upd s.fnRings fn fun r => { r with head := r.head + 1 } }

/-- A function's oldest request takes the answer given last; the number of an assigned context goes to word 6. -/
def State.endRequest (s : State) (fn : Nat) : State :=
  match s.out.getLast? with
  | some (.osResult number result extra) => s.fillRequest fn result (if number == 1 && result == 0 then some extra else none)
  | _ => s

/-- A call of the resident OS. One of a host function that names a context not its own is answered 3; a call that waits is
answered when it completes, and one with a bad argument with 1. -/
def osCall (number : Nat) (args : List Nat) (owner : Option Nat) (call : State → Out1) (s : State) : Out1 :=
  if !s.osRuns then .next s
  else
    match s.caller number args with
    | none =>
      match s.fnRings.findIdx? (s.misasks number) with
      | some fn => moved ((s.osResult number 1 0).endRequest fn)
      | none => call s
    | some fn =>
      if owner.any fun c => c < Config.contexts && (s.ctx c).fn != some fn then moved ((s.osResult number 3 0).endRequest fn)
      else
        match call s with
        | .next t => .next (if t.moves == s.moves then t else t.endRequest fn)
        | o => o

/-! ### Halts -/

/-- The fold and the stop whose halt's first record carries a sequence (R479). -/
def State.haltOf (s : State) (ctx seqno : Nat) : Option (Nat × Fold × Stop) :=
  (List.range s.folds.length).findSome? fun n => (s.fold? n).bind fun f =>
    if f.ctx != ctx || f.status == .ended then none
    else ((s.foldTeams f).findSome? fun x => x.2.stop.bind fun st =>
      if x.2.status == .stopped && st.first && (st.seqno.map (· % 2 ^ 32)) == some (seqno % 2 ^ 32) then some st else none).map
        fun st => (n, f, st)

/-- The stopped teams that an answer to a halt concerns: those with a record in its run (R411, R422), and where it halts the fold
those that stopped with it and have none, as siblings after the run or as a victim's. -/
def State.concerned (s : State) (f : Fold) (lead : Stop) : List (Nat × Team × Stop) :=
  ((s.foldTeams f).filterMap fun x => match x.2.status, x.2.stop with
    | .stopped, some st => some (x.1, x.2, st)
    | _, _ => none).filter fun x => x.2.2.run == lead.run ||
      (s.halting f.ctx lead && x.2.2.seqno.isNone && (x.2.2.cause == 0x3B || x.2.2.cause == 0x3C))

/-- A halted team goes on: it is no longer stopped; one named as first takes one step under SSTEP (R422). -/
def Team.restart (tm : Team) (st : Stop) (step : Bool) : Team :=
  { tm with status := st.was, stop := none, wait := .none, blocked := 0, stepOne := step && st.first, halt := none, before := 0 }

/-- Does a stop belong to an instruction of the team itself, which a resume retires (kind 0 of R415): also one that an engine fault has
taken over from a debug stop? -/
def Stop.own (st : Stop) : Bool := st.len != 0

/-- Resume of one team (R415): its trapping instruction retires, G-set by its SEQ on the flags as they stand. -/
def State.resumeTeam (s : State) (step : Bool) (x : Nat × Team × Stop) : State :=
  let st := x.2.2
  let tm := { x.2.1.restart st step with late := [] }
  if !st.own then s.updTeam x.1 fun _ => tm
  else
    match st.seq with
    | none => s.updTeam x.1 fun _ => tm.goto (tm.pc.toNat + st.len)
    | some sq =>
      match tm.seq (s.env x.1 tm) sq tm.flags (tm.pc.toNat + st.len) with
      | .ok tm' => s.updTeam x.1 fun _ => tm'
      | .error t => s.updTeam x.1 fun _ => tm.trap (s.env x.1 tm) t st.len st.seq

/-- A line of a load read again by a core, with the faults found now (R166, R358). -/
def State.reread (s : State) (core c : Nat) (strong : Bool) (l : LoadLine) : LoadLine × State :=
  let faults := (l.lanes.map fun x =>
    (causeIf (strong && s.mix c && s.mixed c x.2.1 x.2.2) 0x16 ++ poisonCauses (s.corePoison core [x.2])).map fun k =>
      (x.1, k, 0, l.va / 64 * 64 + x.2.1 % 64)).flatten
  let good := l.lanes.filter fun _ => faults.isEmpty
  let s' := (s.readPlain core l.comp (good.map (·.2))).2
  ({ l with bytes := good.map fun x => (x.1, s'.coreRead core x.2.1 x.2.2), faults := faults },
    if strong && s.mix c then s'.noteStrong c (good.map (·.2)) else s')

/-- Lines read again, in order. -/
def State.rereads (s : State) (core c : Nat) (strong : Bool) : List LoadLine → List LoadLine × State
  | [] => ([], s)
  | l :: ls =>
    let x := s.reread core c strong l
    let y := x.2.rereads core c strong ls
    (x.1 :: y.1, y.2)

/-- A load that trapped as its data arrived is performed again: its lines under translation, data and checks as they stand now. -/
def State.replayLoad (s : State) (t : Nat) (i : InFlight) : State :=
  match s.team? t with
  | none => s
  | some tm =>
    let c := s.ctxOf tm
    let tlb := s.tlbOf tm
    let lines : List (Option Trap × LoadLine) := i.all.map fun l => match s.translate tlb c l.va .read with
      | .ok pa _ => (none, { l with lanes := l.lanes.map fun (x : Nat × Nat × Nat) =>
          (x.1, pa / 65536 * 65536 + x.2.1 % 65536, x.2.2) })
      | .fault k sub => (some { Trap.sub' k sub with detail := dwordOfNat (l.va / 64 * 64) }, l)
    match lines.findSome? (·.1) with
    | some tr => s.lateTrap t tm tr i.pc
    | none =>
      let s := (if i.strong then s.acquireOf t tm else s).tlbFills tlb c (i.all.map (·.va))
      let r := s.rereads (s.coreOf tm) c i.strong (lines.map (·.2))
      r.2.updTeam t fun x => i.writes.foldl Team.markEmpty { x with inflight := x.inflight ++ [{ i with lines := r.1, all := r.1 }] }

/-- Replay of one team (R415): it executes its trapping instruction again. -/
def State.replayTeam (s : State) (step : Bool) (x : Nat × Team × Stop) : State :=
  let s := s.updTeam x.1 fun _ => { x.2.1.restart x.2.2 step with late := [] }
  x.2.1.late.foldl (fun (s : State) i => s.replayLoad x.1 i) s

/-- Counters of faulted engine work fall (resume, R269). -/
def State.settleBroken (s : State) : List Broken → State
  | [] => s
  | .op n :: bs => (match s.ops[n]? with | some o => s.ccFall o.team o.cc | none => s).settleBroken bs
  | .arr _ p _ :: bs => (s.ccFall p.team p.cc).settleBroken bs

/-- The watchdog's count starts afresh (R415). -/
def State.freshIdle (s : State) (n : Nat) : State := s.updFold n fun f => { f with idle := 0, progress := true }

/-- The halt of a fold is answered by resume or replay; unpinned instruction lines of its cores are invalidated first (R415). -/
def State.answerHalt (s : State) (n : Nat) (f : Fold) (lead : Stop) (replay : Bool) : State :=
  let step := ((s.ctx f.ctx).word 23).testBit 0
  let ts := s.concerned f lead
  let whole := s.halting f.ctx lead
  let margin := ts.any fun x => x.2.2.first && x.2.2.cause == 0x30
  let s := s.dropCode (s.foldCores f)
  -- all stops end first: a team that traps as it resumes begins a new halt
  let s := ts.foldl (fun (s : State) x => s.updTeam x.1 fun _ => x.2.1.restart x.2.2 step) s
  let s := ts.foldl (fun (s : State) x => if replay then s.replayTeam step x else s.resumeTeam step x) s
  let s := if whole then
      ((if replay then s.repostBroken n f
        else (s.settleBroken f.broken).updFold n fun x => { x with broken := [] }).freshIdle n)
    else s
  let s := if margin then s.updFold n fun x => { x with marginHalts := x.marginHalts + 1 } else s
  ((ts.foldl (fun (s : State) x => s.deliver x.1) s).meetCheck n).retryFold n

/-- Result of fold control: 1 for a context that is none, 2 where no such halt stands or the action is not allowed. -/
def State.foldControl (s : State) (ctx seqno action : Nat) : State :=
  if 64 ≤ ctx then s.osResult 4 1 0
  else
    match s.haltOf ctx seqno with
    | none => s.osResult 4 2 0
    | some (n, f, lead) =>
      let ts := s.concerned f lead
      let killOnly := ts.any fun x => x.2.2.cause == 0x32 || x.2.2.cause == 0x3D || x.2.2.cause == 0x3F
      -- the resident OS answers the first margin halt of a fold itself, by replay (R460)
      let osOwn := f.marginHalts == 0 && ts.any fun x => x.2.2.first && x.2.2.cause == 0x30
      if (action != 2 && killOnly) || (action != 1 && osOwn) then s.osResult 4 2 0
      else if action == 2 then (s.killFold n f 0).osResult 4 0 0
      else (s.answerHalt n f lead (action == 1)).osResult 4 0 0

/-- `FOLD_RESUME` (R415). -/
def execFoldResume (ctx seqno : Nat) (s : State) : Out1 :=
  osCall 4 [ctx, seqno, 0] (some ctx) (fun s => moved (s.foldControl ctx seqno 0)) s

/-- `FOLD_REPLAY` (R415). -/
def execFoldReplay (ctx seqno : Nat) (s : State) : Out1 :=
  osCall 4 [ctx, seqno, 1] (some ctx) (fun s => moved (s.foldControl ctx seqno 1)) s

/-- `FOLD_KILL` (R415). -/
def execFoldKill (ctx seqno : Nat) (s : State) : Out1 :=
  osCall 4 [ctx, seqno, 2] (some ctx) (fun s => moved (s.foldControl ctx seqno 2)) s

/-! ## The watchdog and fatal errors (R415, R483) -/

/-- A record of kind 4 that names a fold (R409). -/
def foldRec (f : Fold) (cause : Nat) : FaultRec :=
  { asyncRec f.ctx cause 0 0#64 with fold := f.linear, paddock := f.paddock }

/-- `FOLD_WATCHDOG` (R415). The intervals have been counted at their boundaries. -/
def execFoldWatchdog (fold : Nat) (s : State) : Out1 :=
  match s.fold? fold with
  | none => .next s
  | some f =>
    let w := bitsOf ((s.ctx f.ctx).word 24) 15 0
    if f.status != .resident || f.killedBy.isSome || w == 0 || f.idle < w || f.victim || s.haltBegun f then .next s
    else moved ((s.postAsync f.ctx (foldRec f 0x32)).killFold fold f 1)

/-- The stop of a fatal error (cause 0x3F, kind 4): no instruction raised it, so its record names no address; what the team has issued since
a halt arrived at it stands in it (R409, R410). -/
def fatalStop (tm : Team) (first : Bool) : Stop :=
  { cause := 0x3F, kind := 4, sub := 0, sec := 0#64, detail := 0#64, skid := (tm.halt.map (·.2.2)).getD 0, pc := 0#48, origin := tm.origin, fmt := tm.fmt
    map := [], block := [], first := first, stray := !tm.stray.isEmpty, depth2 := tm.stray.length == 2, margin := false, seqno := none, run := none, len := 0
    seq := none, was := tm.status }

/-- `FATAL_UNCLASSIFIED` (R406, R483). The fold halts, for kill only; the black-box record is frozen. -/
def execFatalUnclassified (fold : Nat) (s : State) : Out1 :=
  match s.fold? fold with
  | none => .next s
  | some f =>
    match (s.foldTeams f).find? fun x => x.2.status != .gone && x.2.status != .stopped with
    | none => .next s
    | some (t, tm) =>
      if f.status != .resident then .next s
      else
        let st := fatalStop tm (!(s.env t tm).halted)
        let s := s.updTeam t fun _ => { tm with status := .stopped, stop := some st, wait := .none, blocked := 0 }
        moved (s.log 0 (domainOf f.paddock) 8 2#64 0#64)

/-! ## Victims (R423, R424) -/

/-- A vacate request is accepted. Requests still open stand beside a new one, for which folds left in place outside its mask stay where
they are; the masks of completed ones end (log entry 45). -/
def State.vacate (s : State) (mask : BitVec 32) : State :=
  { s with
    vacates := s.vacates.filter (·.waits) ++ [⟨mask, true, 0#32⟩]
    folds := s.folds.map fun f =>
      let hit := f.status == .resident && mask.getLsbD f.paddock
      { f with left := f.left && !hit, victim := f.victim || hit } }

/-- `VACATE` (R423, R479). A host's request that no mask fits is answered 1 first, as of any call (log entry 96). -/
def execVacate (mask : BitVec 32) (s : State) : Out1 :=
  if !s.osRuns then .next s
  else
    match s.caller 5 [mask.toNat], s.fnRings.findIdx? (s.misasks 5) with
    | none, some fn => moved ((s.osResult 5 1 0).endRequest fn)
    | _, _ => moved (s.vacate mask)

/-- K-blocks of a stream-fed command that have been applied when it is struck (R310): those its slices had applied, and of the
rest of a tile that has been decoded a free number (log entry 65); none where no slice is granted. -/
def State.struckAt (s : State) (e : ResEntry) (i : Nat) : Nat :=
  match e.granted.head? with
  | none => 0
  | some sl => if e.codes.isNone then sl.from_ else sl.from_ + Config.freeLines s.moves i % (e.blk.k / 32 - sl.from_ + 1)

/-- A granted slice with its kept incoming rows and its running accumulator rows after the K-blocks below `b`, and whether one of
them wrapped (R310); one that is being replayed stays in conformance mode. -/
def State.partSlice (s : State) (e : ResEntry) (fd : Fold) (b : Nat) (sl : Slice) : Slice × Bool :=
  let sl := { sl with keep := s.keptRows e fd sl, conf := sl.conf || sl.replay }
  if b ≤ sl.from_ then (sl, false)
  else
    let rows := (List.range sl.rows).map fun r => s.sliceRow e fd sl sl.conf ((s.bRows e fd).take (32 * b)) (sl.first + r)
    ({ sl with from_ := b, run := rows.map (·.1) }, rows.any (·.2))

/-- The restart record of an array command of a fold (R310, R424): the slices granted are kept with the rows they took; a slice
with B in scratch starts anew, one of a stream-fed command goes on after the K-block in hand; what a restart record not granted again
holds stays. -/
def State.haltEntry (s : State) (fd : Fold) (i : Nat) (e : ResEntry) : ResEntry × List Nat :=
  if !e.stream then
    ({ e with granted := [], kept := (e.granted.map fun (sl : Slice) => { sl with replay := false, keep := [] }) ++ e.kept, header := none, codes := none }, [])
  else if e.granted.isEmpty then ({ e with header := none, codes := none }, [])
  else
    let b := s.struckAt e i
    let xs := e.granted.map (s.partSlice e fd b)
    let cores := (xs.filter (·.2)).map fun x =>
      descCore (((e.posts[(e.rowOf x.1.first).1]?).map fun q => arrBlk q.block).getD e.blk).dDesc
    ({ e with granted := [], kept := xs.map (·.1) ++ e.kept, header := none, codes := none
              prior := (e.codes.getD e.prior).take (32 * b * e.blk.n)
              seg := match e.header with
                | some t => min (t.starts.length - 1) (32 * b * e.blk.n / t.interval)
                | none => e.seg }, cores)

/-- The array of a paddock stops for a fold, and its boost claim is withdrawn. -/
def State.haltArray (s : State) (n : Nat) (fd : Fold) : State :=
  let es := (s.pad fd.paddock).table.zipIdx.map fun (y : ResEntry × Nat) =>
    if y.1.live && y.1.fold == n then s.haltEntry fd y.2 y.1 else (y.1, [])
  (s.updPad fd.paddock fun p => { p with table := es.map (·.1), claims := p.claims.filter (· != n) }).updFold n fun f =>
    { f with iovf := (f.iovf ++ (es.map (·.2)).flatten).eraseDups }

/-- mzero and mdrain of a fold stop at a 64-byte line, a free number of lines on, at which a row of accumulator store begins: a row that
counted slices commit to is left or seen whole (R424, R281; log entry 65). -/
def State.haltOps (s : State) (n : Nat) (fd : Fold) : State :=
  (List.range s.ops.length).foldl (fun (s : State) i => match s.ops[i]? with
    | none => s
    | some o =>
      if !o.live || o.fold != n then s
      else match o.kind with
        | .mzero =>
          let total := bitsOf (blk o.block 1) 20 0
          let upto := min total (o.done + 256 * (Config.freeLines s.moves i % (total / 256 + 1)))
          (s.zeroUpTo fd o upto).updOp i fun x => { x with done := upto }
        | .mdrain =>
          let x := drainBlk o.block
          let b := outBytes x.fmt
          match s.drainVals fd o with
          | .error _ => s
          | .ok vs =>
            let upto := min (vs.length * b) (o.done + 64 * b * (Config.freeLines s.moves i % (vs.length / 64 + 1)))
            let now := (vs.take (upto / b)).drop (o.done / b)
            (match s.drainOut fd o now with
             | (_, some _) => s
             | (s', none) => s'.updOp i fun x =>
                { x with done := upto, held := if upto == 0 then none else some (o.statusSoFar fd ||| drainFlags now) })
        | _ => s) s

/-- `VICTIM_STOP` (R424, R310, R428). Every team stops with cause 0x3C, claims are withdrawn, engines reach boundaries. -/
def execVictimStop (fold : Nat) (s : State) : Out1 :=
  match s.fold? fold with
  | none => .next s
  | some f =>
    if !f.victim || f.status != .resident then .next s
    else
      let s := s.haltFold 0x3C 1 f.teams
      let s := f.teams.foldl (fun (s : State) t => s.updTeam t fun tm => { tm with claim := none }) s
      moved ((s.haltArray fold f).haltOps fold f)

/-- Is a row open into a queue or a landing window of a fold (R379)? -/
def State.rowsInto (s : State) (n : Nat) (f : Fold) : Bool :=
  s.rows.any fun r => !r.closed && match r.target with
    | .queue p q _ => p == f.paddock && ((s.pad p).queues.getD q Queue.empty).owner == some n
    | .landing t _ => f.teams.contains t
    | _ => false

/-- Is a victim stopped: no team runs, nothing is in flight, no claim stands (R428), no slice granted, no work that must run out, no
open row? -/
def State.stilled (s : State) (n : Nat) (f : Fold) : Bool :=
  f.victim && f.status == .resident && f.killedBy.isNone &&
    (s.foldTeams f).all (fun x => x.2.status != .run && x.2.status != .ending && x.2.inflight.isEmpty && x.2.claim.isNone) &&
    !(s.pad f.paddock).claims.contains n &&
    !s.ops.any (fun o => o.live && o.fold == n && o.runsOut) &&
    !(s.pad f.paddock).table.any (fun e => e.live && e.fold == n && !e.granted.isEmpty) && !s.rowsInto n f

/-! ## Placing again (R425-R428) -/

/-- Restart records and posts of a fold in a table: entries that live, or that were stopped when it was saved. -/
def Paddock.restarts (p : Paddock) (n : Nat) : List ResEntry := p.table.filter fun e => e.fold == n && (e.live || e.stopped)

/-- Is there room in a table for a fold's restart records? -/
def State.tableRoom (s : State) (n : Nat) (f : Fold) (p : Nat) : Bool :=
  (s.pad p).heldEntries + ((s.pad f.paddock).restarts n).length ≤ Config.tableEntries

/-- Restart records are posted again on a paddock; a ragged command's queue is bound to it again. DESIGN CHOICE (log entry 110): their
operands stay as ready as they became when first posted, so that the port reads them before those of entries that became ready later
(R307); their age and the grants passed for the arbiter begin anew (R253). -/
def State.postEntries (s : State) (p n : Nat) : List ResEntry → State
  | [] => s
  | e :: es =>
    (s.updPad p fun x =>
      { x with
        table := x.table ++ [{ e with live := true, stopped := false, passed := 0, since := none }]
        queues := if e.kind == .mmaR then
            upd x.queues e.blk.queue fun q => if q.owner == some n then { q with bound := some x.table.length } else q
          else x.queues }).postEntries p n es

/-- A fold's entries leave a table. -/
def State.dropEntries (s : State) (p n : Nat) : State :=
  s.updPad p fun x => { x with table := x.table.map fun e => if e.fold == n then { e with live := false, stopped := false } else e }

/-- Teams that the device stopped, and no trap, go on (R428), unless the fold is halted as well. -/
def State.goOn (s : State) (n : Nat) : State :=
  match s.fold? n with
  | none => s
  | some f =>
    let s := s.updFold n fun x => { x with victim := false }
    if s.haltBegun f then s.retryFold n
    else
      let s := f.teams.foldl (fun (s : State) t => s.updTeam t fun tm => match tm.stop with
        | some st => if tm.status == .stopped && st.cause == 0x3C then
            tm.restart st false else { tm with halt := none, before := 0 }
        | none => { tm with halt := none, before := 0 }) s
      ((f.teams.foldl (fun (s : State) t => s.deliver t) s).meetCheck n).retryFold n

/-- The first paddock of the scan to which a fold may move. -/
def State.moveTo (s : State) (n : Nat) (f : Fold) : Option (Nat × List Alloc × List Alloc) :=
  if s.queueOpen n f then none
  else (s.scan f.ctx).findSome? fun p =>
    if p == f.paddock || !s.tableRoom n f p then none else (s.canMove f p).map fun r => (p, r)

/-- `VICTIM_MIGRATE` (R425). -/
def execVictimMigrate (fold paddock : Nat) (s : State) : Out1 :=
  match s.fold? fold with
  | none => .next s
  | some f =>
    if !s.stilled fold f then .next s
    else
      match s.moveTo fold f with
      | none => .next s
      | some (p, sc, ac) =>
        if p != paddock then .next s
        else
          let es := (s.pad f.paddock).restarts fold
          let old := s.foldPlaces f
          let s := (s.dropEntries f.paddock fold).moveFold fold f p sc ac
          let s := (s.postEntries p fold es).updCtx f.ctx fun c => { c with last := some p }
          moved (((s.goOn fold).dateEntries p).fillPlaces old)

/-! ## The save area (R426, R427, R430) -/

/-- Bytes of a page of the save area, as the model divides it. -/
def savePage : Nat := 4096

/-- The pages of regions, which are whole pages (R74): their first bytes, in order. -/
def pagesOf (rs : List (Nat × Nat)) : List (Nat × Nat) :=
  (rs.map fun r => (List.range (r.2 / savePage)).map fun i => (r.1 + i * savePage, savePage)).flatten

/-- Pages of a context's save area that no saved fold's image takes, the last first. -/
def State.savePages (s : State) (c : Nat) : List Nat :=
  ((List.range ((s.ctx c).saveSize / savePage)).filter fun i =>
    !s.folds.any fun f => f.ctx == c && f.status == .saved && f.image.contains i).reverse

/-- Where the allocation bytes of a fold stand in the save area: its image's pages behind the 64 KiB of fold-level state. DESIGN
CHOICE (log entry 86): the device takes the last free pages; what stands in the 64 KiB is the model's own fields of State. -/
def State.imagePlaces (s : State) (f : Fold) : List (Nat × Nat) :=
  (f.image.drop 16).map fun i => (bitsOf ((s.ctx f.ctx).word 2) 51 16 * 65536 + i * savePage, savePage)

/-- What stands at offset `at_` of a fold's image, by the places of its allocations. -/
def placeAddr : List (Nat × Nat) → Nat → Nat
  | [], o => o
  | p :: ps, o => if o < p.2 then p.1 + o else placeAddr ps (o - p.2)

/-- Offsets at which the allocations of a fold begin in its image. -/
def imageStarts : Nat → List (Nat × Nat) → List (Nat × Nat × Nat)
  | _, [] => []
  | o, p :: ps => (o, p.1, p.2) :: imageStarts (o + p.2) ps

/-- The row tags of a fold's allocations, by offset (R276). -/
def State.takeTags (s : State) (f : Fold) : List (Nat × AccTag) :=
  ((imageStarts 0 f.places).map fun x => (s.tags.filter fun t => x.2.1 / 256 ≤ t.1 && t.1 < (x.2.1 + x.2.2) / 256).map fun t =>
    (t.1 - x.2.1 / 256 + x.1 / 256, t.2)).flatten

/-- `FOLD_SAVE` (R425, R427). A stopped victim that cannot move is saved; one whose image does not fit resumes in place. -/
def execFoldSave (fold : Nat) (s : State) : Out1 :=
  match s.fold? fold with
  | none => .next s
  | some f =>
    if !s.stilled fold f || (s.moveTo fold f).isSome then .next s
    else if (s.ctx f.ctx).saveSize < s.saveHeld f.ctx + f.imageBytes then
      moved ((s.goOn fold).updFold fold fun x => { x with left := true })
    else
      let f' := { f with image := (s.savePages f.ctx).take (f.imageBytes / savePage) }
      let qs := (List.range 16).filterMap fun q =>
        let x := (s.pad f.paddock).queues.getD q Queue.empty
        if x.owner == some fold then some (q, x) else none
      let tags := s.takeTags f
      let old := s.foldPlaces f
      let s := s.leaveCores f
      let s := (f.places.foldl (fun (s : State) r => s.untag r.1 r.2) s).carry ((pagesOf f.places).zip (s.imagePlaces f'))
      let s := s.updPad f.paddock fun p =>
        { p with
          table := p.table.map fun e => if e.live && e.fold == fold then { e with live := false, stopped := true } else e
          queues := p.queues.map fun q => if q.owner == some fold then Queue.empty else q }
      let s := { s with teams := s.teams.map fun (tm : Team) =>
        if tm.fold == fold then
          { tm with ran := tm.ran + (s.clock (s.place tm) - tm.start), active := false, unfenced := [], claim := none }
        else tm }
      moved (State.fillPlaces (State.unpin <| s.updFold fold fun x =>
        { x with status := .saved, victim := false, left := false, shared := [], released := [], image := f'.image, tags := tags, queues := qs
                 chans := s.keptChans x }) old)

/-- `FOLD_RESTORE` (R426, R428). On the first paddock of the scan that takes it. -/
def execFoldRestore (fold paddock : Nat) (s : State) : Out1 :=
  match s.fold? fold with
  | none => .next s
  | some f =>
    let fit (p : Nat) : Option (List Alloc × List Alloc) := if s.tableRoom fold f p then s.canRestore f p else none
    if f.status != .saved || ((s.scan f.ctx).find? fun p => (fit p).isSome) != some paddock then .next s
    else
      match fit paddock with
      | none => .next s
      | some (sc, ac) =>
        let es := (s.pad f.paddock).restarts fold
        let f' := { f with paddock := paddock, scratch := sc, acc := ac, status := .resident, image := [], tags := [], queues := [] }
        let from_ := s.imagePlaces f
        let places := f'.places
        let s := (s.dropEntries f.paddock fold).updFold fold fun _ => f'
        let s := (places.foldl State.lift s).carry (from_.zip (pagesOf places))
        let s := { s with
          tags := s.tags ++ f.tags.map fun (x : Nat × AccTag) => (placeAddr places (256 * x.1) / 256, x.2)
          teams := s.teams.map fun (tm : Team) =>
            if tm.fold == fold then { tm with start := s.clock (placeOf paddock tm.core tm.part) } else tm }
        let s := s.updPad paddock fun p => { p with queues := f.queues.foldl (fun qs x => upd qs x.1 fun _ => x.2) p.queues }
        let s := (s.postEntries paddock fold es).updCtx f.ctx fun c => { c with last := some paddock }
        let s := s.enterCores (s.foldCores f') f.ctx f.kernel
        moved (((s.goOn fold).joinSets f').dateEntries paddock)

/-- Paddocks of a mask that a fold left in place still occupies (R427). -/
def State.leftOn (s : State) (mask : BitVec 32) : BitVec 32 :=
  s.folds.foldl (fun m f => if f.status == .resident && f.left && mask.getLsbD f.paddock then m ||| (1#32 <<< f.paddock) else m) 0#32

/-- Has a vacate request been met: no fold is left on its paddocks but those that stay in place? -/
def State.vacantFor (s : State) (v : Vacate) : Bool :=
  v.waits && s.folds.all fun f => !(f.status == .resident && v.mask.getLsbD f.paddock && !f.left)

/-- The answer to vacate request `i`: the mask of paddocks left occupied, to the host function that asked in its request's word 7
(R479). -/
def State.vacated (s : State) (i : Nat) (v : Vacate) : State :=
  let left := s.leftOn v.mask
  let t := { s with vacates := upd s.vacates i fun _ => { v with waits := false, left := left }, out := s.out ++ [.vacated left] }
  match s.caller 5 [v.mask.toNat] with
  | none => t
  | some fn => t.fillRequest fn left.toNat none

/-- `VACATE_COMPLETE` (R423, R427). The oldest open request that has been met is answered. -/
def execVacateComplete (s : State) : Out1 :=
  match s.vacates.findIdx? s.vacantFor with
  | none => .next s
  | some i => match s.vacates[i]? with
    | some v => moved (s.vacated i v)
    | none => .next s

end Sys2Proof.Machine
end

