-- ==== Sys2Proof/Machine/Deflate.lean ====
section
/-!
DEFINITION. Sys2Proof/Machine/Deflate.lean: decoding of a raw RFC 1951 stream (R391), with the status codes of R388: 7 invalid
data, 8 output limit reached, 9 input ended.
-/
namespace Sys2Proof

/-- Bit `p` of the input, the lowest bit of the first byte first. -/
def inBit (inp : List Byte) (p : Nat) : Nat := ((inp.getD (p / 8) 0#8).toNat >>> (p % 8)) % 2

/-- `n` bits from `p` on, the first lowest. -/
def inBits (inp : List Byte) : Nat → Nat → Nat
  | _, 0 => 0
  | p, n + 1 => inBit inp p + 2 * inBits inp (p + 1) n

/-- Decoder state: bit position, output with the newest byte first, status (0 while it goes on). -/
structure Infl where
  pos : Nat
  out : List Byte
  err : Nat
  deriving DecidableEq, Repr

/-- Symbols in the order of their canonical codes: by length, then by number. -/
def codeOrder (lens : List Nat) : List Nat :=
  ((List.range 16).map fun l => if l == 0 then [] else (List.range lens.length).filter fun k => lens.getD k 0 == l).flatten

/-- Symbols with codes of a length. -/
def lenCount (lens : List Nat) (l : Nat) : Nat := lens.countP (· == l)

/-- Reads one symbol: the symbol and the position after it; the error is 9 at the end of the input, 7 for a code that no
symbol has. Arguments: fuel over lengths, length, code, first code of the length, symbols of shorter codes. -/
def readSym (inp : List Byte) (lens : List Nat) : Nat → Nat → Nat → Nat → Nat → Nat → Except Nat (Nat × Nat)
  | 0, _, _, _, _, _ => .error 7
  | fuel + 1, l, code, first, index, p =>
    if 8 * inp.length ≤ p then .error 9
    else
      let code := code * 2 + inBit inp p
      let n := lenCount lens l
      if code < first + n then .ok ((codeOrder lens).getD (index + (code - first)) 0, p + 1)
      else readSym inp lens fuel (l + 1) code ((first + n) * 2) (index + n) (p + 1)

/-- Reads one symbol from a position. -/
def symAt (inp : List Byte) (lens : List Nat) (p : Nat) : Except Nat (Nat × Nat) := readSym inp lens 15 1 0 0 0 p

/-- Codes left unused in units of 2^-15: negative where the set is over-subscribed. -/
def codeSlack (lens : List Nat) : Int :=
  2 ^ 15 - (((List.range 15).map fun l => lenCount lens (l + 1) * 2 ^ (14 - l)).sum : Nat)

/-- Is a set of code lengths invalid: over-subscribed, or incomplete, but for a set of distance codes (`single`) with no code or one code
of one bit (log entry 41)? -/
def lensBad (lens : List Nat) (single : Bool) : Bool :=
  codeSlack lens < 0 || (codeSlack lens != 0 && !(single && lens.countP (· != 0) ≤ 1 && lens.all (· ≤ 1)))

/-- Base and extra bits of a length code from 257 on. -/
def lenBase (k : Nat) : Nat × Nat :=
  if k < 8 then (k + 3, 0) else if k == 28 then (258, 0)
  else (3 + (4 + k % 4) * 2 ^ (k / 4 - 1), k / 4 - 1)

/-- Base and extra bits of a distance code. -/
def distBase (k : Nat) : Nat × Nat :=
  if k < 4 then (k + 1, 0) else (1 + (2 + k % 2) * 2 ^ (k / 2 - 1), k / 2 - 1)

/-- Copies `n` bytes from a distance back, as far as the limit. -/
def copyBack (lim d : Nat) : Nat → List Byte → Except (List Byte) (List Byte)
  | 0, out => .ok out
  | n + 1, out => if lim ≤ out.length then .error out else copyBack lim d n (out.getD (d - 1) 0#8 :: out)

/-- Decodes the symbols of a block up to its end; the fuel bounds their number. -/
def inflSyms (inp : List Byte) (lim : Nat) (lit dist : List Nat) : Nat → Infl → Infl
  | 0, s => { s with err := 9 }
  | fuel + 1, s =>
    match symAt inp lit s.pos with
    | .error e => { s with err := e }
    | .ok (sym, p) =>
      if sym == 256 then { s with pos := p }
      else if sym < 256 then
        if lim ≤ s.out.length then { s with err := 8 }
        else inflSyms inp lim lit dist fuel { s with pos := p, out := BitVec.ofNat 8 sym :: s.out }
      else if 286 ≤ sym then { s with err := 7 }
      else
        let lb := lenBase (sym - 257)
        let n := lb.1 + inBits inp p lb.2
        match symAt inp dist (p + lb.2) with
        | .error e => { s with err := e }
        | .ok (ds, p) =>
          if 30 ≤ ds then { s with err := 7 }
          else
            let db := distBase ds
            let d := db.1 + inBits inp p db.2
            if 8 * inp.length < p + db.2 then { s with err := 9 }
            else if s.out.length < d then { s with err := 7 }
            else
              match copyBack lim d n s.out with
              | .error out => { s with out := out, err := 8 }
              | .ok out => inflSyms inp lim lit dist fuel { s with pos := p + db.2, out := out }

/-- Code lengths of the fixed codes. -/
def fixedLit : List Nat := List.replicate 144 8 ++ List.replicate 112 9 ++ List.replicate 24 7 ++ List.replicate 8 8
/-- Code lengths of the fixed distance codes. -/
def fixedDist : List Nat := List.replicate 32 5

/-- Order of the code-length code's lengths. -/
def clOrder : List Nat := [16, 17, 18, 0, 8, 7, 9, 6, 10, 5, 11, 4, 12, 3, 13, 2, 14, 1, 15]

/-- Reads the code lengths of a dynamic block, `n` in all; the list is reversed. -/
def readLens (inp : List Byte) (cl : List Nat) (n : Nat) : Nat → List Nat → Nat → Except Nat (List Nat × Nat)
  | 0, _, _ => .error 7
  | fuel + 1, acc, p =>
    if n ≤ acc.length then (if acc.length == n then .ok (acc, p) else .error 7)
    else
      match symAt inp cl p with
      | .error e => .error e
      | .ok (sym, p) =>
        if sym < 16 then readLens inp cl n fuel (sym :: acc) p
        else
          let (base, bits) := if sym == 16 then (3, 2) else if sym == 17 then (3, 3) else (11, 7)
          let k := base + inBits inp p bits
          if 8 * inp.length < p + bits then .error 9
          else if sym == 16 && acc.isEmpty then .error 7
          else readLens inp cl n fuel (List.replicate k (if sym == 16 then acc.headD 0 else 0) ++ acc) (p + bits)

/-- A stored block. -/
def inflStored (inp : List Byte) (lim : Nat) (s : Infl) : Infl :=
  let b := (s.pos + 7) / 8
  if inp.length < b + 4 then { s with err := 9 }
  else
    let n := inBits inp (8 * b) 16
    if inBits inp (8 * b + 16) 16 != 65535 - n then { s with err := 7 }
    else
      let have_ := min n (inp.length - (b + 4))
      let take := min have_ (lim - s.out.length)
      let out := ((inp.drop (b + 4)).take take).reverse ++ s.out
      if take < have_ then { s with out := out, err := 8 }
      else if have_ < n then { s with out := out, err := 9 }
      else { s with pos := 8 * (b + 4 + n), out := out }

/-- A dynamic block. -/
def inflDynamic (inp : List Byte) (lim : Nat) (s : Infl) : Infl :=
  if 8 * inp.length < s.pos + 14 then { s with err := 9 }
  else
    let hlit := 257 + inBits inp s.pos 5
    let hdist := 1 + inBits inp (s.pos + 5) 5
    let hclen := 4 + inBits inp (s.pos + 10) 4
    if 8 * inp.length < s.pos + 14 + 3 * hclen then { s with err := 9 }
    else
      let given := (List.range hclen).map fun i => (clOrder.getD i 0, inBits inp (s.pos + 14 + 3 * i) 3)
      let cl := (List.range 19).map fun k => (given.lookup k).getD 0
      if lensBad cl false then { s with err := 7 }
      else
        match readLens inp cl (hlit + hdist) (hlit + hdist + 1) [] (s.pos + 14 + 3 * hclen) with
        | .error e => { s with err := e }
        | .ok (rev, p) =>
          let all := rev.reverse
          let lit := all.take hlit
          let dist := all.drop hlit
          if lensBad lit false || lensBad dist true then { s with err := 7 }
          else inflSyms inp lim lit dist (8 * inp.length + 1) { s with pos := p }

/-- Decodes blocks up to the one with BFINAL set; the fuel bounds their number. -/
def inflBlocks (inp : List Byte) (lim : Nat) : Nat → Infl → Infl
  | 0, s => { s with err := 9 }
  | fuel + 1, s =>
    if 8 * inp.length < s.pos + 3 then { s with err := 9 }
    else
      let final := inBit inp s.pos
      let ty := inBits inp (s.pos + 1) 2
      let s := { s with pos := s.pos + 3 }
      let s := match ty with
        | 0 => inflStored inp lim s
        | 1 => inflSyms inp lim fixedLit fixedDist (8 * inp.length + 1) s
        | 2 => inflDynamic inp lim s
        | _ => { s with err := 7 }
      if s.err != 0 || final == 1 then s else inflBlocks inp lim fuel s

/-- Decodes a stream under an output limit: the bytes, and the status. -/
def inflate (inp : List Byte) (lim : Nat) : List Byte × Nat :=
  let s := inflBlocks inp lim (8 * inp.length + 1) ⟨0, [], 0⟩
  (s.out.reverse, s.err)

end Sys2Proof
end

