-- ==== Sys2Proof/Machine/Shearers.lean ====
section
/-!
DEFINITION. Sys2Proof/Machine/Shearers.lean: the shearers (R386-R395): taking a request from a ring, the seven operations,
and the completion record. A step does one chunk of at most 64 KiB of output: it reads its elements, then writes (log entry 30).
-/
namespace Sys2Proof.Machine

/-! ## Requests (R386) -/

/-- Is a context absent: no fold of it is resident (R430)? -/
def State.absent (s : State) (c : Nat) : Bool := !s.folds.any fun f => f.ctx == c && f.status == .resident

/-- A word of a context descriptor as it reads: word 25 of a valid context tells whether it is absent and whether folds of it
are resident (R429, R430; log entry 97), every other word is what the descriptor holds. -/
def State.descWord (s : State) (c w : Nat) : Nat :=
  if w == 25 then (if !((s.ctx c).word 0).testBit 63 then 0 else if s.absent c then 2 else 1) else (s.ctx c).word w

/-- The oldest xpost of a context on a ring whose request has not been taken. -/
def State.postedOp (s : State) (c ring : Nat) : Option Nat :=
  (List.range s.ops.length).find? fun i => ((s.ops[i]?).map fun o =>
    o.kind == .xpost && o.ring == ring && o.done == 0 && ((s.fold? o.fold).map (·.ctx == c)).getD false).getD false

/-- The decoder table that a weight-stream request names, as it stands when the request starts (R393). -/
def State.shTable (s : State) (c : Nat) (b : List DWord) : List Nat :=
  if bitsOf (blk b 0) 63 56 == 5 then (s.ctx c).table (bitsOf (blk b 4) 43 40) else []

/-! ### Whose chunk comes next (R386; log entry 113) -/

/-- Has a context's ring a request that a shearer may take? -/
def State.shWaits (s : State) (ctx ring : Nat) : Bool :=
  let (size, base, head, tail) := ringOf ((s.ctx ctx).ring ring)
  ring < 4 && head != tail && !s.absent ctx && !s.shear.any (fun x => x.ctx == ctx && x.ring == ring) &&
    (s.postedOp ctx ring).isSome && !(s.virtRun 0 ctx (base + 64 * (head % size)) 64).isEmpty

/-- Has a context's request in progress on a ring a chunk that no shearer works on? -/
def State.shGoes (s : State) (ctx ring : Nat) : Bool :=
  !s.shBusy.contains (ctx, ring) && s.shear.any fun x => x.ctx == ctx && x.ring == ring && !x.worked

/-- The numbers below `n` from the one after `last` on. -/
def after (n last : Nat) : List Nat := (List.range n).map fun i => (last + 1 + i) % n

/-- The chunk that a shearer takes next: of the next context with work, of the next of its rings with work. -/
def State.shNext (s : State) : Option (Nat × Nat) :=
  (after Config.contexts s.shCtx).findSome? fun c =>
    ((after 4 (s.shRings.getD c 3)).find? fun r => s.shWaits c r || s.shGoes c r).map fun r => (c, r)

/-- A shearer takes a chunk. -/
def State.shTake (s : State) (c r : Nat) : State :=
  { s with shCtx := c, shRings := upd s.shRings c fun _ => r, shBusy := s.shBusy ++ [(c, r)] }

/-- Shearers of the part. -/
def shearers : Nat := 16

/-- Free shearers take chunks of requests in progress, as far as their turn has come; the fuel bounds the shearers. -/
def State.shFill : Nat → State → State
  | 0, s => s
  | n + 1, s =>
    if shearers ≤ s.shBusy.length then s
    else match s.shNext with
      | some (c, r) => if s.shGoes c r then State.shFill n (s.shTake c r) else s
      | none => s

/-- `SHEARER_TAKE_REQUEST` (R386). A free shearer whose turn has come to a ring's next request takes it, and its first chunk. -/
def execShearerTakeRequest (ctx ring : Nat) (s : State) : Out1 :=
  let s' := State.shFill shearers s
  let (size, base, head, _) := ringOf ((s.ctx ctx).ring ring)
  if shearers ≤ s'.shBusy.length || !s.shWaits ctx ring || s'.shNext != some (ctx, ring) then .next s
  else
    match s.postedOp ctx ring, s.translate 0 ctx (base + 64 * (head % size)) .read with
    | some n, .ok pa _ =>
      let s := (s'.shTake ctx ring).readSettle 0 ctx (base + 64 * (head % size)) 64
      let block := (List.range 8).map fun i => dwordOfNat (s.bus64 (pa + 8 * i))
      let s := s.updCtx ctx fun y =>
        { y with desc := upd y.desc (15 + 2 * ring) fun w => dwordOfNat ((head + 1) % 2 ^ 32 * 2 ^ 32 + bitsOf w.toNat 31 0) }
      let x : ShReq := ⟨ctx, ring, some n, block, false, 0, 0, 0, s.shTable ctx block, none⟩
      moved { (s.updOp n fun o => { o with done := 1 }) with shear := s.shear ++ [x] }
    | _, _ => .next s

/-- What a request works with: its context, the number of the fold that posted it, the fold, and what bytes of its source were
before its issuer wrote them. -/
structure ShWork where
  c : Nat
  n : Nat
  f : Fold
  before : List (Nat × Byte)
  deriving DecidableEq, Repr

/-- A request in progress whose work is an operation of a code and whose next chunk a shearer has taken, with what it works with and
the state in which the shearers have taken theirs. -/
def State.shWork (s : State) (ctx ring op : Nat) : Option (ShReq × ShWork × State) :=
  let s := State.shFill shearers s
  match s.shear.find? fun x => x.ctx == ctx && x.ring == ring && !x.worked && bitsOf (blk x.block 0) 63 56 == op with
  | none => none
  | some x =>
    match s.shBusy.contains (ctx, ring), (x.op.bind fun n => s.ops[n]?).bind fun o => (s.fold? o.fold).map fun f => (o, f) with
    | true, some (o, f) => some (x, ⟨ctx, o.fold, f, o.before⟩, s)
    | _, _ => none

/-- A chunk of a request's work is done, of `written` bytes: it ends with a status (R388), or goes on. -/
def State.shStep (s : State) (ctx ring status detail written : Nat) (last : Bool) : Out1 :=
  moved { s with
    shBusy := s.shBusy.erase (ctx, ring)
    shear := s.shear.map fun (x : ShReq) =>
      if x.ctx == ctx && x.ring == ring then
        { x with worked := last, status := status, detail := x.detail ||| detail, written := x.written + written }
      else x }

/-- The work of a request ends with a status. -/
def State.shEnd (s : State) (ctx ring status detail written : Nat) : Out1 := s.shStep ctx ring status detail written true

/-- Bytes of output in a chunk (R386). -/
def shChunk : Nat := 65536

/-- `n` members of a list from one on. -/
def sliceOf {α : Type} (l : List α) (first n : Nat) : List α := (l.drop first).take n

/-! ## Sources and destinations -/

/-- A side of a request: its record, or scratch, and the bytes of an element. -/
structure ShSide where
  record : Option Rec
  x : Nat
  size : Nat
  deriving DecidableEq, Repr

/-- The element index, or the scratch position, of element `k` of a side. -/
def ShSide.at_ (d : ShSide) (k : Nat) : Nat := if d.record.isSome then bitsOf d.x 43 12 + k else k

/-- Opens a side: the record under its handle and access (statuses 1 and 3), or scratch. -/
def State.shOpen (s : State) (j : ShWork) (x : Nat) (write : Bool) (size : Nat) : State × Except Nat ShSide :=
  if (sideOf x).kind != 0 then (s, .ok ⟨none, x, size⟩)
  else
    let tlb := pastureOf j.f.paddock
    match s.useRec tlb j.f (bitsOf x 11 0) with
    | .bad t keep => (s.keepRec tlb j.n (bitsOf x 11 0) keep, .error (if t.cause == 0x13 || t.cause == 0x14 then 3 else 1))
    | .ok r keep =>
      (s.keepRec tlb j.n (bitsOf x 11 0) keep, if (if write then r.mayWrite else r.mayRead) then .ok ⟨some r, x, size⟩ else .error 1)

/-- The pieces of one element, or the status that its place gives: 2 bounds, 3 translation, 6 scratch. -/
def State.shPlace (s : State) (j : ShWork) (d : ShSide) (need : Need) (i : Nat) : Except Nat (List Piece) :=
  match d.record with
  | some r =>
    if r.count ≤ i then .error 2
    else
      match s.pieces (pastureOf j.f.paddock) j.c need (r.ranges i 1) with
      | .ok ps => .ok ps
      | .error _ => .error 3
  | none =>
    if j.f.status != .resident || !inAlloc j.f.scratch (descCore d.x) (descOff d.x + i * d.size) d.size then .error 6
    else .ok [⟨false, 0, [(j.f.scratchPa (descCore d.x) (descOff d.x + i * d.size), d.size)], false⟩]

/-- The record that pieces are read and written under; a dummy for scratch. -/
def ShSide.rec' (d : ShSide) : Rec := d.record.getD (recOf [])

/-- A byte as a request reads it: old or new where its issuer has written it since it was posted (R386; log entry 7). -/
def State.shByte (s : State) (j : ShWork) (pa : Nat) : Byte :=
  match j.before.lookup pa with
  | some old => if Config.freeOld s.moves pa then old else s.plainByte pa
  | none => s.plainByte pa

/-- Bytes as a request reads them. -/
def State.shRead (s : State) (j : ShWork) (pa : Nat) : Nat → List Byte
  | 0 => []
  | n + 1 => s.shByte j pa :: s.shRead j (pa + 1) n

/-- The values of a coded block as a request reads it. One that its issuer has stored into whole since it was posted is the old
block or the new one; one of which it has written bytes apart is read per byte old or new (R386; log entry 7). -/
def State.shVals (s : State) (j : ShWork) (segs : List (Nat × Nat)) (rate : Nat) : List Nat :=
  let places := (segs.map fun r => (List.range r.2).map (r.1 + ·)).flatten
  let old := places.filterMap fun pa => j.before.lookup pa
  if old.isEmpty then s.blockVals segs rate
  else if old.length == places.length then
    if Config.freeOld s.moves (places.headD 0) then decodeBlock old else s.blockVals segs rate
  else decodeBlock (places.map (s.shByte j))

/-- One element as a request reads it, at the home: of a block decoded there, or bytes (R341, R343). -/
def State.shGet (s : State) (j : ShWork) (r : Rec) (p : Piece) : Nat × State :=
  if p.coded then
    let s := s.settleFor p.segs r.rate
    ((s.shVals j p.segs r.rate).getD p.pos 0, s.hold j.c r.rate r.errset p.segs p.dr)
  else
    let s := (s.settle p.segs).compress r.enc p.segs
    (numOf (p.segs.map fun x => s.shRead j x.1 x.2).flatten, s)

/-- Before a request translates the addresses of elements, the tables that it walks are read plainly (R343). -/
def State.shWalks (s : State) (j : ShWork) (d : ShSide) (is : List Nat) : State :=
  match d.record with
  | some r => s.walkSettles (pastureOf j.f.paddock) j.c (r.touched 1 is)
  | none => s

/-- Reads elements in order: the codes read, and the status that ended it (4 poison). -/
def State.shGets (s : State) (j : ShWork) (d : ShSide) : List Nat → List Nat × State × Nat
  | [] => ([], s, 0)
  | i :: is =>
    let s := s.shWalks j d [i]
    match s.shPlace j d .read i with
    | .error e => ([], s, e)
    | .ok ps =>
      if !(s.poisonOf ps).isEmpty then ([], s, 4)
      else
        let x := s.shGet j d.rec' (ps.headD ⟨false, 0, [], false⟩)
        let y := x.2.shGets j d is
        (x.1 :: y.1, y.2)

/-- The leading elements that can be written, with their pieces, and the status that ends them. -/
def State.shFits (s : State) (j : ShWork) (d : ShSide) : List (Nat × Nat) → List (List Piece × Nat) × Nat
  | [] => ([], 0)
  | x :: xs =>
    match s.shPlace j d .write x.1 with
    | .error e => ([], e)
    | .ok ps =>
      let y := s.shFits j d xs
      ((ps, x.2) :: y.1, y.2)

/-- The leading elements whose blocks a store replaces whole or may merge: a merge into a poisoned block reads poison (R166), which
ends the request with status 4. -/
def State.shMerges (s : State) (fit : List (List Piece × Nat) × Nat) : List (List Piece × Nat) × Nat :=
  let bad := ((groupBlocks (fit.1.map fun x => x.1.map fun p => (p, x.2)).flatten).filter fun b =>
    !b.whole && !(s.poisonRuns b.segs).isEmpty).map (·.segs)
  let good := fit.1.takeWhile fun x => !x.1.any fun p => bad.contains p.segs
  (good, if good.length < fit.1.length then 4 else fit.2)

/-- The runs of bytes of elements that are written. -/
def fitRuns (xs : List (List Piece × Nat)) : List (Nat × Nat) := (xs.map fun x => (x.1.map fun p => p.segs).flatten).flatten

/-- The leading elements that meet no landing window's refusal (R317): status 1, DESIGN CHOICE (log entry 114). -/
def State.shLands (s : State) (fit : List (List Piece × Nat) × Nat) : List (List Piece × Nat) × Nat :=
  let good := fit.1.takeWhile fun x => (fitRuns [x]).all fun r =>
    cacheable r.1 || (List.range r.2).all fun k => (s.landRefusal (r.1 + k)).isNone
  (good, if good.length < fit.1.length then 1 else fit.2)

/-- The leading elements of a plain record or scratch of which none is written over a part of a poisoned unit, which would merge what
is poisoned (R166, R460): status 4, DESIGN CHOICE (log entry 114). A unit that the elements cover together is replaced. -/
def State.shPlains (s : State) (fit : List (List Piece × Nat) × Nat) : List (List Piece × Nat) × Nat :=
  let all := fitRuns fit.1
  let ill (x : List Piece × Nat) : Bool := !s.poison.isEmpty && (fitRuns [x]).any fun r => s.poison.any fun p =>
    runsMeet [r] [(8 * p.1, 8)] && !unitCovered all p.1
  let good := fit.1.takeWhile fun x => !ill x
  (good, if good.length < fit.1.length then 4 else fit.2)

/-- Writes elements (index, code) in order: the state, how many were written, the status that ended it. -/
def State.shPuts (s : State) (j : ShWork) (d : ShSide) (xs : List (Nat × Nat)) : State × Nat × Nat :=
  let s := s.shWalks j d (xs.map (·.1))
  let fit := s.shLands (s.shFits j d xs)
  let fit := if d.rec'.coded then s.shMerges fit else s.shPlains fit
  let ps := (fit.1.map fun x => x.1.map fun p => (p, x.2)).flatten
  let segs := fitRuns fit.1
  let s' :=
    if d.rec'.coded then s.storeBlocks j.c d.rec' (groupBlocks ps)
    else
      let s' := (ps.foldl (fun (s : State) p => (s.settle p.1.segs).writeRuns p.1.segs (bytesOf d.size p.2)) s).clearPoison segs
      let s' := s'.compress d.rec'.enc segs
      if d.record.isSome then s'
      else
        let old := (segs.map fun r => (List.range r.2).map fun k => (r.1 + k, s.busByte (r.1 + k))).flatten
        s'.updFold j.n fun y => { y with shared := y.shared ++ old.filter fun o => !y.shared.any (·.1 == o.1) }
  (s', fit.1.length, fit.2)

/-- Copies codes from a source to a destination: state, elements written, status. -/
def State.shMove (s : State) (j : ShWork) (src dst : ShSide) (cells : List (Nat × Nat)) : State × Nat × Nat :=
  let g := s.shGets j src (cells.map (·.1))
  let w := g.2.1.shPuts j dst ((cells.map (·.2)).zip g.1)
  (w.1, w.2.1, if w.2.2 != 0 then w.2.2 else g.2.2)

/-- Both sides of a request, opened in turn, and a test of their records (status 5). -/
def State.shSides (s : State) (j : ShWork) (b : List DWord) (ssize dsize : Nat) (suits : ShSide → ShSide → Bool) :
    State × Except Nat (ShSide × ShSide) :=
  let a := s.shOpen j (blk b 1) false ssize
  match a.2 with
  | .error e => (a.1, .error e)
  | .ok src =>
    let d := a.1.shOpen j (blk b 2) true dsize
    match d.2 with
    | .error e => (d.1, .error e)
    | .ok dst => (d.1, if suits src dst then .ok (src, dst) else .error 5)

/-- Is a side scratch, or a record of an element size? -/
def ShSide.sized (d : ShSide) (size : Nat) : Bool := (d.record.map (·.size == size)).getD true

/-- Is a side scratch, or a plain record of an element size: of encoding 0 or 4? -/
def ShSide.plain (d : ShSide) (size : Nat) : Bool :=
  d.sized size && ((d.record.map fun r => r.enc == 0 || r.enc == 4).getD true)

/-- The count of a request. -/
def shCount (b : List DWord) : Nat := bitsOf (blk b 3) 31 0

/-- Does a request stay within 16,777,216 bytes (R384)? DESIGN CHOICE (log entry 28): one that its records make longer ends with
status 5, nothing written. -/
def shShort (n size : Nat) : Bool := n * size ≤ 2 ^ 24

/-! ## Convert (R389) -/

/-- The rounding of element `n` of a conversion (R242, R383). -/
def shRound (b : List DWord) (n : Nat) : RM :=
  match bitsOf (blk b 0) 55 52 with
  | 0 => .rne | 1 => .rtz | 2 => .rup | 3 => .rdn | 4 => .rto
  | _ => .sr (rndWord (bitsOf (blk b 0) 31 0) n)

/-- The detail bits of a conversion (R387). -/
def convDetail (vs : List Conv) : Nat :=
  (if vs.any (·.inexact) then 1 else 0) + (if vs.any (·.range) then 2 else 0) + (if vs.any (·.nan) then 4 else 0) +
    (if vs.any (·.noInt) then 8 else 0)

/-- `SHEARER_CONVERT` (R389): the next chunk of elements. -/
def execShearerConvert (ctx ring : Nat) (s : State) : Out1 :=
  match s.shWork ctx ring 0 with
  | none => .next s
  | some (x, j, s) =>
    let b := x.block
    let sf := bitsOf (blk b 0) 47 44
    let df := bitsOf (blk b 0) 43 40
    let n := shCount b
    match s.shSides j b (outBytes sf) (outBytes df) fun x y => x.sized (outBytes sf) && y.sized (outBytes df) with
    | (s, .error e) => s.shEnd ctx ring e 0 0
    | (s, .ok (src, dst)) =>
      let first := x.written / outBytes df
      let is := sliceOf (List.range n) first (shChunk / outBytes df)
      let g := s.shGets j src (is.map src.at_)
      let vs := (is.zip g.1).map fun k => convert df (shRound b k.1) ((blk b 0).testBit 51) (codeVal sf k.2)
      let w := g.2.1.shPuts j dst ((is.map dst.at_).zip (vs.map (·.code)))
      let e := if w.2.2 != 0 then w.2.2 else g.2.2
      w.1.shStep ctx ring e (convDetail (vs.take w.2.1)) (w.2.1 * outBytes df) (e != 0 || n ≤ first + is.length)

/-! ## Retile (R390) -/

/-- `SHEARER_RETILE` (R390): the next chunk of elements. -/
def execShearerRetile (ctx ring : Nat) (s : State) : Out1 :=
  match s.shWork ctx ring 1 with
  | none => .next s
  | some (x, j, s) =>
    let b := x.block
    let rows := shCount b
    let cols := bitsOf (blk b 4) 31 0
    let flip := (blk b 4).testBit 32
    match s.shSides j b 1 1 fun x y =>
      x.plain x.rec'.size && y.plain x.rec'.size && shShort (rows * cols) x.rec'.size with
    | (s, .error e) => s.shEnd ctx ring e 0 0
    | (s, .ok (src, dst)) =>
      let size := src.rec'.size
      let first := x.written / size
      let is := sliceOf (List.range (rows * cols)) first (shChunk / size)
      let w := s.shMove j { src with size := size } { dst with size := size } (is.map fun i =>
        let r := i / cols
        let c := i % cols
        (src.at_ (r * src.rec'.extent + c), dst.at_ (if flip then c * dst.rec'.extent + r else r * dst.rec'.extent + c)))
      w.1.shStep ctx ring w.2.2 0 (w.2.1 * size) (w.2.2 != 0 || rows * cols ≤ first + is.length)

/-! ## Output made from all of the input: DEFLATE, weight streams -/

/-- What an operation has made of its input: the bytes to write, and the status to end with. -/
def State.shKeep (s : State) (ctx ring : Nat) (out : List Byte) (status : Nat) : State :=
  { s with shear := s.shear.map fun (x : ShReq) =>
    if x.ctx == ctx && x.ring == ring then { x with made := some out, status := status } else x }

/-- Writes the next chunk of what a request has made: the state, bytes written, status, whether all is written. -/
def State.shOut (s : State) (j : ShWork) (d : ShSide) (first : Nat) (out : List Byte) : State × Nat × Nat × Bool :=
  let bs := sliceOf out first shChunk
  let w := s.shPuts j d (((List.range bs.length).map fun i => d.at_ (first + i)).zip (bs.map (·.toNat)))
  (w.1, w.2.1, w.2.2, out.length ≤ first + bs.length)

/-! ## DEFLATE (R391) -/

/-- The decoded output of a DEFLATE request and the status to end with. Input that cannot be read ends it only where the decoder
needs it. -/
def State.shInflate (s : State) (j : ShWork) (x : ShReq) (src : ShSide) : State × List Byte × Nat :=
  match x.made with
  | some out => (s, out, x.status)
  | none =>
    let g := s.shGets j src ((List.range (shCount x.block)).map src.at_)
    let r := inflate (g.1.map fun x => BitVec.ofNat 8 x) (bitsOf (blk x.block 4) 31 0)
    (g.2.1, r.1, if r.2 == 9 && g.2.2 != 0 then g.2.2 else r.2)

/-- `SHEARER_DEFLATE_DECODE` (R391): the next chunk of output. -/
def execShearerDeflateDecode (ctx ring : Nat) (s : State) : Out1 :=
  match s.shWork ctx ring 2 with
  | none => .next s
  | some (x, j, s) =>
    match s.shSides j x.block 1 1 fun x y => x.sized 1 && y.sized 1 with
    | (s, .error e) => s.shEnd ctx ring e 0 0
    | (s, .ok (src, dst)) =>
      let o := s.shInflate j x src
      let w := (o.1.shKeep ctx ring o.2.1 o.2.2).shOut j dst x.written o.2.1
      w.1.shStep ctx ring (if w.2.2.1 != 0 then w.2.2.1 else o.2.2) 0 w.2.1 (w.2.2.1 != 0 || w.2.2.2)

/-! ## FP64 blocks (R392) -/

/-- The element of a coded record at position `p` of block `b` (R181). -/
def Rec.elemAt (r : Rec) (b p : Nat) : Nat :=
  if r.enc == 1 then 16 * b + p
  else (b / (r.extent / 4) * 4 + p / 4) * r.extent + b % (r.extent / 4) * 4 + p % 4

/-- The blocks of a request that lie in the coded record, and the status that ends them (log entry 31). -/
def shBlocks (r : Rec) (b : List DWord) : List Nat × Nat :=
  let first := bitsOf (blk b 4) 31 0
  let bs := ((List.range (shCount b)).map (first + ·)).filter fun k => 16 * (k + 1) ≤ r.count
  (bs, if bs.length < shCount b then 2 else 0)

/-- The elements of blocks, block after block. -/
def Rec.elemsOf (r : Rec) (bs : List Nat) : List Nat := (bs.map fun b => (List.range 16).map (r.elemAt b)).flatten

/-- `SHEARER_FP64_ENCODE` (R392): the next chunk of blocks. A block whose elements cannot all be read is not stored. -/
def execShearerFp64Encode (ctx ring : Nat) (s : State) : Out1 :=
  match s.shWork ctx ring 3 with
  | none => .next s
  | some (x, j, s) =>
    match s.shSides j x.block 8 8 fun a y =>
      a.plain 8 && y.rec'.coded && shShort (shCount x.block) (blockBytes y.rec'.rate) with
    | (s, .error e) => s.shEnd ctx ring e 0 0
    | (s, .ok (src, dst)) =>
      let bs := shBlocks dst.rec' x.block
      let bytes := blockBytes dst.rec'.rate
      let first := x.written / bytes
      let now := sliceOf bs.1 first (shChunk / bytes)
      let es := dst.rec'.elemsOf now
      let g := s.shGets j src (es.map src.at_)
      let n := g.1.length / 16 * 16
      let w := g.2.1.shPuts j dst ((es.zip g.1).take n)
      let e := if w.2.2 != 0 then w.2.2 else g.2.2
      let last := e != 0 || bs.1.length ≤ first + now.length
      w.1.shStep ctx ring (if e == 0 && last then bs.2 else e) 0 (w.2.1 / 16 * bytes) last

/-- `SHEARER_FP64_DECODE` (R392): the next chunk of elements. Scratch takes them in the order of their indices in the coded
record. -/
def execShearerFp64Decode (ctx ring : Nat) (s : State) : Out1 :=
  match s.shWork ctx ring 4 with
  | none => .next s
  | some (x, j, s) =>
    match s.shSides j x.block 8 8 fun a y => a.rec'.coded && y.plain 8 with
    | (s, .error e) => s.shEnd ctx ring e 0 0
    | (s, .ok (src, dst)) =>
      let bs := shBlocks src.rec' x.block
      let es := src.rec'.elemsOf bs.1
      let es := if dst.record.isSome then es else sortBy (fun a b => decide (a ≤ b)) es
      let cells := es.zip (if dst.record.isSome then es.map dst.at_ else List.range es.length)
      let first := x.written / 8
      let now := sliceOf cells first (shChunk / 8)
      let w := s.shMove j src dst now
      let last := w.2.2 != 0 || cells.length ≤ first + now.length
      w.1.shStep ctx ring (if w.2.2 == 0 && last then bs.2 else w.2.2) 0 (w.2.1 * 8) last

/-! ## Weight streams (R393) -/

/-- The tile that a weight-stream request encodes, or the status that its source, its table or a symbol gives. -/
def State.shTile (s : State) (j : ShWork) (x : ShReq) (src : ShSide) : State × Except Nat (List Byte) :=
  match x.made with
  | some out => (s, .ok out)
  | none =>
    let a := blk x.block 4
    let g := s.shGets j src ((List.range (shCount x.block)).map src.at_)
    if g.2.2 != 0 then (g.2.1, .error g.2.2)
    else
      (g.2.1, match (if x.table.sum == 4096 then
          encodeTile (bitsOf a 15 0) (bitsOf a 31 16) (bitsOf a 39 32) (bitsOf a 43 40) (bitsOf a 47 44) x.table g.1 else none) with
        | none => .error 10
        | some tile => .ok tile)

/-- `SHEARER_WEIGHT_STREAM_ENCODE` (R393): the next chunk of the tile, and the index entry after its last. -/
def execShearerWeightStreamEncode (ctx ring : Nat) (s : State) : Out1 :=
  match s.shWork ctx ring 5 with
  | none => .next s
  | some (x, j, s) =>
    match s.shSides j x.block 1 1 fun x y => x.sized 1 && y.rec'.enc == 3 with
    | (s, .error e) => s.shEnd ctx ring e 0 0
    | (s, .ok (src, dst)) =>
      match s.shTile j x src with
      | (s, .error e) => s.shEnd ctx ring e 0 0
      | (s, .ok tile) =>
        let w := (s.shKeep ctx ring tile 0).shOut j dst x.written tile
        if w.2.2.1 != 0 || !w.2.2.2 then w.1.shStep ctx ring w.2.2.1 0 w.2.1 (w.2.2.1 != 0)
        else
          let entry := bytesOf 8 (dst.at_ 0 + tile.length * 2 ^ 40)
          let y := w.1.shPuts j dst
            (((List.range 8).map fun i => 8 * bitsOf (blk x.block 5) 31 0 + i).zip (entry.map (·.toNat)))
          y.1.shEnd ctx ring y.2.2 0 w.2.1

/-! ## NVMe (R394) -/

/-- The next chunk of what a drive has moved for a request, with the status it ended with (R386, R394). -/
def State.nvmeOut (s : State) (ctx ring : Nat) (x : ShReq) (j : ShWork) (d : ShSide) (out : List Byte) (status detail : Nat) : Out1 :=
  let size := (d.record.map (·.size)).getD 1
  let first := x.written / size
  let is := sliceOf (List.range (out.length / size)) first (shChunk / size)
  let w := (s.shKeep ctx ring out status).shPuts j { d with size := size } (is.map fun k => (d.at_ k, fieldOf out (size * k) size))
  w.1.shStep ctx ring (if w.2.2 != 0 then w.2.2 else status) detail (w.2.1 * size) (w.2.2 != 0 || out.length / size ≤ first + is.length)

/-- `SHEARER_NVME_READ` (R394). The drive's answer is the step's operand: the status its command ended with (0 success; a
status code type and code below 2^11; above that the queue pair or the namespace does not serve) and the bytes it moved. It counts at a
request's first chunk; the chunks after it write what was moved then. -/
def execShearerNvmeRead (ctx ring status : Nat) (data : List (BitVec 8)) (s : State) : Out1 :=
  match s.shWork ctx ring 6 with
  | none => .next s
  | some (x, j, s') =>
    let b := x.block
    let o := s'.shOpen j (blk b 2) true 1
    match o.2, x.made with
    | .error e, _ => o.1.shEnd ctx ring e 0 0
    | .ok d, some out => o.1.nvmeOut ctx ring x j d out x.status 0
    | .ok d, none =>
      if 2 ^ 11 ≤ status || !(s.ctx ctx).qpairs.getLsbD (bitsOf (blk b 1) 35 32) then o.1.shEnd ctx ring 12 0 0
      else if status == 0 && (data.isEmpty || data.length % (512 * shCount b) != 0) then .next s
      else if !shShort data.length 1 then o.1.shEnd ctx ring 5 0 0
      else o.1.nvmeOut ctx ring x j d data (if status == 0 then 0 else 11) status

/-! ## Completion (R387) -/

/-- The words of a completion record. -/
def ShReq.words (x : ShReq) : List Nat :=
  [blk x.block 7, x.status * 2 ^ 56 + bitsOf (blk x.block 0) 63 56 * 2 ^ 48 + x.detail % 2 ^ 16 * 2 ^ 32 + x.written % 2 ^ 32]

/-- `SHEARER_COMPLETION` (R387, R288). A record whose page may not be written is lost; the counter falls (log entry 32). Where a landing
window refuses a byte of the record the request ends in cause 0x1B under R269, its counter standing (R317). -/
def execShearerCompletion (ctx ring : Nat) (s : State) : Out1 :=
  match s.shear.find? fun x => x.ctx == ctx && x.ring == ring && x.worked with
  | none => .next s
  | some x =>
    let w := s.virtPutAll 0 ctx (bitsOf (blk x.block 6) 47 0) ((x.words.map (bytesOf 8)).flatten)
    let s := match s.translate 0 ctx (bitsOf (blk x.block 6) 47 0) .write with
      | .ok pa _ => w.1.clearPoison [(pa, 16)]
      | .fault _ _ => s
    let s := { s with shear := s.shear.filter (· != x) }
    match x.op.bind fun n => (s.ops[n]?).map fun o => (n, o), w.2 with
    | some (n, o), some (0x1B, sub, d) => moved (if o.live then s.opFault n o 0x1B sub (dwordOfNat d) else s)
    | some (n, o), _ => moved (if o.live then s.opDone n o else s)
    | none, _ => moved s

end Sys2Proof.Machine
end

