-- ==== Sys2Proof/Machine/System.lean ====
section
/-!
DEFINITION. Sys2Proof/Machine/System.lean: the resident OS's calls on contexts, translations and queue names (R435, R476, R479),
the registers of the control space (R477, R478), and what reaches the part from the host (R362, R476, R485).
-/
namespace Sys2Proof.Machine

/-! ## Contexts (R474, R476, R479) -/

/-- A context ends as R476 lays down for a function's contexts: folds killed, jobs failed without record or report, pending
records discarded, descriptor cleared, assignment withdrawn. Jobs of the past belong to no context afterwards. -/
def State.resetCtx (s : State) (c : Nat) : State :=
  let s := s.folds.zipIdx.foldl (fun (s : State) (y : Fold × Nat) =>
    if y.1.ctx == c && y.1.status != .ended then s.killFold y.2 y.1 1 else s) s
  -- no fold of the context is left on a core: its pinned instruction lines are given back (R328)
  State.unpin { s with
    folds := s.folds.map fun (f : Fold) =>
      if f.ctx == c then { f with status := .ended, recs := [], chans := [], shared := [], released := [] } else f
    jobs := s.jobs.map fun (j : Job) =>
      if j.ctx == c then
        { j with ctx := Config.contexts, status := if j.ended then j.status else .failed, reported := true
                 failCause := if j.ended then j.failCause else (0x3D, 1)
                 nodes := j.nodes.map fun n => { n with recs := [] } }
      else j
    shear := s.shear.filter (·.ctx != c)
    shBusy := s.shBusy.filter (·.1 != c)
    -- requests of the past stand in no ring of the context any more (R382)
    ops := s.ops.map fun (o : EngOp) =>
      if o.kind == .xpost && ((s.fold? o.fold).map (·.ctx == c)).getD false then { o with done := 1 } else o
    rows := s.rows.map fun (r : Row) => if r.ctx == c then { r with closed := true } else r
    paddocks := s.paddocks.map fun (p : Paddock) =>
      { p with reserved := if ((p.reserved.bind fun n => s.jobs[n]?).map (·.ctx == c)).getD false then none else p.reserved }
    ctxs := upd s.ctxs c fun _ => Ctx.empty
    tlb := s.tlb.filter (·.ctx != c) }

/-- The lowest context that belongs to no function; context 0 is the resident OS's (R474). -/
def State.freeCtx (s : State) : Option Nat :=
  ((List.range Config.contexts).drop 1).find? fun c => (s.ctx c).fn.isNone

/-- `ASSIGN_CONTEXT` (R479, call 1). Functions: 0 the physical, 1 to 16 the virtual ones (R472). DEDUCED (log entry 112): the OS assigns
the context's NVMe queue pairs with it, which ones the manual leaves open (R394). -/
def execAssignContext (fn : Nat) (s : State) : Out1 :=
  osCall 1 [fn] none (fun s =>
    if 16 < fn then moved (s.osResult 1 1 0)
    else
      match s.freeCtx with
      | none => moved (s.osResult 1 2 0)
      | some c => moved ((s.updCtx c fun x =>
          { x with fn := some fn, last := none, qpairs := Config.freePairs s.moves c }).osResult 1 0 c)) s

/-- `RELEASE_CONTEXT` (R479, call 2). -/
def execReleaseContext (ctx : Nat) (s : State) : Out1 :=
  osCall 2 [ctx] (some ctx) (fun s =>
    if ctx == 0 || Config.contexts ≤ ctx then moved (s.osResult 2 1 0)
    else if (s.ctx ctx).fn.isNone then moved (s.osResult 2 2 0)
    else moved ((s.resetCtx ctx).osResult 2 0 0)) s

/-- `FUNCTION_LEVEL_RESET` (R476). -/
def execFunctionLevelReset (fn : Nat) (s : State) : Out1 :=
  if !s.hostUp then .next s
  else moved (((List.range Config.contexts).filter fun c => (s.ctx c).fn == some fn).foldl State.resetCtx s)

/-- The writable bits of a word of the context descriptor, none for a word that is not read-write (R429, R377, R382, R414,
R421). -/
def fieldMask (word : Nat) : Option Nat :=
  let low (n : Nat) := 2 ^ n - 1
  [(0, 2 ^ 63 + low 52 - low 13), (1, low 61), (2, low 52 - low 16), (3, low 32), (4, low 48), (5, low 39), (6, low 48), (7, low 5),
    (9, low 64), (10, low 52), (11, low 5), (13, low 64), (14, 2 ^ 63 + low 52), (16, 2 ^ 63 + low 52), (18, 2 ^ 63 + low 52),
    (20, 2 ^ 63 + low 52), (22, low 48), (23, low 3), (24, low 16), (26, low 48), (27, low 32)].lookup word

/-- The error-counter sets of a context as its descriptor words 0 and 22 change: placed anew by word 22 they take their reset values,
at once or as their page can first be written (R344). -/
def State.newSets (s : State) (ctx word : Nat) : State :=
  if word == 22 then (s.updCtx ctx fun x => { x with setsDue := true }).placeSets ctx
  else if word == 0 then s.placeSets ctx
  else s

/-- `WRITE_DESCRIPTOR_FIELD` (R479, call 3). Bits a word does not have stay zero; a new fault queue or head lets a run be
retried (R414). -/
def execWriteDescriptorField (ctx word : Nat) (value : BitVec 64) (s : State) : Out1 :=
  osCall 3 [ctx, word, value.toNat] (some ctx) (fun s =>
    if Config.contexts ≤ ctx then moved (s.osResult 3 1 0)
    else
      match fieldMask word with
      | none => moved (s.osResult 3 1 0)
      | some m =>
        if ctx != 0 && (s.ctx ctx).fn.isNone then moved (s.osResult 3 2 0)
        else
          let s := s.updCtx ctx fun x => { x with desc := upd x.desc word fun _ => value &&& dwordOfNat m }
          let s := s.newSets ctx word
          moved ((if 6 ≤ word && word ≤ 9 then s.faultRun ctx else s).osResult 3 0 0)) s

/-! ## Invalidation (R435, R478) -/

/-- Has a context accesses in flight that used translations? -/
def State.accessing (s : State) (c : Nat) : Bool :=
  s.teams.any fun tm => tm.inflight.any (fun i => !i.lines.isEmpty) && s.ctxOf tm == c

/-- `TINV0_GO` (R478). -/
def execTinv0Go (value : BitVec 64) (s : State) : Out1 := moved (s.writeTinv0 value)

/-- `TLB_INVALIDATION_COMPLETE` (R435). Every access that used a dropped entry has been performed at device scope: loads in flight have
ended, and what an L1 still holds dirty is written back. -/
def execTlbInvalidationComplete (s : State) : Out1 :=
  if !s.tinv0.msb || s.accessing (bitsOf s.tinv0.toNat 53 48) then .next s
  else moved { s.writeAll with tinv0 := s.tinv0 &&& ~~~0x8000000000000000#64 }

/-- `INVALIDATE` (R479, call 6). The OS posts the invalidation and answers at its completion. -/
def execInvalidate (ctx base length : Nat) (s : State) : Out1 :=
  osCall 6 [ctx, base, length] (some ctx) (fun s =>
    if Config.contexts ≤ ctx || base % 65536 != 0 || 2 ^ 48 ≤ base || length % 65536 != 0 || 2 ^ 48 ≤ length then
      moved (s.osResult 6 1 0)
    else if s.tinv0.msb || s.accessing ctx then .next s
    else
      let s := { s with tinv1 := dwordOfNat length }
      let s := s.writeTinv0 (dwordOfNat (2 ^ 63 + ctx * 2 ^ 48 + base))
      moved ({ s.writeAll with tinv0 := s.tinv0 &&& ~~~0x8000000000000000#64 }.osResult 6 0 0)) s

/-! ## Queue names and bounce rings (R372, R378) -/

/-- `MAP_QUEUE_NAME` (R479, call 7). A host function may name its own contexts only; an entry that is not valid names none. -/
def execMapQueueName (name : Nat) (entry : BitVec 64) (s : State) : Out1 :=
  osCall 7 [name, entry.toNat] (if entry.msb then some (bitsOf entry.toNat 60 55) else none) (fun s =>
    if 1024 ≤ name then moved (s.osResult 7 1 0) else moved ((s.mapName name entry).osResult 7 0 0)) s

/-- `REPLAY_GO` (R478). -/
def execReplayGo (value : BitVec 64) (s : State) : Out1 := moved (s.writeReplay value)

/-- `REPLAY_BOUNCE_RING` (R479, call 8). The OS sets GO; RD is cleared as head reaches tail. -/
def execReplayBounceRing (ctx : Nat) (s : State) : Out1 :=
  osCall 8 [ctx] (some ctx) (fun s =>
    if s.replay.msb then .next s
    else if Config.contexts ≤ ctx then moved (s.osResult 8 1 0)
    else if ctx != 0 && (s.ctx ctx).fn.isNone then moved (s.osResult 8 2 0)
    else moved ((s.writeReplay (dwordOfNat (2 ^ 63 + ctx))).osResult 8 0 0)) s

/-! ## Registers and host writes -/

/-- `REGISTER_WRITE` (R477). A doubleword written by context 0 or the firmware to core control or the control space. -/
def execRegisterWrite (pa : Nat) (value : BitVec 64) (s : State) : Out1 :=
  match regionOf pa with
  | .core _ _ | .control _ => if pa % 8 == 0 then moved (s.busWrite pa (bytesOf 8 value.toNat)) else .next s
  | _ => .next s

/-- `HOST_MEMORY_WRITE` (R362). The host reaches the part once bring-up has ended (R485). -/
def execHostMemoryWrite (addr : Nat) (data : List (BitVec 8)) (s : State) : Out1 :=
  if !s.hostUp || Config.controlBase < addr + data.length then .next s
  else moved ((s.settle [(addr, data.length)]).memStore addr data)

/-- `CONFIGURATION_REQUEST` (R485). Until bring-up is complete a request is answered with retry; afterwards with what the
function's configuration space holds, which is PCI Express's (log entry 10). -/
def execConfigurationRequest (fn reg : Nat) (s : State) : Out1 :=
  moved { s with out := s.out ++ [if s.bring == 7 then .config false (Config.configWord fn reg) else .config true 0#32] }

end Sys2Proof.Machine
end

