-- ==== Sys2Proof/Machine/Dispatch.lean ====
section
/-!
DEFINITION. Sys2Proof/Machine/Dispatch.lean: the meaning of every step, by constructor.
-/
namespace Sys2Proof.Machine

def exec (i : Instr) (s : State) : Host.Outcome State Fault Refusal :=
  match i with
  | .vaddLa sv d a b wa wb k => Sys2Proof.Machine.execVaddLa sv d a b wa wb k s
  | .vaddLu sv d a g wa wb k => Sys2Proof.Machine.execVaddLu sv d a g wa wb k s
  | .vaddLi sv d a wa k idx => Sys2Proof.Machine.execVaddLi sv d a wa k idx s
  | .vaddLx sv d a wa k idx => Sys2Proof.Machine.execVaddLx sv d a wa k idx s
  | .vmulLa sv d a b wa wb k => Sys2Proof.Machine.execVmulLa sv d a b wa wb k s
  | .vmulLu sv d a g wa wb k => Sys2Proof.Machine.execVmulLu sv d a g wa wb k s
  | .vmulLi sv d a wa k idx => Sys2Proof.Machine.execVmulLi sv d a wa k idx s
  | .vmulLx sv d a wa k idx => Sys2Proof.Machine.execVmulLx sv d a wa k idx s
  | .vsubLa sv d a b wa wb k => Sys2Proof.Machine.execVsubLa sv d a b wa wb k s
  | .vsubLu sv d a g wa wb k => Sys2Proof.Machine.execVsubLu sv d a g wa wb k s
  | .vsubLi sv d a wa k idx => Sys2Proof.Machine.execVsubLi sv d a wa k idx s
  | .vminLa sv d a b wa wb k => Sys2Proof.Machine.execVminLa sv d a b wa wb k s
  | .vminLu sv d a g wa wb k => Sys2Proof.Machine.execVminLu sv d a g wa wb k s
  | .vminLi sv d a wa k idx => Sys2Proof.Machine.execVminLi sv d a wa k idx s
  | .vmaxLa sv d a b wa wb k => Sys2Proof.Machine.execVmaxLa sv d a b wa wb k s
  | .vmaxLu sv d a g wa wb k => Sys2Proof.Machine.execVmaxLu sv d a g wa wb k s
  | .vmaxLi sv d a wa k idx => Sys2Proof.Machine.execVmaxLi sv d a wa k idx s
  | .vmulhiLa sv d a b wa wb k => Sys2Proof.Machine.execVmulhiLa sv d a b wa wb k s
  | .vmulhiLu sv d a g wa wb k => Sys2Proof.Machine.execVmulhiLu sv d a g wa wb k s
  | .vdivLa sv d a b wa wb k => Sys2Proof.Machine.execVdivLa sv d a b wa wb k s
  | .vdivLu sv d a g wa wb k => Sys2Proof.Machine.execVdivLu sv d a g wa wb k s
  | .vremLa sv d a b wa wb k => Sys2Proof.Machine.execVremLa sv d a b wa wb k s
  | .vremLu sv d a g wa wb k => Sys2Proof.Machine.execVremLu sv d a g wa wb k s
  | .vmadVectorC sv d a b wa wb k c wc => Sys2Proof.Machine.execVmadVectorC sv d a b wa wb k c wc s
  | .vmadUniformC sv d a b wa wb k c wc => Sys2Proof.Machine.execVmadUniformC sv d a b wa wb k c wc s
  | .vclampVectorC sv d a b wa wb k c wc => Sys2Proof.Machine.execVclampVectorC sv d a b wa wb k c wc s
  | .vclampUniformC sv d a b wa wb k c wc => Sys2Proof.Machine.execVclampUniformC sv d a b wa wb k c wc s
  | .vabs sv d a wa k => Sys2Proof.Machine.execVabs sv d a wa k s
  | .vneg sv d a wa k => Sys2Proof.Machine.execVneg sv d a wa k s
  | .vsat sv d a wa k => Sys2Proof.Machine.execVsat sv d a wa k s
  | .vandLa d a b wa wb k => Sys2Proof.Machine.execVandLa d a b wa wb k s
  | .vandLu d a g wa wb k => Sys2Proof.Machine.execVandLu d a g wa wb k s
  | .vandLx d a wa k idx => Sys2Proof.Machine.execVandLx d a wa k idx s
  | .vorLa d a b wa wb k => Sys2Proof.Machine.execVorLa d a b wa wb k s
  | .vorLu d a g wa wb k => Sys2Proof.Machine.execVorLu d a g wa wb k s
  | .vorLx d a wa k idx => Sys2Proof.Machine.execVorLx d a wa k idx s
  | .vxorLa d a b wa wb k => Sys2Proof.Machine.execVxorLa d a b wa wb k s
  | .vxorLu d a g wa wb k => Sys2Proof.Machine.execVxorLu d a g wa wb k s
  | .vxorLx d a wa k idx => Sys2Proof.Machine.execVxorLx d a wa k idx s
  | .vnot d a wa k => Sys2Proof.Machine.execVnot d a wa k s
  | .vshlLa d a b wa wb k => Sys2Proof.Machine.execVshlLa d a b wa wb k s
  | .vshlLi d a wa k idx => Sys2Proof.Machine.execVshlLi d a wa k idx s
  | .vshrLa d a b wa wb k => Sys2Proof.Machine.execVshrLa d a b wa wb k s
  | .vshrLi d a wa k idx => Sys2Proof.Machine.execVshrLi d a wa k idx s
  | .vsraLa d a b wa wb k => Sys2Proof.Machine.execVsraLa d a b wa wb k s
  | .vsraLi d a wa k idx => Sys2Proof.Machine.execVsraLi d a wa k idx s
  | .vrotLa d a b wa wb k => Sys2Proof.Machine.execVrotLa d a b wa wb k s
  | .vrotLi d a wa k idx => Sys2Proof.Machine.execVrotLi d a wa k idx s
  | .vpopc d a wa k => Sys2Proof.Machine.execVpopc d a wa k s
  | .vclz d a wa k => Sys2Proof.Machine.execVclz d a wa k s
  | .vbrev d a wa k => Sys2Proof.Machine.execVbrev d a wa k s
  | .vbfx d a wa k pos len => Sys2Proof.Machine.execVbfx d a wa k pos len s
  | .vbfi d a b wa wb k pos len => Sys2Proof.Machine.execVbfi d a b wa wb k pos len s
  | .vsqrt sv d a wa k => Sys2Proof.Machine.execVsqrt sv d a wa k s
  | .vrcp sv d a wa k => Sys2Proof.Machine.execVrcp sv d a wa k s
  | .vrsq sv d a wa k => Sys2Proof.Machine.execVrsq sv d a wa k s
  | .vexp2 sv d a wa k => Sys2Proof.Machine.execVexp2 sv d a wa k s
  | .vlog2 sv d a wa k => Sys2Proof.Machine.execVlog2 sv d a wa k s
  | .vcvt sv d a t wa k => Sys2Proof.Machine.execVcvt sv d a t wa k s
  | .vpack d a b wa wb k => Sys2Proof.Machine.execVpack d a b wa wb k s
  | .vunpk d a e t wa k => Sys2Proof.Machine.execVunpk d a e t wa k s
  | .vsplitVector sv d a b wa wb k cond => Sys2Proof.Machine.execVsplitVector sv d a b wa wb k cond s
  | .vsplitUniform sv d a g wa wb k cond => Sys2Proof.Machine.execVsplitUniform sv d a g wa wb k cond s
  | .vsplitImmediate sv d a wa k cond idx => Sys2Proof.Machine.execVsplitImmediate sv d a wa k cond idx s
  | .vmerge d a b wa wb k => Sys2Proof.Machine.execVmerge d a b wa wb k s
  | .vmask d a b wa wb k => Sys2Proof.Machine.execVmask d a b wa wb k s
  | .vcompress d a wa k => Sys2Proof.Machine.execVcompress d a wa k s
  | .vexpand d a b wa wb k => Sys2Proof.Machine.execVexpand d a b wa wb k s
  | .vfillLu d a g wa wb => Sys2Proof.Machine.execVfillLu d a g wa wb s
  | .vfillLx d a wa idx => Sys2Proof.Machine.execVfillLx d a wa idx s
  | .vfirstLu d a g wa wb k => Sys2Proof.Machine.execVfirstLu d a g wa wb k s
  | .vfirstLi d a wa k n => Sys2Proof.Machine.execVfirstLi d a wa k n s
  | .vlane d => Sys2Proof.Machine.execVlane d s
  | .vmov d a wa k => Sys2Proof.Machine.execVmov d a wa k s
  | .vkey d a wa k => Sys2Proof.Machine.execVkey d a wa k s
  | .vbcastLu d a g wa wb k => Sys2Proof.Machine.execVbcastLu d a g wa wb k s
  | .vbcastLi d a wa k n => Sys2Proof.Machine.execVbcastLi d a wa k n s
  | .vperm d a b wa wb k => Sys2Proof.Machine.execVperm d a b wa wb k s
  | .vshflLa d a b wa wb k => Sys2Proof.Machine.execVshflLa d a b wa wb k s
  | .vshflLi d a wa k n => Sys2Proof.Machine.execVshflLi d a wa k n s
  | .vscanAdd sv d a wa k => Sys2Proof.Machine.execVscanAdd sv d a wa k s
  | .vscanMin sv d a wa k => Sys2Proof.Machine.execVscanMin sv d a wa k s
  | .vscanMax sv d a wa k => Sys2Proof.Machine.execVscanMax sv d a wa k s
  | .vscanAddX sv d a wa k => Sys2Proof.Machine.execVscanAddX sv d a wa k s
  | .vscanMinX sv d a wa k => Sys2Proof.Machine.execVscanMinX sv d a wa k s
  | .vscanMaxX sv d a wa k => Sys2Proof.Machine.execVscanMaxX sv d a wa k s
  | .vsad sv d a b wa wb k => Sys2Proof.Machine.execVsad sv d a b wa wb k s
  | .vavg sv d a b wa wb k => Sys2Proof.Machine.execVavg sv d a b wa wb k s
  | .vdot4 sv d a b wa wb => Sys2Proof.Machine.execVdot4 sv d a b wa wb s
  | .vdot2 sv d a b wa wb => Sys2Proof.Machine.execVdot2 sv d a b wa wb s
  | .vmed3VectorC sv d a b wa wb k c wc => Sys2Proof.Machine.execVmed3VectorC sv d a b wa wb k c wc s
  | .vmed3UniformC sv d a b wa wb k c wc => Sys2Proof.Machine.execVmed3UniformC sv d a b wa wb k c wc s
  | .vland d g wb => Sys2Proof.Machine.execVland d g wb s
  | .vld d idx g wa k => Sys2Proof.Machine.execVld d idx g wa k s
  | .vldR d idx g wa k => Sys2Proof.Machine.execVldR d idx g wa k s
  | .vst src idx g wa wb => Sys2Proof.Machine.execVst src idx g wa wb s
  | .vldwX2 d idx g wa k => Sys2Proof.Machine.execVldwX2 d idx g wa k s
  | .vldwX4 d idx g wa k => Sys2Proof.Machine.execVldwX4 d idx g wa k s
  | .vstwX2 src idx g wa wb => Sys2Proof.Machine.execVstwX2 src idx g wa wb s
  | .vstwX4 src idx g wa wb => Sys2Proof.Machine.execVstwX4 src idx g wa wb s
  | .vldAcq d idx g wa k sc => Sys2Proof.Machine.execVldAcq d idx g wa k sc s
  | .vstRel src idx g wa wb sc => Sys2Proof.Machine.execVstRel src idx g wa wb sc s
  | .vatomAdd src idx g wa wb k sc ret => Sys2Proof.Machine.execVatomAdd src idx g wa wb k sc ret s
  | .vatomMin src idx g wa wb k sc ret u => Sys2Proof.Machine.execVatomMin src idx g wa wb k sc ret u s
  | .vatomMax src idx g wa wb k sc ret u => Sys2Proof.Machine.execVatomMax src idx g wa wb k sc ret u s
  | .vatomAnd src idx g wa wb k sc ret => Sys2Proof.Machine.execVatomAnd src idx g wa wb k sc ret s
  | .vatomOr src idx g wa wb k sc ret => Sys2Proof.Machine.execVatomOr src idx g wa wb k sc ret s
  | .vatomXor src idx g wa wb k sc ret => Sys2Proof.Machine.execVatomXor src idx g wa wb k sc ret s
  | .vatomXchg src idx g wa wb k sc ret => Sys2Proof.Machine.execVatomXchg src idx g wa wb k sc ret s
  | .vatomCas src idx g wa wb k sc ret => Sys2Proof.Machine.execVatomCas src idx g wa wb k sc ret s
  | .vpref idx g wa => Sys2Proof.Machine.execVpref idx g wa s
  | .vlds d idx g wa k => Sys2Proof.Machine.execVlds d idx g wa k s
  | .vsts src idx g wa wb => Sys2Proof.Machine.execVsts src idx g wa wb s
  | .vbld d idx g wa k => Sys2Proof.Machine.execVbld d idx g wa k s
  | .vldacc d idx g wa k => Sys2Proof.Machine.execVldacc d idx g wa k s
  | .vstacc src idx g wa wb => Sys2Proof.Machine.execVstacc src idx g wa wb s
  | .gaddGa sq d a b => Sys2Proof.Machine.execGaddGa sq d a b s
  | .gaddGi sq d a idx => Sys2Proof.Machine.execGaddGi sq d a idx s
  | .gsubGa sq d a b => Sys2Proof.Machine.execGsubGa sq d a b s
  | .gsubGi sq d a idx => Sys2Proof.Machine.execGsubGi sq d a idx s
  | .gmulGa sq d a b => Sys2Proof.Machine.execGmulGa sq d a b s
  | .gmulGi sq d a idx => Sys2Proof.Machine.execGmulGi sq d a idx s
  | .gmulhiGa sq d a b => Sys2Proof.Machine.execGmulhiGa sq d a b s
  | .gmulhiGi sq d a idx => Sys2Proof.Machine.execGmulhiGi sq d a idx s
  | .gdivGa sq d a b => Sys2Proof.Machine.execGdivGa sq d a b s
  | .gdivGi sq d a idx => Sys2Proof.Machine.execGdivGi sq d a idx s
  | .gandGa sq d a b => Sys2Proof.Machine.execGandGa sq d a b s
  | .gandGi sq d a idx => Sys2Proof.Machine.execGandGi sq d a idx s
  | .gorGa sq d a b => Sys2Proof.Machine.execGorGa sq d a b s
  | .gorGi sq d a idx => Sys2Proof.Machine.execGorGi sq d a idx s
  | .gxorGa sq d a b => Sys2Proof.Machine.execGxorGa sq d a b s
  | .gxorGi sq d a idx => Sys2Proof.Machine.execGxorGi sq d a idx s
  | .gshlGa sq d a b => Sys2Proof.Machine.execGshlGa sq d a b s
  | .gshlGi sq d a idx => Sys2Proof.Machine.execGshlGi sq d a idx s
  | .gshrGa sq d a b => Sys2Proof.Machine.execGshrGa sq d a b s
  | .gshrGi sq d a idx => Sys2Proof.Machine.execGshrGi sq d a idx s
  | .gsraGa sq d a b => Sys2Proof.Machine.execGsraGa sq d a b s
  | .gsraGi sq d a idx => Sys2Proof.Machine.execGsraGi sq d a idx s
  | .gminGa sq d a b => Sys2Proof.Machine.execGminGa sq d a b s
  | .gminGi sq d a idx => Sys2Proof.Machine.execGminGi sq d a idx s
  | .gmaxGa sq d a b => Sys2Proof.Machine.execGmaxGa sq d a b s
  | .gmaxGi sq d a idx => Sys2Proof.Machine.execGmaxGi sq d a idx s
  | .gcmpGa sq a b => Sys2Proof.Machine.execGcmpGa sq a b s
  | .gcmpGi sq a idx => Sys2Proof.Machine.execGcmpGi sq a idx s
  | .gsel sq d a b cond => Sys2Proof.Machine.execGsel sq d a b cond s
  | .gmov sq d src => Sys2Proof.Machine.execGmov sq d src s
  | .gli sq d idx => Sys2Proof.Machine.execGli sq d idx s
  | .gliw sq d idx => Sys2Proof.Machine.execGliw sq d idx s
  | .gfaddF32 sq d a b => Sys2Proof.Machine.execGfaddF32 sq d a b s
  | .gfaddF64 sq d a b => Sys2Proof.Machine.execGfaddF64 sq d a b s
  | .gfmulF32 sq d a b => Sys2Proof.Machine.execGfmulF32 sq d a b s
  | .gfmulF64 sq d a b => Sys2Proof.Machine.execGfmulF64 sq d a b s
  | .gfmaF32 sq d a b c => Sys2Proof.Machine.execGfmaF32 sq d a b c s
  | .gfmaF64 sq d a b c => Sys2Proof.Machine.execGfmaF64 sq d a b c s
  | .gfcvtF64F32 sq d a => Sys2Proof.Machine.execGfcvtF64F32 sq d a s
  | .gfcvtF32F64 sq d a => Sys2Proof.Machine.execGfcvtF32F64 sq d a s
  | .gfcvtF64I64 sq d a => Sys2Proof.Machine.execGfcvtF64I64 sq d a s
  | .gfcvtI64F64 sq d a => Sys2Proof.Machine.execGfcvtI64F64 sq d a s
  | .gfcvtF32I64 sq d a => Sys2Proof.Machine.execGfcvtF32I64 sq d a s
  | .gfcvtI64F32 sq d a => Sys2Proof.Machine.execGfcvtI64F32 sq d a s
  | .gfcvtF64N64 sq d a => Sys2Proof.Machine.execGfcvtF64N64 sq d a s
  | .gfcvtN64F64 sq d a => Sys2Proof.Machine.execGfcvtN64F64 sq d a s
  | .gldGa sq d a b => Sys2Proof.Machine.execGldGa sq d a b s
  | .gldGi sq d a idx => Sys2Proof.Machine.execGldGi sq d a idx s
  | .gstGa sq src a b => Sys2Proof.Machine.execGstGa sq src a b s
  | .gstGi sq src a idx => Sys2Proof.Machine.execGstGi sq src a idx s
  | .gatomAdd sq d a b c sc ret => Sys2Proof.Machine.execGatomAdd sq d a b c sc ret s
  | .gatomMin sq d a b c sc ret u => Sys2Proof.Machine.execGatomMin sq d a b c sc ret u s
  | .gatomMax sq d a b c sc ret u => Sys2Proof.Machine.execGatomMax sq d a b c sc ret u s
  | .gatomAnd sq d a b c sc ret => Sys2Proof.Machine.execGatomAnd sq d a b c sc ret s
  | .gatomOr sq d a b c sc ret => Sys2Proof.Machine.execGatomOr sq d a b c sc ret s
  | .gatomXor sq d a b c sc ret => Sys2Proof.Machine.execGatomXor sq d a b c sc ret s
  | .gatomXchg sq d a b c sc ret => Sys2Proof.Machine.execGatomXchg sq d a b c sc ret s
  | .gatomCas sq d a b c sc ret => Sys2Proof.Machine.execGatomCas sq d a b c sc ret s
  | .gtgtGx sq src cond off => Sys2Proof.Machine.execGtgtGx sq src cond off s
  | .gtgtGa sq src c a => Sys2Proof.Machine.execGtgtGa sq src c a s
  | .gcallGx off => Sys2Proof.Machine.execGcallGx off s
  | .gcallGa a => Sys2Proof.Machine.execGcallGa a s
  | .gend => Sys2Proof.Machine.execGend s
  | .gendDrop => Sys2Proof.Machine.execGendDrop s
  | .bcase n g0 g1 g2 g3 => Sys2Proof.Machine.execBcase n g0 g1 g2 g3 s
  | .gnop sq => Sys2Proof.Machine.execGnop sq s
  | .mapcnt sq d a => Sys2Proof.Machine.execMapcnt sq d a s
  | .mapget sq d a k => Sys2Proof.Machine.execMapget sq d a k s
  | .mapset sq src a k => Sys2Proof.Machine.execMapset sq src a k s
  | .mapclr sq a => Sys2Proof.Machine.execMapclr sq a s
  | .gballot sq d a n => Sys2Proof.Machine.execGballot sq d a n s
  | .gfirst sq d a => Sys2Proof.Machine.execGfirst sq d a s
  | .gredAdd sv sq d a => Sys2Proof.Machine.execGredAdd sv sq d a s
  | .gredMin sv sq d a => Sys2Proof.Machine.execGredMin sv sq d a s
  | .gredMax sv sq d a => Sys2Proof.Machine.execGredMax sv sq d a s
  | .gredAnd sv sq d a => Sys2Proof.Machine.execGredAnd sv sq d a s
  | .gredOr sv sq d a => Sys2Proof.Machine.execGredOr sv sq d a s
  | .gredXor sv sq d a => Sys2Proof.Machine.execGredXor sv sq d a s
  | .setfmtGk sq idx => Sys2Proof.Machine.execSetfmtGk sq idx s
  | .setfmtGa sq a => Sys2Proof.Machine.execSetfmtGa sq a s
  | .getfmt sq d => Sys2Proof.Machine.execGetfmt sq d s
  | .grow sq src n => Sys2Proof.Machine.execGrow sq src n s
  | .shrink sq src n => Sys2Proof.Machine.execShrink sq src n s
  | .fbar sq => Sys2Proof.Machine.execFbar sq s
  | .fence sq src => Sys2Proof.Machine.execFence sq src s
  | .waitlt sq c n => Sys2Proof.Machine.execWaitlt sq c n s
  | .ccadd sq c n => Sys2Proof.Machine.execCcadd sq c n s
  | .emit sq d a => Sys2Proof.Machine.execEmit sq d a s
  | .launch sq g => Sys2Proof.Machine.execLaunch sq g s
  | .phase sq d => Sys2Proof.Machine.execPhase sq d s
  | .fmove sq d a m => Sys2Proof.Machine.execFmove sq d a m s
  | .gsysRd sq d n => Sys2Proof.Machine.execGsysRd sq d n s
  | .gsysWr sq src n => Sys2Proof.Machine.execGsysWr sq src n s
  | .gsysCall sq d n => Sys2Proof.Machine.execGsysCall sq d n s
  | .gtrap sq c => Sys2Proof.Machine.execGtrap sq c s
  | .gbrk sq c => Sys2Proof.Machine.execGbrk sq c s
  | .sret => Sys2Proof.Machine.execSret s
  | .sretAgain => Sys2Proof.Machine.execSretAgain s
  | .sretTrap c => Sys2Proof.Machine.execSretTrap c s
  | .pwclaim sq d a => Sys2Proof.Machine.execPwclaim sq d a s
  | .pwstat sq d => Sys2Proof.Machine.execPwstat sq d s
  | .mma sq g c => Sys2Proof.Machine.execMma sq g c s
  | .mmaJ sq g c => Sys2Proof.Machine.execMmaJ sq g c s
  | .mmaR sq g c => Sys2Proof.Machine.execMmaR sq g c s
  | .mtrans sq g c => Sys2Proof.Machine.execMtrans sq g c s
  | .mperm sq g c => Sys2Proof.Machine.execMperm sq g c s
  | .mrsum sq g c => Sys2Proof.Machine.execMrsum sq g c s
  | .mzero sq g c => Sys2Proof.Machine.execMzero sq g c s
  | .mdrain sq g c => Sys2Proof.Machine.execMdrain sq g c s
  | .mopfence sq => Sys2Proof.Machine.execMopfence sq s
  | .wtab sq g c => Sys2Proof.Machine.execWtab sq g c s
  | .copy sq g c => Sys2Proof.Machine.execCopy sq g c s
  | .cwp sq d n => Sys2Proof.Machine.execCwp sq d n s
  | .cwpCore sq d c n => Sys2Proof.Machine.execCwpCore sq d c n s
  | .cwait sq a n => Sys2Proof.Machine.execCwait sq a n s
  | .cwaitCore sq a c n => Sys2Proof.Machine.execCwaitCore sq a c n s
  | .xpost sq g c r => Sys2Proof.Machine.execXpost sq g c r s
  | .nsend sq g c => Sys2Proof.Machine.execNsend sq g c s
  | .qres sq d a n => Sys2Proof.Machine.execQres sq d a n s
  | .qresTry sq d a n => Sys2Proof.Machine.execQresTry sq d a n s
  | .qpub sq a n => Sys2Proof.Machine.execQpub sq a n s
  | .qtake sq d a n => Sys2Proof.Machine.execQtake sq d a n s
  | .qrel sq a n => Sys2Proof.Machine.execQrel sq a n s
  | .qwait sq a n => Sys2Proof.Machine.execQwait sq a n s
  | .qclose sq n => Sys2Proof.Machine.execQclose sq n s
  | .qopen sq a n => Sys2Proof.Machine.execQopen sq a n s
  | .stray w0 w1 => Sys2Proof.Machine.execStray w0 w1 s
  | .haltArrival team skid => Sys2Proof.Machine.execHaltArrival team skid s
  | .faultRunWrite ctx => Sys2Proof.Machine.execFaultRunWrite ctx s
  | .instructionComplete team => Sys2Proof.Machine.execInstructionComplete team s
  | .loadLineArrival team => Sys2Proof.Machine.execLoadLineArrival team s
  | .issueSelect place clocks => Sys2Proof.Machine.execIssueSelect place clocks s
  | .swapToPending place => Sys2Proof.Machine.execSwapToPending place s
  | .slotSpill place => Sys2Proof.Machine.execSlotSpill place s
  | .spillRestore place => Sys2Proof.Machine.execSpillRestore place s
  | .teamEnd team => Sys2Proof.Machine.execTeamEnd team s
  | .foldEnd fold => Sys2Proof.Machine.execFoldEnd fold s
  | .queueRelease paddock q => Sys2Proof.Machine.execQueueRelease paddock q s
  | .fmoveTransfer fold => Sys2Proof.Machine.execFmoveTransfer fold s
  | .coalescerLaunch job node => Sys2Proof.Machine.execCoalescerLaunch job node s
  | .jobFlushLaunch job node => Sys2Proof.Machine.execJobFlushLaunch job node s
  | .streamHeaderRead paddock entry => Sys2Proof.Machine.execStreamHeaderRead paddock entry s
  | .sliceGrant paddock => Sys2Proof.Machine.execSliceGrant paddock s
  | .streamDecode paddock => Sys2Proof.Machine.execStreamDecode paddock s
  | .sliceComplete paddock => Sys2Proof.Machine.execSliceComplete paddock s
  | .mzeroComplete op => Sys2Proof.Machine.execMzeroComplete op s
  | .mdrainComplete op => Sys2Proof.Machine.execMdrainComplete op s
  | .wtabLoadComplete op => Sys2Proof.Machine.execWtabLoadComplete op s
  | .copyLineDeliver op => Sys2Proof.Machine.execCopyLineDeliver op s
  | .copyComplete op => Sys2Proof.Machine.execCopyComplete op s
  | .engineFault op => Sys2Proof.Machine.execEngineFault op s
  | .blockMerge ctx pa rate set elems => Sys2Proof.Machine.execBlockMerge ctx pa rate set elems s
  | .decodedBlockEncode pa => Sys2Proof.Machine.execDecodedBlockEncode pa s
  | .shearerTakeRequest ctx ring => Sys2Proof.Machine.execShearerTakeRequest ctx ring s
  | .shearerConvert ctx ring => Sys2Proof.Machine.execShearerConvert ctx ring s
  | .shearerRetile ctx ring => Sys2Proof.Machine.execShearerRetile ctx ring s
  | .shearerDeflateDecode ctx ring => Sys2Proof.Machine.execShearerDeflateDecode ctx ring s
  | .shearerFp64Encode ctx ring => Sys2Proof.Machine.execShearerFp64Encode ctx ring s
  | .shearerFp64Decode ctx ring => Sys2Proof.Machine.execShearerFp64Decode ctx ring s
  | .shearerWeightStreamEncode ctx ring => Sys2Proof.Machine.execShearerWeightStreamEncode ctx ring s
  | .shearerNvmeRead ctx ring status data => Sys2Proof.Machine.execShearerNvmeRead ctx ring status data s
  | .shearerCompletion ctx ring => Sys2Proof.Machine.execShearerCompletion ctx ring s
  | .cellTransmit op => Sys2Proof.Machine.execCellTransmit op s
  | .cellRetransmit op cell => Sys2Proof.Machine.execCellRetransmit op cell s
  | .cellReceive port h0 h1 h2 h3 payload => Sys2Proof.Machine.execCellReceive port h0 h1 h2 h3 payload s
  | .ackReceive port h0 h1 h2 h3 => Sys2Proof.Machine.execAckReceive port h0 h1 h2 h3 s
  | .rowAbandon row => Sys2Proof.Machine.execRowAbandon row s
  | .bounceRingReplay ctx => Sys2Proof.Machine.execBounceRingReplay ctx s
  | .portEnable port => Sys2Proof.Machine.execPortEnable port s
  | .dropClear port => Sys2Proof.Machine.execDropClear port s
  | .fecuClear port => Sys2Proof.Machine.execFecuClear port s
  | .linkUp port lanes => Sys2Proof.Machine.execLinkUp port lanes s
  | .linkDown port => Sys2Proof.Machine.execLinkDown port s
  | .uncorrectableCodeword port => Sys2Proof.Machine.execUncorrectableCodeword port s
  | .intervalBoundary energy temps => Sys2Proof.Machine.execIntervalBoundary energy temps s
  | .permitsExhausted paddock => Sys2Proof.Machine.execPermitsExhausted paddock s
  | .fallEnd paddock => Sys2Proof.Machine.execFallEnd paddock s
  | .permitRefill paddock => Sys2Proof.Machine.execPermitRefill paddock s
  | .voltageReached domain => Sys2Proof.Machine.execVoltageReached domain s
  | .marginWindowEnd domain errors => Sys2Proof.Machine.execMarginWindowEnd domain errors s
  | .marginHoldEnd domain => Sys2Proof.Machine.execMarginHoldEnd domain s
  | .marginEvent domain unit kind index => Sys2Proof.Machine.execMarginEvent domain unit kind index s
  | .uncorrectableMemoryError domain unit kind index => Sys2Proof.Machine.execUncorrectableMemoryError domain unit kind index s
  | .sensorSuspect domain sensor reason reading => Sys2Proof.Machine.execSensorSuspect domain sensor reason reading s
  | .sensorHealthy domain sensor reading => Sys2Proof.Machine.execSensorHealthy domain sensor reading s
  | .foldWatchdog fold => Sys2Proof.Machine.execFoldWatchdog fold s
  | .doorbellWrite fn offset value => Sys2Proof.Machine.execDoorbellWrite fn offset value s
  | .packetRead ctx q => Sys2Proof.Machine.execPacketRead ctx q s
  | .dependenceTest => Sys2Proof.Machine.execDependenceTest s
  | .jobDispatch job => Sys2Proof.Machine.execJobDispatch job s
  | .foldAdmit job => Sys2Proof.Machine.execFoldAdmit job s
  | .foldReservation job => Sys2Proof.Machine.execFoldReservation job s
  | .jobComplete job => Sys2Proof.Machine.execJobComplete job s
  | .jobFail job => Sys2Proof.Machine.execJobFail job s
  | .victimStop fold => Sys2Proof.Machine.execVictimStop fold s
  | .victimMigrate fold paddock => Sys2Proof.Machine.execVictimMigrate fold paddock s
  | .foldSave fold => Sys2Proof.Machine.execFoldSave fold s
  | .foldRestore fold paddock => Sys2Proof.Machine.execFoldRestore fold paddock s
  | .vacateComplete => Sys2Proof.Machine.execVacateComplete s
  | .syscallAnswer team result => Sys2Proof.Machine.execSyscallAnswer team result s
  | .assignContext fn => Sys2Proof.Machine.execAssignContext fn s
  | .releaseContext ctx => Sys2Proof.Machine.execReleaseContext ctx s
  | .writeDescriptorField ctx word value => Sys2Proof.Machine.execWriteDescriptorField ctx word value s
  | .foldResume ctx seqno => Sys2Proof.Machine.execFoldResume ctx seqno s
  | .foldReplay ctx seqno => Sys2Proof.Machine.execFoldReplay ctx seqno s
  | .foldKill ctx seqno => Sys2Proof.Machine.execFoldKill ctx seqno s
  | .vacate mask => Sys2Proof.Machine.execVacate mask s
  | .invalidate ctx base length => Sys2Proof.Machine.execInvalidate ctx base length s
  | .mapQueueName name entry => Sys2Proof.Machine.execMapQueueName name entry s
  | .replayBounceRing ctx => Sys2Proof.Machine.execReplayBounceRing ctx s
  | .replayGo value => Sys2Proof.Machine.execReplayGo value s
  | .tinv0Go value => Sys2Proof.Machine.execTinv0Go value s
  | .tlbInvalidationComplete => Sys2Proof.Machine.execTlbInvalidationComplete s
  | .faultQueueHeadWrite ctx value => Sys2Proof.Machine.execFaultQueueHeadWrite ctx value s
  | .registerWrite pa value => Sys2Proof.Machine.execRegisterWrite pa value s
  | .functionLevelReset fn => Sys2Proof.Machine.execFunctionLevelReset fn s
  | .bringUp selfTest => Sys2Proof.Machine.execBringUp selfTest s
  | .externalDebugHalt fold => Sys2Proof.Machine.execExternalDebugHalt fold s
  | .pldmPlatformMonitoring sensor => Sys2Proof.Machine.execPldmPlatformMonitoring sensor s
  | .pldmFirmwareUpdate image verified => Sys2Proof.Machine.execPldmFirmwareUpdate image verified s
  | .getVersion => Sys2Proof.Machine.execGetVersion s
  | .getCapabilities => Sys2Proof.Machine.execGetCapabilities s
  | .negotiateAlgorithms algorithms => Sys2Proof.Machine.execNegotiateAlgorithms algorithms s
  | .getDigests => Sys2Proof.Machine.execGetDigests s
  | .getCertificate slot offset length => Sys2Proof.Machine.execGetCertificate slot offset length s
  | .challenge slot nonce => Sys2Proof.Machine.execChallenge slot nonce s
  | .getMeasurements index nonce => Sys2Proof.Machine.execGetMeasurements index nonce s
  | .blackBoxRead first count => Sys2Proof.Machine.execBlackBoxRead first count s
  | .blackBoxUnfreeze => Sys2Proof.Machine.execBlackBoxUnfreeze s
  | .configurationRequest fn reg => Sys2Proof.Machine.execConfigurationRequest fn reg s
  | .hostMemoryWrite addr data => Sys2Proof.Machine.execHostMemoryWrite addr data s
  | .fatalUnclassified fold => Sys2Proof.Machine.execFatalUnclassified fold s

end Sys2Proof.Machine
end

