-- ==== Sys2Proof/Machine/Fetch.lean ====
section
/-!
DEFINITION. Sys2Proof/Machine/Fetch.lean: fetching and decoding a team's next instruction (R57, R89, R90, R432), which moves are
another agent's and which the always-on domain takes (R463, R480), and the small context that stands for loading a
program.
-/
namespace Sys2Proof.Machine

/-! ## Fetch -/

/-- The trap of a fetch whose translation faulted (R432). -/
def fetchFault (k sub va : Nat) : Trap :=
  let e := xlatErr k sub va false
  { Trap.sub' e.1 e.2.1 with detail := dwordOfNat e.2.2 }

/-- The word that a core fetches at a virtual address of a context, or the trap of its translation (R433) or of poison (R461).
DEDUCED (log entry 119): a poisoned word of code traps at its pc as poisoned data does (R166). -/
def State.fetchWord (s : State) (core c va : Nat) : Except Trap Word :=
  match s.translate (coreTlb core) c va .read with
  | .fault k sub => .error (fetchFault k sub va)
  | .ok pa _ =>
    match Trap.ofCauses (poisonCauses (s.codePoison core pa)) with
    | some t => .error { t with detail := dwordOfNat va }
    | none => .ok (s.codeWord core pa)

/-- The TLB and the core's L1 instruction cache after a fetch at virtual addresses (R328, R433). -/
def State.fetchFill (s : State) (core c : Nat) : List Nat → State
  | [] => s
  | va :: rest =>
    let s := s.tlbFill (coreTlb core) c (va % 2 ^ 48 / 65536)
    (match s.translate (coreTlb core) c va .read with
      | .ok pa _ => s.codeTake core (pa / 128) []
      | .fault _ _ => s).fetchFill core c rest

/-- What a fetch gives: a trap with the pc its record names, or the words; a one-word instruction's second is zero. -/
inductive Fetched where
  | trap (t : Trap) (pc : CodeAddr)
  | words (w x : Word)
  deriving DecidableEq, Repr

/-- Fetches at a team's pc. -/
def State.fetch (s : State) (e : Env) (fd : Fold) (tm : Team) : Fetched :=
  let a := tm.pc.toNat
  let core := s.coreOf tm
  if tm.pcOver then .trap (.sub' 0x0C 1) tm.lastPc
  else if !tm.inExtent e a then .trap (.sub' 0x0C 0) tm.lastPc
  else
    match s.fetchWord core fd.ctx a with
    | .error t => .trap t tm.pc
    | .ok w =>
      if !isPair w then .words w 0#32
      else if !tm.inExtent e (a + 4) then .trap (.sub' 0x0C 3) tm.lastPc
      else
        match s.fetchWord core fd.ctx (a + 4) with
        | .error t => .trap t tm.pc
        | .ok x => .words w x

/-- May a team issue now: it runs, it is active and holds its registers, its fold is resident, no load in flight is to trap (log
entry 63), and what it waits for may have come since it last tried? -/
def State.mayIssue (s : State) (fd : Fold) (tm : Team) : Bool :=
  tm.status == .run && !tm.doomed && tm.active && !tm.spilled && fd.status == .resident && (tm.wait == .none || tm.waitAt != s.moves)

/-- The instruction of two words, or the stray they are (R106). -/
def instrOf (w x : Word) : Instr :=
  match decode w x with
  | .ok i => i
  | .error _ => .stray w x

/-- What the team that issues does next: nothing, a trap of its fetch, or an instruction. -/
inductive NextIssue where
  | idle
  | trapped (s : State)
  | run (i : Instr) (s : State)

/-- The next issue: of the team that the partition of the current one chooses (R452). -/
def State.nextIssue (s : State) : NextIssue :=
  let s := { s with cur := s.issuer }
  match s.team? s.cur with
  | none => .idle
  | some tm =>
    match s.fold? tm.fold with
    | none => .idle
    | some fd =>
      if !s.mayIssue fd tm then .idle
      else
        match s.fetch (s.env s.cur tm) fd tm with
        | .trap t pc =>
          .trapped { (s.updTeam s.cur fun _ => tm.trapAt (s.env s.cur tm) t 0 pc tm.origin [] 0 none) with moves := s.moves + 1 }
        | .words w x =>
          let vas := if isPair w then [tm.pc.toNat, tm.pc.toNat + 4] else [tm.pc.toNat]
          .run (instrOf w x) (s.fetchFill (s.coreOf tm) fd.ctx vas)

/-! ## Moves of other agents -/

/-- Is a step a move of another agent: no instruction, and no stray, which a team meets as it issues? -/
def isMove (i : Instr) : Bool :=
  match i with
  | .stray .. => false
  | i => (encode i).isEmpty

/-- Moves that the always-on domain takes (R463, R480, R485, R488). -/
def alwaysOn : Instr → Bool
  | .intervalBoundary .. | .bringUp .. | .pldmPlatformMonitoring .. | .pldmFirmwareUpdate .. | .getVersion | .getCapabilities
  | .negotiateAlgorithms .. | .getDigests | .getCertificate .. | .challenge .. | .getMeasurements .. | .blackBoxRead ..
  | .blackBoxUnfreeze => true
  | _ => false

/-- Is a move a configuration request, which is answered at every step of bring-up (R485)? -/
def configures : Instr → Bool
  | .configurationRequest .. => true
  | _ => false

/-- Does a move at the head of the agenda have its effect? With the part off, or left at step 4 of bring-up by a failed self-test, it is
reached through the shepherd port only (R463, R485). -/
def State.heeds (s : State) (i : Instr) : Bool :=
  isMove i && (alwaysOn i || (!s.off && (s.bring != 4 || configures i)))

/-! ## A loaded program (log entry 38) -/

/-- Where the small context keeps its tables and code: physical addresses of levels 2, 1 and 0 and of the code page, and the
code's virtual address. -/
def loadRoot : Nat := 0x100000
/-- The level-1 table. -/
def loadT1 : Nat := 0x104000
/-- The level-0 table. -/
def loadT0 : Nat := 0x108000
/-- The code page. -/
def loadCode : Nat := 0x20000
/-- The code's virtual address. -/
def loadVa : Nat := 0x10000

/-- A kernel of one team of width 32 with every register, whose code is at `loadVa`. -/
def loadKernel : Kernel :=
  { entry := BitVec.ofNat 48 loadVa, extent := 8, w := 32, teams := 1, vregs := 128, gregs := 1024, slots := 128, scratch := 0
    acc := 0, energy := 0, peak := 0, scheds := [], pinBytes := 0, pinStart := 0, nodes := [] }

/-- A job of one fold of it. -/
def loadJob : Job :=
  { ctx := 1, queue := deviceQueue, index := 0, kernel := 0, prio := 0, indirect := false, dims := 1, x := 1, y := 1, z := 1
    shapeAddr := 0, events := [], deps := [], args := 0, argVals := [], barrier := false, scratch := 0, acc := 0, energy := 0
    peak := 0, nodes := [], next := 0, refusals := 0, refused := false, tryDue := false, readyAt := 0, parent := none, failCause := (0, 0), reported := false
    status := .dispatching }

/-- Context 1 with its page tables and one fold of the kernel admitted to paddock 0, whose team issues next. -/
def State.loaded (s : State) : State :=
  let s := s.memStore loadRoot (bytesOf 8 (loadT1 + 1))
  let s := s.memStore loadT1 (bytesOf 8 (loadT0 + 1))
  let s := s.memStore (loadT0 + 8 * (loadVa / 65536)) (bytesOf 8 (loadCode + 3))
  let s := s.updCtx 1 fun c =>
    { c with fn := some 0, desc := upd c.desc 0 fun _ => dwordOfNat (2 ^ 63 + loadRoot), kernels := [loadKernel] }
  let n := s.jobs.length
  let t := s.teams.length
  let s := { s with jobs := s.jobs ++ [loadJob] }
  { s.seat n loadJob loadKernel 0 [0] [] [] with cur := t, agenda := [] }

/-- The physical addresses at which the team that issues fetches its next `n` words, if it can. -/
def State.fetchPlace (s : State) (n : Nat) : Option (List Nat) :=
  let s := { s with cur := s.issuer }
  match s.team? s.cur with
  | none => none
  | some tm =>
    match s.fold? tm.fold with
    | none => none
    | some fd =>
      if !s.agenda.isEmpty || s.off || !s.mayIssue fd tm || tm.pcOver then none
      else
        let e := s.env s.cur tm
        let pas := (List.range n).map fun k =>
          match s.translate (s.tlbOf tm) fd.ctx (tm.pc.toNat + 4 * k) .read with
          | .ok pa _ => if tm.inExtent e (tm.pc.toNat + 4 * k) && regionOf pa == .memory then some pa else none
          | .fault _ _ => none
        if pas.all Option.isSome then some (pas.map fun p => p.getD 0) else none

/-- Words stored where the team that issues fetches, in a small context of its own where no team can fetch; instruction lines that
hold the old ones are dropped. -/
def State.placeWords (s : State) (ws : List Word) : State :=
  let go (s : State) (pas : List Nat) : State :=
    let s := (pas.zip ws).foldl (fun (s : State) p => (s.settle [(p.1, 4)]).memStore p.1 (bytesOfWord p.2)) s
    { s with l1i := s.l1i.filter fun x => !pas.any fun pa => pa / 128 == x.line }
  match s.fetchPlace ws.length with
  | some pas => go s pas
  | none => go { s.loaded with off := false } ((List.range ws.length).map fun k => loadCode + 4 * k)

end Sys2Proof.Machine
end

