-- ==== Sys2Proof/Machine/Probe.lean ====
section
/-!
DEFINITION. Sys2Proof/Machine/Probe.lean: what a partition finds as it looks at the next instructions of its teams: the waits by which it
tells those that are ready (R450, R451), and the slots that those of spilled teams want (R43).
-/
namespace Sys2Proof.Machine

/-- Is a wait one that an instruction meets before it has any effect? -/
def Wait.idle : Wait → Bool
  | .slots _ | .source .. | .loads _ | .flags | .counter .. | .channel .. | .engine _ | .queue .. | .full => true
  | .none | .barrier | .move | .syscall | .claim => false

/-- The team as its next instruction would leave it, were it to issue now. -/
def State.tries (s : State) (t : Nat) : Option Team :=
  (s.team? t).bind fun tm => (s.fold? tm.fold).bind fun fd =>
    match s.fetch (s.env t tm) fd tm with
    | .trap _ _ => none
    | .words w x =>
      match exec (instrOf w x) { s with cur := t } with
      | .next s' => s'.team? t
      | .fault _ => none
      | .refused _ => none

/-- A team with every register full, those of bound windows as their landings will leave them (R317). -/
def Team.filled (tm : Team) : Team :=
  let tm := tm.landings.foldl (fun (x : Team) l => x.landDone l) tm
  { tm with
    vregs := tm.vregs.map fun (r : VReg) => { r with full := true }
    uregs := tm.uregs.map fun (r : UReg) => { r with full := true }
    stray := tm.stray.map fun (f : Frame) => { f with
      ev := f.ev.map fun (r : VReg) => { r with full := true }, fu := f.fu.map fun (r : UReg) => { r with full := true } } }

/-- The slots that the instruction of a spilled team wants once its registers are full: those it would lack, were the pool taken. -/
def State.wanted (s : State) (t : Nat) (tm : Team) : Nat :=
  let u := { tm.filled with spilled := false, active := true, wait := .none }
  let crowd := { u with vregs := [], stray := [], landings := [], resv := Config.poolSlots }
  match State.tries { s with teams := (upd s.teams t fun _ => u) ++ [crowd] } t with
  | some x => x.wait.need.getD 0
  | none => 0

/-- A partition looks at a team: one that runs and has met no wait may find one, and of a spilled one it learns the slots it wants. -/
def State.look (s : State) (t : Nat) : State :=
  match s.team? t with
  | none => s
  | some tm =>
    if tm.status != .run || !s.resident tm || tm.doomed then s
    else if tm.spilled then s.updTeam t fun x => { x with wants := s.wanted t tm }
    else if tm.wait != .none then s
    else match s.tries t with
      | some u => if u.wait.idle then s.updTeam t fun x => { x with wait := u.wait, waitAt := s.moves } else s
      | none => s

/-- Moves that ask which teams of a partition are ready (R43, R450, R451). -/
def looksAround : Instr → Bool
  | .issueSelect .. | .swapToPending .. | .slotSpill .. | .spillRestore .. | .teamEnd .. | .fmoveTransfer .. | .victimMigrate ..
  | .foldSave .. | .foldRestore .. | .foldKill .. | .foldWatchdog .. | .jobFail .. | .releaseContext .. | .functionLevelReset .. => true
  | _ => false

/-- What partitions find before a move. -/
def State.beforeMove (i : Instr) (s : State) : State :=
  if looksAround i then (List.range s.teams.length).foldl State.look s else s

end Sys2Proof.Machine
end

