-- ==== Sys2Proof/Machine/Step.lean ====
section
/-!
DEFINITION. Sys2Proof/Machine/Step.lean: one step of the part. The move at the head of the agenda comes first; with none, the
team that issues fetches and runs its next instruction (log entries 1 and 2).
-/
namespace Sys2Proof.Machine

/-- One step. -/
def step (s : State) : Host.Outcome State Fault Refusal :=
  match s.agenda with
  | i :: rest => if s.heeds i then exec i (State.beforeMove i { s with agenda := rest }) else .next { s with agenda := rest }
  | [] =>
    if s.off then .fault .switchedOff
    else
      match s.nextIssue with
      | .idle => .next s
      | .trapped s' => .next s'
      | .run i s' => exec i s'

/-- The state with an instruction's words where step fetches next. -/
def State.withFetchWord (s : State) (_nbits w : Nat) : State := s.placeWords [wordOfNat w, wordOfNat (w >>> 32)]

end Sys2Proof.Machine
end

