-- ==== Sys2Proof/Safety.lean ====
section
/-!
DEFINITION. Sys2Proof/Safety.lean: the terms in which claims about the part are made: the invariant of its state, which
team issues, and a safe step.
-/
namespace Sys2Proof.Machine

/-- What every state of the part keeps: memory in its canonical form, and as many contexts, paddocks, link ports and voltage
domains as the Cargor 9 has (R2, R381, R468, R474). -/
def State.inv (s : State) : Bool :=
  Memory.wf s.mem && s.ctxs.length == 64 && s.paddocks.length == 32 && s.ports.length == 16 && s.domains.length == 12

/-- The team `tm` is the one that issues, and it runs. -/
def Issues (s : State) (tm : Team) : Prop := s.team? s.cur = some tm ∧ tm.status = .run

/-- No halt is at hand for a team: none has arrived, and its fold has not begun to halt (R410). -/
def NoHalt (tm : Team) (e : Env) : Prop := tm.halt = none ∧ e.halted = false ∧ e.victim = false

/-- The team that issues is `tm`, which runs in the fold `fd`. -/
def IssuesIn (s : State) (fd : Fold) (tm : Team) : Prop := Issues s tm ∧ s.fold? tm.fold = some fd

/-- The state in which the team that issues has become `tm` and nothing else has changed. -/
def State.teamNow (s : State) (tm : Team) : State := { s.updTeam s.cur fun _ => tm with moves := s.moves + 1 }

/-- A step is safe: it answers a next state that keeps the invariant. -/
def SafeStep (s : State) : Prop := ∃ t, step s = .next t ∧ t.inv = true

end Sys2Proof.Machine
end

