-- ==== Sys2Proof/Safety/Groups.lean ====
section
/-!
DEFINITION. Sys2Proof/Safety/Groups.lean: the terms of claims about group instructions on registers (07_group_control): which they
are, when one issues and completes, and the team it leaves.
-/
namespace Sys2Proof.Machine

/-- The group instructions that work on registers alone, with their length in bytes, SEQ, and what they take and compute. -/
def groupOpOf : Instr → Option (Nat × BitVec 3 × (Team → GroupOp))
  | .gaddGa sq d a b => some (4, sq, intRR .add d a b)
  | .gaddGi sq d a i => some (4, sq, intRI .add d a i)
  | .gsubGa sq d a b => some (4, sq, intRR .sub d a b)
  | .gsubGi sq d a i => some (4, sq, intRI .sub d a i)
  | .gmulGa sq d a b => some (4, sq, intRR .mul d a b)
  | .gmulGi sq d a i => some (4, sq, intRI .mul d a i)
  | .gmulhiGa sq d a b => some (4, sq, intRR .mulhi d a b)
  | .gmulhiGi sq d a i => some (4, sq, intRI .mulhi d a i)
  | .gdivGa sq d a b => some (4, sq, intRR .div d a b)
  | .gdivGi sq d a i => some (4, sq, intRI .div d a i)
  | .gandGa sq d a b => some (4, sq, intRR .and d a b)
  | .gandGi sq d a i => some (4, sq, intRI .and d a i)
  | .gorGa sq d a b => some (4, sq, intRR .or d a b)
  | .gorGi sq d a i => some (4, sq, intRI .or d a i)
  | .gxorGa sq d a b => some (4, sq, intRR .xor d a b)
  | .gxorGi sq d a i => some (4, sq, intRI .xor d a i)
  | .gshlGa sq d a b => some (4, sq, intRR .shl d a b)
  | .gshlGi sq d a i => some (4, sq, intRI .shl d a i)
  | .gshrGa sq d a b => some (4, sq, intRR .shr d a b)
  | .gshrGi sq d a i => some (4, sq, intRI .shr d a i)
  | .gsraGa sq d a b => some (4, sq, intRR .sra d a b)
  | .gsraGi sq d a i => some (4, sq, intRI .sra d a i)
  | .gminGa sq d a b => some (4, sq, intRR .min d a b)
  | .gminGi sq d a i => some (4, sq, intRI .min d a i)
  | .gmaxGa sq d a b => some (4, sq, intRR .max d a b)
  | .gmaxGi sq d a i => some (4, sq, intRI .max d a i)
  | .gcmpGa sq a b => some (4, sq, cmpU [⟨a.toNat, 1⟩, ⟨b.toNat, 1⟩] fun us => us.getD 1 0#64)
  | .gcmpGi sq a i => some (4, sq, cmpU [⟨a.toNat, 1⟩] fun _ => i.signExtend 64)
  | .gsel sq d a b cond => some (8, sq, selU d a b cond)
  | .gmov sq d s => some (4, sq, moveU d.toNat [⟨s.toNat, 1⟩] (fun us => us.getD 0 0#64))
  | .gli sq d i => some (4, sq, moveU d.toNat [] (fun _ => i.signExtend 64))
  | .gliw sq d i => some (8, sq, moveU d.toNat [] (fun _ => i.signExtend 64))
  | .gfaddF32 sq d a b => some (4, sq, float2 .add false d a b)
  | .gfaddF64 sq d a b => some (4, sq, float2 .add true d a b)
  | .gfmulF32 sq d a b => some (4, sq, float2 .mul false d a b)
  | .gfmulF64 sq d a b => some (4, sq, float2 .mul true d a b)
  | .gfmaF32 sq d a b c => some (8, sq, floatMad false d a b c)
  | .gfmaF64 sq d a b c => some (8, sq, floatMad true d a b c)
  | .gfcvtF64F32 sq d a => some (4, sq, floatCvt (.flt fF64) (.flt fF32) d a)
  | .gfcvtF32F64 sq d a => some (4, sq, floatCvt (.flt fF32) (.flt fF64) d a)
  | .gfcvtF64I64 sq d a => some (4, sq, floatCvt (.flt fF64) (.int true 64) d a)
  | .gfcvtI64F64 sq d a => some (4, sq, floatCvt (.int true 64) (.flt fF64) d a)
  | .gfcvtF32I64 sq d a => some (4, sq, floatCvt (.flt fF32) (.int true 64) d a)
  | .gfcvtI64F32 sq d a => some (4, sq, floatCvt (.int true 64) (.flt fF32) d a)
  | .gfcvtF64N64 sq d a => some (4, sq, floatCvt (.flt fF64) (.int false 64) d a)
  | .gfcvtN64F64 sq d a => some (4, sq, floatCvt (.int false 64) (.flt fF64) d a)
  | .mapcnt sq d a => some (4, sq, countOp d a)
  | .mapget sq d a k => some (4, sq, wordOp d a k)
  | .gballot sq d a n => some (4, sq, ballotOp d a n)
  | .gfirst sq d a => some (4, sq, lowestOp d a)
  | .gredAdd sv sq d a => some (4, sq, redOp .add sv d a)
  | .gredMin sv sq d a => some (4, sq, redOp .min sv d a)
  | .gredMax sv sq d a => some (4, sq, redOp .max sv d a)
  | .gredAnd sv sq d a => some (4, sq, redOp .and sv d a)
  | .gredOr sv sq d a => some (4, sq, redOp .or sv d a)
  | .gredXor sv sq d a => some (4, sq, redOp .xor sv d a)
  | .getfmt sq d => some (4, sq, fmtOp d)
  | _ => none

/-- The uniform operands of a group instruction. -/
def groupUnis (tm : Team) (unis : List UUse) : List (Refs UOpnd) := unis.map fun x => tm.urefs x.f x.n false
/-- Its destinations. -/
def groupDsts (tm : Team) (dsts : List UUse) : List (Refs UOpnd) := dsts.map fun x => tm.urefs x.f x.n true
/-- The vector registers it reads. -/
def groupVecs (tm : Team) (vecs : List VSrc) : List (Refs VRef) := vecs.map fun x => tm.vrefs x.f x.n x.align

/-- The uniform values it reads. -/
def groupUs (tm : Team) (unis : List UUse) : List DWord := ((groupUnis tm unis).map fun r => r.regs.map tm.opnd).flatten
/-- The lanes it reads. -/
def groupVals (tm : Team) (vecs : List VSrc) : List (List (Option Nat)) :=
  (groupVecs tm vecs).map fun r => groupLanes tm.w (r.regs.map tm.getV)
/-- The registers it writes. -/
def groupRegs (tm : Team) (dsts : List UUse) : List URef :=
  ((groupDsts tm dsts).map (·.regs)).flatten.filterMap fun o => match o with | .reg r => some r | .value _ => none

/-- Are its operands there: every register full, no cause raised, no poison read (R113, R189, R460)? -/
abbrev OperandsReady (tm : Team) (unis : List UUse) (vecs : List VSrc) (dsts : List UUse) : Prop :=
  ((groupUnis tm unis ++ groupDsts tm dsts).all fun r => r.regs.all tm.opndFull && r.causes.isEmpty) = true ∧
  ((groupVecs tm vecs).all fun r => r.regs.all (fun v => (tm.getV v).full) && r.causes.isEmpty) = true ∧
  poisonMet tm ((groupVecs tm vecs).map (·.regs)) (vecs.map (·.use)) (groupVals tm vecs) [] = [] ∧
  ((groupUnis tm unis).all fun r => r.regs.all fun u => (tm.opndPoison u).isNone) = true

/-- What it computes. -/
def groupRes (tm : Team) (op : GroupOp) : GroupResult := op.sem tm.w (groupVals tm op.vecs) (groupUs tm op.unis)

/-- Does the instruction issue and complete? -/
abbrev GroupReady (tm : Team) (op : GroupOp) : Prop :=
  OperandsReady tm op.unis op.vecs op.dsts ∧ op.typed = true ∧
    (op.fxt = true → (fmtEnv tm.fmt).fxt = true → (groupRes tm op).fx.getLsbD 0 = false)

/-- The team with its results, before its SEQ acts. -/
def groupWritten (tm : Team) (overlap : Bool) (op : GroupOp) : Team :=
  let r := groupRes tm op
  { tm.results overlap (List.zipWith (fun d v => .uni d v) (groupRegs tm op.dsts) r.vals) [] false with
    flags := r.flags.getD tm.flags
    fx := tm.fx ||| r.fx }

/-- The team after a group instruction of `len` bytes whose effect gives `tm'`: where its SEQ selects (R46), retired; none where
the SEQ traps. -/
def seqDone (tm tm' : Team) (e : Env) (len : Nat) (sq : BitVec 3) : Option Team :=
  match tm'.seq e sq tm'.flags (tm.pc.toNat + len) with
  | .ok t => some (t.retired e)
  | .error _ => none

/-- Does a SEQ select without a trap, whatever the flags (R46, R48-R53): the arm, return address or target slot it takes is there,
and every address it may go to lies in the extent? -/
def SeqFits (tm : Team) (e : Env) (sq : BitVec 3) : Prop :=
  let at_ (a : CodeAddr) : Prop := tm.inExtent e a.toNat = true
  sq = 0#3 ∨ (sq = 7#3 ∧ tm.arms = []) ∨ (sq = 5#3 ∧ ∃ a rest, tm.arms = a :: rest ∧ at_ a.addr) ∨
    (sq = 6#3 ∧ ∃ a rest, tm.calls = a :: rest ∧ at_ a) ∨
    (1#3 ≤ sq ∧ sq ≤ 4#3 ∧ ∃ t, tm.slots.getD (sq.toNat - 1) none = some t ∧ at_ t.addr)

/-- An instruction of `len` bytes completes with the state `t`, its effect leaving `w` of the team that issues: where its SEQ
fits exec answers `t` with that team as the SEQ leaves it, and so it does wherever the SEQ does not trap. -/
def Completes (i : Instr) (s : State) (tm : Team) (len : Nat) (sq : BitVec 3) (t : State) (w : Team) : Prop :=
  (SeqFits w (s.env s.cur tm) sq → ∃ tm', seqDone tm w (s.env s.cur tm) len sq = some tm' ∧ exec i s = .next (t.teamNow tm')) ∧
  ∀ tm', seqDone tm w (s.env s.cur tm) len sq = some tm' → exec i s = .next (t.teamNow tm')

/-! ## What single instructions compute, as the spec's tables give it -/

/-- A second operand: a uniform register, or imm7 sign-extended (R192). -/
inductive GroupArg where
  | reg (f : BitVec 7)
  | imm (x : BitVec 7)
  deriving DecidableEq, Repr

/-- The register fields a second operand names. -/
def GroupArg.uses : GroupArg → List UUse
  | .reg f => [⟨f.toNat, 1⟩]
  | .imm _ => []

/-- Its value. -/
def GroupArg.value (b : GroupArg) (tm : Team) : DWord :=
  match b with
  | .reg f => (groupUs tm [⟨f.toNat, 1⟩]).headD 0#64
  | .imm x => x.signExtend 64

/-- A row of the table of R192: r, C and V from the operands. -/
structure IntRow where
  r : DWord → DWord → DWord
  c : DWord → DWord → Bool
  v : DWord → DWord → Bool

/-- The bits of `a` moved down by `s`, the bit `fill` from above (R193). -/
def shiftedRight (a : DWord) (s : Nat) (fill : Bool) : DWord :=
  BitVec.ofNat 64 ((List.range 64).map fun k => if (if k + s < 64 then a.getLsbD (k + s) else fill) then 2 ^ k else 0).sum

/-- The bits of `a` moved up by `s`, zeros below. -/
def shiftedLeft (a : DWord) (s : Nat) : DWord :=
  BitVec.ofNat 64 ((List.range 64).map fun k => if s ≤ k ∧ a.getLsbD (k - s) = true then 2 ^ k else 0).sum

/-- The table of R192 with R193 and R194: SEQ, destination (none for gcmp), a, b, and the row. -/
def intRow : Instr → Option (BitVec 3 × Option (BitVec 7) × BitVec 7 × GroupArg × IntRow)
  | .gaddGa sq d a b => some (sq, some d, a, .reg b, add)
  | .gaddGi sq d a i => some (sq, some d, a, .imm i, add)
  | .gsubGa sq d a b => some (sq, some d, a, .reg b, sub)
  | .gsubGi sq d a i => some (sq, some d, a, .imm i, sub)
  | .gcmpGa sq a b => some (sq, none, a, .reg b, sub)
  | .gcmpGi sq a i => some (sq, none, a, .imm i, sub)
  | .gmulGa sq d a b => some (sq, some d, a, .reg b, mul)
  | .gmulGi sq d a i => some (sq, some d, a, .imm i, mul)
  | .gmulhiGa sq d a b => some (sq, some d, a, .reg b, plain fun a b => BitVec.ofNat 64 (a.toNat * b.toNat / 2 ^ 64))
  | .gmulhiGi sq d a i => some (sq, some d, a, .imm i, plain fun a b => BitVec.ofNat 64 (a.toNat * b.toNat / 2 ^ 64))
  | .gdivGa sq d a b => some (sq, some d, a, .reg b, div)
  | .gdivGi sq d a i => some (sq, some d, a, .imm i, div)
  | .gandGa sq d a b => some (sq, some d, a, .reg b, plain fun a b => a &&& b)
  | .gandGi sq d a i => some (sq, some d, a, .imm i, plain fun a b => a &&& b)
  | .gorGa sq d a b => some (sq, some d, a, .reg b, plain fun a b => a ||| b)
  | .gorGi sq d a i => some (sq, some d, a, .imm i, plain fun a b => a ||| b)
  | .gxorGa sq d a b => some (sq, some d, a, .reg b, plain fun a b => a ^^^ b)
  | .gxorGi sq d a i => some (sq, some d, a, .imm i, plain fun a b => a ^^^ b)
  | .gminGa sq d a b => some (sq, some d, a, .reg b, plain fun a b => if a.toInt ≤ b.toInt then a else b)
  | .gminGi sq d a i => some (sq, some d, a, .imm i, plain fun a b => if a.toInt ≤ b.toInt then a else b)
  | .gmaxGa sq d a b => some (sq, some d, a, .reg b, plain fun a b => if b.toInt ≤ a.toInt then a else b)
  | .gmaxGi sq d a i => some (sq, some d, a, .imm i, plain fun a b => if b.toInt ≤ a.toInt then a else b)
  | .gshlGa sq d a b => some (sq, some d, a, .reg b, shl)
  | .gshlGi sq d a i => some (sq, some d, a, .imm i, shl)
  | .gshrGa sq d a b => some (sq, some d, a, .reg b, shr)
  | .gshrGi sq d a i => some (sq, some d, a, .imm i, shr)
  | .gsraGa sq d a b => some (sq, some d, a, .reg b, sra)
  | .gsraGi sq d a i => some (sq, some d, a, .imm i, sra)
  | _ => none
where
  plain (f : DWord → DWord → DWord) : IntRow := ⟨f, fun _ _ => false, fun _ _ => false⟩
  add : IntRow := ⟨fun a b => a + b, fun a b => decide (2 ^ 64 ≤ a.toNat + b.toNat), fun a b => decide ((a + b).toInt ≠ a.toInt + b.toInt)⟩
  sub : IntRow := ⟨fun a b => a - b, fun a b => decide (b.toNat ≤ a.toNat), fun a b => decide ((a - b).toInt ≠ a.toInt - b.toInt)⟩
  mul : IntRow := ⟨fun a b => a * b, fun a b => decide (2 ^ 64 ≤ a.toNat * b.toNat), fun a b => decide ((a * b).toInt ≠ a.toInt * b.toInt)⟩
  div : IntRow :=
    ⟨fun a b => if b = 0#64 then BitVec.allOnes 64 else BitVec.ofInt 64 (a.toInt.tdiv b.toInt), fun _ b => decide (b = 0#64),
      fun a b => decide (a.toInt = -2 ^ 63 ∧ b.toInt = -1)⟩
  shl : IntRow :=
    ⟨fun a b => shiftedLeft a b.toNat, fun a b => decide (1 ≤ b.toNat ∧ b.toNat ≤ 64) && a.getLsbD (64 - b.toNat), fun _ _ => false⟩
  shr : IntRow :=
    ⟨fun a b => shiftedRight a b.toNat false, fun a b => decide (1 ≤ b.toNat) && a.getLsbD (b.toNat - 1), fun _ _ => false⟩
  sra : IntRow :=
    ⟨fun a b => shiftedRight a b.toNat (a.getLsbD 63),
      fun a b => decide (1 ≤ b.toNat) && (if b.toNat ≤ 64 then a.getLsbD (b.toNat - 1) else a.getLsbD 63), fun _ _ => false⟩

/-- The table of R47: when a condition code holds. -/
def Condition : Nat → Flags → Prop
  | 0, _ => True
  | 1, f => f.z = true
  | 2, f => f.z = false
  | 3, f => f.n ≠ f.v
  | 4, f => f.n = f.v
  | 5, f => f.z = false ∧ f.n = f.v
  | 6, f => f.z = true ∨ f.n ≠ f.v
  | 7, f => f.c = false
  | 8, f => f.c = true
  | _, _ => False

/-- What special register `n` of R218 reads as, for a team of a state; the stray words only in stray mode. -/
def SpecialValue (s : State) (tm : Team) (n : Nat) (x : DWord) : Prop :=
  (n = 0 ∧ x = tm.fx.setWidth 64) ∨ (n = 1 ∧ x = BitVec.ofNat 64 (s.clock (s.place tm))) ∨
  (n = 2 ∧ x = BitVec.ofNat 64 (tm.part + 32 * tm.core + 128 * s.padOf tm)) ∨ (n = 3 ∧ x = BitVec.ofNat 64 (s.ctxOf tm)) ∨
  (n = 4 ∧ x = BitVec.ofNat 64 (tm.held + 65536 * tm.resv)) ∨
  (n = 5 ∧ x = BitVec.ofNat 64 (tm.vregs.length + 65536 * tm.uregs.length)) ∨
  (n = 6 ∧ x = BitVec.ofNat 64 (tm.arms.length + 65536 * tm.calls.length)) ∨
  ((n = 7 ∨ n = 8) ∧ ∀ k, k < 4 → x.extractLsb' (16 * k) 16 = tm.cc.getD (4 * (n - 7) + k) 0#16) ∨
  (∃ fr rest, tm.stray = fr :: rest ∧ ((n = 32 ∧ x = fr.raw0.setWidth 64) ∨ (n = 33 ∧ x = fr.raw1.setWidth 64) ∨
    (n = 34 ∧ x = BitVec.ofNat 64 (fr.sdesc tm.stray.length)) ∨ (n = 35 ∧ x = BitVec.ofNat 64 fr.cap)))

/-! ## Phases (R63-R65, R76) -/

/-- The counts of a kernel's schedule; with none given, one schedule places every team in stage set 0 (R76). -/
def stageCounts (k : Kernel) (c : Nat) : List Nat := k.scheds.getD c [k.teams]

/-- A team index has a rank in a stage set: the stage sets take the indices in order (R76). -/
def InStage (counts : List Nat) (idx st rank : Nat) : Prop := (counts.take st).sum + rank = idx ∧ rank < counts.getD st 0

/-- The time predicted of a stage set with some work to which a schedule gives `n` teams, as a fraction; of denominator 0 where it is
unbounded (R64). -/
def predicted (work n : Nat) : Nat × Nat := if work = 0 then (0, 1) else (work, n)

/-- A predicted time is at most another: unbounded ones are equal to each other and above every finite one (R64). -/
def AtMost (x y : Nat × Nat) : Prop := y.2 = 0 ∨ (x.2 ≠ 0 ∧ x.1 * y.2 ≤ y.1 * x.2)

/-- The largest of the times predicted under one schedule's counts is at most the largest under another's (R64). -/
def CostsAtMost (works a b : List Nat) : Prop :=
  ∀ st, st < 4 → ∃ st', st' < 4 ∧ AtMost (predicted (works.getD st 0) (a.getD st 0)) (predicted (works.getD st' 0) (b.getD st' 0))

/-- The schedule that a phase selects: 0 at a fold's first, else the lowest of those that cost least (R64). -/
def Selects (k : Kernel) (phases : Nat) (works : List Nat) (c : Nat) : Prop :=
  (phases = 0 → c = 0) ∧ (phases ≠ 0 → c < max 1 k.scheds.length ∧ ∀ d, d < max 1 k.scheds.length →
    CostsAtMost works (stageCounts k c) (stageCounts k d) ∧ (d < c → ¬CostsAtMost works (stageCounts k d) (stageCounts k c)))

/-- The work of a stage set: what the teams of its indices have spent, by their indices and cycles (R64). -/
def stageWork (counts : List Nat) (spent : List (Nat × Nat)) (st : Nat) : Nat :=
  ((spent.filter fun x => (counts.take st).sum ≤ x.1 && x.1 < (counts.take (st + 1)).sum).map (·.2)).sum

/-- A register that one field of an instruction can name as its destination. -/
def Names (tm : Team) (r : URef) : Prop := ∃ d : BitVec 7, groupRegs tm [⟨d.toNat, 1⟩] = [r] ∧ OperandsReady tm [] [] [⟨d.toNat, 1⟩]

end Sys2Proof.Machine
end

