-- ==== Sys2Proof/Safety/Engines.lean ====
section
/-!
DEFINITION. Sys2Proof/Safety/Engines.lean: the terms of claims about engine instructions, queues and fold-wide meetings
(11_engine_isa, R211-R222).
-/
namespace Sys2Proof.Machine

/-- The engine instructions: SEQ, block register, counter, and what each adds to the course they share (R265, R267). -/
def engIssueOf : Instr → Option (BitVec 3 × BitVec 10 × BitVec 3 × EngIssue)
  | .mma sq g c => some (sq, g, c, arrIssue .mma c)
  | .mmaJ sq g c => some (sq, g, c, arrIssue .mmaJ c)
  | .mmaR sq g c => some (sq, g, c, arrIssue .mmaR c)
  | .mtrans sq g c => some (sq, g, c, arrIssue .mtrans c)
  | .mperm sq g c => some (sq, g, c, arrIssue .mperm c)
  | .mrsum sq g c => some (sq, g, c, arrIssue .mrsum c)
  | .mzero sq g c => some (sq, g, c, mzeroIssue c)
  | .mdrain sq g c => some (sq, g, c, mdrainIssue c)
  | .wtab sq g c => some (sq, g, c, wtabIssue c)
  | .copy sq g c => some (sq, g, c, copyIssue c)
  | .nsend sq g c => some (sq, g, c, nsendIssue c)
  | .xpost sq g c r => some (sq, g, c, xpostIssue c r.toNat)
  | _ => none

/-- The registers of a block. -/
def engBlock (tm : Team) (g : BitVec 10) (n : Nat) : List DWord := groupUs tm [⟨g.toNat, n⟩]

/-- Does an engine instruction pass the checks of issue: registers full, no pending arm, no fault in its block (R53, R267)? -/
abbrev EngReady (s : State) (fd : Fold) (tm : Team) (g : BitVec 10) (x : EngIssue) : Prop :=
  OperandsReady tm [⟨g.toNat, x.n⟩] [] [] ∧ tm.arms = [] ∧ (x.checks s fd tm (engBlock tm g x.n)).1 = []

/-- The state with the records its block names read for the fold. -/
def engOpened (s : State) (fd : Fold) (tm : Team) (g : BitVec 10) (x : EngIssue) : State :=
  (x.checks s fd tm (engBlock tm g x.n)).2

/-- The state with a counter of the team that issues raised by 1 (R268). -/
def State.counted (s : State) (c : BitVec 3) : State := s.updTeam s.cur fun x => { x with cc := upd x.cc c.toNat (· + 1#16) }

/-- The state in which the team has made queue `n` of its fold's paddock `q'`: a ragged command bound to it may have completed
(R274) and entries may have become eligible (R253); a slot published is a release, and slots taken count as observed by the fold
and are an acquire (R294, R354). -/
def queueNow (s : State) (tm : Team) (fd : Fold) (n : Nat) (q q' : Queue) : State :=
  let s1 := ((s.updPad fd.paddock fun p => { p with queues := upd p.queues n fun _ => q' }).raggedCheck fd.paddock n).dateEntries fd.paddock
  let s2 := if q'.a = q.a ∧ q'.pub = q.pub then s1 else s1.releaseBy tm
  if q'.k ≤ q.k then s2
  else
    (s2.shareRange tm.fold fd ((List.range (q'.k - q.k)).map fun i =>
      (fd.scratchPa (descCore q.desc.toNat) (q.slotOff (q.k + i)), q.size))).acquireBy tm

/-- The team after results in uniform registers, FX and flags otherwise as they were. -/
def uniWritten (tm now : Team) (overlap : Bool) (dsts : List UUse) (vals : List DWord) : Team :=
  now.results overlap (List.zipWith (fun d v => RegWrite.uni d v) (groupRegs tm dsts) vals) [] false

end Sys2Proof.Machine
end

