-- ==== Sys2Proof/Safety/Lanes.lean ====
section
/-!
DEFINITION. Sys2Proof/Safety/Lanes.lean: the terms of claims about lane instructions on registers (05_lane_compute): which they
are, when one issues and completes, and the team it leaves.
-/
namespace Sys2Proof.Machine

/-- The lane instructions that work on registers alone, with their length in bytes and what they take and compute. -/
def laneOpOf : Instr → Option (Nat × (Team → LaneOp))
  | .vaddLa sv d a b wa wb k => some (4, arithOp .add sv d a (.vec b wb) wa k)
  | .vaddLu sv d a g wa wb k => some (4, arithOp .add sv d a (.uni g wb) wa k)
  | .vaddLi sv d a wa k i => some (4, arithOp .add sv d a (imm8 i) wa k)
  | .vaddLx sv d a wa k i => some (8, arithOp .add sv d a (imm32 i) wa k)
  | .vmulLa sv d a b wa wb k => some (4, arithOp .mul sv d a (.vec b wb) wa k)
  | .vmulLu sv d a g wa wb k => some (4, arithOp .mul sv d a (.uni g wb) wa k)
  | .vmulLi sv d a wa k i => some (4, arithOp .mul sv d a (imm8 i) wa k)
  | .vmulLx sv d a wa k i => some (8, arithOp .mul sv d a (imm32 i) wa k)
  | .vsubLa sv d a b wa wb k => some (4, arithOp .sub sv d a (.vec b wb) wa k)
  | .vsubLu sv d a g wa wb k => some (4, arithOp .sub sv d a (.uni g wb) wa k)
  | .vsubLi sv d a wa k i => some (4, arithOp .sub sv d a (imm8 i) wa k)
  | .vminLa sv d a b wa wb k => some (4, arithOp .min sv d a (.vec b wb) wa k)
  | .vminLu sv d a g wa wb k => some (4, arithOp .min sv d a (.uni g wb) wa k)
  | .vminLi sv d a wa k i => some (4, arithOp .min sv d a (imm8 i) wa k)
  | .vmaxLa sv d a b wa wb k => some (4, arithOp .max sv d a (.vec b wb) wa k)
  | .vmaxLu sv d a g wa wb k => some (4, arithOp .max sv d a (.uni g wb) wa k)
  | .vmaxLi sv d a wa k i => some (4, arithOp .max sv d a (imm8 i) wa k)
  | .vmulhiLa sv d a b wa wb k => some (4, arithOp .mulhi sv d a (.vec b wb) wa k)
  | .vmulhiLu sv d a g wa wb k => some (4, arithOp .mulhi sv d a (.uni g wb) wa k)
  | .vdivLa sv d a b wa wb k => some (4, arithOp .div sv d a (.vec b wb) wa k)
  | .vdivLu sv d a g wa wb k => some (4, arithOp .div sv d a (.uni g wb) wa k)
  | .vremLa sv d a b wa wb k => some (4, arithOp .rem sv d a (.vec b wb) wa k)
  | .vremLu sv d a g wa wb k => some (4, arithOp .rem sv d a (.uni g wb) wa k)
  | .vmadVectorC sv d a b wa wb k c wc => some (8, gen3 sv d a b (.vec c wc) wa wb k madLane)
  | .vmadUniformC sv d a b wa wb k c wc => some (8, gen3 sv d a b (.uni c wc) wa wb k madLane)
  | .vclampVectorC sv d a b wa wb k c wc => some (8, gen3 sv d a b (.vec c wc) wa wb k clampLane)
  | .vclampUniformC sv d a b wa wb k c wc => some (8, gen3 sv d a b (.uni c wc) wa wb k clampLane)
  | .vabs sv d a wa k => some (4, gen1 sv d a wa k (fun _ => true) (unLane .abs))
  | .vneg sv d a wa k => some (4, gen1 sv d a wa k (fun _ => true) (unLane .neg))
  | .vsat sv d a wa k => some (4, gen1 sv d a wa k (fun _ => true) (unLane .sat))
  | .vandLa d a b wa wb k => some (4, fun _ => free2 d a (.vec b wb) wa k fun x y => x &&& y)
  | .vandLu d a g wa wb k => some (4, fun _ => free2 d a (.uni g wb) wa k fun x y => x &&& y)
  | .vandLx d a wa k i => some (8, fun _ => free2 d a (.imm fun _ => i.toNat) wa k fun x y => x &&& y)
  | .vorLa d a b wa wb k => some (4, fun _ => free2 d a (.vec b wb) wa k fun x y => x ||| y)
  | .vorLu d a g wa wb k => some (4, fun _ => free2 d a (.uni g wb) wa k fun x y => x ||| y)
  | .vorLx d a wa k i => some (8, fun _ => free2 d a (.imm fun _ => i.toNat) wa k fun x y => x ||| y)
  | .vxorLa d a b wa wb k => some (4, fun _ => free2 d a (.vec b wb) wa k fun x y => x ^^^ y)
  | .vxorLu d a g wa wb k => some (4, fun _ => free2 d a (.uni g wb) wa k fun x y => x ^^^ y)
  | .vxorLx d a wa k i => some (8, fun _ => free2 d a (.imm fun _ => i.toNat) wa k fun x y => x ^^^ y)
  | .vnot d a wa k => some (4, fun _ => free1 d a wa k fun x => ~~~ x)
  | .vshlLa d a b wa wb k => some (4, fun _ => free2 d a (.vec b wb) wa k fun x y => shlW x y.toNat)
  | .vshlLi d a wa k i => some (4, fun _ => free2 d a (amount i) wa k fun x y => shlW x y.toNat)
  | .vshrLa d a b wa wb k => some (4, fun _ => free2 d a (.vec b wb) wa k fun x y => shrW x y.toNat)
  | .vshrLi d a wa k i => some (4, fun _ => free2 d a (amount i) wa k fun x y => shrW x y.toNat)
  | .vsraLa d a b wa wb k => some (4, fun _ => free2 d a (.vec b wb) wa k fun x y => sraW x y.toNat)
  | .vsraLi d a wa k i => some (4, fun _ => free2 d a (amount i) wa k fun x y => sraW x y.toNat)
  | .vrotLa d a b wa wb k => some (4, fun _ => free2 d a (.vec b wb) wa k fun x y => rotW x y.toNat)
  | .vrotLi d a wa k i => some (4, fun _ => free2 d a (amount i) wa k fun x y => rotW x y.toNat)
  | .vpopc d a wa k => some (4, fun _ => free1 d a wa k fun x => wordOfNat (popcW x))
  | .vclz d a wa k => some (4, fun _ => free1 d a wa k fun x => wordOfNat (clzW x))
  | .vbrev d a wa k => some (4, fun _ => free1 d a wa k brevW)
  | .vbfx d a wa k pos len => some (8, fun _ => free1 d a wa k fun x => bfxW x pos.toNat len.toNat)
  | .vbfi d a b wa wb k pos len => some (8, fun _ => free2 d a (.vec b wb) wa k fun x y => bfiW x y pos.toNat len.toNat)
  | .vsqrt sv d a wa k => some (4, gen1 sv d a wa k Ty.isFlt (funLane .sqrt))
  | .vrcp sv d a wa k => some (4, gen1 sv d a wa k Ty.isFlt (funLane .rcp))
  | .vrsq sv d a wa k => some (4, gen1 sv d a wa k Ty.isFlt (funLane .rsq))
  | .vexp2 sv d a wa k => some (4, gen1 sv d a wa k Ty.isFlt (funLane .exp2))
  | .vlog2 sv d a wa k => some (4, gen1 sv d a wa k Ty.isFlt (funLane .log2))
  | .vcvt sv d a t wa k => some (4, cvtOp sv d a t wa k)
  | .vpack d a b wa wb k => some (4, packOp d a b wa wb k)
  | .vunpk d a e t wa k => some (4, fun _ => unpkOp d a e t wa k)
  | .vsplitVector sv d a b wa wb k cond => some (8, splitOp sv d a (.vec b wb) wa k cond.toNat)
  | .vsplitUniform sv d a g wa wb k cond => some (8, splitOp sv d a (.uni g wb) wa k cond.toNat)
  | .vsplitImmediate sv d a wa k cond i => some (8, splitOp sv d a (splitImm cond.toNat i) wa k cond.toNat)
  | .vmerge d a b wa wb k => some (4, fun _ => mergeOp d a b wa wb k)
  | .vmask d a b wa wb k => some (4, fun _ => maskOp d a b wa wb k)
  | .vcompress d a wa k => some (4, fun _ => compressOp d a wa k)
  | .vexpand d a b wa wb k => some (4, fun _ => expandOp d a b wa wb k)
  | .vfillLu d a g wa wb => some (4, fun _ => fillOp d a [usrc g wb] wa fun us => (us.headD 0#64).toNat % 2 ^ 32)
  | .vfillLx d a wa i => some (8, fun _ => fillOp d a [] wa fun _ => i.toNat)
  | .vfirstLu d a g wa wb k => some (4, fun _ => firstOp d a [usrc g wb] wa k fun us => (us.headD 0#64).toNat)
  | .vfirstLi d a wa k n => some (4, fun _ => firstOp d a [] wa k fun _ => n.toNat)
  | .vlane d => some (4, fun _ => reshape [] [] d false fun w _ _ => (List.range w).map some)
  | .vmov d a wa k => some (4, fun _ => reshape [vsrc1 a wa] [] d k fun _ vals _ => vals.getD 0 [])
  | .vkey d a wa k => some (4, fun _ => free1 d a wa k keyW)
  | .vbcastLu d a g wa wb k => some (4, fun _ => bcastOp d a [usrc g wb] wa k fun us => (us.headD 0#64).toNat)
  | .vbcastLi d a wa k n => some (4, fun _ => bcastOp d a [] wa k fun _ => n.toNat)
  | .vperm d a b wa wb k => some (4, fun _ => permOp d a b wa wb k fun _ x => x)
  | .vshflLa d a b wa wb k => some (4, fun _ => permOp d a b wa wb k fun j x => j ^^^ x)
  | .vshflLi d a wa k n => some (4, fun _ => shflImmOp d a wa k n.toNat)
  | .vscanAdd sv d a wa k => some (4, scanOp .add false sv d a wa k)
  | .vscanMin sv d a wa k => some (4, scanOp .min false sv d a wa k)
  | .vscanMax sv d a wa k => some (4, scanOp .max false sv d a wa k)
  | .vscanAddX sv d a wa k => some (4, scanOp .add true sv d a wa k)
  | .vscanMinX sv d a wa k => some (4, scanOp .min true sv d a wa k)
  | .vscanMaxX sv d a wa k => some (4, scanOp .max true sv d a wa k)
  | .vsad sv d a b wa wb k => some (4, pixOp .sad sv d a b wa wb k)
  | .vavg sv d a b wa wb k => some (4, pixOp .avg sv d a b wa wb k)
  | .vdot4 sv d a b wa wb => some (4, dotOp .dot4 sv d a b wa wb)
  | .vdot2 sv d a b wa wb => some (4, dotOp .dot2 sv d a b wa wb)
  | _ => none

/-- The vector registers that the sources of a lane instruction name. -/
def laneSrcs (tm : Team) (op : LaneOp) : List (Refs VRef) := op.srcs.map fun x => tm.vrefs x.f x.n x.align
/-- The uniform operands. -/
def laneUnis (tm : Team) (op : LaneOp) : List (Refs UOpnd) := op.unis.map fun x => tm.uref x.f false
/-- The vector registers of the destinations. -/
def laneDsts (tm : Team) (op : LaneOp) : List (Refs VRef) := op.dsts.map fun x => (tm.vrefs x.f x.n x.align).written

/-- Must the instruction wait (R27, R28): a destination is empty, or a source whose wait bit is clear? -/
def laneHeld (tm : Team) (op : LaneOp) : Bool :=
  ((op.srcs.zip (laneSrcs tm op)).any fun p => !p.1.wait && !p.2.regs.all fun r => (tm.getV r).full) ||
  ((op.unis.zip (laneUnis tm op)).any fun p => !p.1.wait && !p.2.regs.all tm.opndFull) ||
  (laneDsts tm op).any fun d => !d.regs.all fun r => (tm.getV r).full

/-- The wait for the registers that hold the instruction back and are not full. -/
def laneAwait (tm : Team) (op : LaneOp) : Wait :=
  tm.await ((((op.srcs.zip (laneSrcs tm op)).filter fun p => !p.1.wait).map (·.2.regs)).flatten ++ ((laneDsts tm op).map (·.regs)).flatten)
    (((op.unis.zip (laneUnis tm op)).filter fun p => !p.1.wait).map (·.2.regs)).flatten

/-- Is a source whose wait bit is set empty (R28)? -/
def laneEmptied (tm : Team) (op : LaneOp) : Bool :=
  ((op.srcs.zip (laneSrcs tm op)).any fun p => p.1.wait && !p.2.regs.all fun r => (tm.getV r).full) ||
  (op.unis.zip (laneUnis tm op)).any fun p => p.1.wait && !p.2.regs.all tm.opndFull

/-- The lanes of each source. -/
def laneVals (tm : Team) (op : LaneOp) : List (List (Option Nat)) :=
  (laneSrcs tm op).map fun r => groupLanes tm.w (r.regs.map tm.getV)

/-- The values of the uniform operands. -/
def laneUs (tm : Team) (op : LaneOp) : List DWord := (laneUnis tm op).map fun r => (r.regs.map tm.opnd).headD 0#64

/-- The causes that the fields raise: allotment, pair alignment, windows (R36, R26, R397). -/
def laneRegCauses (tm : Team) (op : LaneOp) : List Nat :=
  ((laneSrcs tm op).map (·.causes)).flatten ++ ((laneUnis tm op).map (·.causes)).flatten ++
    ((laneDsts tm op).map (·.causes)).flatten

/-- The lanes of the sources of one use whose fields name registers. -/
def laneNamed (tm : Team) (op : LaneOp) (u : SrcUse) : List (List (Option Nat)) :=
  (((op.srcs.map (·.use)).zip ((laneSrcs tm op).zip (laneVals tm op))).filter fun p => p.1 == u && !p.2.1.regs.isEmpty).map (·.2.2)

/-- The causes raised together at issue (R113): registers, type, an empty source, and under STRICT the maps. -/
def laneCauses (tm : Team) (op : LaneOp) : List Nat :=
  laneRegCauses tm op ++ causeIf (!op.typed) 0x0E ++ causeIf (laneEmptied tm op) 0x06 ++
    causeIf ((fmtEnv tm.fmt).strict && mapsDiffer (laneNamed tm op .value)) 0x07 ++
    causeIf ((fmtEnv tm.fmt).strict && mapsOverlap (laneNamed tm op .merge)) 0x08

/-- What the instruction computes. -/
def laneRes (tm : Team) (op : LaneOp) : LaneResult := op.sem tm.w (laneVals tm op) (laneUs tm op)

/-- The poisoned lanes it reads; a poisoned uniform operand brings its poison to every lane of I (R460). -/
def lanePoison (tm : Team) (op : LaneOp) : List (Nat × Poison) :=
  poisonMet tm ((laneSrcs tm op).map (·.regs)) (op.srcs.map (·.use)) (laneVals tm op) (laneRes tm op).read ++
    poisonUni tm tm.w ((laneUnis tm op).map (·.regs)).flatten (op.srcs.map (·.use)) (laneVals tm op)

/-- Its register writes. -/
def laneWrites (tm : Team) (op : LaneOp) : List RegWrite :=
  ((dstParts op.dsts ((laneDsts tm op).map (·.regs))).zipWith (dstWrites tm op.keep) (laneRes tm op).outs).flatten

/-- Does the instruction issue and complete: nothing holds it, no cause is raised, no poison is read, under FXT no lane
raises the invalid flag, and its slots are free (R27, R28, R42, R113, R460)? -/
abbrev LaneReady (tm : Team) (e : Env) (op : LaneOp) : Prop :=
  laneHeld tm op = false ∧ laneCauses tm op = [] ∧ lanePoison tm op = [] ∧
    ((fmtEnv tm.fmt).fxt = true → (laneRes tm op).nv = []) ∧ slotsDrawn tm (laneWrites tm op) ≤ e.slots

/-- The team after it: its results and FX flags written, at the next instruction (R46), retired. -/
def laneDone (tm : Team) (e : Env) (len : Nat) (op : LaneOp) : Team :=
  (({ tm.results e.overlap (laneWrites tm op) [] false with fx := tm.fx ||| (laneRes tm op).fx }).goto
    (tm.pc.toNat + len)).retired e

/-! ## What single instructions compute, as the spec's tables give it -/

/-- A second operand of a 32-bit lane instruction: a vector register, bits 31:0 of a uniform register (R114), or a constant. -/
inductive LaneArg where
  | vec (f : BitVec 7)
  | uni (f : BitVec 7)
  | imm (x : Word)
  deriving DecidableEq, Repr

/-- The value a second operand gives lane `j`. -/
def LaneArg.lane (b : LaneArg) (tm : Team) (j : Nat) : Option Word :=
  match b with
  | .vec f => (tm.getV ((tm.vrefs f.toNat 1 1).regs.headD (.team 0))).lanes.getD j none
  | .uni f => some ((tm.opnd ((tm.uref f.toNat false).regs.headD (.value 0#64))).setWidth 32)
  | .imm x => some x

/-- vadd, vsub and vmul: slot, destination, first source, second operand, keep form, function of two words. -/
def wrapRow : Instr → Option (Bool × BitVec 7 × BitVec 7 × LaneArg × Bool × (Word → Word → Word))
  | .vaddLa sv d a b _ _ k => some (sv, d, a, .vec b, k, fun x y => x + y)
  | .vaddLu sv d a g _ _ k => some (sv, d, a, .uni g, k, fun x y => x + y)
  | .vaddLi sv d a _ k i => some (sv, d, a, .imm (i.signExtend 32), k, fun x y => x + y)
  | .vaddLx sv d a _ k i => some (sv, d, a, .imm i, k, fun x y => x + y)
  | .vsubLa sv d a b _ _ k => some (sv, d, a, .vec b, k, fun x y => x - y)
  | .vsubLu sv d a g _ _ k => some (sv, d, a, .uni g, k, fun x y => x - y)
  | .vsubLi sv d a _ k i => some (sv, d, a, .imm (i.signExtend 32), k, fun x y => x - y)
  | .vmulLa sv d a b _ _ k => some (sv, d, a, .vec b, k, fun x y => x * y)
  | .vmulLu sv d a g _ _ k => some (sv, d, a, .uni g, k, fun x y => x * y)
  | .vmulLi sv d a _ k i => some (sv, d, a, .imm (i.signExtend 32), k, fun x y => x * y)
  | .vmulLx sv d a _ k i => some (sv, d, a, .imm i, k, fun x y => x * y)
  | _ => none

/-- Bits `hi` to `lo` of `r` are bits `hi'` down of `x`, and the other bits of `r` are those of `y`. -/
def FieldOf (x y r : Word) (xlo rlo len : Nat) : Prop :=
  ∀ k, k < 32 → r.getLsbD k = if rlo ≤ k ∧ k < rlo + len then x.getLsbD (xlo + (k - rlo)) else y.getLsbD k

/-- The table of R127: destination, source, second operand (a constant the function does not read where there is none),
keep form, and the result that a lane and the second operand's lane determine. -/
def bitRow : Instr → Option (BitVec 7 × BitVec 7 × LaneArg × Bool × (Word → Word → Word → Prop))
  | .vandLa d a b _ _ k => some (d, a, .vec b, k, fun x y r => r = x &&& y)
  | .vandLu d a g _ _ k => some (d, a, .uni g, k, fun x y r => r = x &&& y)
  | .vandLx d a _ k i => some (d, a, .imm i, k, fun x y r => r = x &&& y)
  | .vorLa d a b _ _ k => some (d, a, .vec b, k, fun x y r => r = x ||| y)
  | .vorLu d a g _ _ k => some (d, a, .uni g, k, fun x y r => r = x ||| y)
  | .vorLx d a _ k i => some (d, a, .imm i, k, fun x y r => r = x ||| y)
  | .vxorLa d a b _ _ k => some (d, a, .vec b, k, fun x y r => r = x ^^^ y)
  | .vxorLu d a g _ _ k => some (d, a, .uni g, k, fun x y r => r = x ^^^ y)
  | .vxorLx d a _ k i => some (d, a, .imm i, k, fun x y r => r = x ^^^ y)
  | .vnot d a _ k => some (d, a, .imm 0#32, k, fun x _ r => r = ~~~x)
  | .vshlLa d a b _ _ k => some (d, a, .vec b, k, Left)
  | .vshlLi d a _ k i => some (d, a, .imm (i.setWidth 32), k, Left)
  | .vshrLa d a b _ _ k => some (d, a, .vec b, k, Right)
  | .vshrLi d a _ k i => some (d, a, .imm (i.setWidth 32), k, Right)
  | .vsraLa d a b _ _ k => some (d, a, .vec b, k, Arith)
  | .vsraLi d a _ k i => some (d, a, .imm (i.setWidth 32), k, Arith)
  | .vrotLa d a b _ _ k => some (d, a, .vec b, k, Rot)
  | .vrotLi d a _ k i => some (d, a, .imm (i.setWidth 32), k, Rot)
  | .vpopc d a _ k => some (d, a, .imm 0#32, k, fun x _ r => r.toNat = (List.range 32).countP fun n => x.getLsbD n)
  | .vclz d a _ k => some (d, a, .imm 0#32, k, fun x _ r =>
      r.toNat ≤ 32 ∧ (∀ n, n < r.toNat → x.getLsbD (31 - n) = false) ∧ (r.toNat < 32 → x.getLsbD (31 - r.toNat) = true))
  | .vbrev d a _ k => some (d, a, .imm 0#32, k, fun x _ r => ∀ n, n < 32 → r.getLsbD n = x.getLsbD (31 - n))
  | .vbfx d a _ k pos len => some (d, a, .imm 0#32, k, fun x _ r => FieldOf x 0#32 r pos.toNat 0 len.toNat)
  | .vbfi d a b _ _ k pos len => some (d, a, .vec b, k, fun x y r => FieldOf x y r 0 pos.toNat len.toNat)
  | _ => none
where
  Left (x y r : Word) : Prop := ∀ n, n < 32 → r.getLsbD n = (decide (y.toNat ≤ n) && x.getLsbD (n - y.toNat))
  Right (x y r : Word) : Prop := ∀ n, n < 32 → r.getLsbD n = (decide (n + y.toNat < 32) && x.getLsbD (n + y.toNat))
  Arith (x y r : Word) : Prop :=
    ∀ n, n < 32 → r.getLsbD n = if n + y.toNat < 32 then x.getLsbD (n + y.toNat) else x.getLsbD 31
  Rot (x y r : Word) : Prop := ∀ n, n < 32 → r.getLsbD ((n + y.toNat) % 32) = x.getLsbD n

/-- Lane instructions that move values: destination, field a, field b, and lane `j` of the new set from W, the lanes of va,
the lanes of vb and the uniform value of field b. -/
def moveRow : Instr →
    Option (BitVec 7 × BitVec 7 × BitVec 7 × (Nat → (Nat → Option Word) → (Nat → Option Word) → DWord → Nat → Option Word))
  | .vmov d a _ _ => some (d, a, 0#7, fun _ A _ _ j => A j)
  | .vmask d a b _ _ _ => some (d, a, b, fun _ A B _ j => if (B j).isSome then A j else none)
  | .vmerge d a b _ _ _ => some (d, a, b, fun _ A B _ j => if (A j).isSome then A j else B j)
  | .vlane d => some (d, 0#7, 0#7, fun _ _ _ _ j => some (wordOfNat j))
  | .vcompress d a _ _ => some (d, a, 0#7, fun w A _ _ j => ((List.range w).filterMap A)[j]?)
  | .vexpand d a b _ _ _ => some (d, a, b, fun w A B _ j =>
      if (B j).isSome then ((List.range w).filterMap A)[(List.range j).countP fun n => (B n).isSome]? else none)
  | .vfirstLu d a g _ _ _ => some (d, a, g, fun _ A _ u j => if (List.range j).countP (fun n => (A n).isSome) < u.toNat then A j else none)
  | .vfirstLi d a _ _ m => some (d, a, 0#7, fun _ A _ _ j => if (List.range j).countP (fun n => (A n).isSome) < m.toNat then A j else none)
  | .vfillLu d a g _ _ => some (d, a, g, fun _ A _ u j => if (A j).isSome then A j else some (u.setWidth 32))
  | .vfillLx d a _ i => some (d, a, 0#7, fun _ A _ _ j => if (A j).isSome then A j else some i)
  | .vbcastLu d a g _ _ _ => some (d, a, g, fun w A _ u j => if (A j).isSome ∧ u.toNat < w then A u.toNat else none)
  | .vbcastLi d a _ _ n => some (d, a, 0#7, fun w A _ _ j => if (A j).isSome ∧ n.toNat < w then A n.toNat else none)
  | .vperm d a b _ _ _ => some (d, a, b, fun w A B _ j => (B j).bind fun x => if x.toNat < w then A x.toNat else none)
  | .vshflLa d a b _ _ _ =>
    some (d, a, b, fun w A B _ j => (B j).bind fun x => if j ^^^ x.toNat < w then A (j ^^^ x.toNat) else none)
  | .vshflLi d a _ _ n => some (d, a, 0#7, fun w A _ _ j => if j ^^^ n.toNat < w then A (j ^^^ n.toNat) else none)
  | _ => none

end Sys2Proof.Machine
end

