-- ==== Sys2Proof/Safety/Memory.lean ====
section
/-!
DEFINITION. Sys2Proof/Safety/Memory.lean: the terms of claims about memory instructions (06_lane_memory, R199-R202): which they are,
when their operands and record are there, and what they read and write.
-/
namespace Sys2Proof.Machine

/-! ## Lane loads, stores, atomics and prefetch on records -/

/-- The lane memory instructions on records. -/
def memOpOf : Instr → Option MemOp
  | .vld d i g wa k => some (.load d i g wa k 1)
  | .vldR d i g wa k => some { MemOp.load d i g wa k 1 with miss := true }
  | .vst s i g wa wb => some (.store s i g wa wb 1)
  | .vldwX2 d i g wa k => some (.load d i g wa k 2)
  | .vldwX4 d i g wa k => some (.load d i g wa k 4)
  | .vstwX2 s i g wa wb => some (.store s i g wa wb 2)
  | .vstwX4 s i g wa wb => some (.store s i g wa wb 4)
  | .vldAcq d i g wa k sc => some { MemOp.load d i g wa k 1 with len := 8, scope := sc.toNat }
  | .vstRel s i g wa wb sc => some { MemOp.store s i g wa wb 1 with len := 8, scope := sc.toNat }
  | .vatomAdd s i g wa wb k sc ret => some (.atom .add false s i g wa wb k ret sc)
  | .vatomMin s i g wa wb k sc ret u => some (.atom .min u s i g wa wb k ret sc)
  | .vatomMax s i g wa wb k sc ret u => some (.atom .max u s i g wa wb k ret sc)
  | .vatomAnd s i g wa wb k sc ret => some (.atom .and false s i g wa wb k ret sc)
  | .vatomOr s i g wa wb k sc ret => some (.atom .or false s i g wa wb k ret sc)
  | .vatomXor s i g wa wb k sc ret => some (.atom .xor false s i g wa wb k ret sc)
  | .vatomXchg s i g wa wb k sc ret => some (.atom .xchg false s i g wa wb k ret sc)
  | .vatomCas s i g wa wb k sc ret => some (.atom .cas false s i g wa wb k ret sc)
  | .vpref i g wa => some { MemOp.load 0#7 i g wa false 1 with kind := .pref }
  | _ => none

/-- The index register. -/
def memIndex (tm : Team) (m : MemOp) : Refs VRef := tm.vrefs m.i.toNat 1 1
/-- The register of the handle. -/
def memHandleRef (tm : Team) (m : MemOp) : Refs UOpnd := tm.uref m.g.toNat false
/-- The record handle. -/
def memHandle (tm : Team) (m : MemOp) : Nat := (((memHandleRef tm m).regs.map tm.opnd).headD 0#64).toNat
/-- The registers of the data field, which the record's element size gives (R168, R172, R176, R178). -/
def memData (tm : Team) (m : MemOp) (r : Rec) : Refs VRef :=
  if m.kind == .pref then ⟨[], []⟩ else m.given (tm.vrefs m.d.toNat (m.shape r.size).1 (m.shape r.size).2)
/-- Does the instruction read its data field? -/
def memReads (m : MemOp) : Bool := m.kind == .store || m.kind == .atom
/-- The registers it reads: the index, and the data of a store or an atomic. -/
def memSources (tm : Team) (m : MemOp) (r : Rec) : List VRef :=
  (memIndex tm m).regs ++ if memReads m then (memData tm m r).regs else []

/-- Are the operands and the record there: fields named and full, a valid record whose access and width allow the
instruction, equal maps under STRICT, and no poison among the sources (R113, R159-R161, R166, R460)? -/
abbrev MemReady (s : State) (fd : Fold) (tm : Team) (m : MemOp) (r : Rec) (keep : Option (List DWord)) : Prop :=
  (memIndex tm m).causes = [] ∧ (memHandleRef tm m).causes = [] ∧ (memData tm m r).causes = [] ∧
  (m.kind ≠ .pref → (m.given (tm.vrefs m.d.toNat 1 1)).causes = [] ∧
    ((m.given (tm.vrefs m.d.toNat 1 1)).regs.all fun x => (tm.getV x).full) = true) ∧
  (((memIndex tm m).regs ++ (memData tm m r).regs).all fun x => (tm.getV x).full) = true ∧
  (memHandleRef tm m).regs.all (fun u => tm.opndFull u && (tm.opndPoison u).isNone) = true ∧
  s.useRec (s.tlbOf tm) fd (memHandle tm m) = .ok r keep ∧ m.recFaults r = [] ∧
  ((fmtEnv tm.fmt).strict = true →
    mapsDiffer ((memSources tm m r).map fun x => (tm.getV x).lanes.map (Option.map BitVec.toNat)) = false) ∧
  ∀ x ∈ memSources tm m r, (tm.getV x).poison = []

/-- The state after the record has been read for the fold, with the translation that took (R159, R433). -/
def memBegun (s : State) (tm : Team) (m : MemOp) (keep : Option (List DWord)) : State :=
  s.keepRec (s.tlbOf tm) tm.fold (memHandle tm m) keep

/-- The lanes of I with their indexes (R164): those of the index register, and of every data register that is read. -/
def memLanes (tm : Team) (m : MemOp) (r : Rec) : List (Nat × Nat) :=
  if m.kind == .pref && !r.mayRead then []
  else (List.range tm.w).filterMap fun j =>
    match (tm.getV ((memIndex tm m).regs.headD (.team 0))).lanes.getD j none with
    | some x =>
      if memReads m && !(memData tm m r).regs.all fun y => ((tm.getV y).lanes.getD j none).isSome then none
      else some (j, x.toNat)
    | none => none

/-- What becomes of each lane (R164-R166). -/
def memFates (s : State) (fd : Fold) (tm : Team) (m : MemOp) (r : Rec) : List (Nat × Nat × LaneFate) :=
  (memLanes tm m r).map fun x => (x.1, x.2, s.laneFate (s.tlbOf tm) fd.ctx r m.kind m.n x.2)

/-- The state with the translations of the lanes in bounds held. -/
def memFetched (s : State) (fd : Fold) (tm : Team) (m : MemOp) (r : Rec) : State :=
  s.tlbFills (s.tlbOf tm) fd.ctx (r.touched m.n ((memLanes tm m r).map (·.2)))

/-- The register writes of a load: per data register the words of its lanes' bytes, zeros in the lanes vld.r missed, and
vld.r's miss register with their indexes (R170, R176). -/
def loadWrites (tm : Team) (m : MemOp) (r : Rec) (fates : List (Nat × Nat × LaneFate)) (vals : List (Nat × List Byte)) :
    List RegWrite :=
  let missing := (fates.filter fun x => x.2.2 == .missing).map fun x => (x.1, x.2.1)
  let regs := (memData tm m r).regs
  let k := regs.length - if m.miss then 1 else 0
  let zeros := if m.miss then missing.map fun x => (x.1, List.replicate (m.n * r.size) (0#8 : Byte)) else []
  colWrites tm m.keep (regs.take k) ((List.range k).map (colLanes tm.w (zeros ++ vals))) ++
    colWrites tm m.keep (regs.drop k)
      (if m.miss then [(List.range tm.w).map fun j => (missing.lookup j).map wordOfNat] else [])

/-- The team after a memory instruction. -/
def memTeam (tm : Team) (e : Env) (m : MemOp) (ws : List RegWrite) (lines : List LoadLine) : Team :=
  ((tm.results e.overlap ws lines m.strong).goto (tm.pc.toNat + m.len)).retired e

/-- The state in which the data of a load's lanes is read: an acquire has dropped what the core's L1 held clean (R323, R354), and the plain
lines of coded blocks have left it (R322). -/
def memSeen (s : State) (tm : Team) (m : MemOp) (r : Rec) (ok : List (Nat × Nat × List Piece)) : State :=
  (if m.strong then s.acquireBy tm else s).opens (s.coreOf tm) r ok

/-- The state in which a store writes: a release has written back what the core's L1 held dirty (R323, R354). -/
def memOpen (s : State) (tm : Team) (m : MemOp) : State := if m.strong then s.releaseBy tm else s

/-- A core's store of lanes to a plain record: units replaced whole lose their poison once they are in memory (R166, R322). -/
def memStored (s : State) (core : Nat) (comp through : Bool) (xs : List (List (Nat × Nat) × List Byte)) : State :=
  if through then (s.writeLanes core comp true xs).clearPoison (xs.map (·.1)).flatten else s.writeLanes core comp false xs

/-- The bytes a lane stores. -/
def storeBytes (tm : Team) (m : MemOp) (r : Rec) (j : Nat) : List Byte :=
  laneBytes ((memData tm m r).regs.map tm.getV) j (m.n * r.size)

/-- The stores to blocks that lanes make. -/
def memBlocks (tm : Team) (m : MemOp) (r : Rec) (ok : List (Nat × Nat × List Piece)) : List BlockStore :=
  groupBlocks (ok.map fun x => (List.range x.2.2.length).map fun q =>
    (x.2.2.getD q ⟨true, 0, [], false⟩, numOf (((storeBytes tm m r x.1).drop (8 * q)).take 8))).flatten

/-- The runs of physical bytes of a lane. -/
def laneRuns (x : Nat × Nat × List Piece) : List (Nat × Nat) := (x.2.2.map (·.segs)).flatten

/-- The operands of a lane's atomic: the value, and cas's new value (R179). -/
def atomValue (tm : Team) (m : MemOp) (r : Rec) (j q : Nat) : Nat :=
  numOf (((laneBytes ((memData tm m r).regs.map tm.getV) j (2 * r.size)).drop (r.size * q)).take r.size)

/-- The registers an atomic with ret returns its old values in. -/
def atomDest (tm : Team) (m : MemOp) (r : Rec) : List VRef :=
  (memData tm m r).regs.take (if m.op == .cas then (memData tm m r).regs.length / 2 else (memData tm m r).regs.length)

/-- Its register writes for the old values of lanes. -/
def atomWrites (tm : Team) (m : MemOp) (r : Rec) (vals : List (Nat × List Byte)) : List RegWrite :=
  if m.ret then colWrites tm m.keep (atomDest tm m r) ((List.range (atomDest tm m r).length).map (colLanes tm.w vals)) else []

/-! ## Scratch and the accumulator store (R184-R188) -/

/-- The lane instructions on scratch and the accumulator store. -/
def storeOpOf : Instr → Option StoreOp
  | .vlds d i g wa k => some ⟨i, wa, g, d, false, false, false, false, k⟩
  | .vsts s i g wa wb => some ⟨i, wa, g, s, wb, true, false, false, false⟩
  | .vbld d i g wa k => some ⟨i, wa, g, d, false, false, false, true, k⟩
  | .vldacc d i g wa k => some ⟨i, wa, g, d, false, false, true, false, k⟩
  | .vstacc s i g wa wb => some ⟨i, wa, g, s, wb, true, true, false, false⟩
  | _ => none

/-- The descriptor of such an instruction (R184). -/
def storeDesc (tm : Team) (m : StoreOp) : Nat := (((tm.uref m.g.toNat false).regs.map tm.opnd).headD 0#64).toNat
/-- The data registers its width gives. -/
def storeRegs (tm : Team) (m : StoreOp) : Refs VRef :=
  let x := tm.vrefs m.d.toNat (widthRegs (storeDesc tm m)) (widthRegs (storeDesc tm m))
  if m.store then x else x.written
/-- The index register's lanes. -/
def storeIndex (tm : Team) (m : StoreOp) : VReg := tm.getV ((tm.vrefs m.i.toNat 1 1).regs.headD (.team 0))
/-- The lanes and their byte offsets in the allocation. -/
def storeLanes (tm : Team) (m : StoreOp) : List (Nat × Nat) :=
  m.offsets tm.w (descOff (storeDesc tm m)) (storeIndex tm m).lanes ((storeRegs tm m).regs.map fun x => (tm.getV x).lanes)
/-- The allocations and the physical address of an offset. -/
def storePa (fd : Fold) (tm : Team) (m : StoreOp) (off : Nat) : Nat :=
  if m.acc then fd.accPa (descCore (storeDesc tm m)) off else fd.scratchPa (descCore (storeDesc tm m)) off

/-- Does such an instruction go through: fields named and full, a descriptor without reserved values, every lane aligned to its
element and inside the fold's allocation (R185-R187), equal maps under STRICT, no poison? -/
abbrev StoreReady (fd : Fold) (tm : Team) (m : StoreOp) : Prop :=
  (tm.vrefs m.i.toNat 1 1).causes = [] ∧ (tm.uref m.g.toNat false).causes = [] ∧ (storeRegs tm m).causes = [] ∧
  (((tm.vrefs m.i.toNat 1 1).regs ++ (storeRegs tm m).regs).all fun x => (tm.getV x).full && (tm.getV x).poison.isEmpty) = true ∧
  (tm.uref m.g.toNat false).regs.all (fun u => tm.opndFull u && (tm.opndPoison u).isNone) = true ∧
  bitsOf (storeDesc tm m) 61 34 = 0 ∧ bitsOf (storeDesc tm m) 63 62 ≠ 3 ∧
  ((fmtEnv tm.fmt).strict = true → mapsDiffer (((storeIndex tm m).lanes ::
    (if m.store then (storeRegs tm m).regs.map fun x => (tm.getV x).lanes else [])).map (List.map (Option.map BitVec.toNat))) = false) ∧
  ∀ x ∈ storeLanes tm m, x.2 % (4 * widthRegs (storeDesc tm m)) = 0 ∧
    inAlloc (if m.acc then fd.acc else fd.scratch) (descCore (storeDesc tm m)) x.2 (4 * widthRegs (storeDesc tm m)) = true

/-! ## Uniform loads, stores and atomics (R199-R202) -/

/-- The uniform memory instructions. -/
def gmemOf : Instr → Option GMem
  | .gldGa sq d a b => some (gldst .load sq d a (.reg b))
  | .gldGi sq d a i => some (gldst .load sq d a (.imm i))
  | .gstGa sq s a b => some (gldst .store sq s a (.reg b))
  | .gstGi sq s a i => some (gldst .store sq s a (.imm i))
  | .gatomAdd sq d a b c sc ret => some (gatomOf .add false sq d a b c sc ret)
  | .gatomMin sq d a b c sc ret u => some (gatomOf .min u sq d a b c sc ret)
  | .gatomMax sq d a b c sc ret u => some (gatomOf .max u sq d a b c sc ret)
  | .gatomAnd sq d a b c sc ret => some (gatomOf .and false sq d a b c sc ret)
  | .gatomOr sq d a b c sc ret => some (gatomOf .or false sq d a b c sc ret)
  | .gatomXor sq d a b c sc ret => some (gatomOf .xor false sq d a b c sc ret)
  | .gatomXchg sq d a b c sc ret => some (gatomOf .xchg false sq d a b c sc ret)
  | .gatomCas sq d a b c sc ret => some (gatomOf .cas false sq d a b c sc ret)
  | _ => none

/-- The register fields such an instruction reads at issue: the handle, the index, a store's data, an atomic's operand. -/
def gmemUses (m : GMem) : List UUse :=
  [⟨m.a.toNat, 1⟩] ++ (match m.i with | .reg f => [⟨f.toNat, 1⟩] | .imm _ => []) ++
    (if m.kind == .store then [⟨m.d.toNat, 1⟩] else []) ++
    (if m.kind == .atom then [⟨m.c.toNat, if m.op == .cas then 2 else 1⟩] else [])
/-- Those it writes. -/
def gmemDsts (m : GMem) : List UUse := if m.kind == .load || (m.kind == .atom && m.ret) then [⟨m.d.toNat, 1⟩] else []
/-- The record handle. -/
def gmemHandle (tm : Team) (m : GMem) : Nat := ((groupUs tm (gmemUses m)).getD 0 0#64).toNat
/-- The element index. -/
def gmemIndex (tm : Team) (m : GMem) : Nat :=
  match m.i with
  | .reg _ => ((groupUs tm (gmemUses m)).getD 1 0#64).toNat
  | .imm x => (x.signExtend 64 : DWord).toNat
/-- The operand of an atomic, and cas's new value. -/
def gmemValue (tm : Team) (m : GMem) (r : Rec) (q : Nat) : Nat :=
  ((groupUs tm (gmemUses m)).getD ((gmemUses m).length - 1 + q) 0#64).toNat % 2 ^ (8 * r.size)
/-- The registers of the data field. -/
def gmemRegs (tm : Team) (m : GMem) (r : Rec) : Refs UOpnd :=
  if m.kind == .atom && !m.ret then ⟨[], []⟩ else tm.urefs m.d.toNat (m.count r.size) (m.kind != .store)

/-- Are the operands and the record there (R113, R199-R201)? -/
abbrev GMemReady (s : State) (fd : Fold) (tm : Team) (m : GMem) (r : Rec) (keep : Option (List DWord)) : Prop :=
  OperandsReady tm (gmemUses m) [] (gmemDsts m) ∧ s.useRec (s.tlbOf tm) fd (gmemHandle tm m) = .ok r keep ∧
  (gmemRegs tm m r).causes = [] ∧ (gmemRegs tm m r).regs.all tm.opndFull = true ∧
  (m.kind = .store → ((gmemRegs tm m r).regs.all fun u => (tm.opndPoison u).isNone) = true) ∧
  (m.count r.size = 2 → tm.unumber m.d.toNat % 2 = 0) ∧
  (m.kind = .load → r.mayRead = true) ∧ (m.kind = .store → r.mayWrite = true) ∧
  (m.kind = .atom → r.access = 0 ∧ (r.size = 4 ∨ r.size = 8))

/-- The state after the record has been read for the fold. -/
def gmemOpened (s : State) (tm : Team) (m : GMem) (keep : Option (List DWord)) : State :=
  s.keepRec (s.tlbOf tm) tm.fold (gmemHandle tm m) keep

/-- And with the element's translation held. -/
def gmemBegun (s : State) (fd : Fold) (tm : Team) (m : GMem) (r : Rec) (keep : Option (List DWord)) : State :=
  (gmemOpened s tm m keep).tlbFills (s.tlbOf tm) fd.ctx (r.touched 1 [gmemIndex tm m])

/-- What becomes of the access (R199). -/
def gmemFate (s : State) (fd : Fold) (tm : Team) (m : GMem) (r : Rec) (keep : Option (List DWord)) : LaneFate :=
  (gmemOpened s tm m keep).laneFate (s.tlbOf tm) fd.ctx r m.kind 1 (gmemIndex tm m)

/-- The team `now` with a value in the data registers, the lower 64 bits first. -/
def gmemGive (tm now : Team) (e : Env) (m : GMem) (r : Rec) (v : Nat) : Team :=
  let refs := (gmemRegs tm m r).regs.filterMap fun x => match x with | .reg q => some q | .value _ => none
  now.results e.overlap ((List.range refs.length).map fun q => .uni (refs.getD q (.team 0)) (dwordOfNat (v >>> (64 * q)))) [] false

end Sys2Proof.Machine
end

