-- ==== Sys2Proof/Safety/Values.lean ====
section
/-!
DEFINITION. Sys2Proof/Safety/Values.lean: the values that claims give lane and uniform arithmetic, written from the tables of
05_lane_compute, 07_group_control and 08_numbers apart from the model's own arithmetic.
-/
namespace Sys2Proof.Machine

/-! ## Numbers (R223, R224) -/

/-- Sign and width of the elements of an integer type (R223). -/
def intTy : Ty → Option (Bool × Nat)
  | .i64 => some (true, 64) | .n64 => some (false, 64)
  | .i32 => some (true, 32) | .n32 => some (false, 32) | .i16x2 => some (true, 16) | .n16x2 => some (false, 16)
  | .i8x4 => some (true, 8) | .n8x4 => some (false, 8) | _ => none

/-- Element `e` of a lane whose elements have `w` bits. -/
abbrev elemOf {W : Nat} (w e : Nat) (x : BitVec W) : BitVec w := x.extractLsb' (w * e) w

/-- Exponent and fraction bits of the elements of a float type (R224). -/
def fltTy : Ty → Option (Nat × Nat)
  | .f32 => some (8, 23) | .f64 => some (11, 52) | .f16x2 => some (5, 10) | .bf16x2 => some (8, 7) | _ => none

/-- The number a code of an i type (signed) or n type stands for. -/
def intOf (s : Bool) {w : Nat} (x : BitVec w) : Int := if s then x.toInt else x.toNat

/-- Least and greatest number of an integer type. -/
def leastOf (s : Bool) (w : Nat) : Int := if s then -(2 ^ (w - 1) : Int) else 0
def greatestOf (s : Bool) (w : Nat) : Int := if s then 2 ^ (w - 1) - 1 else 2 ^ w - 1

/-- `fit` of R117: clamped under SAT, else modulo 2^w. -/
def Fit (s : Bool) (w : Nat) (sat : Bool) (v : Int) : BitVec w :=
  BitVec.ofInt w (if sat then max (leastOf s w) (min (greatestOf s w) v) else v)

/-- The value of a finite float code with `ew` exponent and `fw` fraction bits, in units of the least subnormal (R224). -/
def floatUnits (ew fw c : Nat) : Option Int :=
  let x := c / 2 ^ fw % 2 ^ ew
  let m : Nat := if x = 0 then c % 2 ^ fw else (2 ^ fw + c % 2 ^ fw) * 2 ^ (x - 1)
  if x = 2 ^ ew - 1 then none else some (if c / 2 ^ (ew + fw) % 2 = 1 then -m else m)

/-- One in units of the least subnormal. -/
def oneUnits (ew fw : Nat) : Int := 2 ^ (2 ^ (ew - 1) - 2 + fw)
/-- Is a float code a NaN? -/
abbrev nanCode (ew fw c : Nat) : Prop := c / 2 ^ fw % 2 ^ ew = 2 ^ ew - 1 ∧ c % 2 ^ fw ≠ 0
/-- The order of the codes that are no NaN: the infinities lie beyond every number. -/
def floatOrd (ew fw c : Nat) : Int :=
  (floatUnits ew fw c).getD (if c / 2 ^ (ew + fw) % 2 = 1 then -2 ^ (2 ^ ew + fw) else 2 ^ (2 ^ ew + fw))

/-! ## Rounding (R226, R227) -/

/-- The n-th value of the grid of a format, in units of the least subnormal, the exponent range unbounded above: for a finite
format's magnitude code its value. -/
def gridVal (fw n : Nat) : Nat := if n / 2 ^ fw = 0 then n else (2 ^ fw + n % 2 ^ fw) * 2 ^ (n / 2 ^ fw - 1)

/-- Grid value `r` is what the magnitude num / den rounds to, for a negative or a positive number. -/
def RoundsTo (fw : Nat) (mode : RM) (neg : Bool) (num den r : Nat) : Prop :=
  ∃ n, gridVal fw n * den ≤ num ∧ num < gridVal fw (n + 1) * den ∧
    let below := num - gridVal fw n * den
    let above := gridVal fw (n + 1) * den - num
    r = if below = 0 then n
      else match mode with
        | .rtz => n
        | .rup => if neg then n else n + 1
        | .rdn => if neg then n + 1 else n
        | _ => if below < above ∨ (below = above ∧ n % 2 = 0) then n else n + 1

/-- `c` is the code of the nonzero number num / den, in units of the least subnormal, rounded once; an overflow gives an infinity or
the largest finite value. -/
def FloatResult (ew fw : Nat) (mode : RM) (num den : Int) (c : Nat) : Prop :=
  num ≠ 0 → den ≠ 0 →
    let neg := decide (num * den < 0)
    let inf := (2 ^ ew - 1) * 2 ^ fw
    ∃ r, RoundsTo fw mode neg num.natAbs den.natAbs r ∧
      c = (if neg then 2 ^ (ew + fw) else 0) + if r < inf then r
        else match mode with
          | .rtz => inf - 1
          | .rup => if neg then inf - 1 else inf
          | .rdn => if neg then inf else inf - 1
          | _ => inf

/-- An f32 code in units of 2^-149. -/
def f32Val (x : Word) : Option Int := floatUnits 8 23 x.toNat
/-- Is an f32 code a NaN? -/
abbrev isNan32 (x : Word) : Prop := x &&& 0x7F800000#32 = 0x7F800000#32 ∧ x &&& 0x007FFFFF#32 ≠ 0#32
/-- The order of the f32 codes that are no NaN: the infinities lie beyond every number. -/
def f32Ord (x : Word) : Int := (f32Val x).getD (if x.msb then -2 ^ 300 else 2 ^ 300)

/-- `r` is the f32 code of the nonzero number in units of 2^-149 that `P` describes, where f32 holds that number exactly. -/
def IsF32 (P : Int → Prop) (r : Word) : Prop := ∀ (c : Word) (u : Int), f32Val c = some u → u ≠ 0 → P u → r = c

/-! ## Operands -/

/-- A further operand: a lane operand, or an integer that the type converts (R95). -/
inductive ValArg where
  | lane (b : LaneArg)
  | const (i : Int)
  deriving DecidableEq, Repr

/-- The operand gives lane `j` the value `y` in type `t`. -/
def ValArg.Gives (b : ValArg) (tm : Team) (t : Ty) (j : Nat) (y : Word) : Prop :=
  match b with
  | .lane b => b.lane tm j = some y
  | .const i =>
    match intTy t with
    | some (_, w) => ∀ e, w * (e + 1) ≤ 32 → elemOf w e y = BitVec.ofInt w i
    | none =>
      match fltTy t with
      | some (ew, fw) => 1 + ew + fw ≤ 32 ∧ ∀ e, (1 + ew + fw) * (e + 1) ≤ 32 →
        if i = 0 then elemOf (1 + ew + fw) e y = 0 else floatUnits ew fw (elemOf (1 + ew + fw) e y).toNat = some (i * oneUnits ew fw)
      | none => False

/-- Lane `j` of the pair that a field names: 64 bits, the low half in the even register (R26, R223). -/
def pairLane (tm : Team) (f : BitVec 7) (j : Nat) : Option (BitVec 64) :=
  match (tm.vrefs f.toNat 2 2).regs with
  | [lo, hi] => match (tm.getV lo).lanes.getD j none, (tm.getV hi).lanes.getD j none with
    | some x, some y => some (y ++ x)
    | _, _ => none
  | _ => none

/-- The operand gives lane `j` the 64-bit value `y` in type `t` (R95, R114). -/
def ValArg.GivesPair (b : ValArg) (tm : Team) (t : Ty) (j : Nat) (y : BitVec 64) : Prop :=
  match b with
  | .lane (.vec f) => pairLane tm f j = some y
  | .lane (.uni f) => y = tm.opnd ((tm.uref f.toNat false).regs.headD (.value 0#64))
  | .lane (.imm i) => if i = 0#32 then y = 0#64 else match t with
    | .i64 => y = i.signExtend 64
    | .n64 => y = i.setWidth 64
    | .f64 => ∃ u, f32Val i = some u ∧ floatUnits 11 52 y.toNat = some (u * 2 ^ 925)
    | _ => False
  | .const i => if t = .f64 ∧ i ≠ 0 then floatUnits 11 52 y.toNat = some (i * 2 ^ 1074) else y = BitVec.ofInt 64 i

/-- A value claim: from the type, FMT and the lanes of the three operands, of `W` bits, to the result. -/
abbrev Rel (W : Nat) := Ty → FmtEnv → BitVec W → BitVec W → BitVec W → BitVec W → Prop
/-- One of lanes of 32 bits. -/
abbrev LaneRel := Rel 32

/-- A lane instruction whose result a claim gives: slot (none where it is type-free), destination, operands, relation. -/
structure ValueRow where
  slot : Option Bool
  d : BitVec 7
  a : BitVec 7
  b : ValArg
  c : ValArg
  R : LaneRel

/-! ## Relations -/

/-- A function of integer elements: signed, width, SAT. -/
abbrev IntFun := Bool → (w : Nat) → Bool → BitVec w → BitVec w → BitVec w → BitVec w
/-- A function of the elements, in the integer types. -/
def Elems {W : Nat} (f : IntFun) : Rel W := fun t fe x y z r =>
  ∀ s w, intTy t = some (s, w) → ∀ e, w * (e + 1) ≤ W → elemOf w e r = f s w fe.sat (elemOf w e x) (elemOf w e y) (elemOf w e z)

/-- A relation of the codes of float elements. -/
def FloatElems {W : Nat} (G : (ew fw : Nat) → FmtEnv → Nat → Nat → Nat → Nat → Prop) : Rel W := fun t fe x y z r =>
  ∀ ew fw, fltTy t = some (ew, fw) → ∀ e, (1 + ew + fw) * (e + 1) ≤ W →
    let code (v : BitVec W) : Nat := (elemOf (1 + ew + fw) e v).toNat
    G ew fw fe (code x) (code y) (code z) (code r)

/-- The exact result of an operation on numbers, in units of the least subnormal of which `one` make one: numerator, denominator. -/
abbrev FloatFun := (one : Int) → Int → Int → Int → Int × Int
/-- The exact result of three numbers is rounded once (R226), with FTZ clear; a NaN gives the canonical one (R225). -/
def Rounded {W : Nat} (f : FloatFun) : Rel W := FloatElems fun ew fw fe x y z r => fe.env.ftz = false →
  (∀ u v w, floatUnits ew fw x = some u → floatUnits ew fw y = some v → floatUnits ew fw z = some w →
    FloatResult ew fw fe.env.rm (f (oneUnits ew fw) u v w).1 (f (oneUnits ew fw) u v w).2 r) ∧
  (nanCode ew fw x ∨ nanCode ew fw y ∨ nanCode ew fw z → r = (2 ^ ew - 1) * 2 ^ fw + 2 ^ (fw - 1))
/-- In the integer types and in the float types. -/
def Arith {W : Nat} (fi : IntFun) (ff : FloatFun) : Rel W := fun t fe x y z r => Elems fi t fe x y z r ∧ Rounded ff t fe x y z r

/-- min (`less`) or max of R121: the other operand beside a NaN, -0 below +0. -/
def Pick {W : Nat} (less : Bool) : Rel W := FloatElems fun ew fw fe x y _ r => fe.env.ftz = false →
  let ord := floatOrd ew fw
  let low : Nat := if less then 2 ^ (ew + fw) else 0
  (nanCode ew fw x → nanCode ew fw y → r = (2 ^ ew - 1) * 2 ^ fw + 2 ^ (fw - 1)) ∧
  (nanCode ew fw x → ¬nanCode ew fw y → r = y) ∧ (¬nanCode ew fw x → nanCode ew fw y → r = x) ∧
  (¬nanCode ew fw x → ¬nanCode ew fw y → (ord x < ord y → r = if less then x else y) ∧ (ord y < ord x → r = if less then y else x) ∧
    (ord x = 0 → ord y = 0 → x = low ∨ y = low → r = low) ∧ (x = y → r = x))

/-- A relation of f32 lanes, with FTZ clear. -/
def OnF32 (G : Word → Word → Word → Word → Prop) : LaneRel := fun t fe x y z r => t = .f32 → fe.env.ftz = false → G x y z r

/-- The exact result of an f32 operation on two numbers, and its NaN (R120, R225). -/
def F32Two (P : Int → Int → Int → Prop) (x y r : Word) : Prop :=
  (∀ u v, f32Val x = some u → f32Val y = some v → IsF32 (P u v) r) ∧ (isNan32 x ∨ isNan32 y → r = 0x7FC00000#32)

/-- One f32 operand: exact results of numbers, NaN (R130, R131). -/
def F32One (P : Int → Int → Prop) (x r : Word) : Prop := (∀ u, f32Val x = some u → IsF32 (P u) r) ∧ (isNan32 x → r = 0x7FC00000#32)

/-- min of R121 for f32; `lt` says which operand is taken. -/
def F32Pick (lt : Int → Int → Prop) (zero : Word) (x y r : Word) : Prop :=
  (isNan32 x → isNan32 y → r = 0x7FC00000#32) ∧ (isNan32 x → ¬isNan32 y → r = y) ∧ (¬isNan32 x → isNan32 y → r = x) ∧
  (¬isNan32 x → ¬isNan32 y → (lt (f32Ord x) (f32Ord y) → r = x) ∧ (lt (f32Ord y) (f32Ord x) → r = y) ∧
    (f32Ord x = 0 → f32Ord y = 0 → x = zero ∨ y = zero → r = zero) ∧ (x = y → r = x))

/-- Sign of a quotient or product. -/
def signs (x y : Word) : Word := (x ^^^ y) &&& 0x80000000#32

def addI : IntFun := fun s w sat a b _ => Fit s w sat (intOf s a + intOf s b)
def subI : IntFun := fun s w sat a b _ => Fit s w sat (intOf s a - intOf s b)
def mulI : IntFun := fun s w sat a b _ => Fit s w sat (intOf s a * intOf s b)
def minI' : IntFun := fun s _ _ a b _ => if intOf s b < intOf s a then b else a
def maxI' : IntFun := fun s _ _ a b _ => if intOf s a < intOf s b then b else a
/-- The high half of the double-width product (R122). -/
def mulHiI : IntFun := fun s w _ a b _ => BitVec.ofInt w (intOf s a * intOf s b / 2 ^ w)
/-- Truncating division; all ones for a zero divisor (R123). -/
def divI : IntFun := fun s w sat a b _ =>
  if intOf s b = 0 then BitVec.allOnes w else Fit s w sat (Int.tdiv (intOf s a) (intOf s b))
/-- The remainder has the dividend's sign (R123). -/
def remI : IntFun := fun s w _ a b _ => if intOf s b = 0 then a else BitVec.ofInt w (Int.tmod (intOf s a) (intOf s b))
def madI : IntFun := fun s w sat a b c => Fit s w sat (intOf s a * intOf s b + intOf s c)
/-- R125. -/
def absI : IntFun := fun s w sat a _ _ => if s then Fit s w sat (intOf s a).natAbs else a
def negI : IntFun := fun s w sat a _ _ => if s = false ∧ sat = true then 0#w else Fit s w sat (-intOf s a)
def satI : IntFun := fun s w _ a _ _ => if intOf s a < 0 then 0#w else a

def addF : FloatFun := fun _ u v _ => (u + v, 1)
def subF : FloatFun := fun _ u v _ => (u - v, 1)
def mulF : FloatFun := fun one u v _ => (u * v, one)
def divF : FloatFun := fun one u v _ => (u * one, v)
def madF : FloatFun := fun one u v w => (u * v + w * one, one)

def MinRel {W : Nat} : Rel W := fun t fe x y z r => Elems minI' t fe x y z r ∧ Pick true t fe x y z r
def MaxRel {W : Nat} : Rel W := fun t fe x y z r => Elems maxI' t fe x y z r ∧ Pick false t fe x y z r
/-- The sign bit of a float element is cleared, or flipped, whatever the element is (R125). -/
def AbsRel {W : Nat} : Rel W := fun t fe x y z r => Elems absI t fe x y z r ∧
  FloatElems (fun ew fw _ x _ _ r => r = x % 2 ^ (ew + fw)) t fe x y z r
def NegRel {W : Nat} : Rel W := fun t fe x y z r => Elems negI t fe x y z r ∧
  FloatElems (fun ew fw _ x _ _ r => r = (x + 2 ^ (ew + fw)) % 2 ^ (1 + ew + fw)) t fe x y z r

def LaneAdd : LaneRel := fun t fe x y z r =>
  Arith addI addF t fe x y z r ∧ OnF32 (fun x y _ r => F32Two (fun u v c => c = u + v) x y r) t fe x y z r
def LaneSub : LaneRel := fun t fe x y z r =>
  Arith subI subF t fe x y z r ∧ OnF32 (fun x y _ r => F32Two (fun u v c => c = u - v) x y r) t fe x y z r
def LaneMul : LaneRel := fun t fe x y z r =>
  Arith mulI mulF t fe x y z r ∧ OnF32 (fun x y _ r => F32Two (fun u v c => c * 2 ^ 149 = u * v) x y r) t fe x y z r
def LaneMin : LaneRel := fun t fe x y z r =>
  MinRel t fe x y z r ∧ OnF32 (fun x y _ r => F32Pick (fun u v => u < v) 0x80000000#32 x y r) t fe x y z r
def LaneMax : LaneRel := fun t fe x y z r =>
  MaxRel t fe x y z r ∧ OnF32 (fun x y _ r => F32Pick (fun u v => v < u) 0#32 x y r) t fe x y z r
def LaneMulHi : LaneRel := Elems mulHiI
def LaneDiv : LaneRel := fun t fe x y z r =>
  Arith divI divF t fe x y z r ∧
  OnF32 (fun x y _ r => F32Two (fun u v c => v ≠ 0 ∧ c * v = u * 2 ^ 149) x y r ∧
    (∀ u, f32Val x = some u → u ≠ 0 → f32Val y = some 0 → r = 0x7F800000#32 ||| signs x y)) t fe x y z r
def LaneRem : LaneRel := Elems remI
def LaneMad : LaneRel := fun t fe x y z r =>
  Arith madI madF t fe x y z r ∧
  OnF32 (fun x y z r => (∀ u v n, f32Val x = some u → f32Val y = some v → f32Val z = some n →
    IsF32 (fun c => c * 2 ^ 149 = u * v + n * 2 ^ 149) r) ∧ (isNan32 x ∨ isNan32 y ∨ isNan32 z → r = 0x7FC00000#32)) t fe x y z r
/-- vmin(vmax(x, y), z) (R124). -/
def LaneClamp : LaneRel := fun t fe x y z r => ∃ m, LaneMax t fe x y 0#32 m ∧ LaneMin t fe m z 0#32 r
def LaneAbs : LaneRel := fun t fe x y z r => AbsRel t fe x y z r ∧ (t = .f32 → r = x &&& 0x7FFFFFFF#32)
def LaneNeg : LaneRel := fun t fe x y z r => NegRel t fe x y z r ∧ (t = .f32 → r = x ^^^ 0x80000000#32)
def LaneSat : LaneRel := fun t fe x y z r =>
  Elems satI t fe x y z r ∧
  OnF32 (fun x _ _ r => (isNan32 x → r = 0#32) ∧ (¬isNan32 x → (f32Ord x ≤ 0 → r = 0#32) ∧ (2 ^ 149 ≤ f32Ord x → r = 0x3F800000#32) ∧
    (0 < f32Ord x → f32Ord x < 2 ^ 149 → r = x))) t fe x y z r

/-- R130: exact roots. -/
def LaneSqrt : LaneRel := OnF32 fun x _ _ r =>
  F32One (fun u c => 0 < c ∧ c * c = u * 2 ^ 149) x r ∧ (f32Val x = some 0 → r = x) ∧
  (x = 0x7F800000#32 → r = x) ∧ (x.msb = true → f32Val x ≠ some 0 → r = 0x7FC00000#32)
/-- R131, R132: the special operands, and powers of two. -/
def LaneRcp : LaneRel := OnF32 fun x _ _ r =>
  F32One (fun u c => (∃ k : Nat, u.natAbs = 2 ^ k) ∧ c * u = 2 ^ 298) x r ∧ (f32Val x = some 0 → r = x ||| 0x7F800000#32) ∧
  (x &&& 0x7FFFFFFF#32 = 0x7F800000#32 → r = x &&& 0x80000000#32)
def LaneRsq : LaneRel := OnF32 fun x _ _ r =>
  F32One (fun u c => (∃ k : Nat, u = 2 ^ k) ∧ 0 < c ∧ c * c * u = 2 ^ 447) x r ∧ (f32Val x = some 0 → r = x ||| 0x7F800000#32) ∧
  (x = 0x7F800000#32 → r = 0#32) ∧ (x.msb = true → f32Val x ≠ some 0 → r = 0x7FC00000#32)
def LaneExp2 : LaneRel := OnF32 fun x _ _ r =>
  F32One (fun u c => ∃ k : Nat, u = ((k : Int) - 149) * 2 ^ 149 ∧ c = 2 ^ k) x r ∧ (f32Val x = some 0 → r = 0x3F800000#32) ∧
  (x = 0x7F800000#32 → r = x) ∧ (x = 0xFF800000#32 → r = 0#32)
def LaneLog2 : LaneRel := OnF32 fun x _ _ r =>
  F32One (fun u c => ∃ k : Nat, u = 2 ^ k ∧ c = ((k : Int) - 149) * 2 ^ 149) x r ∧ (f32Val x = some 0 → r = 0xFF800000#32) ∧
  (x = 0x7F800000#32 → r = x) ∧ (x.msb = true → f32Val x ≠ some 0 → r = 0x7FC00000#32)

/-- R134 among i32, n32 and f32, to the type `to_`. -/
def LaneCvt (to_ : Ty) : LaneRel := fun t fe x _ _ r =>
  (∀ s s', intTy t = some (s, 32) → intTy to_ = some (s', 32) → r = Fit s' 32 fe.sat (intOf s x)) ∧
  (∀ s, intTy t = some (s, 32) → to_ = .f32 → IsF32 (fun c => c = intOf s x * 2 ^ 149) r ∧ (x = 0#32 → r = 0#32)) ∧
  (∀ s', t = .f32 → intTy to_ = some (s', 32) → fe.env.ftz = false →
    (isNan32 x → r = 0#32) ∧ (¬isNan32 x → ∀ v : Int, f32Ord x = v * 2 ^ 149 → r = Fit s' 32 true v)) ∧
  (t = .f32 → to_ = .f32 → fe.env.ftz = false → r = if x &&& 0x7FFFFFFF#32 ≤ 0x7F800000#32 then x else 0x7FC00000#32)
/-- R135 in the integer types: the sources' elements are twice as wide. -/
def LanePack : LaneRel := fun t fe x y _ r =>
  ∀ s w, intTy t = some (s, w) → ∀ e, w * (e + 1) ≤ 32 →
    elemOf w e r = Fit s w fe.sat (if 2 * w * (e + 1) ≤ 32 then intOf s (elemOf (2 * w) e x) else intOf s (elemOf (2 * w) (e - 16 / w) y))
/-- R136: element `e` of packed type `p`, widened. -/
def LaneUnpack (p : Ty) (e : Nat) : LaneRel := fun _ _ x _ _ r =>
  (∀ s w, intTy p = some (s, w) → r = BitVec.ofInt 32 (intOf s (elemOf w e x))) ∧
  (p = .bf16x2 → r = if isNan32 (((elemOf 16 e x).setWidth 32) <<< 16) then (((elemOf 16 e x).setWidth 32) <<< 16) ||| 0x00400000#32
    else ((elemOf 16 e x).setWidth 32) <<< 16) ∧
  (p = .f16x2 → ∀ u, floatUnits 5 10 (elemOf 16 e x).toNat = some u →
    IsF32 (fun c => c = u * 2 ^ 125) r ∧ (u = 0 → r = ((elemOf 16 e x).setWidth 32) <<< 16))
/-- R148. -/
def LaneKey : LaneRel := fun _ _ x _ _ r =>
  r = if isNan32 x then 0#32 else if x = 0x80000000#32 then 0x80000000#32 else if x.msb then ~~~x else x ||| 0x80000000#32
/-- The elements of a lane as numbers. -/
def elemNums (s : Bool) (w : Nat) (x : Word) : List Int := (List.range (32 / w)).map fun e => intOf s (elemOf w e x)
/-- R153. -/
def LaneSad : LaneRel := fun t _ x y _ r =>
  ∀ s w, intTy t = some (s, w) → r.toNat = (List.zipWith (fun a b => (a - b).natAbs) (elemNums s w x) (elemNums s w y)).sum
def LaneAvg : LaneRel := Elems fun s w _ a b _ => BitVec.ofInt w ((intOf s a + intOf s b + 1) / 2)
def LaneDot : LaneRel := fun t fe x y z r =>
  ∀ s w, intTy t = some (s, w) → r = Fit s 32 fe.sat (intOf s z + (List.zipWith (· * ·) (elemNums s w x) (elemNums s w y)).sum)

/-! ## The instructions -/

/-- The operand of a one-operand instruction that it does not have. -/
def noArg : ValArg := .lane (.imm 0#32)

/-- Which value each lane instruction gives. -/
def valueRow : Instr → Option ValueRow
  | .vaddLa sv d a b _ _ _ => some ⟨some sv, d, a, .lane (.vec b), noArg, LaneAdd⟩
  | .vaddLu sv d a g _ _ _ => some ⟨some sv, d, a, .lane (.uni g), noArg, LaneAdd⟩
  | .vaddLi sv d a _ _ i => some ⟨some sv, d, a, .const i.toInt, noArg, LaneAdd⟩
  | .vaddLx sv d a _ _ i => some ⟨some sv, d, a, .lane (.imm i), noArg, LaneAdd⟩
  | .vsubLa sv d a b _ _ _ => some ⟨some sv, d, a, .lane (.vec b), noArg, LaneSub⟩
  | .vsubLu sv d a g _ _ _ => some ⟨some sv, d, a, .lane (.uni g), noArg, LaneSub⟩
  | .vsubLi sv d a _ _ i => some ⟨some sv, d, a, .const i.toInt, noArg, LaneSub⟩
  | .vmulLa sv d a b _ _ _ => some ⟨some sv, d, a, .lane (.vec b), noArg, LaneMul⟩
  | .vmulLu sv d a g _ _ _ => some ⟨some sv, d, a, .lane (.uni g), noArg, LaneMul⟩
  | .vmulLi sv d a _ _ i => some ⟨some sv, d, a, .const i.toInt, noArg, LaneMul⟩
  | .vmulLx sv d a _ _ i => some ⟨some sv, d, a, .lane (.imm i), noArg, LaneMul⟩
  | .vminLa sv d a b _ _ _ => some ⟨some sv, d, a, .lane (.vec b), noArg, LaneMin⟩
  | .vminLu sv d a g _ _ _ => some ⟨some sv, d, a, .lane (.uni g), noArg, LaneMin⟩
  | .vminLi sv d a _ _ i => some ⟨some sv, d, a, .const i.toInt, noArg, LaneMin⟩
  | .vmaxLa sv d a b _ _ _ => some ⟨some sv, d, a, .lane (.vec b), noArg, LaneMax⟩
  | .vmaxLu sv d a g _ _ _ => some ⟨some sv, d, a, .lane (.uni g), noArg, LaneMax⟩
  | .vmaxLi sv d a _ _ i => some ⟨some sv, d, a, .const i.toInt, noArg, LaneMax⟩
  | .vmulhiLa sv d a b _ _ _ => some ⟨some sv, d, a, .lane (.vec b), noArg, LaneMulHi⟩
  | .vmulhiLu sv d a g _ _ _ => some ⟨some sv, d, a, .lane (.uni g), noArg, LaneMulHi⟩
  | .vdivLa sv d a b _ _ _ => some ⟨some sv, d, a, .lane (.vec b), noArg, LaneDiv⟩
  | .vdivLu sv d a g _ _ _ => some ⟨some sv, d, a, .lane (.uni g), noArg, LaneDiv⟩
  | .vremLa sv d a b _ _ _ => some ⟨some sv, d, a, .lane (.vec b), noArg, LaneRem⟩
  | .vremLu sv d a g _ _ _ => some ⟨some sv, d, a, .lane (.uni g), noArg, LaneRem⟩
  | .vmadVectorC sv d a b _ _ _ c _ => some ⟨some sv, d, a, .lane (.vec b), .lane (.vec c), LaneMad⟩
  | .vmadUniformC sv d a b _ _ _ c _ => some ⟨some sv, d, a, .lane (.vec b), .lane (.uni c), LaneMad⟩
  | .vclampVectorC sv d a b _ _ _ c _ => some ⟨some sv, d, a, .lane (.vec b), .lane (.vec c), LaneClamp⟩
  | .vclampUniformC sv d a b _ _ _ c _ => some ⟨some sv, d, a, .lane (.vec b), .lane (.uni c), LaneClamp⟩
  | .vabs sv d a _ _ => some ⟨some sv, d, a, noArg, noArg, LaneAbs⟩
  | .vneg sv d a _ _ => some ⟨some sv, d, a, noArg, noArg, LaneNeg⟩
  | .vsat sv d a _ _ => some ⟨some sv, d, a, noArg, noArg, LaneSat⟩
  | .vsqrt sv d a _ _ => some ⟨some sv, d, a, noArg, noArg, LaneSqrt⟩
  | .vrcp sv d a _ _ => some ⟨some sv, d, a, noArg, noArg, LaneRcp⟩
  | .vrsq sv d a _ _ => some ⟨some sv, d, a, noArg, noArg, LaneRsq⟩
  | .vexp2 sv d a _ _ => some ⟨some sv, d, a, noArg, noArg, LaneExp2⟩
  | .vlog2 sv d a _ _ => some ⟨some sv, d, a, noArg, noArg, LaneLog2⟩
  | .vcvt sv d a t _ _ =>
    match Ty.ofCode t.toNat with
    | some to_ => if to_ = .i32 ∨ to_ = .n32 ∨ to_ = .f32 then some ⟨some sv, d, a, noArg, noArg, LaneCvt to_⟩ else none
    | none => none
  | .vpack d a b _ _ _ => some ⟨some false, d, a, .lane (.vec b), noArg, LanePack⟩
  | .vunpk d a e t _ _ => (Ty.ofCode t.toNat).map fun p => ⟨none, d, a, noArg, noArg, LaneUnpack p e.toNat⟩
  | .vkey d a _ _ => some ⟨none, d, a, noArg, noArg, LaneKey⟩
  | .vsad sv d a b _ _ _ => some ⟨some sv, d, a, .lane (.vec b), noArg, LaneSad⟩
  | .vavg sv d a b _ _ _ => some ⟨some sv, d, a, .lane (.vec b), noArg, LaneAvg⟩
  | .vdot4 sv d a b _ _ => some ⟨some sv, d, a, .lane (.vec b), .lane (.vec d), LaneDot⟩
  | .vdot2 sv d a b _ _ => some ⟨some sv, d, a, .lane (.vec b), .lane (.vec d), LaneDot⟩
  | _ => none

/-- What a lane instruction gives in the types of 64 bits, whose lanes are pairs (R26). -/
def wideRel : Instr → Option (Rel 64)
  | .vaddLa .. | .vaddLu .. | .vaddLi .. | .vaddLx .. => some (Arith addI addF)
  | .vsubLa .. | .vsubLu .. | .vsubLi .. => some (Arith subI subF)
  | .vmulLa .. | .vmulLu .. | .vmulLi .. | .vmulLx .. => some (Arith mulI mulF)
  | .vminLa .. | .vminLu .. | .vminLi .. => some MinRel
  | .vmaxLa .. | .vmaxLu .. | .vmaxLi .. => some MaxRel
  | .vmulhiLa .. | .vmulhiLu .. => some (Elems mulHiI)
  | .vdivLa .. | .vdivLu .. => some (Arith divI divF)
  | .vremLa .. | .vremLu .. => some (Elems remI)
  | .vmadVectorC .. | .vmadUniformC .. => some (Arith madI madF)
  | .vclampVectorC .. | .vclampUniformC .. => some fun t fe x y z r => ∃ m, MaxRel t fe x y 0#64 m ∧ MinRel t fe m z 0#64 r
  | .vabs .. => some AbsRel
  | .vneg .. => some NegRel
  | .vsat .. => some (Elems satI)
  | _ => none

/-- vsplit: slot, destination, source, second operand, condition, keep form (R137). -/
def splitRow : Instr → Option (Bool × BitVec 7 × BitVec 7 × ValArg × Nat × Bool)
  | .vsplitVector sv d a b _ _ k cond => some (sv, d, a, .lane (.vec b), cond.toNat, k)
  | .vsplitUniform sv d a g _ _ k cond => some (sv, d, a, .lane (.uni g), cond.toNat, k)
  | .vsplitImmediate sv d a _ k cond i =>
    some (sv, d, a, if cond = 10#4 then .lane (.imm (i.setWidth 32)) else .const i.toInt, cond.toNat, k)
  | _ => none

/-- A comparison by code: eq ne lt le gt ge. -/
def Compares (c : Nat) (a b : Int) : Prop :=
  match c with | 0 => a = b | 1 => a ≠ b | 2 => a < b | 3 => a ≤ b | 4 => b < a | _ => b ≤ a

/-- The conditions of R139 on a lane of 32 bits. -/
def SplitHolds (t : Ty) (c : Nat) (x y : Word) : Prop :=
  if c = 10 then x.getLsbD y.toNat = true
  else if t = .i32 ∨ t = .n32 then
    if 6 ≤ c then Compares (c - 4) x.toNat y.toNat else Compares c (intOf (t == .i32) x) (intOf (t == .i32) y)
  else if t = .f32 then (isNan32 x ∨ isNan32 y → c = 1) ∧ (¬isNan32 x → ¬isNan32 y → Compares c (f32Ord x) (f32Ord y))
  else if c = 0 then x = y else x ≠ y

/-- `combine` of R152 and R207 on one word of i32 (signed) or n32, with SAT clear. -/
def combine (op : ROp) (s : Bool) (x y : Word) : Word :=
  match op with
  | .add => x + y
  | .min => if intOf s y < intOf s x then y else x
  | .max => if intOf s x < intOf s y then y else x
  | .and => x &&& y
  | .or => x ||| y
  | .xor => x ^^^ y
/-- Its identity. -/
def combineStart (op : ROp) (s : Bool) : Word :=
  match op with
  | .add | .or | .xor => 0#32
  | .min => BitVec.ofInt 32 (greatestOf s 32)
  | .max => BitVec.ofInt 32 (leastOf s 32)
  | .and => BitVec.allOnes 32

/-- vscan: operation, exclusive, slot, destination, source. -/
def scanRow : Instr → Option (ROp × Bool × Bool × BitVec 7 × BitVec 7)
  | .vscanAdd sv d a _ _ => some (.add, false, sv, d, a)
  | .vscanMin sv d a _ _ => some (.min, false, sv, d, a)
  | .vscanMax sv d a _ _ => some (.max, false, sv, d, a)
  | .vscanAddX sv d a _ _ => some (.add, true, sv, d, a)
  | .vscanMinX sv d a _ _ => some (.min, true, sv, d, a)
  | .vscanMaxX sv d a _ _ => some (.max, true, sv, d, a)
  | _ => none

/-- gred: operation, slot, SEQ, destination, source. -/
def redRow : Instr → Option (ROp × Bool × BitVec 3 × BitVec 7 × BitVec 7)
  | .gredAdd sv sq d a => some (.add, sv, sq, d, a)
  | .gredMin sv sq d a => some (.min, sv, sq, d, a)
  | .gredMax sv sq d a => some (.max, sv, sq, d, a)
  | .gredAnd sv sq d a => some (.and, sv, sq, d, a)
  | .gredOr sv sq d a => some (.or, sv, sq, d, a)
  | .gredXor sv sq d a => some (.xor, sv, sq, d, a)
  | _ => none

/-! ## Uniform floats (R197, R198) -/

/-- What a uniform register holds for a float instruction. -/
inductive NumKind where
  | f32 | f64 | i64 | n64
  deriving DecidableEq, Repr

/-- Its number in units of 2^-1074. -/
def NumKind.value (k : NumKind) (x : DWord) : Option Int :=
  match k with
  | .f32 => (floatUnits 8 23 (x.toNat % 2 ^ 32)).map (· * 2 ^ 925)
  | .f64 => floatUnits 11 52 x.toNat
  | .i64 => some (x.toInt * 2 ^ 1074)
  | .n64 => some ((x.toNat : Int) * 2 ^ 1074)

/-- A uniform float instruction: length, SEQ, destination, operands, kinds, and its exact result. -/
structure FloatRow where
  len : Nat
  sq : BitVec 3
  d : BitVec 7
  args : List (BitVec 7)
  src : NumKind
  dst : NumKind
  exact : List Int → Int → Prop

def Sum2 (xs : List Int) (u : Int) : Prop := u = xs.getD 0 0 + xs.getD 1 0
def Product2 (xs : List Int) (u : Int) : Prop := u * 2 ^ 1074 = xs.getD 0 0 * xs.getD 1 0
def Fused (xs : List Int) (u : Int) : Prop := u * 2 ^ 1074 = xs.getD 0 0 * xs.getD 1 0 + xs.getD 2 0 * 2 ^ 1074
def Same (xs : List Int) (u : Int) : Prop := u = xs.getD 0 0

def floatRow : Instr → Option FloatRow
  | .gfaddF32 sq d a b => some ⟨4, sq, d, [a, b], .f32, .f32, Sum2⟩
  | .gfaddF64 sq d a b => some ⟨4, sq, d, [a, b], .f64, .f64, Sum2⟩
  | .gfmulF32 sq d a b => some ⟨4, sq, d, [a, b], .f32, .f32, Product2⟩
  | .gfmulF64 sq d a b => some ⟨4, sq, d, [a, b], .f64, .f64, Product2⟩
  | .gfmaF32 sq d a b c => some ⟨8, sq, d, [a, b, c], .f32, .f32, Fused⟩
  | .gfmaF64 sq d a b c => some ⟨8, sq, d, [a, b, c], .f64, .f64, Fused⟩
  | .gfcvtF64F32 sq d a => some ⟨4, sq, d, [a], .f32, .f64, Same⟩
  | .gfcvtF32F64 sq d a => some ⟨4, sq, d, [a], .f64, .f32, Same⟩
  | .gfcvtF64I64 sq d a => some ⟨4, sq, d, [a], .i64, .f64, Same⟩
  | .gfcvtI64F64 sq d a => some ⟨4, sq, d, [a], .f64, .i64, Same⟩
  | .gfcvtF32I64 sq d a => some ⟨4, sq, d, [a], .i64, .f32, Same⟩
  | .gfcvtI64F32 sq d a => some ⟨4, sq, d, [a], .f32, .i64, Same⟩
  | .gfcvtF64N64 sq d a => some ⟨4, sq, d, [a], .n64, .f64, Same⟩
  | .gfcvtN64F64 sq d a => some ⟨4, sq, d, [a], .f64, .n64, Same⟩
  | _ => none

end Sys2Proof.Machine
end

