-- ==== Sys2Proof/Certificates/Slice0/Obligations.lean ====
section
/-!
DEFINITION. Sys2Proof/Certificates/Slice0/Obligations.lean: the statements for the provers, each from numbered rules of spec/.
-/
open Sys2Proof Sys2Proof.Machine

/-! ## Encoding, and how a step runs an instruction -/

/-- Words written out from the encoding tables of 04_encoding and 05_lane_compute decode to the instructions they stand
for: vadd LA (R91, R118), vshr LI (R126), gadd GA and GI (R192), gli (R196), gcall GX (R97), fence (R212). -/
def Obligations.WordsDecode : Prop :=
  decode 0b0_0000001_0000011_0000001_0000010_101#32 0#32 = .ok (.vaddLa true 3#7 1#7 2#7 true false true) ∧
  decode 0b0_1000111_0000101_0000100_0_1_00011111#32 0#32 = .ok (.vshrLi 5#7 4#7 false true 31#8) ∧
  decode 0b1_0000000_001_0001010_0001011_0001100#32 0#32 = .ok (.gaddGa 1#3 10#7 11#7 12#7) ∧
  decode 0b1_0000001_000_0001010_0001011_1111111#32 0#32 = .ok (.gaddGi 0#3 10#7 11#7 127#7) ∧
  decode 0b1_0011110_000_0001000_11111111111111#32 0#32 = .ok (.gli 0#3 8#7 0x3FFF#14) ∧
  decode 0b1_0110010_000_0000000_0000000_0000000#32 0x00000010#32 = .ok (.gcallGx 4#30) ∧
  decode 0b1_1000110_000_0000000_00000000000010#32 0#32 = .ok (.fence 0#3 2#3)

/-- Decoding the words of a well-formed instruction gives the instruction back, with every operand it holds; the word after
a one-word instruction does not matter (R91, R93, R96, R99, R103). Words that decode to an instruction are the words it encodes
to, so that no word with a reserved value or a bit that must be zero is taken (R106). A word whose opcode the maps of R101 and
R102 give as undefined or reserved is refused with cause 0x01 and capability ID 0; any other word refused has cause 0x02 where
its group is absent (PX2, R105), else 0x03 (R106). -/
def Obligations.DecodeEncode : Prop :=
  (∀ i : Instr, i.wf = true →
    (∀ w x, encode i = [w] → decode w x = .ok i) ∧ (∀ w x, encode i = [w, x] → decode w x = .ok i) ∧ (encode i).length ≤ 2) ∧
  (∀ (w x : Word) (i : Instr), decode w x = .ok i → i.wf = true ∧ encode i = if isPair w then [w, x] else [w]) ∧
  (∀ w x : Word, (if w.getLsbD 31 then [0x27, 0x2D, 0x2E, 0x2F, 0x37, 0x53, 0x54, 0x55, 0x56, 0x57, 0x67, 0x70, 0x71, 0x72, 0x73,
      0x74, 0x75, 0x76, 0x77, 0x78, 0x79, 0x7A, 0x7B, 0x7C, 0x7D, 0x7E, 0x7F] else [0x6E, 0x6F]).contains (w.toNat / 2 ^ 24 % 128) →
    ∃ r, decode w x = .error r ∧ r.cause = 1 ∧ r.cap = 0) ∧
  (∀ (w x : Word) (r : Reject), decode w x = .error r →
    ¬ (if w.getLsbD 31 then [0x27, 0x2D, 0x2E, 0x2F, 0x37, 0x53, 0x54, 0x55, 0x56, 0x57, 0x67, 0x70, 0x71, 0x72, 0x73,
      0x74, 0x75, 0x76, 0x77, 0x78, 0x79, 0x7A, 0x7B, 0x7C, 0x7D, 0x7E, 0x7F] else [0x6E, 0x6F]).contains (w.toNat / 2 ^ 24 % 128) →
    if w.getLsbD 31 = false ∧ (w.toNat / 2 ^ 24 % 128 = 0x6C ∨ w.toNat / 2 ^ 24 % 128 = 0x6D) then r.cause = 2 ∧ r.cap = 2
    else r.cause = 3 ∧ r.cap = 0)

/-- A step runs the instruction that the words at the pc decode to: with no move of another agent waiting, the part on, the
current team the one its partition chooses (R452) and free to issue, its pc inside the extent (R57), and its words readable at their translated addresses
(R89, R90, R432), step is exec of that instruction, on the state with the translations of the fetch in the TLB (R433) and its lines in the core's L1 instruction cache (R328). Words
that decode to no instruction are issued as a stray of those words (R106). -/
def Obligations.StepRunsDecoded : Prop :=
  (∀ (s : State) (fd : Fold) (tm : Team) (w x : Word) (i : Instr),
      s.agenda = [] → s.off = false → s.issuer = s.cur → s.team? s.cur = some tm → s.fold? tm.fold = some fd → s.mayIssue fd tm = true →
      tm.pcOver = false → tm.inExtent (s.env s.cur tm) tm.pc.toNat = true →
      s.fetchWord (s.coreOf tm) fd.ctx tm.pc.toNat = .ok w →
      (isPair w = true → tm.inExtent (s.env s.cur tm) (tm.pc.toNat + 4) = true ∧
        s.fetchWord (s.coreOf tm) fd.ctx (tm.pc.toNat + 4) = .ok x) →
      (isPair w = false → x = 0#32) → decode w x = .ok i →
      step s = exec i (s.fetchFill (s.coreOf tm) fd.ctx
        (if isPair w = true then [tm.pc.toNat, tm.pc.toNat + 4] else [tm.pc.toNat]))) ∧
  (∀ (s : State) (fd : Fold) (tm : Team) (w x : Word) (r : Reject),
      s.agenda = [] → s.off = false → s.issuer = s.cur → s.team? s.cur = some tm → s.fold? tm.fold = some fd → s.mayIssue fd tm = true →
      tm.pcOver = false → tm.inExtent (s.env s.cur tm) tm.pc.toNat = true →
      s.fetchWord (s.coreOf tm) fd.ctx tm.pc.toNat = .ok w →
      (isPair w = true → tm.inExtent (s.env s.cur tm) (tm.pc.toNat + 4) = true ∧
        s.fetchWord (s.coreOf tm) fd.ctx (tm.pc.toNat + 4) = .ok x) →
      (isPair w = false → x = 0#32) → decode w x = .error r →
      step s = exec (.stray w x) (s.fetchFill (s.coreOf tm) fd.ctx
        (if isPair w = true then [tm.pc.toNat, tm.pc.toNat + 4] else [tm.pc.toNat])))

/-- The move of another agent at the head of the agenda comes before any instruction, and while the part is switched off
(R463), or stays at step 4 of bring-up (R485), only the always-on domain's moves have an effect, in the latter case configuration
requests too. Before a move that asks which teams are ready (R43, R450, R451) a partition finds the waits of teams that have met none:
nothing but what a team waits for is set (log entry 104). The agenda is the model's own (log entry 1). -/
def Obligations.AgendaComesFirst : Prop :=
  (∀ (i : Instr) (s : State), State.beforeMove i s = { s with teams := (State.beforeMove i s).teams } ∧
    ∀ t, ((State.beforeMove i s).team? t).map (fun tm => { tm with wait := .none, waitAt := 0, wants := 0 }) =
      (s.team? t).map (fun tm => { tm with wait := .none, waitAt := 0, wants := 0 })) ∧
  ∀ (s : State) (i : Instr) (rest : List Instr), s.agenda = i :: rest →
    (s.heeds i = true → step s = exec i (State.beforeMove i { s with agenda := rest }) ∧
      (looksAround i = false → step s = exec i { s with agenda := rest })) ∧
    (s.heeds i = false → step s = .next { s with agenda := rest }) ∧
    (s.heeds i = true ↔ (isMove i = true ∧ (alwaysOn i = true ∨ (s.off = false ∧ (s.bring ≠ 4 ∨ configures i = true)))))

/-! ## Reset and the invariant of the state -/

/-- Reset: no fold, no team, no descriptor (R485); every paddock in conformance mode (R261); both sensor healths full, level
0, no cap, margining off (R468); every link port down (R381); the invariant holds. That memory lists nothing is the model's choice
(log entries 4 and 38), and so is that every context and every port is empty (log entry 69). -/
def Obligations.ResetState : Prop :=
  State.reset.teams = [] ∧ State.reset.folds = [] ∧ State.reset.mem = [] ∧ State.reset.off = false ∧
  (∀ c, State.reset.ctx c = Ctx.empty) ∧ (∀ p, (State.reset.pad p).arrctl = 1#32) ∧
  (∀ d, (State.reset.domain d).thealth = 15#4 ∧ (State.reset.domain d).ihealth = 3#2 ∧ (State.reset.domain d).level = 0 ∧
    (State.reset.domain d).cap = false ∧ (State.reset.domain d).men = false) ∧
  (∀ p ∈ State.reset.ports, p = Port.reset) ∧ State.reset.inv = true

/-- Every step keeps the invariant: memory stays in its canonical form, and the part keeps its contexts, paddocks, ports and
domains. -/
def Obligations.StepKeepsInvariant : Prop := ∀ s t : State, s.inv = true → step s = .next t → t.inv = true

/-- A byte read after a write: the bytes written read back, every other byte is as it was, and the canonical form is kept.
Little-endian order is `bytesOf` (R158). -/
def Obligations.MemoryReadsWhatWasWritten : Prop :=
  ∀ (m : List Host.Cell) (a : Nat) (bs : List Byte), Memory.wf m = true →
    memRead (memWrite m a bs) a bs.length = bs ∧
    (∀ x, x < a ∨ a + bs.length ≤ x → memGet (memWrite m a bs) x = memGet m x) ∧ Memory.wf (memWrite m a bs) = true

/-! ## Lane instructions on registers (05_lane_compute) -/

/-- Every lane instruction on registers whose operands are there issues and completes: its register writes and FX flags are
made, the pc moves past its words, and nothing but the team changes. It holds for each of the 90 instructions that
`laneOpOf` lists, from vadd to vdot2. -/
def Obligations.LaneInstructionsComplete : Prop :=
  ∀ (i : Instr) (len : Nat) (op : Team → LaneOp) (s : State) (tm : Team), laneOpOf i = some (len, op) → Issues s tm →
    LaneReady tm (s.env s.cur tm) (op tm) →
    exec i s = .next (s.teamNow (laneDone tm (s.env s.cur tm) len (op tm)))

/-- The checks of issue of a lane instruction. It does not issue while a destination is empty, or a source whose wait bit is clear
(R27, R28): the team waits where it is. The other checks are made together (R113): of the causes raised the lowest is
delivered and the others are secondary; the team stops at the instruction with its registers as they were. Poisoned values are
never computed with (R460): cause 0x30 where margin attribution is among what it reads, else 0x31, behind 0x1D where under FXT
a lane without poison is an invalid operation (R408). With no poison, under FXT, lanes that raise NV trap with cause 0x1D: the fault map
holds them, no destination is written, and every flag raised is set (R113, R234). One that would complete and finds too few slots for what
it writes waits for them (R42); that the trap goes before the wait is the model's choice (log entry 125). -/
def Obligations.LaneIssueChecks : Prop :=
  (∀ (i : Instr) (len : Nat) (op : Team → LaneOp) (s : State) (tm : Team), laneOpOf i = some (len, op) → Issues s tm →
      laneHeld tm (op tm) = true →
      exec i s = .next (s.teamNow { tm with wait := laneAwait tm (op tm), waitAt := s.moves + 1 })) ∧
  (∀ (i : Instr) (len : Nat) (op : Team → LaneOp) (s : State) (tm : Team), laneOpOf i = some (len, op) → Issues s tm →
      laneHeld tm (op tm) = false → laneCauses tm (op tm) ≠ [] →
      ∃ tm' st, exec i s = .next (s.teamNow tm') ∧ tm'.status = .stopped ∧ tm'.stop = some st ∧ tm'.pc = tm.pc ∧
        tm'.vregs = tm.vregs ∧ tm'.uregs = tm.uregs ∧ tm'.stray = tm.stray ∧ tm'.flags = tm.flags ∧ tm'.fx = tm.fx ∧
        st.cause ∈ laneCauses tm (op tm) ∧ (∀ c ∈ laneCauses tm (op tm), st.cause ≤ c) ∧ st.pc = tm.pc ∧
        st.sec = secondary ((laneCauses tm (op tm)).filter (· != st.cause))) ∧
  (∀ (i : Instr) (len : Nat) (op : Team → LaneOp) (s : State) (tm : Team), laneOpOf i = some (len, op) → Issues s tm →
      laneHeld tm (op tm) = false → laneCauses tm (op tm) = [] → lanePoison tm (op tm) ≠ [] →
      ∃ tm' st, exec i s = .next (s.teamNow tm') ∧ tm'.status = .stopped ∧ tm'.stop = some st ∧ tm'.vregs = tm.vregs ∧
        tm'.pc = tm.pc ∧
        st.cause =
          if (fmtEnv tm.fmt).fxt = true ∧
            ((op tm).sem tm.w (withoutLanes ((lanePoison tm (op tm)).map (·.1)) (laneVals tm (op tm))) (laneUs tm (op tm))).nv ≠ []
          then 0x1D else if (lanePoison tm (op tm)).any (fun p => p.2 == .margin) then 0x30 else 0x31) ∧
  (∀ (i : Instr) (len : Nat) (op : Team → LaneOp) (s : State) (tm : Team), laneOpOf i = some (len, op) → Issues s tm →
      laneHeld tm (op tm) = false → laneCauses tm (op tm) = [] → lanePoison tm (op tm) = [] →
      ((fmtEnv tm.fmt).fxt = true → (laneRes tm (op tm)).nv ≠ [] →
        ∃ tm' st, exec i s = .next (s.teamNow tm') ∧ tm'.status = .stopped ∧ tm'.stop = some st ∧ tm'.vregs = tm.vregs ∧
          tm'.uregs = tm.uregs ∧ tm'.pc = tm.pc ∧ tm'.fx = tm.fx ||| (laneRes tm (op tm)).fx ∧ st.cause = 0x1D ∧
          st.map = (laneRes tm (op tm)).nv ∧ st.sec = 0#64) ∧
      (((fmtEnv tm.fmt).fxt = true → (laneRes tm (op tm)).nv = []) →
        (s.env s.cur tm).slots < slotsDrawn tm (laneWrites tm (op tm)) →
        exec i s = .next (s.teamNow { tm with
          wait := .slots (slotsDrawn tm (laneWrites tm (op tm))), waitAt := s.moves + 1 })))

/-- The frame of the lane instructions on registers, whatever their outcome: only the team that issues changes, and of it no
uniform register, no vector register but a destination, no FMT, flag, target slot, counter or stack entry; memory and
every other part of the state are as before. -/
def Obligations.LaneFrame : Prop :=
  ∀ (i : Instr) (len : Nat) (op : Team → LaneOp) (s t : State) (tm : Team), laneOpOf i = some (len, op) → Issues s tm →
    exec i s = .next t →
    ∃ tm', t = s.teamNow tm' ∧ tm'.uregs = tm.uregs ∧ tm'.fmt = tm.fmt ∧ tm'.flags = tm.flags ∧ tm'.slots = tm.slots ∧
      tm'.cc = tm.cc ∧ tm'.calls = tm.calls ∧ tm'.arms = tm.arms ∧ tm'.landings = tm.landings ∧
      ∀ r, r ∉ ((laneDsts tm (op tm)).map (·.regs)).flatten → tm'.getV r = tm.getV r

/-- R21 and R22 for the instructions that apply a function lane by lane: with results complete, lane j of a destination
register holds the new value where every source has lane j (I); elsewhere it is empty in the replace form and as it was
in the keep form, which applies to the registers of a pair as one (R117): where not all of them held the lane, it is empty, and where I
has no lane the destination is unchanged (R24; the model's choice for pairs, log entry 84). -/
def Obligations.LaneMapsAndKeepForm : Prop :=
  ∀ (i : Instr) (len : Nat) (op : Team → LaneOp) (s : State) (tm : Team) (f : List DWord → List Nat → Nat × Fx)
    (x : VDst), laneOpOf i = some (len, op) → Issues s tm → s.overlap = false → LaneReady tm (s.env s.cur tm) (op tm) →
    (∀ w vals us, (op tm).sem w vals us = lanewise w vals (f us)) → (op tm).dsts = [x] → x.parts = 1 →
    ∃ tm', exec i s = .next (s.teamNow tm') ∧
      ∀ (q : Nat) (r : VRef), (tm.vrefs x.f x.n x.align).regs[q]? = some r → ∀ j, j < tm.w →
        (tm'.getV r).full = true ∧
        (tm'.getV r).lanes.getD j none =
          match allSome ((laneVals tm (op tm)).map fun v => v.getD j none) with
          | some xs => some (wordOfNat ((f (laneUs tm (op tm)) xs).1 >>> (32 * q)))
          | none => if (op tm).keep && ((tm.vrefs x.f x.n x.align).regs.all (fun y => ((tm.getV y).lanes.getD j none).isSome) ||
                (List.range tm.w).all fun k => (allSome ((laneVals tm (op tm)).map fun v => v.getD k none)).isNone)
              then (tm.getV r).lanes.getD j none else none

/-- The values of lane arithmetic on 32-bit lanes. vadd, vsub and vmul in i32 and n32 with SAT clear are sums, differences and
products modulo 2^32 (R120), in every operand form (R114, R95). By element of the integer types, `valueRow` gives vadd to vrem,
vmad, vclamp, vabs, vneg, vsat, vavg, vsad, vdot4, vdot2, vcvt and vpack through `fit` (R117, R121-R125, R134, R135, R153,
R154), with the division corners of R123; vunpk and vkey by R136 and R148. In f32, f16x2 and bf16x2 with FTZ clear vadd, vsub,
vmul, vdiv and vmad give the exact number rounded once in FMT.RM, or what R227 gives for an overflow (R226, R227), and every NaN
(R225); vmin, vmax, vabs and vneg by R121 and R125; in f32 besides the special operands of R132 and the reduced-precision functions on
powers of two. `wideRel` gives the same of vadd to vsat in i64, n64 and f64, whose lanes are register pairs (R26, R223). vsplit sends
each lane to the register its condition names (R138, R139), and vscan gives the running sum, minimum or maximum (R152). The
uniform floats write the exact result where it is a nonzero number of the format, and its flags (R197, R198). -/
def Obligations.IntegerLanesWrap : Prop :=
  (∀ (i : Instr) (sv : Bool) (d a : BitVec 7) (b : LaneArg) (k : Bool) (f : Word → Word → Word) (s : State)
    (tm : Team) (ra rd : VRef), wrapRow i = some (sv, d, a, b, k, f) → Issues s tm → s.overlap = false →
    (tm.ty sv = (.i32, true) ∨ tm.ty sv = (.n32, true)) → (fmtEnv tm.fmt).sat = false →
    (tm.vrefs a.toNat 1 1).regs = [ra] → (tm.vrefs d.toNat 1 1).regs = [rd] →
    (∀ len op, laneOpOf i = some (len, op) → LaneReady tm (s.env s.cur tm) (op tm)) →
    ∃ tm', exec i s = .next (s.teamNow tm') ∧ ∀ j, j < tm.w →
      (tm'.getV rd).lanes.getD j none =
        match (tm.getV ra).lanes.getD j none, b.lane tm j with
        | some x, some y => some (f x y)
        | _, _ => if k then (tm.getV rd).lanes.getD j none else none) ∧
  (∀ (i : Instr) (row : ValueRow) (len : Nat) (op : Team → LaneOp) (s : State) (tm : Team), valueRow i = some row →
    laneOpOf i = some (len, op) → Issues s tm → s.overlap = false → LaneReady tm (s.env s.cur tm) (op tm) →
    ∃ tm', exec i s = .next (s.teamNow tm') ∧ ∀ (t : Ty) (j : Nat) (x y z : Word), j < tm.w → t.is64 = false →
      (∀ sv, row.slot = some sv → tm.ty sv = (t, true)) →
      (LaneArg.vec row.a).lane tm j = some x → row.b.Gives tm t j y → row.c.Gives tm t j z →
      ∃ r, (LaneArg.vec row.d).lane tm' j = some r ∧ row.R t (fmtEnv tm.fmt) x y z r) ∧
  (∀ (i : Instr) (row : ValueRow) (R : Rel 64) (len : Nat) (op : Team → LaneOp) (s : State) (tm : Team), valueRow i = some row →
    wideRel i = some R → laneOpOf i = some (len, op) → Issues s tm → s.overlap = false → LaneReady tm (s.env s.cur tm) (op tm) →
    ∃ tm', exec i s = .next (s.teamNow tm') ∧ ∀ (t : Ty) (j : Nat) (x y z : BitVec 64), j < tm.w → t.is64 = true →
      (∀ sv, row.slot = some sv → tm.ty sv = (t, true)) → pairLane tm row.a j = some x → row.b.GivesPair tm t j y →
      row.c.GivesPair tm t j z → ∃ r, pairLane tm' row.d j = some r ∧ R t (fmtEnv tm.fmt) x y z r) ∧
  (∀ (i : Instr) (sv : Bool) (d a : BitVec 7) (b : ValArg) (c : Nat) (k : Bool) (len : Nat) (op : Team → LaneOp) (s : State)
    (tm : Team) (t : Ty) (r1 r2 : VRef), splitRow i = some (sv, d, a, b, c, k) → laneOpOf i = some (len, op) → Issues s tm →
    s.overlap = false → LaneReady tm (s.env s.cur tm) (op tm) → tm.ty sv = (t, true) → t.is64 = false →
    (t = .f32 → (fmtEnv tm.fmt).env.ftz = false) → (tm.vrefs d.toNat 2 2).regs = [r1, r2] →
    ∃ tm', exec i s = .next (s.teamNow tm') ∧ ∀ (j : Nat) (x y : Word), j < tm.w →
      (LaneArg.vec a).lane tm j = some x → b.Gives tm t j y →
      let lane (m : Team) (r : VRef) := (m.getV r).lanes.getD j none
      let rest (r : VRef) := if k then lane tm r else none
      (SplitHolds t c x y → lane tm' r1 = some x ∧ lane tm' r2 = rest r2) ∧
      (¬ SplitHolds t c x y → lane tm' r2 = some x ∧ lane tm' r1 = rest r1)) ∧
  (∀ (i : Instr) (o : ROp) (excl sv sg : Bool) (d a : BitVec 7) (len : Nat) (op : Team → LaneOp) (s : State) (tm : Team),
    scanRow i = some (o, excl, sv, d, a) → laneOpOf i = some (len, op) → Issues s tm → s.overlap = false →
    LaneReady tm (s.env s.cur tm) (op tm) → tm.ty sv = (if sg then .i32 else .n32, true) → (fmtEnv tm.fmt).sat = false →
    ∃ tm', exec i s = .next (s.teamNow tm') ∧ ∀ j x, j < tm.w → (LaneArg.vec a).lane tm j = some x →
      (LaneArg.vec d).lane tm' j = some (((List.range (if excl then j else j + 1)).filterMap ((LaneArg.vec a).lane tm)).foldl
        (combine o sg) (combineStart o sg))) ∧
  (∀ (i : Instr) (row : FloatRow) (s : State) (tm : Team) (xs : List Int) (r : DWord) (u : Int), floatRow i = some row →
    Issues s tm → OperandsReady tm (row.args.map fun a => ⟨a.toNat, 1⟩) [] [⟨row.d.toNat, 1⟩] →
    (fmtEnv tm.fmt).env.ftz = false →
    (groupUs tm (row.args.map fun a => ⟨a.toNat, 1⟩)).map row.src.value = xs.map some →
    row.dst.value r = some u → u ≠ 0 → row.exact xs u → (row.dst = .f32 → r.toNat < 2 ^ 32) →
    Completes i s tm row.len row.sq s { tm.results s.overlap ((groupRegs tm [⟨row.d.toNat, 1⟩]).map fun g => .uni g r) [] false with
      flags := ⟨false, r.getLsbD (if row.dst = .f32 then 31 else 63), false, false⟩ })

/-- The bitwise, shift and bit-field instructions compute on each lane of I what the table of R127 gives. -/
def Obligations.BitLanes : Prop :=
  ∀ (i : Instr) (d a : BitVec 7) (b : LaneArg) (k : Bool) (R : Word → Word → Word → Prop) (s : State) (tm : Team)
    (ra rd : VRef), bitRow i = some (d, a, b, k, R) → i.wf = true → Issues s tm → s.overlap = false →
    (tm.vrefs a.toNat 1 1).regs = [ra] → (tm.vrefs d.toNat 1 1).regs = [rd] →
    (∀ len op, laneOpOf i = some (len, op) → LaneReady tm (s.env s.cur tm) (op tm)) →
    ∃ tm', exec i s = .next (s.teamNow tm') ∧ ∀ j, j < tm.w →
      match (tm.getV ra).lanes.getD j none, b.lane tm j with
      | some x, some y => ∃ r, (tm'.getV rd).lanes.getD j none = some r ∧ R x y r
      | _, _ => (tm'.getV rd).lanes.getD j none = if k then (tm.getV rd).lanes.getD j none else none

/-- Instructions that move lanes: vmov copies (R147), vmask restricts to a map (R141), vmerge joins, va first (R140), vlane
writes lane numbers (R146), vfill fills with a constant (R142), vbcast repeats one lane (R149), vperm and vshfl gather by lane
number (R150, R151), vcompress moves the occupied lanes to the front (R144), vexpand places them in a map (R145), vfirst keeps
the first n (R143). Lanes outside the new set are empty, or in the keep form as they were (R22). -/
def Obligations.LaneMoves : Prop :=
  ∀ (i : Instr) (len : Nat) (op : Team → LaneOp) (d a b : BitVec 7)
    (g : Nat → (Nat → Option Word) → (Nat → Option Word) → DWord → Nat → Option Word) (s : State) (tm : Team),
    moveRow i = some (d, a, b, g) → laneOpOf i = some (len, op) → Issues s tm → s.overlap = false →
    LaneReady tm (s.env s.cur tm) (op tm) →
    ∃ tm', exec i s = .next (s.teamNow tm') ∧ ∀ j, j < tm.w →
      let lane (f : BitVec 7) (n : Nat) := (tm.getV ((tm.vrefs f.toNat 1 1).regs.headD (.team 0))).lanes.getD n none
      let new := g tm.w (lane a) (lane b) (tm.opnd ((tm.uref b.toNat false).regs.headD (.value 0#64))) j
      (tm'.getV ((tm.vrefs d.toNat 1 1).regs.headD (.team 0))).lanes.getD j none =
        if new.isSome then new else if (op tm).keep then lane d j else none

/-! ## Group instructions on registers (07_group_control) -/

/-- Every group instruction on registers whose operands are there and whose SEQ does not trap completes: its registers and
flags are written, then SEQ acts on the flags as they stand (R46, R190). It holds for each of the 57 instructions that
`groupOpOf` lists: uniform integers, moves, floats, map reads, reductions and getfmt. -/
def Obligations.GroupInstructionsComplete : Prop :=
  ∀ (i : Instr) (len : Nat) (sq : BitVec 3) (op : Team → GroupOp) (s : State) (tm : Team),
    groupOpOf i = some (len, sq, op) → Issues s tm → GroupReady tm (op tm) →
    Completes i s tm len sq s (groupWritten tm s.overlap (op tm))

/-- The frame of the group instructions on registers, whatever their outcome: only the team changes, and of it no vector
register, no uniform register but the destination, no target slot or counter; FMT and the arms only where SEQ is -> arm, the
calls only where it is -> ret; and the flags only where the instruction writes them (R191). -/
def Obligations.GroupFrame : Prop :=
  ∀ (i : Instr) (len : Nat) (sq : BitVec 3) (op : Team → GroupOp) (s t : State) (tm : Team),
    groupOpOf i = some (len, sq, op) → Issues s tm → exec i s = .next t →
    ∃ tm', t = s.teamNow tm' ∧ tm'.vregs = tm.vregs ∧ tm'.slots = tm.slots ∧ tm'.cc = tm.cc ∧ tm'.landings = tm.landings ∧
      (∀ r, r ∉ groupRegs tm (op tm).dsts → tm'.getU r = tm.getU r) ∧
      (sq ≠ 5#3 → tm'.fmt = tm.fmt ∧ tm'.arms = tm.arms) ∧ (sq ≠ 6#3 → tm'.calls = tm.calls) ∧
      ((groupRes tm (op tm)).flags = none → tm'.flags = tm.flags)

/-- The uniform integer instructions write r and the flags that the table of R192 gives, with the shifts of R193 and the
division corners of R194; gcmp writes the flags alone. -/
def Obligations.UniformIntegers : Prop :=
  ∀ (i : Instr) (sq : BitVec 3) (d : Option (BitVec 7)) (a : BitVec 7) (b : GroupArg) (row : IntRow) (s : State)
    (tm : Team), intRow i = some (sq, d, a, b, row) → Issues s tm →
    OperandsReady tm (⟨a.toNat, 1⟩ :: b.uses) [] (d.toList.map fun x => ⟨x.toNat, 1⟩) →
    let x := (groupUs tm [⟨a.toNat, 1⟩]).headD 0#64
    let y := b.value tm
    let r := row.r x y
    let ws := (groupRegs tm (d.toList.map fun f => ⟨f.toNat, 1⟩)).map fun g => RegWrite.uni g r
    Completes i s tm 4 sq s { tm.results s.overlap ws [] false with flags := ⟨decide (r = 0#64), r.getLsbD 63, row.c x y, row.v x y⟩ }

/-- gmov copies a register, gli and gliw load a sign-extended constant (R196); gsel writes ga to gd where its condition holds on the
flags by the table of R47, and gb otherwise (R195). None of them writes the flags. -/
def Obligations.MovesAndSelect : Prop :=
  (∀ (sq : BitVec 3) (s : State) (tm : Team), Issues s tm →
      (∀ d c : BitVec 10, OperandsReady tm [⟨c.toNat, 1⟩] [] [⟨d.toNat, 1⟩] →
        Completes (.gmov sq d c) s tm 4 sq s (tm.results s.overlap ((groupRegs tm [⟨d.toNat, 1⟩]).map fun g =>
          .uni g ((groupUs tm [⟨c.toNat, 1⟩]).headD 0#64)) [] false)) ∧
      (∀ (d : BitVec 7) (x : BitVec 14), OperandsReady tm [] [] [⟨d.toNat, 1⟩] →
        Completes (.gli sq d x) s tm 4 sq s
          (tm.results s.overlap ((groupRegs tm [⟨d.toNat, 1⟩]).map fun g => .uni g (x.signExtend 64)) [] false)) ∧
      (∀ (d : BitVec 10) (x : BitVec 32), OperandsReady tm [] [] [⟨d.toNat, 1⟩] →
        Completes (.gliw sq d x) s tm 8 sq s
          (tm.results s.overlap ((groupRegs tm [⟨d.toNat, 1⟩]).map fun g => .uni g (x.signExtend 64)) [] false))) ∧
  (∀ (sq : BitVec 3) (d a b : BitVec 7) (cond : BitVec 4) (s : State) (tm : Team) (x : DWord),
      cond.toNat ≤ 8 → Issues s tm → OperandsReady tm [⟨a.toNat, 1⟩, ⟨b.toNat, 1⟩] [] [⟨d.toNat, 1⟩] →
      (Condition cond.toNat tm.flags → x = (groupUs tm [⟨a.toNat, 1⟩]).headD 0#64) →
      (¬ Condition cond.toNat tm.flags → x = (groupUs tm [⟨b.toNat, 1⟩]).headD 0#64) →
      Completes (.gsel sq d a b cond) s tm 8 sq s (tm.results s.overlap ((groupRegs tm [⟨d.toNat, 1⟩]).map fun g => .uni g x) [] false))

/-- The map reads give the counts, words and lanes of R205, and set Z by them with N, C and V clear. mapset replaces a map word:
lanes that stay keep their values, added lanes hold 0, removed lanes are dropped; mapclr empties the map; both write no flags
(R206). gred in i32 and n32 reduces the occupied lanes, extends the result to 64 bits and sets Z and N by it; FMT.SAT plays no
part (R207, R230). -/
def Obligations.MapReadsAndWrites : Prop :=
  (∀ (sq : BitVec 3) (d a k : BitVec 7) (s : State) (tm : Team) (ra : VRef) (use : SrcUse), Issues s tm →
      (tm.vrefs a.toNat 1 1).regs = [ra] → OperandsReady tm [] [⟨a.toNat, 1, 1, false, use⟩] [⟨d.toNat, 1⟩] →
      let ls := (tm.getV ra).lanes
      let gives (i : Instr) (n : Nat) (z : Prop) : Prop := ∀ f : Flags, (f.z = true ↔ z) → f.n = false → f.c = false → f.v = false →
        Completes i s tm 4 sq s { tm.results s.overlap ((groupRegs tm [⟨d.toNat, 1⟩]).map fun g => .uni g (BitVec.ofNat 64 n)) [] false with
          flags := f }
      (use = .map → gives (.mapcnt sq d a) (ls.countP (·.isSome)) (∀ x ∈ ls, x = none)) ∧
      (use = .map → ∀ m : Word, (∀ n, n < 32 → m.getLsbD n = (ls.getD (32 * k.toNat + n) none).isSome) →
        gives (.mapget sq d a k) m.toNat (m = 0#32)) ∧
      (use = .value → gives (.gballot sq d a k) (ls.countP fun x => (x.map fun v => v.getLsbD k.toNat).getD false)
        (∀ x ∈ ls, ∀ v, x = some v → v.getLsbD k.toNat = false)) ∧
      (use = .map → ∀ j, j < ls.length → (ls.getD j none).isSome = true → (∀ n, n < j → ls.getD n none = none) →
        gives (.gfirst sq d a) j False) ∧
      (use = .map → (∀ x ∈ ls, x = none) → gives (.gfirst sq d a) tm.w True)) ∧
  (∀ (sq : BitVec 3) (g a k : BitVec 7) (s : State) (tm : Team) (r : VRef), Issues s tm →
      (tm.vrefs a.toNat 1 1).written.regs = [r] →
      (∀ (ls : List (Option Word)) (p : List (Nat × Poison)), OperandsReady tm [⟨g.toNat, 1⟩] [⟨a.toNat, 1, 1, false, .map⟩] [] →
        ls.length = (tm.getV r).lanes.length →
        (∀ j, j < ls.length → ls.getD j none =
          if j / 32 = k.toNat then
            if ((groupUs tm [⟨g.toNat, 1⟩]).headD 0#64).getLsbD (j % 32) then some (((tm.getV r).lanes.getD j none).getD 0#32) else none
          else (tm.getV r).lanes.getD j none) →
        p = (tm.getV r).poison.filter (fun x => (ls.getD x.1 none).isSome) →
        slotsOf ls - slotsOf (tm.getV r).lanes ≤ (s.env s.cur tm).slots →
        Completes (.mapset sq g a k) s tm 4 sq s (tm.results s.overlap [.vec r ls p] [] false)) ∧
      (OperandsReady tm [] [⟨a.toNat, 1, 1, false, .map⟩] [] →
        Completes (.mapclr sq a) s tm 4 sq s (tm.results s.overlap [.vec r ((tm.getV r).lanes.map fun _ => none) []] [] false))) ∧
  (∀ (i : Instr) (o : ROp) (sv sg : Bool) (sq : BitVec 3) (d a : BitVec 7) (s : State) (tm : Team) (ra : VRef) (r : Word)
    (g : DWord), redRow i = some (o, sv, sq, d, a) → Issues s tm → tm.ty sv = (if sg then .i32 else .n32, true) →
    (tm.vrefs a.toNat 1 1).regs = [ra] → OperandsReady tm [] [⟨a.toNat, 1, 1, false, .value⟩] [⟨d.toNat, 1⟩] →
    r = ((tm.getV ra).lanes.filterMap id).foldl (combine o sg) (combineStart o sg) →
    g = (if sg then r.signExtend 64 else r.setWidth 64) →
    Completes i s tm 4 sq s { tm.results s.overlap ((groupRegs tm [⟨d.toNat, 1⟩]).map fun x => .uni x g) [] false with
      flags := ⟨decide (g = 0#64), g.getLsbD 63, false, false⟩ })
/-! ## Sequencing, calls, arms, format, counters, special registers -/

/-- The SEQ field selects the next address as the table of R46 gives, shown on gnop, which does nothing else (R203): the next
instruction; a target slot's address where its condition holds by the table of R47, else the next; the top of the arm stack
with its FMT (R51); the top of the call stack (R49); the end of the team (R54). A SEQ that cannot act traps at its
instruction: an unset slot with 0x0C whether or not it would be taken (R48), an empty arm stack with 0x09 subcode 1 (R51), an
empty call stack with 0x0A subcode 1 (R49), an end inside an arm with 0x0B (R54), a taken jump outside the extent with 0x0C
(R57). -/
def Obligations.SequenceField : Prop :=
  (∀ (sq : BitVec 3) (s : State) (tm : Team), Issues s tm →
      let e := s.env s.cur tm
      let goes (tm' : Team) : Prop := exec (.gnop sq) s = .next (s.teamNow (tm'.retired e))
      (sq = 0#3 → goes (tm.goto (tm.pc.toNat + 4))) ∧
      (∀ t, 1 ≤ sq.toNat → sq.toNat ≤ 4 → tm.slots.getD (sq.toNat - 1) none = some t →
        (¬ Condition t.cond tm.flags → goes (tm.goto (tm.pc.toNat + 4))) ∧
        (Condition t.cond tm.flags → tm.inExtent e t.addr.toNat = true → goes (tm.goto t.addr.toNat))) ∧
      (∀ a rest, sq = 5#3 → tm.arms = a :: rest → tm.inExtent e a.addr.toNat = true →
        goes ({ tm with arms := rest, fmt := a.fmt }.goto a.addr.toNat)) ∧
      (∀ a rest, sq = 6#3 → tm.calls = a :: rest → tm.inExtent e a.toNat = true →
        goes ({ tm with calls := rest }.goto a.toNat)) ∧
      (sq = 7#3 → tm.arms = [] → goes { tm.goto (tm.pc.toNat + 4) with status := .ending })) ∧
  (∀ (sq : BitVec 3) (s : State) (tm : Team), Issues s tm →
      let e := s.env s.cur tm
      let traps (cause sub : Nat) : Prop := ∃ tm' st, exec (.gnop sq) s = .next (s.teamNow tm') ∧ tm'.status = .stopped ∧
        tm'.stop = some st ∧ st.cause = cause ∧ st.sub = sub ∧ st.pc = tm.pc ∧ tm'.pc = tm.pc ∧ tm'.arms = tm.arms ∧ tm'.calls = tm.calls
      (1 ≤ sq.toNat → sq.toNat ≤ 4 → tm.slots.getD (sq.toNat - 1) none = none → traps 0x0C 2) ∧
      (sq = 5#3 → tm.arms = [] → traps 0x09 1) ∧ (sq = 6#3 → tm.calls = [] → traps 0x0A 1) ∧
      (sq = 7#3 → tm.arms ≠ [] → traps 0x0B 0) ∧
      (∀ t, 1 ≤ sq.toNat → sq.toNat ≤ 4 → tm.slots.getD (sq.toNat - 1) none = some t → Condition t.cond tm.flags →
        tm.inExtent e t.addr.toNat = false → traps 0x0C 0))

/-- gtgt writes a target slot with an address and a condition, a code from 0 to 8 (R47, R48): GX the pc plus the word offset, modulo 2^48 (R97), GA bits 47:2
of a register (R203), the condition one that R47 gives a meaning. gcall pushes the address of the next instruction and jumps; a 65th entry traps with 0x0A subcode 0 and a
target outside the extent with 0x0C, at the gcall, and nothing is pushed (R49). From the last word of the space the address pushed is
0, which is the model's choice (log entry 76). -/
def Obligations.TargetSlotsAndCalls : Prop :=
  (∀ (sq : BitVec 3) (n : BitVec 2) (cond : BitVec 4) (s : State) (tm : Team), cond.toNat ≤ 8 → Issues s tm →
      (∀ (off : BitVec 30) (a : BitVec 48), a = tm.pc + off.signExtend 48 * 4#48 →
        Completes (.gtgtGx sq n cond off) s tm 8 sq s { tm with slots := upd tm.slots n.toNat fun _ => some ⟨a, cond.toNat⟩ }) ∧
      (∀ (g : BitVec 7) (a : BitVec 48), OperandsReady tm [⟨g.toNat, 1⟩] [] [] →
        (∀ k, k < 48 → a.getLsbD k = (decide (2 ≤ k) && ((groupUs tm [⟨g.toNat, 1⟩]).headD 0#64).getLsbD k)) →
        Completes (.gtgtGa sq n cond g) s tm 4 sq s { tm with slots := upd tm.slots n.toNat fun _ => some ⟨a, cond.toNat⟩ })) ∧
  (∀ (s : State) (tm : Team) (i : Instr) (len : Nat) (a : BitVec 48), Issues s tm →
      ((∃ off : BitVec 30, i = .gcallGx off ∧ len = 8 ∧ a = tm.pc + off.signExtend 48 * 4#48) ∨
        (∃ g : BitVec 7, i = .gcallGa g ∧ len = 4 ∧ OperandsReady tm [⟨g.toNat, 1⟩] [] [] ∧
          ∀ k, k < 48 → a.getLsbD k = (decide (2 ≤ k) && ((groupUs tm [⟨g.toNat, 1⟩]).headD 0#64).getLsbD k))) →
      let e := s.env s.cur tm
      (tm.calls.length < 64 → tm.inExtent e a.toNat = true →
        exec i s = .next (s.teamNow
          (({ tm with calls := BitVec.ofNat 48 (tm.pc.toNat + len) :: tm.calls }.goto a.toNat).retired e))) ∧
      (64 ≤ tm.calls.length ∨ tm.inExtent e a.toNat = false →
        ∃ tm' st, exec i s = .next (s.teamNow tm') ∧ tm'.status = .stopped ∧ tm'.stop = some st ∧ st.pc = tm.pc ∧
          tm'.calls = tm.calls ∧ st.sub = 0 ∧ st.cause = if 64 ≤ tm.calls.length then 0x0A else 0x0C))


/-- bcase gives each lane to the first guard whose map holds it, pushes the join and the arms after the first non-empty one,
each with FMT, and jumps to the first; with no arm it goes on and pushes nothing (R50). After the last word of the space the join
address is 0, which is the model's choice (log entry 76). -/
def Obligations.CaseArms : Prop :=
  ∀ (n : BitVec 3) (g0 g1 g2 g3 : BitVec 7) (s : State) (tm : Team) (rs : List VRef) (arms : List Nat), Issues s tm →
    s.overlap = false → ([g0, g1, g2, g3].take n.toNat).map (fun g => (tm.vrefs g.toNat 1 1).written) = rs.map (fun r => ⟨[], [r]⟩) →
    rs.Nodup → (∀ r ∈ rs, (tm.getV r).full = true) →
    let lane (k j : Nat) : Option Word := (tm.getV (rs.getD k (.team 0))).lanes.getD j none
    let mine (k j : Nat) : Bool := (lane k j).isSome && (List.range k).all fun m => (lane m j).isNone
    arms = (List.range rs.length).filter (fun k =>
      (List.range (tm.getV (rs.getD k (.team 0))).lanes.length).any fun j => mine k j) →
    let entry (k : Nat) : CodeAddr := ((tm.slots.getD k none).map (·.addr)).getD 0#48
    (∀ k ∈ arms, (tm.slots.getD k none).isSome = true) → (arms ≠ [] → tm.arms.length + arms.length ≤ 256) →
    (∀ k, arms.head? = some k → tm.inExtent (s.env s.cur tm) (entry k).toNat = true) →
    ∃ tm', exec (.bcase n g0 g1 g2 g3) s = .next (s.teamNow tm') ∧ tm'.fmt = tm.fmt ∧ tm'.uregs = tm.uregs ∧
      (∀ k, k < rs.length → ∀ j, (tm'.getV (rs.getD k (.team 0))).lanes.getD j none = if mine k j then lane k j else none) ∧
      (arms = [] → tm'.arms = tm.arms ∧ tm'.pc = BitVec.ofNat 48 (tm.pc.toNat + 8)) ∧
      (∀ k rest, arms = k :: rest → tm'.pc = entry k ∧
        tm'.arms = rest.map (fun m => ⟨false, entry m, tm.fmt⟩) ++ ⟨true, BitVec.ofNat 48 (tm.pc.toNat + 8), tm.fmt⟩ :: tm.arms)

/-- setfmt writes FMT from imm14 or bits 13:0 of a register (R208), getfmt reads it zero-extended (R208); a reserved type code in P or S traps with 0x0E and leaves
FMT as it was (R33). waitlt goes on where the counter is below n, and else waits; ccadd adds its signed constant, and a result
outside 0 to 65,535 traps with 0x27 and leaves the counter; neither writes the flags (R213). fence, once no load of the team is
in flight, goes on (R212; accesses are performed in issue order, log entry 14); at fold scope and wider it is a release and an
acquire of the team's core (R354). A wait that ends sees what engines have written (R354). -/
def Obligations.FormatsCountersFences : Prop :=
  (∀ (sq : BitVec 3) (d : BitVec 7) (s : State) (tm : Team), Issues s tm → OperandsReady tm [] [] [⟨d.toNat, 1⟩] →
    Completes (.getfmt sq d) s tm 4 sq s
      (tm.results s.overlap ((groupRegs tm [⟨d.toNat, 1⟩]).map fun g => .uni g (tm.fmt.setWidth 64)) [] false)) ∧
  (∀ (i : Instr) (sq : BitVec 3) (x : BitVec 14) (s : State) (tm : Team), Issues s tm →
      (i = .setfmtGk sq x ∨ ∃ a : BitVec 7, i = .setfmtGa sq a ∧ OperandsReady tm [⟨a.toNat, 1⟩] [] [] ∧
        x = ((groupUs tm [⟨a.toNat, 1⟩]).headD 0#64).setWidth 14) →
      (x.toNat % 16 ≤ 11 → x.toNat / 16 % 16 ≤ 11 →
        Completes i s tm 4 sq s { tm with fmt := x.setWidth 32 }) ∧
      (12 ≤ x.toNat % 16 ∨ 12 ≤ x.toNat / 16 % 16 →
        ∃ t st, exec i s = .next (s.teamNow t) ∧ t.status = .stopped ∧ t.stop = some st ∧ st.cause = 0x0E ∧ st.pc = tm.pc ∧
          t.fmt = tm.fmt)) ∧
  (∀ (sq c : BitVec 3) (n : BitVec 14) (s : State) (tm : Team), Issues s tm →
      let cc := tm.cc.getD c.toNat 0#16
      (cc.toNat < n.toNat → Completes (.waitlt sq c n) s tm 4 sq s.seeEngines tm) ∧
      (n.toNat ≤ cc.toNat →
        exec (.waitlt sq c n) s = .next (s.seeEngines.teamNow { tm with wait := .counter c.toNat n.toNat, waitAt := s.moves + 1 })) ∧
      (∀ x : BitVec 16, (x.toNat : Int) = cc.toNat + n.toInt →
        Completes (.ccadd sq c n) s tm 4 sq s { tm with cc := upd tm.cc c.toNat fun _ => x }) ∧
      ((cc.toNat : Int) + n.toInt < 0 ∨ 65535 < (cc.toNat : Int) + n.toInt →
        ∃ t st, exec (.ccadd sq c n) s = .next (s.teamNow t) ∧ t.status = .stopped ∧ t.stop = some st ∧ st.cause = 0x27 ∧
          t.cc = tm.cc ∧ t.flags = tm.flags) ∧
      (∀ fd : Fold, s.fold? tm.fold = some fd → tm.inflight = [] →
        (c = 0#3 → Completes (.fence sq c) s tm 4 sq s tm) ∧
        (c ≠ 0#3 → let s1 := (s.releaseBy tm).acquireBy tm
          Completes (.fence sq c) s tm 4 sq s1 (s1.teamOr tm))))

/-- grow adds registers at the top of an allotment, empty or zero and full, where the four conditions of R209 hold, and clears
Z; otherwise it changes nothing and sets Z. shrink removes registers from the top once they are full, and the reservation falls
with the vector allotment; one that would leave too few traps with 0x04 (R210). -/
def Obligations.Allotments : Prop :=
  (∀ (sq : BitVec 3) (sel : BitVec 7) (n : BitVec 14) (s : State) (tm : Team), Issues s tm → sel.toNat < 2 →
      let v := tm.vregs.length + if sel = 0#7 then n.toNat else 0
      let u := tm.uregs.length + if sel = 1#7 then n.toNat else 0
      let room := v ≤ 128 ∧ u ≤ 1024 ∧ v * (tm.w / 32) ≤ 1536 ∧ (sel = 1#7 → n.toNat ≤ s.uniFree tm) ∧
        teamArea tm.w v u - tm.area ≤ s.saveRoom tm
      (n = 0#14 ∨ room →
        Completes (.grow sq sel n) s tm 4 sq s { tm with
            area := max tm.area (if n = 0#14 then 0 else teamArea tm.w v u)
            vregs := tm.vregs ++ List.replicate (v - tm.vregs.length) (VReg.fresh tm.w)
            uregs := tm.uregs ++ List.replicate (u - tm.uregs.length) UReg.zero
            flags := { tm.flags with z := false } }) ∧
      (n ≠ 0#14 → ¬ room →
        Completes (.grow sq sel n) s tm 4 sq s { tm with flags := { tm.flags with z := true } })) ∧
  (∀ (sq : BitVec 3) (sel : BitVec 7) (n : BitVec 14) (s : State) (tm : Team), Issues s tm → sel.toNat < 2 →
      let v := tm.vregs.length - if sel = 0#7 then n.toNat else 0
      let u := tm.uregs.length - if sel = 1#7 then n.toNat else 0
      (1 ≤ v → 32 ≤ u → (∀ r ∈ tm.vregs.drop v, r.full = true) → (∀ r ∈ tm.uregs.drop u, r.full = true) →
        Completes (.shrink sq sel n) s tm 4 sq s
          { tm with vregs := tm.vregs.take v, uregs := tm.uregs.take u, resv := min tm.resv (v * (tm.w / 32)) }) ∧
      (n ≠ 0#14 → (sel = 0#7 ∧ v < 1) ∨ (sel = 1#7 ∧ u < 32) →
        ∃ t st, exec (.shrink sq sel n) s = .next (s.teamNow t) ∧ t.status = .stopped ∧ t.stop = some st ∧ st.cause = 0x04 ∧
          t.vregs = tm.vregs ∧ t.uregs = tm.uregs))


/-- gsys.rd reads the special registers of R218, gsys.wr writes FX, bits above it ignored, and neither writes the flags. Each waits with
FX until the instructions before it that may raise a flag have completed (R233), which is every one whose computed result is in flight
(log entry 124). -/
def Obligations.SpecialRegisters : Prop :=
  ∀ (sq : BitVec 3) (d : BitVec 7) (n : BitVec 12) (x : DWord) (s : State) (tm : Team), Issues s tm →
    (OperandsReady tm [] [] [⟨d.toNat, 1⟩] → SpecialValue s tm n.toNat x → (n = 0#12 → tm.computing = false) →
      Completes (.gsysRd sq d n) s tm 4 sq s (tm.results s.overlap ((groupRegs tm [⟨d.toNat, 1⟩]).map fun g => .uni g x) [] false)) ∧
    (n = 0#12 → OperandsReady tm [⟨d.toNat, 1⟩] [] [] → tm.computing = false →
      Completes (.gsysWr sq d n) s tm 4 sq s { tm with fx := ((groupUs tm [⟨d.toNat, 1⟩]).headD 0#64).setWidth 6 }) ∧
    (tm.computing = true → ∀ i, (i = .gsysRd sq d 0#12 ∨ i = .gsysWr sq d n) →
      exec i s = .next (s.teamNow { tm with wait := .flags, waitAt := s.moves + 1 }))

/-- gtrap traps with cause 0x0F and its code as the subcode, gbrk with cause 0x38 and its tag (R220): the team stops at the
instruction, with its registers, flags and FMT as they stand (R409, R410). gend ends the team and traps with 0x0B inside an
arm; gend.drop discards pending arms and ends the team (R54). -/
def Obligations.SoftwareTrapsAndEnds : Prop :=
  (∀ (sq : BitVec 3) (c : BitVec 14) (s : State) (tm : Team), Issues s tm →
      ∀ i cause, (i = Instr.gtrap sq c ∧ cause = 0x0F) ∨ (i = Instr.gbrk sq c ∧ cause = 0x38) →
        ∃ tm' st, exec i s = .next (s.teamNow tm') ∧ tm'.status = .stopped ∧ tm'.stop = some st ∧ st.cause = cause ∧
          st.sub = c.toNat ∧ st.pc = tm.pc ∧ st.fmt = tm.fmt ∧ st.sec = 0#64 ∧ st.stray = !tm.stray.isEmpty ∧
          tm'.pc = tm.pc ∧ tm'.vregs = tm.vregs ∧ tm'.uregs = tm.uregs ∧ tm'.flags = tm.flags ∧ tm'.fx = tm.fx) ∧
  (∀ (s : State) (tm : Team), Issues s tm →
      (tm.arms = [] → ∃ tm', exec .gend s = .next (s.teamNow tm') ∧ tm'.status = .ending ∧ tm'.vregs = tm.vregs) ∧
      (tm.arms ≠ [] → ∃ tm' st, exec .gend s = .next (s.teamNow tm') ∧ tm'.status = .stopped ∧ tm'.stop = some st ∧
        st.cause = 0x0B ∧ st.pc = tm.pc ∧ tm'.arms = tm.arms) ∧
      (∃ tm', exec .gendDrop s = .next (s.teamNow tm') ∧ tm'.status = .ending ∧ tm'.arms = []))

/-- Words that are no instruction of the part, and the vmed3 of the absent group PX2, are strays: with a handler and a
free level, the team enters stray mode at the handler, with the words and pc saved, private registers empty and zero, flags
clear and target slots unset (R106, R396, R416, R420), and with no halt at hand it runs on (R410); without a handler it traps with 0x29, at depth 2 with 0x28. -/
def Obligations.StrayEntry : Prop :=
  ∀ (i : Instr) (w0 w1 : Word) (r : Reject) (s : State) (tm : Team), Issues s tm →
    (i = .stray w0 w1 ∨ (∃ sv d a b wa wb k c wc, i = .vmed3VectorC sv d a b wa wb k c wc ∧ encode i = [w0, w1]) ∨
      (∃ sv d a b wa wb k c wc, i = .vmed3UniformC sv d a b wa wb k c wc ∧ encode i = [w0, w1])) →
    strayOf w0 w1 = some r →
    (tm.stray.length < 2 → (s.env s.cur tm).hLo ≠ 0 → ∃ tm' fr, exec i s = .next (s.teamNow tm') ∧
      tm'.stray = fr :: tm.stray ∧ fr.cause = r.cause ∧ fr.raw0 = w0 ∧ (isPair w0 = true → fr.raw1 = w1) ∧ fr.pc = tm.pc ∧
      fr.flags = tm.flags ∧ fr.slots = tm.slots ∧ fr.ev = Vector.replicate 8 (VReg.fresh tm.w) ∧
      fr.fu = Vector.replicate 16 UReg.zero ∧ tm'.flags = ⟨false, false, false, false⟩ ∧ tm'.slots = List.replicate 4 none ∧
      tm'.pc = BitVec.ofNat 48 (s.env s.cur tm).hLo ∧ (NoHalt tm (s.env s.cur tm) → tm'.status = .run) ∧ tm'.vregs = tm.vregs ∧ tm'.uregs = tm.uregs) ∧
    (tm.stray.length = 2 ∨ (s.env s.cur tm).hLo = 0 → ∃ tm' st, exec i s = .next (s.teamNow tm') ∧ tm'.status = .stopped ∧
      tm'.stop = some st ∧ st.pc = tm.pc ∧ tm'.stray = tm.stray ∧ st.sub = r.cause ∧
      st.cause = if tm.stray.length = 2 then 0x28 else 0x29)

/-- Leaving stray mode: the private registers are released and the target slots are as at entry; sret goes on past the stray,
with the flags of entry for an L-set stray; sret.again goes on at the stray, running where no halt is at hand (R410); sret.trap delivers its cause at the stray
(R400, R418). Outside stray mode each of them traps with cause 0x2A (R220). -/
def Obligations.StrayReturn : Prop :=
  (∀ (s : State) (tm : Team) (fr : Frame) (rest : List Frame), Issues s tm → tm.stray = fr :: rest →
      (isG fr.raw0 = false → ∃ tm', exec .sret s = .next (s.teamNow tm') ∧ tm'.stray = rest ∧ tm'.slots = fr.slots ∧
        tm'.flags = fr.flags ∧ tm'.pc = BitVec.ofNat 48 (fr.pc.toNat + opLen fr.raw0) ∧ tm'.vregs = tm.vregs ∧ tm'.uregs = tm.uregs) ∧
      (isG fr.raw0 = true → gQ fr.raw0 = 0#3 → ∃ tm', exec .sret s = .next (s.teamNow tm') ∧ tm'.stray = rest ∧
        tm'.slots = fr.slots ∧ tm'.flags = tm.flags ∧ tm'.pc = BitVec.ofNat 48 (fr.pc.toNat + opLen fr.raw0)) ∧
      (∃ tm', exec .sretAgain s = .next (s.teamNow tm') ∧ tm'.stray = rest ∧ tm'.slots = fr.slots ∧ tm'.pc = fr.pc ∧
        (NoHalt tm (s.env s.cur tm) → tm'.status = .run)) ∧
      (∀ c : BitVec 6, ∃ tm' st, exec (.sretTrap c) s = .next (s.teamNow tm') ∧ tm'.stray = rest ∧ tm'.slots = fr.slots ∧
        tm'.status = .stopped ∧ tm'.stop = some st ∧ st.cause = c.toNat ∧ st.pc = fr.pc)) ∧
  (∀ (i : Instr) (s : State) (tm : Team), Issues s tm → tm.stray = [] →
      (i = .sret ∨ i = .sretAgain ∨ ∃ c, i = .sretTrap c) →
      ∃ tm' st, exec i s = .next (s.teamNow tm') ∧ tm'.status = .stopped ∧ tm'.stop = some st ∧ st.cause = 0x2A ∧ st.pc = tm.pc)
/-! ## Memory instructions (06_lane_memory, R199-R202) -/

/-- Loads vld, vld.r, vldw.x2, vldw.x4 and vld.acq complete: operands and record there, no lane that faults, no poison or mixed
size met as the data arrives, slots free; each destination takes the lanes that stay with their data, and the pc moves on
(R164-R166, R170, R172, R173, R176). With results left in flight (log entry 3), a load of a plain record that issues leaves its
destinations empty and its lines on the way, one a 64-byte line, each with its lanes, the bytes read and the faults found (R27,
R165). vld.acq acquires first (R173, R354). vpref brings lines into the core's L1, whole; it changes no register and, where no dirty byte
and no decoded block leaves for them and no error-counter sets are due at the pages used (R344), no memory, and faults on no lane's bounds (R174):
it goes on whatever its lanes name. -/
def Obligations.LaneLoadsComplete : Prop :=
  ((∀ (i : Instr) (m : MemOp) (s : State) (fd : Fold) (tm : Team) (r : Rec) (keep : Option (List DWord)),
        memOpOf i = some m → m.kind = .load → IssuesIn s fd tm → MemReady s fd tm m r keep →
        let e := s.env s.cur tm
        let s1 := memBegun s tm m keep
        let fates := memFates s1 fd tm m r
        let ok := goingOn fates
        let s2 := memFetched s1 fd tm m r
        let s3 := memSeen s2 tm m r ok
        let d := s3.readLanes (s2.coreOf tm) fd.ctx r ok
        (s.overlap = false ∨ r.coded = true ∨ ok = []) → faultsOf fates = [] → s3.arrivalFaults (s2.coreOf tm) fd.ctx (m.n * r.size) m.strong r ok = [] →
        slotsDrawn tm (loadWrites tm m r fates (ok.map fun x => (x.1, List.replicate (m.n * r.size) (0#8 : Byte)))) ≤ e.slots →
        exec i s = .next ((d.2.note fd.ctx m.strong (m.n * r.size) ok).teamNow
          (memTeam (s3.teamOr tm) e m (loadWrites tm m r fates d.1) []))) ∧
    (∀ (i : Instr) (m : MemOp) (s : State) (fd : Fold) (tm : Team) (r : Rec) (keep : Option (List DWord)),
        memOpOf i = some m → m.kind = .load → IssuesIn s fd tm → s.overlap = true → MemReady s fd tm m r keep → r.coded = false →
        let e := s.env s.cur tm
        let s1 := memBegun s tm m keep
        let fates := memFates s1 fd tm m r
        let ok := goingOn fates
        let blank := loadWrites tm m r fates (ok.map fun x => (x.1, List.replicate (m.n * r.size) (0#8 : Byte)))
        let s2 := memFetched s1 fd tm m r
        let s3 := memSeen s2 tm m r ok
        let fs := s3.arrivalFaults (s2.coreOf tm) fd.ctx (m.n * r.size) m.strong r ok
        let d := s3.readLanes (s2.coreOf tm) fd.ctx r (goodLanes r fs ok)
        faultsOf fates = [] → ok ≠ [] → slotsDrawn tm blank ≤ e.slots →
        exec i s = .next ((d.2.note fd.ctx m.strong (m.n * r.size) (goodLanes r fs ok)).teamNow
          (memTeam (s3.teamOr tm) e m blank (loadLines r.addr (m.n * r.size) (r.enc == 4) d.1 fs ok))))) ∧
  (∀ (i g : BitVec 7) (wa : Bool) (m : MemOp) (s : State) (fd : Fold) (tm : Team) (r : Rec) (keep : Option (List DWord)),
      memOpOf (.vpref i g wa) = some m → IssuesIn s fd tm → MemReady s fd tm m r keep →
      let s1 := memBegun s tm m keep
      let s2 := memFetched s1 fd tm m r
      let open' := s2.opens (s2.coreOf tm) r (goingOn (memFates s1 fd tm m r))
      let ok := (goingOn (memFates s1 fd tm m r)).filter fun x => x.2.2.all fun p => !p.coded || (open'.poisonRuns p.segs).isEmpty
      let s3 := if r.coded then (open'.readLanes (s2.coreOf tm) fd.ctx r ok).2
        else (open'.readPlain (s2.coreOf tm) (r.enc == 4) (lineRuns (ok.map laneRuns).flatten)).2
      exec (.vpref i g wa) s = .next (s3.teamNow (memTeam tm (s.env s.cur tm) m [] [])) ∧
        (r.coded = false → s.written = true → s.decoded = [] → (s.ctx fd.ctx).setsDue = false → s3.mem = s.mem))

/-- What vld, vldw.x2, vldw.x4 and vld.acq give a lane, with no block held decoded and no L1 line. Of a plain record: the little-endian bytes at the
translated address of its elements, 4 a register, the last zero-extended; memory is as before (R158, R163, R168, R170, R172). Of a coded
record, for lanes of one block: the values at the elements' positions in what the block decodes to, 8 bytes each (R181, R341). -/
def Obligations.PlainLoadValue : Prop :=
  ∀ (i : Instr) (m : MemOp) (s : State) (fd : Fold) (tm : Team) (r : Rec) (keep : Option (List DWord)) (rds : List VRef)
    (j x pa : Nat) (dr : Bool), memOpOf i = some m → m.kind = .load → m.miss = false → IssuesIn s fd tm →
    s.overlap = false → s.decoded = [] → s.l1d = [] → s.l1b = [] → (s.ctx fd.ctx).setsDue = false → MemReady s fd tm m r keep →
    (memData tm m r).regs = rds →
    let e := s.env s.cur tm
    let s1 := memBegun s tm m keep
    let fates := memFates s1 fd tm m r
    let ok := goingOn fates
    let s2 := memFetched s1 fd tm m r
    let b := m.n * r.size
    let gives (t : State) (bytes : List Byte) : Prop := ∃ tm', t.team? t.cur = some tm' ∧ ∀ q rd, rds[q]? = some rd →
      (tm'.getV rd).lanes.getD j none = some (wordOfNat (numOf ((bytes.drop (4 * q)).take 4)))
    faultsOf fates = [] → (memSeen s2 tm m r ok).arrivalFaults (s2.coreOf tm) fd.ctx b m.strong r ok = [] →
    slotsDrawn tm (loadWrites tm m r fates (ok.map fun y => (y.1, List.replicate b (0#8 : Byte)))) ≤ e.slots →
    (j, x) ∈ memLanes tm m r → r.inBounds x m.n = true →
    ∃ t, exec i s = .next t ∧
      (r.coded = false → r.addr x % 65536 + b ≤ 65536 → s1.translate (s1.tlbOf tm) fd.ctx (r.addr x) .read = .ok pa dr →
        pa + b ≤ 0x4000000000000 → t.mem = s.mem ∧ gives t (memRead s.mem pa b)) ∧
      (r.coded = true → blocksOf ok = [([(pa, blockBytes r.rate)], dr)] → pa + blockBytes r.rate ≤ 0x4000000000000 →
        gives t (((List.range m.n).map fun k =>
          bytesOf 8 ((decodeBlock (memRead s.mem pa (blockBytes r.rate))).getD (r.blockOf (x + k)).2 0)).flatten))

/-- Stores vst, vstw.x2, vstw.x4 and vst.rel complete: to a plain record they write their lanes' bytes, to a coded one they
store elements into blocks, whose lines leave the core's L1 first (R170-R173, R182), behind a release where the store is one (R173, R354); no register changes but where
context 0 addresses its landing windows (R315). -/
def Obligations.LaneStoresComplete : Prop :=
  ∀ (i : Instr) (m : MemOp) (s : State) (fd : Fold) (tm : Team) (r : Rec) (keep : Option (List DWord)),
    memOpOf i = some m → m.kind = .store → IssuesIn s fd tm → MemReady s fd tm m r keep →
    let e := s.env s.cur tm
    let s1 := memBegun s tm m keep
    let fates := memFates s1 fd tm m r
    let ok := goingOn fates
    let s2 := memFetched s1 fd tm m r
    let runs := (ok.map laneRuns).flatten
    let core := s2.coreOf tm
    faultsOf fates = [] →
    (r.coded = false → (m.strong = true → s2.mix fd.ctx = true → ∀ x ∈ ok, s2.mixed fd.ctx (pieceAddr x.2.2) (m.n * r.size) = false) →
      (∀ x ∈ ok, s2.partPoison runs (laneRuns x) = []) → s2.refused (ok.map fun x => (x.1, laneRuns x)) = [] →
      let open' := memOpen s2 tm m
      let s3 := (memStored open' core (r.enc == 4) (open'.through m.scope)
        (ok.map fun x => (laneRuns x, storeBytes tm m r x.1))).note fd.ctx m.strong (m.n * r.size) ok
      exec i s = .next (s3.teamNow (memTeam (s3.teamOr tm) e m [] []))) ∧
    (r.coded = true →
      let left := s2.coreLeaves core runs
      let bs := memBlocks tm m r ok
      (m.strong = true → left.mix fd.ctx = true → ∀ x ∈ ok, left.mixed fd.ctx (pieceAddr x.2.2) (m.n * r.size) = false) →
      (∀ x ∈ ok, left.poisonOf x.2.2 = []) → left.refused ((List.range bs.length).map fun q => (q, ((bs[q]?).map (·.segs)).getD [])) = [] →
      let s3 := ((memOpen left tm m).coreBlocks core fd.ctx r bs).note fd.ctx m.strong (m.n * r.size)
        (ok.filter fun x => x.2.2.all fun p => bs.any (·.segs == p.segs))
      exec i s = .next (s3.teamNow (memTeam (s3.teamOr tm) e m [] [])))

/-- The frame of the stores to plain records in memory, with no block held decoded, no byte dirty in an L1 and no error-counter sets due
(R344): a byte outside the runs that the lanes' elements translate to reads as before, whatever the outcome; the team's registers too, but
in context 0, which may address its landing windows (R315). -/
def Obligations.PlainStoreFrame : Prop :=
  ∀ (i : Instr) (m : MemOp) (s t : State) (fd : Fold) (tm : Team) (r : Rec) (keep : Option (List DWord)),
    memOpOf i = some m → m.kind = .store → IssuesIn s fd tm → s.decoded = [] → s.written = true → (s.ctx fd.ctx).setsDue = false →
    MemReady s fd tm m r keep → r.coded = false → exec i s = .next t →
    (∀ a, (∀ x ∈ goingOn (memFates (memBegun s tm m keep) fd tm m r), ∀ run ∈ laneRuns x, a < run.1 ∨ run.1 + run.2 ≤ a) →
      memGet t.mem a = memGet s.mem a) ∧
    (fd.ctx ≠ 0 → ∃ tm', t.team? t.cur = some tm' ∧ tm'.vregs = tm.vregs ∧ tm'.uregs = tm.uregs ∧ tm'.flags = tm.flags ∧
      tm'.fmt = tm.fmt)

/-- Lane atomics complete in ascending lane order, each one read and write at its element behind the release and acquire of its
scope (R179, R323); with ret the old values are returned, else no register changes. It holds for vatom's eight operations. What
one atomic does to the element it names (R94, R179): the old value is what stood there, and the new one is the operation's, of
32 or 64 bits; signed or unsigned orders for min and max, a swap only on equality for cas. -/
def Obligations.LaneAtomicsComplete : Prop :=
  (∀ (i : Instr) (m : MemOp) (s : State) (fd : Fold) (tm : Team) (r : Rec) (keep : Option (List DWord)),
      memOpOf i = some m → m.kind = .atom → IssuesIn s fd tm → MemReady s fd tm m r keep →
      let e := s.env s.cur tm
      let s1 := memBegun s tm m keep
      let fates := memFates s1 fd tm m r
      let ok := goingOn fates
      let s2 := memFetched s1 fd tm m r
      let s3 := s2.atomBegin tm m.scope r.enc (ok.map laneRuns).flatten
      let d := s3.atomLanes m.op m.uns r.size (ok.map fun x => (x.1, pieceAddr x.2.2, atomValue tm m r x.1 0, atomValue tm m r x.1 1))
      faultsOf fates = [] → s3.arrivalFaults (s2.coreOf tm) fd.ctx r.size m.strong r ok = [] →
      s3.refused (ok.map fun x => (x.1, laneRuns x)) = [] →
      slotsDrawn tm (atomWrites tm m r (ok.map fun x => (x.1, List.replicate r.size (0#8 : Byte)))) ≤ e.slots →
      let s4 := d.2.note fd.ctx m.strong r.size ok
      exec i s = .next (s4.teamNow (memTeam (s4.teamOr tm) e m (atomWrites tm m r d.1) []))) ∧
  (∀ (s : State) (op : AtOp) (uns : Bool) (size pa v new : Nat), s.decoded = [] → (size = 4 ∨ size = 8) → pa + size ≤ 0x4000000000000 →
      v < 2 ^ (8 * size) → new < 2 ^ (8 * size) →
      let old := numOf (memRead s.mem pa size)
      let r := s.atomAt op uns size pa v new
      let x := numOf (memRead r.2.mem pa size)
      r.1 = old ∧ (∀ a, a < pa ∨ pa + size ≤ a → memGet r.2.mem a = memGet s.mem a) ∧
      (op = .add → x = (old + v) % 2 ^ (8 * size)) ∧ (op = .and → x = old &&& v) ∧ (op = .or → x = old ||| v) ∧
      (op = .xor → x = old ^^^ v) ∧ (op = .xchg → x = v) ∧ (op = .cas → x = if old = v then new else old) ∧
      (op = .min → uns = true → x = min old v) ∧ (op = .max → uns = true → x = max old v) ∧
      (op = .min → uns = false → (BitVec.ofNat (8 * size) x).toInt = min (BitVec.ofNat (8 * size) old).toInt (BitVec.ofNat (8 * size) v).toInt) ∧
      (op = .max → uns = false → (BitVec.ofNat (8 * size) x).toInt = max (BitVec.ofNat (8 * size) old).toInt (BitVec.ofNat (8 * size) v).toInt))


/-- vlds, vbld and vldacc read, vsts and vstacc write, scratch and the accumulator store at the descriptor's offset plus the
lane's (vbld: the offset alone), bytes little-endian (R184-R188). Bytes of the accumulator store that counted engine work
touches are free values (log entry 6), so the load clause on it is for a fold with no such work beside the array's, of whose D a load
gives each byte as it was before or after the slice's commit (R262); what is stored there stands unless that work has written the byte
already. A load observes what teams of the fold have written to the bytes it reads (R282). That a store over a part of a poisoned word of
the store does not trap is the model's choice (log entry 83). -/
def Obligations.ScratchAccess : Prop :=
  ∀ (i : Instr) (m : StoreOp) (s : State) (fd : Fold) (tm : Team), storeOpOf i = some m → IssuesIn s fd tm →
    StoreReady fd tm m → (m.acc = true → m.store = false → s.accTouched tm.fold fd = []) →
    let byte (pa : Nat) : Byte := if m.acc then s.accByte fd.paddock pa else s.busByte pa
    let e := s.env s.cur tm
    let b := 4 * widthRegs (storeDesc tm m)
    let lanes := storeLanes tm m
    (m.store = false → (∀ x ∈ lanes, s.poisonIn (storePa fd tm m x.2) b = []) →
      let ws := colWrites tm m.keep (storeRegs tm m).regs ((List.range (widthRegs (storeDesc tm m))).map
        (colLanes tm.w (lanes.map fun x => (x.1, (List.range b).map fun k => byte (storePa fd tm m x.2 + k)))))
      slotsDrawn tm ws ≤ e.slots →
      exec i s = .next (s.teamNow ((((s.observe tm (lanes.map fun x => (storePa fd tm m x.2, b))).results e.overlap ws [] false).goto
        (tm.pc.toNat + 4)).retired e))) ∧
    (∀ pa, byte pa = s.busByte pa ∨ (m.acc = true ∧ s.committedOver fd.paddock pa = some (byte pa))) ∧
    (m.store = true → ∃ t tm', exec i s = .next t ∧ t.team? t.cur = some tm' ∧ tm'.vregs = tm.vregs ∧ tm'.uregs = tm.uregs ∧
      tm'.pc = BitVec.ofNat 48 (tm.pc.toNat + 4) ∧
      (∀ a, (∀ x ∈ lanes, a < storePa fd tm m x.2 ∨ storePa fd tm m x.2 + b ≤ a) → memGet t.mem a = memGet s.mem a) ∧
      ∀ j off, lanes = [(j, off)] → regionOf (storePa fd tm m off) = .memory → ∀ k, k < b →
        (m.acc = true → inRegions (s.accWritten tm.fold fd) (storePa fd tm m off + k) = true →
          s.accWrote tm.fold fd (storePa fd tm m off + k) = false) → memGet t.mem (storePa fd tm m off + k) =
        (laneBytes ((storeRegs tm m).regs.map tm.getV) j b).getD k 0#8)

/-- gld and gst resolve an access as the table of R199 gives: in bounds and resident, gd takes the element or the element
the value, with C set; out of bounds of a record that is not strict, gd is zero or nothing is written, C and V clear; on a
page not resident under soft residency gld gives zero with V set; Z and N are unchanged. gatom performs its operation once at
the element (R179, R201): with ret gd takes the old value, C is set, and cas sets Z when the swap took place; out of bounds it
writes nothing, with ret gives zero, and clears C, ordering at its scope all the same (R173); V and N are unchanged. -/
def Obligations.UniformAccess : Prop :=
  (∀ (i : Instr) (m : GMem) (s : State) (fd : Fold) (tm : Team) (r : Rec) (keep : Option (List DWord)) (ps : List Piece),
      gmemOf i = some m → m.kind ≠ .atom → IssuesIn s fd tm → GMemReady s fd tm m r keep →
      let e := s.env s.cur tm
      let s1 := gmemBegun s fd tm m r keep
      let fate := gmemFate s fd tm m r keep
      let with' (t : Team) (c v : Bool) : Team := { t with flags := ⟨tm.flags.z, tm.flags.n, c, v⟩ }
      let runs := (ps.map (·.segs)).flatten
      let vals := ((gmemRegs tm m r).regs.map tm.opnd).map (·.toNat)
      let core := s1.coreOf tm
      let done (t : State) (w : Team) : Prop := Completes i s tm m.len m.sq t w
      (m.kind = .load → fate = .dropped → done s1 (with' (gmemGive tm tm e m r 0) false false)) ∧
      (m.kind = .load → fate = .missing → done s1 (with' (gmemGive tm tm e m r 0) false true)) ∧
      (m.kind = .store → fate = .dropped → done s1 (with' tm false false)) ∧
      let s0 := s1.opens core r [(0, gmemIndex tm m, ps)]
      (m.kind = .load → fate = .ok ps → s0.poisonAtCore core r ps = [] →
        let d := s0.readLanes core fd.ctx r [(0, gmemIndex tm m, ps)]
        done d.2 (with' (gmemGive tm tm e m r (numOf ((d.1.headD (0, [])).2))) true false)) ∧
      (m.kind = .store → fate = .ok ps → r.coded = false → s1.partPoison runs runs = [] → s1.refused [(0, runs)] = [] →
        let s2 := memStored s1 core (r.enc == 4) (s1.through 5)
          [(runs, (bytesOf 8 (vals.getD 0 0) ++ bytesOf 8 (vals.getD 1 0)).take r.size)]
        done s2 (with' (s2.teamOr tm) true false)) ∧
      let left := s1.coreLeaves core runs
      (m.kind = .store → fate = .ok ps → r.coded = true → left.poisonOf ps = [] → left.refused [(0, runs)] = [] →
        let s2 := left.coreBlocks core fd.ctx r (groupBlocks (ps.map fun p => (p, vals.getD 0 0)))
        done s2 (with' (s2.teamOr tm) true false))) ∧
  (∀ (i : Instr) (m : GMem) (s : State) (fd : Fold) (tm : Team) (r : Rec) (keep : Option (List DWord)) (ps : List Piece),
      gmemOf i = some m → m.kind = .atom → IssuesIn s fd tm → GMemReady s fd tm m r keep →
      let e := s.env s.cur tm
      let s1 := gmemBegun s fd tm m r keep
      let fate := gmemFate s fd tm m r keep
      let give (now : Team) (v : Nat) : Team := if m.ret then gmemGive tm now e m r v else now
      let s0 := s1.atomBegin tm m.scope 0 []
      (fate = .dropped → Completes i s tm m.len m.sq s0
        { give (s0.teamOr tm) 0 with flags := ⟨if m.op = .cas then false else tm.flags.z, tm.flags.n, false, tm.flags.v⟩ }) ∧
      let runs := (ps.map (·.segs)).flatten
      let s2 := s1.atomBegin tm m.scope r.enc runs
      (fate = .ok ps → s2.poisonAtCore (s1.coreOf tm) r ps = [] → s2.refused [(0, runs)] = [] →
        (m.strong = true → s2.mix fd.ctx = true → s2.mixed fd.ctx (pieceAddr ps) r.size = false) →
        let q := s2.atomAt m.op m.uns r.size (pieceAddr ps) (gmemValue tm m r 0) (gmemValue tm m r 1)
        let s3 := q.2.note fd.ctx m.strong r.size [(0, gmemIndex tm m, ps)]
        Completes i s tm m.len m.sq s3 { give (s3.teamOr tm) q.1 with
          flags := ⟨if m.op = .cas then decide (q.1 = gmemValue tm m r 0) else tm.flags.z, tm.flags.n, true, tm.flags.v⟩ }))

/-! ## Engines, queues and meetings (11_engine_isa, R211-R222) -/

/-- The twelve engine instructions: one that passes the checks of issue, finds room and a counter below 65,535 is accepted,
raises its counter by 1, and SEQ acts (R267, R268); an xpost also needs its entry's page (R288). With pending arms it traps
with 0x0D (R53), with a fault in its block it traps at the instruction, without room it waits, and at a full counter it traps
with 0x27; then the counter stays. -/
def Obligations.EngineInstructionsComplete : Prop :=
  ∀ (i : Instr) (sq c : BitVec 3) (g : BitVec 10) (x : EngIssue) (s : State) (fd : Fold) (tm : Team),
    engIssueOf i = some (sq, g, c, x) → IssuesIn s fd tm →
    let b := engBlock tm g x.n
    let s1 := engOpened s fd tm g x
    let cc := tm.cc.getD c.toNat 0#16
    let traps (t : State) (k : Nat) : Prop := ∃ tm' st, exec i s = .next (t.teamNow tm') ∧ tm'.status = .stopped ∧
      tm'.stop = some st ∧ st.cause = k ∧ st.pc = tm.pc ∧ tm'.cc = tm.cc ∧ tm'.vregs = tm.vregs ∧ tm'.uregs = tm.uregs
    let room := s1.hasRoom? fd tm (x.room tm b)
    (EngReady s fd tm g x → room = true → cc ≠ 65535#16 →
      (∀ r : BitVec 2, i = .xpost sq g c r → let y := ringOf ((s1.ctx fd.ctx).ring r.toNat)
        ∃ pa dr, s1.translate (pastureOf fd.paddock) fd.ctx (y.2.1 + 64 * (y.2.2.2 % y.1)) .write = .ok pa dr ∧
          pa + 64 ≤ 0x4000000000000) →
      ∃ s2, x.accept (s1.counted c) fd tm b = .ok s2 ∧ Completes i s tm 4 sq s2 (s2.teamOr tm)) ∧
    (OperandsReady tm [⟨g.toNat, x.n⟩] [] [] → tm.arms ≠ [] → traps s 0x0D) ∧
    (OperandsReady tm [⟨g.toNat, x.n⟩] [] [] → tm.arms = [] → (x.checks s fd tm b).1 ≠ [] →
      (∀ f ∈ (x.checks s fd tm b).1, f.1 < 64) →
      ∃ k, traps s1 k ∧ k ∈ (x.checks s fd tm b).1.map (·.1) ∧ ∀ f ∈ (x.checks s fd tm b).1, k ≤ f.1) ∧
    (EngReady s fd tm g x → room = false →
      exec i s = .next (s1.teamNow { tm with wait := ((x.room tm b).map .engine).getD .none, waitAt := s.moves + 1 })) ∧
    (EngReady s fd tm g x → room = true → cc = 65535#16 → traps s1 0x27)

/-- What an accepted engine instruction leaves, beside its counter, which is one higher: for an array command an entry of the
paddock's table with its post, and for mma.r its queue bound to it (R252, R255, R274); for another engine an operation of the
team with its block and counter (R265); for xpost also the ring's tail one on (R288, R382). It is stated with no block held
decoded. -/
def Obligations.EngineWorkIsHeld : Prop :=
  ∀ (i : Instr) (sq c : BitVec 3) (g : BitVec 10) (x : EngIssue) (s t : State) (fd : Fold) (tm : Team) (b : List DWord),
    engIssueOf i = some (sq, g, c, x) → IssuesIn s fd tm → fd.paddock < s.paddocks.length → s.decoded = [] →
    x.accept (s.counted c) fd tm b = .ok t →
    let raised : Prop := t.team? s.cur = some { tm with cc := upd tm.cc c.toNat (· + 1#16) }
    let op (k : EngKind) : Prop := ∃ o, t.ops = s.ops ++ [o] ∧ o.kind = k ∧ o.live = true ∧ o.team = s.cur ∧ o.fold = tm.fold ∧
      o.cc = c.toNat ∧ o.block = b ∧ o.pc = tm.pc
    let p := s.pad fd.paddock
    let p' := t.pad fd.paddock
    let entry (k : ArrKind) (n : Nat) : Prop := ∃ e, p'.table.length = p.table.length + 1 ∧ p'.table.getLast? = some e ∧ e.kind = k ∧
      e.live = true ∧ e.fold = tm.fold ∧ e.count = n ∧ e.posts = [⟨s.cur, c.toNat, b, tm.pc, 0⟩]
    ((∀ q ∈ p.queues, q.bound = none) →
      (i = .mma sq g c → entry .mma 1 ∧ raised) ∧ (i = .mtrans sq g c → entry .mtrans 1 ∧ raised) ∧
      (i = .mperm sq g c → entry .mperm 1 ∧ raised) ∧ (i = .mrsum sq g c → entry .mrsum 1 ∧ raised) ∧
      (i = .mmaJ sq g c → p.joint tm.fold (arrBlk b).tag = none → entry .mmaJ (arrBlk b).count ∧ raised) ∧
      (i = .mmaR sq g c → ∀ q, p.queues[(arrBlk b).queue]? = some q → ¬(q.closed = true ∧ q.k = q.c) →
        entry .mmaR 1 ∧ raised ∧ p'.queues[(arrBlk b).queue]? = some { q with bound := some p.table.length })) ∧
    (i = .mzero sq g c → op .mzero ∧ raised) ∧ (i = .mdrain sq g c → op .mdrain ∧ raised) ∧ (i = .wtab sq g c → op .wtab ∧ raised) ∧
    (i = .copy sq g c → op .copy ∧ raised) ∧ (i = .nsend sq g c → op .nsend ∧ raised) ∧
    (∀ r : BitVec 2, i = .xpost sq g c r → fd.ctx ≠ 0 → fd.ctx < s.ctxs.length → (s.ctx fd.ctx).desc.length = 32 →
      op .xpost ∧ raised ∧ bitsOf ((t.ctx fd.ctx).word (15 + 2 * r.toNat)) 31 0 =
        (bitsOf ((s.ctx fd.ctx).word (15 + 2 * r.toNat)) 31 0 + 1) % 2 ^ 32)

/-- The eight queue instructions on an open queue whose conditions hold (R291-R295): qres and qres.try reserve, qpub moves the
arrivals over the contiguous published prefix, qtake takes what has arrived, qrel releases, qwait observes, qclose closes at
the tail, qopen starts afresh. Publishing is a release and taking slots an acquire (R354). qres, qres.try, qtake and qwait write
Z and clear N, C and V; the others write no flags. -/
def Obligations.QueueInstructionsComplete : Prop :=
  ∀ (sq : BitVec 3) (d a : BitVec 7) (n : BitVec 4) (s : State) (fd : Fold) (tm : Team), IssuesIn s fd tm →
    let q := (s.pad fd.paddock).queues.getD n.toNat Queue.empty
    let x := ((groupUs tm [⟨a.toNat, 1⟩]).headD 0#64).toNat
    let slots := 2 ^ bitsOf q.desc.toNat 39 36
    let goes (i : Instr) (srcs dsts : List UUse) (q' : Queue) (vals : List DWord) (fl : Flags) : Prop :=
      OperandsReady tm srcs [] dsts →
      let s1 := queueNow s tm fd n.toNat q q'
      Completes i s tm 4 sq s1 { uniWritten tm (s1.teamOr tm) s.overlap dsts vals with flags := fl }
    let z (b : Bool) : Flags := ⟨b, false, false, false⟩
    let ga : List UUse := [⟨a.toNat, 1⟩]
    let gd (k : Nat) : List UUse := [⟨d.toNat, k⟩]
    (q.owner = some tm.fold → 1 ≤ x → x ≤ slots →
      (q.closed = false → x ≤ slots - (q.t - q.h) →
        goes (.qres sq d a n) ga (gd 1) { q with t := q.t + x } [BitVec.ofNat 64 q.t] (z false) ∧
        goes (.qresTry sq d a n) ga (gd 1) { q with t := q.t + x } [BitVec.ofNat 64 q.t] (z false)) ∧
      (q.closed = false → slots - (q.t - q.h) < x → goes (.qresTry sq d a n) ga (gd 1) q [0#64] (z true)) ∧
      (q.bound = none → q.k < q.a ∨ (q.closed = true ∧ q.k = q.c) →
        goes (.qtake sq d a n) ga (gd 2) { q with k := q.k + min x (q.a - q.k) }
          [BitVec.ofNat 64 q.k, BitVec.ofNat 64 (min x (q.a - q.k))] (z (decide (min x (q.a - q.k) = 0)))) ∧
      (q.bound = none → q.h + x ≤ q.k → goes (.qrel sq a n) ga [] { q with h := q.h + x } [] tm.flags) ∧
      (x ≤ q.a - q.k ∨ q.closed = true → goes (.qwait sq a n) ga [] q [] (z (decide (q.a - q.k < x))))) ∧
    (q.owner = some tm.fold → q.h ≤ x → x < q.t → q.a ≤ x → x ∉ q.pub → (∀ y ∈ q.pub, q.a ≤ y) → ∀ a', q.a ≤ a' →
      (∀ y, q.a ≤ y → y < a' → y = x ∨ y ∈ q.pub) → a' ≠ x → a' ∉ q.pub →
      goes (.qpub sq a n) ga [] { q with a := a', pub := (x :: q.pub).filter (a' ≤ ·) } [] tm.flags) ∧
    (q.owner = some tm.fold → goes (.qclose sq n) [] [] { q with closed := true, c := q.t } [] tm.flags) ∧
    (q.owner = none ∨ (q.owner = some tm.fold ∧ q.closed = true ∧ q.k = q.c) →
      ∀ size lg core off, x = off + core * 2 ^ 32 + lg * 2 ^ 36 + size * 2 ^ 40 → off < 2 ^ 32 → core < 4 → lg ≤ 12 →
      size % 16 = 0 → 16 ≤ size → size ≤ 32768 → off % 16 = 0 → inAlloc fd.scratch core off (2 ^ lg * size) = true →
      goes (.qopen sq a n) ga [] ⟨some tm.fold, 0, 0, 0, 0, 0, [], false, BitVec.ofNat 64 x, q.bound, q.gen + 1⟩ [] tm.flags)

/-- A queue instruction that breaks its conditions traps with cause 0x25 and changes nothing, with the subcodes of R296; qres,
qtake and qwait wait where the spec says they wait. -/
def Obligations.QueueInstructionsTrap : Prop :=
  ∀ (i : Instr) (sq : BitVec 3) (d a : BitVec 7) (n : BitVec 4) (s : State) (fd : Fold) (tm : Team), IssuesIn s fd tm →
    let q := (s.pad fd.paddock).queues.getD n.toNat Queue.empty
    let x := ((groupUs tm [⟨a.toNat, 1⟩]).headD 0#64).toNat
    let slots := 2 ^ bitsOf q.desc.toNat 39 36
    let traps (sub : Nat) : Prop := ∃ tm' st, exec i s = .next (s.teamNow tm') ∧ tm'.status = .stopped ∧ tm'.stop = some st ∧
      st.cause = 0x25 ∧ st.sub = sub ∧ st.pc = tm.pc ∧ tm'.vregs = tm.vregs ∧ tm'.uregs = tm.uregs ∧ tm'.flags = tm.flags
    let waits (k : QWait) : Prop := exec i s = .next (s.teamNow { tm with wait := .queue n.toNat k x, waitAt := s.moves + 1 })
    let resv := i = .qres sq d a n ∨ i = .qresTry sq d a n
    let counts := resv ∨ i = .qtake sq d a n ∨ i = .qrel sq a n ∨ i = .qwait sq a n
    (resv → OperandsReady tm [⟨a.toNat, 1⟩] [] [⟨d.toNat, 1⟩]) →
    (i = .qtake sq d a n → OperandsReady tm [⟨a.toNat, 1⟩] [] [⟨d.toNat, 2⟩]) →
    (i ≠ .qclose sq n → OperandsReady tm [⟨a.toNat, 1⟩] [] []) →
    (q.owner ≠ some tm.fold → counts ∨ i = .qpub sq a n ∨ i = .qclose sq n → traps 0) ∧
    (q.owner = some tm.fold → counts → (x = 0 ∨ slots < x) → traps 3) ∧
    (q.owner = some tm.fold → resv → 1 ≤ x → x ≤ slots → q.closed = true → traps 6) ∧
    (q.owner = some tm.fold → i = .qpub sq a n → (x < q.h ∨ q.t ≤ x ∨ x < q.a ∨ x ∈ q.pub) → traps 4) ∧
    (q.owner = some tm.fold → i = .qrel sq a n → 1 ≤ x → x ≤ slots → q.k < q.h + x → traps 5) ∧
    (q.owner = some tm.fold → i = .qtake sq d a n → 1 ≤ x → x ≤ slots → q.bound.isSome = true → traps 7) ∧
    (q.owner = some tm.fold → i = .qrel sq a n → 1 ≤ x → x ≤ slots → q.h + x ≤ q.k → q.bound.isSome = true → traps 7) ∧
    (i = .qopen sq a n → ((∃ f, q.owner = some f ∧ f ≠ tm.fold) ∨ (q.owner = some tm.fold ∧ ¬(q.closed = true ∧ q.k = q.c))) →
      traps 1) ∧
    (i = .qopen sq a n → q.owner = none → (bitsOf x 55 40 % 16 ≠ 0 ∨ bitsOf x 55 40 < 16 ∨ 32768 < bitsOf x 55 40 ∨
      12 < bitsOf x 39 36 ∨ bitsOf x 31 0 % 16 ≠ 0 ∨ 2 ^ 56 ≤ x) → traps 2) ∧
    (q.owner = some tm.fold → i = .qres sq d a n → 1 ≤ x → x ≤ slots → q.closed = false → slots - (q.t - q.h) < x → waits .free) ∧
    (q.owner = some tm.fold → i = .qtake sq d a n → 1 ≤ x → x ≤ slots → q.bound = none → q.a ≤ q.k →
      ¬(q.closed = true ∧ q.k = q.c) → waits .take) ∧
    (q.owner = some tm.fold → i = .qwait sq a n → 1 ≤ x → x ≤ slots → q.a - q.k < x → q.closed = false → waits .count)

/-- cwp writes the fold's write pointer of a channel, of the team's core or of a named one, 0 where the fold holds no entry;
cwait goes on once the pointer is at least its operand, and else waits; neither writes the flags, and both are an acquire (R286,
R287, R354). mopfence makes the writes of the team, those of others that it has observed and those its fold has observed visible
to the engines, with the whole list that its fold has observed (log entry 39), and changes no register (R282); pwstat reports the paddock's power word (R221); pwclaim with bit 0 clear
withdraws the fold's claim (one that waits in another team is answered as refused, log entry 91), with bit 0 set and the slot
held it answers at once, and else it waits with its claim standing (R222). -/
def Obligations.PointersFencesPower : Prop :=
  (∀ (sq : BitVec 3) (d : BitVec 7) (c n : BitVec 2) (s : State) (fd : Fold) (tm : Team), IssuesIn s fd tm →
      let ptr (core : Nat) : Nat := ((fd.chans.find? fun y => y.core == core && y.ch == n.toNat).map (·.ptr)).getD 0
      let x := ((groupUs tm [⟨d.toNat, 1⟩]).headD 0#64).toNat
      let seen := s.acquire (s.coreOf tm)
      ∀ i core, (i = .cwp sq d n ∧ core = tm.core) ∨ (i = .cwpCore sq d c n ∧ core = c.toNat) →
        (OperandsReady tm [] [] [⟨d.toNat, 1⟩] →
          Completes i s tm 4 sq seen (uniWritten tm tm s.overlap [⟨d.toNat, 1⟩] [BitVec.ofNat 64 (ptr core)])) ∧
        ∀ j, (j = .cwait sq d n ∧ core = tm.core) ∨ (j = .cwaitCore sq d c n ∧ core = c.toNat) →
          OperandsReady tm [⟨d.toNat, 1⟩] [] [] →
          (x ≤ ptr core → Completes j s tm 4 sq seen tm) ∧
          (ptr core < x → exec j s = .next (s.teamNow { tm with wait := .channel core n.toNat x, waitAt := s.moves + 1 }))) ∧
  (∀ (sq : BitVec 3) (d a : BitVec 7) (s : State) (fd : Fold) (tm : Team), IssuesIn s fd tm →
      let p := fd.paddock
      let x := ((groupUs tm [⟨a.toNat, 1⟩]).headD 0#64)
      let word := BitVec.ofNat 64 ((s.pad p).permits + (if (s.pad p).slot then 128 else 0) + 256 * (s.pad p).clock +
        65536 * (s.domains.getD (domainOf p) Domain.reset).volt + 2 ^ 24 * s.slotsLeft (p / 8))
      let told : Team := { uniWritten tm tm s.overlap [⟨d.toNat, 1⟩] [word] with flags := ⟨false, false, false, false⟩ }
      let claims (s : State) (l : List Nat) : State := s.updPad p fun y => { y with claims := l }
      let left (l : List (Nat × Byte)) : List (Nat × Byte) := l.filter fun y => !tm.unfenced.any (·.1 == y.1)
      let s1 := s.updFold tm.fold fun f => { f with shared := [], released := left f.released }
      let fenced : State := { s1 with teams := s1.teams.map fun (y : Team) =>
        if y.fold == tm.fold then { y with unfenced := left y.unfenced } else y }
      let rest := (s.pad p).claims.filter (· != tm.fold)
      (Completes (.mopfence sq) s tm 4 sq (fenced.flushCore (s.coreOf tm)) { tm with unfenced := [] }) ∧
      (OperandsReady tm [] [] [⟨d.toNat, 1⟩] → Completes (.pwstat sq d) s tm 4 sq s (uniWritten tm tm s.overlap [⟨d.toNat, 1⟩] [word])) ∧
      (OperandsReady tm [⟨a.toNat, 1⟩] [] [⟨d.toNat, 1⟩] → tm.claim = none →
        (x.getLsbD 0 = false → Completes (.pwclaim sq d a) s tm 4 sq (claims (s.withdraw tm.fold p) rest) told) ∧
        (x.getLsbD 0 = true → (s.pad p).slot = true → (s.pad p).fall = false →
          Completes (.pwclaim sq d a) s tm 4 sq (claims s (tm.fold :: rest)) told) ∧
        (x.getLsbD 0 = true → (s.pad p).slot = false ∨ (s.pad p).fall = true → ∃ dst t, groupRegs tm [⟨d.toNat, 1⟩] = [dst] ∧
          t = { tm with wait := .claim, waitAt := s.moves + 1, claim := some (dst, sq) } ∧
          exec (.pwclaim sq d a) s = .next (s.teamNow t))))

/-- gsys.call posts its number and four arguments behind a release and the team waits (R219); SYSCALL_ANSWER gives the result: a message (call 2)
answers 0 after its record is posted, an unassigned number answers all ones, a page request (call 1) answers 0 where its
pages are resident; the team goes on past the call. -/
def Obligations.SystemCalls : Prop :=
  ∀ (sq : BitVec 3) (d : BitVec 7) (n : BitVec 12) (s : State) (fd : Fold) (tm : Team), IssuesIn s fd tm →
    (tm.call = none → OperandsReady tm [⟨d.toNat, 4⟩] [] [⟨d.toNat, 1⟩] → ∃ dst, groupRegs tm [⟨d.toNat, 1⟩] = [dst] ∧
      exec (.gsysCall sq d n) s = .next ((s.releaseBy tm).teamNow { tm with
        wait := .syscall, waitAt := s.moves + 1, call := some (n.toNat, groupUs tm [⟨d.toNat, 4⟩], dst, sq) })) ∧
    (∀ (t k : Nat) (w : Team) (f : Fold) (args : List DWord) (dst : URef) (r : BitVec 64), s.team? t = some w → w.status = .run →
      s.fold? w.fold = some f → f.status = .resident → w.call = some (k, args, dst, sq) →
      let after (s1 : State) (v : DWord) : State := s1.answer t w dst sq v
      (k ≠ 1 → k ≠ 2 → exec (.syscallAnswer t r) s = .next { after s (BitVec.allOnes 64) with moves := s.moves + 1 }) ∧
      (k = 2 → let s1 := after (s.postAsync f.ctx (s.messageRec w args)) 0#64
        exec (.syscallAnswer t r) s = .next { s1 with moves := s1.moves + 1 }) ∧
      (k = 1 → ∀ rc keep first count, s.useRec (pastureOf f.paddock) f ((args.getD 0 0#64).toNat) = .ok rc keep → (args.getD 1 0#64).toNat = first →
        (args.getD 2 0#64).toNat = count →
        (count = 0 ∨ rc.count ≤ first ∨ ∀ j, j < min count (rc.count - first) → s.elemResident f.ctx rc (first + j) = true) →
        exec (.syscallAnswer t r) s = .next { after s 0#64 with moves := s.moves + 1 }))

/-- fbar, phase and fmove: a team that arrives before its fellows stands waiting (R63, R66, R211); the last one completes the
barrier, and every team that has not ended goes on past its instruction, in a fold of any size; by phase its register holds its
stage set, rank and schedule (R65): the schedule is 0 at the fold's first phase, else the lowest of least cost by the work of each stage set
(R64), and the teams stand in its stage sets in index order (R76). While another team of the fold has neither arrived nor ended, the team that arrives stays at
the barrier and no other team changes. The clauses in which the barrier completes are stated with no block held decoded. The
meeting of an fmove completes by FMOVE_TRANSFER (FoldMoves). -/
def Obligations.FoldMeetings : Prop :=
  (∀ (sq : BitVec 3) (d a m : BitVec 7) (s : State) (fd : Fold) (tm : Team), IssuesIn s fd tm → tm.arrived = none → tm.inflight = [] →
      let arrives (i : Instr) (w : Wait) (x : Arrival) : Prop := exec i s = .next
        { (s.updTeam s.cur fun _ => { tm with
            wait := w, waitAt := s.moves + 1, arrived := some (x, sq)
            work := tm.ran + (s.clock (s.place tm) - tm.start) }).meetCheck tm.fold with moves := s.moves + 1 }
      arrives (.fbar sq) .barrier .fbar ∧
      (OperandsReady tm [] [] [⟨d.toNat, 1⟩] → ∀ dst, groupRegs tm [⟨d.toNat, 1⟩] = [dst] →
        arrives (.phase sq d) .barrier (.phase dst)) ∧
      (OperandsReady tm [⟨a.toNat, 1⟩] [] [⟨d.toNat, 1⟩] → ∀ dst, groupRegs tm [⟨d.toNat, 1⟩] = [dst] →
        arrives (.fmove sq d a m) .move (.fmove dst m.toNat ((groupUs tm [⟨a.toNat, 1⟩]).headD 0#64).toNat)) ∧
      (fd.teams = [s.cur] → s.overlap = false → s.decoded = [] → tm.unfenced = [] → tm.stepOne = false →
        (∃ t tm', exec (.fbar 0#3) s = .next t ∧ t.team? t.cur = some tm' ∧ tm'.arrived = none ∧ tm'.wait = .none ∧
          tm'.pc = BitVec.ofNat 48 (tm.pc.toNat + 4) ∧ tm'.vregs = tm.vregs ∧ tm'.uregs = tm.uregs) ∧
        (OperandsReady tm [] [] [⟨d.toNat, 1⟩] → fd.kernel.scheds = [] → fd.phases = 0 → tm.idx < fd.kernel.teams →
          tm.idx < 65536 → ∀ dst, groupRegs tm [⟨d.toNat, 1⟩] = [dst] → (tm.getU dst).full = true →
          ∃ t tm', exec (.phase 0#3 d) s = .next t ∧ t.team? t.cur = some tm' ∧ tm'.arrived = none ∧
            tm'.getU dst = ⟨BitVec.ofNat 64 (256 * tm.idx), true, none⟩ ∧ tm'.pc = BitVec.ofNat 48 (tm.pc.toNat + 4)))) ∧
  (∀ (sq : BitVec 3) (s : State) (fd : Fold) (tm u : Team) (n : Nat), IssuesIn s fd tm → tm.arrived = none → tm.inflight = [] →
      n ∈ fd.teams → n ≠ s.cur → s.team? n = some u → u.status ≠ .gone → u.arrived = none →
      ∃ t tm', exec (.fbar sq) s = .next t ∧ t.team? t.cur = some tm' ∧ tm'.arrived = some (.fbar, sq) ∧ tm'.pc = tm.pc ∧
        ∀ k, k ≠ s.cur → t.team? k = s.team? k) ∧
  (∀ (s : State) (fd : Fold) (tm : Team), IssuesIn s fd tm → tm.arrived = none → tm.inflight = [] → s.overlap = false →
      s.decoded = [] → fd.teams.Nodup → s.cur ∈ fd.teams → s.haltBegun fd = false → fd.victim = false →
      (∀ n ∈ fd.teams, ∃ u, s.team? n = some u ∧ u.fold = tm.fold ∧ (u.status = .gone ∨
        (u.status = .run ∧ u.stepOne = false ∧ u.halt = none ∧ (n ≠ s.cur → u.arrived = some (.fbar, 0#3))))) →
      ∃ t, exec (.fbar 0#3) s = .next t ∧ ∀ n u, n ∈ fd.teams → s.team? n = some u → u.status = .run →
        ∃ u', t.team? n = some u' ∧ u'.status = .run ∧ u'.arrived = none ∧ u'.wait = .none ∧
          u'.pc = BitVec.ofNat 48 (u.pc.toNat + 4) ∧ u'.vregs = u.vregs ∧ u'.uregs = u.uregs ∧ u'.flags = u.flags) ∧
  (∀ (d : BitVec 7) (s : State) (fd : Fold) (tm : Team) (dst : URef), IssuesIn s fd tm → tm.arrived = none → tm.inflight = [] →
      s.overlap = false → s.decoded = [] → fd.teams.Nodup → s.cur ∈ fd.teams → s.haltBegun fd = false → fd.victim = false →
      OperandsReady tm [] [] [⟨d.toNat, 1⟩] → groupRegs tm [⟨d.toNat, 1⟩] = [dst] →
      let counts := stageCounts fd.kernel
      (∀ n ∈ fd.teams, ∃ u, s.team? n = some u ∧ u.fold = tm.fold ∧ u.idx < (counts fd.sched).sum ∧ (u.status = .gone ∨
        (u.status = .run ∧ u.stepOne = false ∧ u.halt = none ∧
          (n ≠ s.cur → ∃ a, u.arrived = some (a, 0#3) ∧ (a = .fbar ∨ ∃ x, a = .phase x ∧ Names u x))))) →
      let spent := (s.foldTeams fd).map fun x =>
        (x.2.idx, if x.1 = s.cur then tm.ran + (s.clock (s.place tm) - tm.start) else x.2.work)
      ∃ t f', exec (.phase 0#3 d) s = .next t ∧ t.fold? tm.fold = some f' ∧ f'.phases = fd.phases + 1 ∧
        Selects fd.kernel fd.phases ((List.range 4).map (stageWork (counts fd.sched) spent)) f'.sched ∧
        ∀ n u, n ∈ fd.teams → s.team? n = some u → u.status = .run →
          ∃ u', t.team? n = some u' ∧ u'.status = .run ∧ u'.arrived = none ∧ u'.pc = BitVec.ofNat 48 (u.pc.toNat + 4) ∧
            u'.vregs = u.vregs ∧ u'.flags = u.flags ∧
            ∀ x, (n = s.cur ∧ x = dst) ∨ (n ≠ s.cur ∧ u.arrived = some (.phase x, 0#3)) →
              (∀ y, y ≠ x → u'.getU y = u.getU y) ∧ ∀ st rank, InStage (counts f'.sched) u.idx st rank →
                u'.getU x = ⟨BitVec.ofNat 64 (st + 2 ^ 8 * rank + 2 ^ 24 * f'.sched), true, none⟩)

/-- FMOVE_TRANSFER (R66, R67, R217): once every team that has not ended has reached fmove and all counters are zero, a fold whose
paddock queues are all closed and that can be admitted to the paddock named moves there: each byte of its scratch and accumulator
allocations stands at its place in the new ones, and every team goes on past its fmove with Z clear and its vector registers as
they were. A move to its own paddock fails: the fold stays and every team goes on with Z set. Each team's register takes the number of
the paddock on which it resumes (R217). That teams which have ended do not hold the move, though R66 has every team reach it, is the
model's reading (log entry 27). It is stated of mode 0, with no block
held decoded and no dirty line in an L1. -/
def Obligations.FoldMoves : Prop :=
  ∀ (s : State) (n : Nat) (f : Fold) (p : Nat), s.fold? n = some f → f.status = .resident → s.decoded = [] → s.overlap = false →
    f.teams.Nodup → f.victim = false → p < 32 →
    (∀ k ∈ f.teams, ∃ u, s.team? k = some u ∧ u.fold = n ∧ (∀ c ∈ u.cc, c = 0#16) ∧ (u.status = .gone ∨ (u.status = .run ∧
      u.stepOne = false ∧ u.halt = none ∧ ∃ dst, u.arrived = some (.fmove dst 0 p, 0#3)))) →
    (∃ k ∈ f.teams, ∃ u, s.team? k = some u ∧ u.status = .run) →
    let goOn (t : State) (z : Bool) : Prop := ∀ k u, k ∈ f.teams → s.team? k = some u → u.status = .run →
      ∃ u', t.team? k = some u' ∧ u'.status = .run ∧ u'.arrived = none ∧ u'.wait = .none ∧ u'.flags = ⟨z, false, false, false⟩ ∧
        u'.pc = BitVec.ofNat 48 (u.pc.toNat + 4) ∧ u'.vregs = u.vregs ∧
        ∀ x, u.arrived = some (.fmove x 0 p, 0#3) → Names u x → u'.getU x = ⟨BitVec.ofNat 64 p, true, none⟩
    (p = f.paddock → ∃ t, exec (.fmoveTransfer n) s = .next t ∧ t.fold? n = some f ∧ goOn t true) ∧
    (∀ sc ac, p ≠ f.paddock → (∀ q ∈ (s.pad f.paddock).queues, q.owner ≠ some n) → s.canMove f p = some (sc, ac) →
      ∃ t f', exec (.fmoveTransfer n) s = .next t ∧ t.fold? n = some f' ∧ f'.paddock = p ∧ f'.scratch = sc ∧ f'.acc = ac ∧
        goOn t false ∧
        (s.written = true → Memory.wf s.mem = true → f.paddock < 32 → (f.scratch.map (·.core)).Nodup → (f.acc.map (·.core)).Nodup →
          (∀ a ∈ f.scratch, a.core < 4 ∧ a.size = f.kernel.scratch ∧ a.base + a.size ≤ Config.scratchBytes) →
          (∀ a ∈ f.acc, a.core < 4 ∧ a.size = f.kernel.acc ∧ a.base + a.size ≤ Config.accBytes) →
          (∀ a b i, (a, b) ∈ f.scratch.zip sc → i < a.size →
            memGet t.mem (scratchAddr (4 * p + b.core) (b.base + i)) = memGet s.mem (scratchAddr (4 * f.paddock + a.core) (a.base + i))) ∧
          (∀ a b i, (a, b) ∈ f.acc.zip ac → i < a.size →
            memGet t.mem (accAddr (4 * p + b.core) (b.base + i)) = memGet s.mem (accAddr (4 * f.paddock + a.core) (a.base + i)))))

/-- emit sends one record per lane of I to a node of the issuing job, in lane order, register va+q giving bytes 4q to 4q+3
(R214): the n-th record is that of the n-th lane of I. Both are a release (R60, R354). launch submits a job whose block passes the checks of R215; vland binds
a window to a register, which is empty until every byte has arrived (R156). -/
def Obligations.WorkIsSubmitted : Prop :=
  (∀ (sq : BitVec 3) (d a : BitVec 7) (s : State) (fd : Fold) (tm : Team) (j : Job) (nd : Node) (x : Nat), IssuesIn s fd tm →
    OperandsReady tm [⟨d.toNat, 1⟩] [] [] → ((groupUs tm [⟨d.toNat, 1⟩]).headD 0#64).toNat = x → x < 65536 →
    s.jobs[s.rootJob fd]? = some j → j.nodes[x]? = some nd →
    OperandsReady tm [⟨d.toNat, 1⟩] [⟨a.toNat, nd.recSize / 4, 1, false, .value⟩] [] → tm.vnumber a.toNat % 4 = 0 →
    let vs := (tm.vrefs a.toNat (nd.recSize / 4) 1).regs
    let rs := recordsOf tm.w (vs.map tm.getV)
    let lane (q j : Nat) : Option Word := (tm.getV (vs.getD q (.team 0))).lanes.getD j none
    let js := (List.range tm.w).filter fun j => (List.range vs.length).all fun q => (lane q j).isSome
    (rs.length = js.length ∧ ∀ i q b, i < js.length → q < vs.length → b < 4 → ∃ x, lane q (js.getD i 0) = some x ∧
      (rs.getD i []).length = 4 * vs.length ∧ (rs.getD i []).getD (4 * q + b) 0#8 = x.extractLsb' (8 * b) 8) ∧
    (∀ s1, s.gather (s.rootJob fd) x fd.ctx nd rs = some s1 → Completes (.emit sq d a) s tm 4 sq (s1.releaseBy tm) tm ∧
      (rs ≠ [] → ∃ j' nd', s1.jobs[s.rootJob fd]? = some j' ∧ j'.nodes[x]? = some nd' ∧ nd'.recs = nd.recs ++ rs)) ∧
    (rs = [] → nd.recs.length ≤ 65536 → Completes (.emit sq d a) s tm 4 sq (s.releaseBy tm) tm) ∧
    (s.gather (s.rootJob fd) x fd.ctx nd rs = none → exec (.emit sq d a) s =
      .next (s.teamNow { tm with wait := .engine (.node (s.rootJob fd) x a.toNat (nd.recSize / 4)), waitAt := s.moves + 1 }))) ∧
  (∀ (sq : BitVec 3) (g : BitVec 10) (s : State) (fd : Fold) (tm : Team) (k : Kernel), IssuesIn s fd tm →
    OperandsReady tm [⟨g.toNat, 8⟩] [] [] →
    let w (i : Nat) : Nat := ((groupUs tm [⟨g.toNat, 8⟩]).getD i 0#64).toNat
    w 7 = 0 → launchBad w (s.ctx fd.ctx).kernels = false → s.launchHeld fd.ctx < 256 →
    (s.ctx fd.ctx).kernels[bitsOf (w 0) 15 0]? = some k →
    Completes (.launch sq g) s tm 4 sq ((s.releaseBy tm).submit fd.ctx w k) tm ∧
      ((s.releaseBy tm).submit fd.ctx w k).jobs.length = s.jobs.length + 1) ∧
  (∀ (d g : BitVec 7) (wb : Bool) (s : State) (tm : Team) (r : VRef) (win n : Nat), Issues s tm →
    (tm.vrefs d.toNat 1 1).written.regs = [r] → (tm.vrefs d.toNat 1 1).written.causes = [] → (tm.uref g.toNat false).causes = [] →
    (tm.getV r).full = true → (tm.uref g.toNat false).regs.all tm.opndFull = true →
    ((tm.uref g.toNat false).regs.all fun u => (tm.opndPoison u).isNone) = true →
    (((tm.uref g.toNat false).regs.map tm.opnd).headD 0#64).toNat = 2048 * win + n → win < 32 → 1 ≤ n → n ≤ tm.w → n < 2048 →
    s.windowBound (s.place tm) win = false →
    let ls := (List.range tm.w).map fun j => if j < n then some (0#32 : Word) else none
    slotsOf ls - slotsOf (tm.getV r).lanes ≤ (s.env s.cur tm).slots →
    ∃ t, exec (.vland d g wb) s = .next (s.teamNow t) ∧ t.getV r = ⟨ls, false, []⟩ ∧
      t.landings = tm.landings ++ [⟨win, r, n, List.replicate (4 * n) none, [], false, false⟩] ∧
      t.pc = BitVec.ofNat 48 (tm.pc.toNat + 4) ∧ t.uregs = tm.uregs)


/-! ## Moves of other agents: halts, partitions, folds and jobs -/

/-- A halt arrives at the teams of its fold: one that is blocked, or may issue nothing more, stops at once with its registers as
they stand, a sibling with cause 0x3B (R410, R411), a victim with 0x3C (R424); another issues the instructions of its skid, at
most 64, and stops at the last of them, its record counting them (R410). An external debug halt stops every team with 0x3A (R422).
An unclassified fatal error stops a team with 0x3F and freezes the black-box record (R406, R483). The records of a halt are
posted in one run as soon as they fit, though another halt's do not: consecutive sequences, the queue's tail, a count that runs on unwrapped (log entry 61), moved on by their
number, and every team of the run carrying its sequence (R411, R414). Writing the queue's head moves it and tries the run again (R414).
The run is stated with no block held decoded. -/
def Obligations.HaltsAndTheirRecords : Prop :=
  (∀ (s : State) (t skid n : Nat) (tm : Team) (f : Fold), s.team? t = some tm → tm.status = .run → tm.fold = n → s.fold? n = some f →
      let stops (i : Instr) (P : Stop → Prop) : Prop := ∃ t' tm' st, exec i s = .next t' ∧ t'.team? t = some tm' ∧
        tm'.status = .stopped ∧ tm'.stop = some st ∧ P st ∧ st.pc = tm.pc ∧ tm'.pc = tm.pc ∧ tm'.vregs = tm.vregs ∧
        tm'.uregs = tm.uregs ∧ tm'.flags = tm.flags ∧ t'.mem = s.mem
      let cause := if f.victim = true then 0x3C else 0x3B
      let more := if tm.wait = .none ∧ tm.halt = none then skid else 0
      (f.victim = true ∨ s.haltBegun f = true → more = 0 → stops (.haltArrival t skid) fun st => st.cause = cause ∧ st.kind = 1 ∧
        st.first = false ∧ st.skid = (tm.halt.map (·.2.2)).getD 0) ∧
      (f.victim = true ∨ s.haltBegun f = true → more ≠ 0 → ∃ t' tm', exec (.haltArrival t skid) s = .next t' ∧
        t'.team? t = some tm' ∧ tm'.status = .run ∧ tm'.halt = some (cause, min more 64, 0) ∧ tm'.pc = tm.pc ∧
        tm'.vregs = tm.vregs ∧ tm'.uregs = tm.uregs) ∧
      (∀ c k m, t = s.cur → tm.halt = some (c, k, m) → tm.stepOne = false → ∃ tm', exec (.gnop 0#3) s = .next (s.teamNow tm') ∧
        tm'.pc = BitVec.ofNat 48 (tm.pc.toNat + 4) ∧
        (m + 1 < k → tm'.status = .run ∧ tm'.halt = some (c, k, m + 1)) ∧
        (k ≤ m + 1 → ∃ st, tm'.status = .stopped ∧ tm'.stop = some st ∧ st.cause = c ∧ st.skid = m + 1)) ∧
      (f.status = .resident → t ∈ f.teams → stops (.externalDebugHalt n) fun st => st.cause = 0x3A ∧ st.kind = 0) ∧
      (f.victim = true → f.status = .resident → t ∈ f.teams → ∃ t', exec (.victimStop n) s = .next t' ∧ n ∉ (t'.pad f.paddock).claims ∧
        ∀ k u, k ∈ f.teams → t'.team? k = some u → u.status ≠ .run) ∧
      (f.status = .resident → t ∈ f.teams → ∃ t' k u st, exec (.fatalUnclassified n) s = .next t' ∧ k ∈ f.teams ∧
        t'.team? k = some u ∧ u.status = .stopped ∧ u.stop = some st ∧ st.cause = 0x3F ∧ st.kind = 4 ∧ t'.frozen = true ∧
        t'.mem = s.mem)) ∧
  (∀ (s : State) (c : Nat), c < s.ctxs.length → (s.ctx c).desc.length = 32 → (s.ctx c).pend = [] →
      (∀ before n r after pas, s.decoded = [] → s.haltRuns c = before ++ (n, r) :: after → (∀ y ∈ before, s.queueRoom c y.2.length = none) →
        s.queueRoom c r.length = some pas →
        ∃ t, exec (.faultRunWrite c) s = .next t ∧ (t.ctx c).seqno = (s.ctx c).seqno + r.length ∧
          (t.ctx c).desc.getD 8 0#64 = (s.ctx c).desc.getD 8 0#64 + BitVec.ofNat 64 r.length ∧
          ∀ x w, (some x, w) ∈ r → ∃ tm st k, t.team? x.1 = some tm ∧ tm.stop = some st ∧ st.seqno = some ((s.ctx c).seqno + k) ∧
            k < r.length) ∧
      (s.haltRuns c = [] → exec (.faultRunWrite c) s = .next { s with moves := s.moves + 1 }) ∧
      (∀ v, s.haltRuns c = [] → exec (.faultQueueHeadWrite c v) s =
        .next { (s.updCtx c fun x => { x with desc := upd x.desc 9 fun _ => v }) with moves := s.moves + 1 }))

/-- Fold control (R415, R479), on a halted fold of one team: resume retires the trapping instruction and the team goes on past
it, replay executes it again, kill ends every team of the fold; a sequence that names no halt is answered 2. A fold without
progress for its context's intervals is killed with subcode 1 by the watchdog (R415). -/
def Obligations.FoldControl : Prop :=
  ∀ (s : State) (c q n t : Nat) (f : Fold), s.bring = 7 → s.unasked = true → c < 64 →
    (s.haltOf c q = none → ∀ i, (i = .foldResume c q ∨ i = .foldReplay c q ∨ i = .foldKill c q) →
      exec i s = .next { s with out := s.out ++ [.osResult 4 2 0], moves := s.moves + 1 }) ∧
    (∀ tm st, s.haltOf c q = some (n, f, st) → f.teams = [t] → s.team? t = some tm → tm.stop = some st → st.kind = 0 →
      st.cause ≠ 0x30 → st.cause ≠ 0x32 → st.cause ≠ 0x3D → st.cause ≠ 0x3F → tm.late = [] → f.broken = [] → tm.arrived = none → tm.reply = none →
      (st.seq = none ∨ st.seq = some 0#3) →
      let goes (i : Instr) (pc : CodeAddr) : Prop := ∃ t' tm', exec i s = .next t' ∧ t'.team? t = some tm' ∧ tm'.status = st.was ∧
        tm'.stop = none ∧ tm'.pc = pc ∧ tm'.vregs = tm.vregs ∧ tm'.uregs = tm.uregs ∧ tm'.flags = tm.flags ∧ t'.mem = s.mem ∧
        t'.out = s.out ++ [.osResult 4 0 0]
      goes (.foldResume c q) (BitVec.ofNat 48 (tm.pc.toNat + st.len)) ∧ goes (.foldReplay c q) tm.pc ∧
      ∃ t' f', exec (.foldKill c q) s = .next t' ∧ t'.fold? n = some f' ∧ f'.killedBy = some 0 ∧
        t'.out = s.out ++ [.osResult 4 0 0] ∧ ∀ k u, k ∈ f.teams → t'.team? k = some u → u.status = .gone) ∧
    (s.fold? n = some f → f.status = .resident → f.killedBy = none → f.victim = false → s.haltBegun f = false →
      0 < bitsOf ((s.ctx f.ctx).word 24) 15 0 → bitsOf ((s.ctx f.ctx).word 24) 15 0 ≤ f.idle →
      ∃ t' f', exec (.foldWatchdog n) s = .next t' ∧ t'.fold? n = some f' ∧ f'.killedBy = some 1 ∧
        ∀ k u, k ∈ f.teams → t'.team? k = some u → u.status = .gone)

/-- Results and load lines (R27, R165, R166): the oldest complete result is written, and its registers are full; a line that
arrives gives its lanes the bytes that the load read, which it did at issue (log entry 3), and one on which faults were found, poison
or mixed sizes, stops the team with the lowest cause, its record naming the load's address while the team's pc stays where it stands
(log entry 63). -/
def Obligations.ResultsArrive : Prop :=
  ∀ (s : State) (n : Nat) (tm : Team) (i : InFlight) (rest : List InFlight), s.team? n = some tm → tm.inflight = i :: rest →
    (i.lines = [] → exec (.instructionComplete n) s =
      .next { (s.updTeam n fun _ => i.writes.foldl Team.complete { tm with inflight := rest }) with moves := s.moves + 1 }) ∧
    (∀ l ls, i.lines = l :: ls → l.faults = [] → ∀ r lanes p, i.writes = [.vec r lanes p] →
      (l.bytes.map (·.1)).Nodup → ∃ t tm' j lanes', exec (.loadLineArrival n) s = .next t ∧ t.mem = s.mem ∧
        t.team? n = some tm' ∧ tm'.inflight = j :: rest ∧ j.lines = ls ∧ j.writes = [.vec r lanes' p] ∧
        (∀ x ∈ l.bytes, 0 < x.2.length → x.2.length ≤ 4 → x.1 < lanes.length →
          lanes'[x.1]? = some (some (wordOfNat (numOf x.2)))) ∧
        ∀ k, k ∉ l.bytes.map (·.1) → lanes'[k]? = lanes[k]?) ∧
    (∀ l ls, i.lines = l :: ls → l.faults ≠ [] → (∀ x ∈ l.faults, x.2.1 < 64) → tm.status = .run →
      ∃ t tm' st, exec (.loadLineArrival n) s = .next t ∧ t.team? n = some tm' ∧ tm'.status = .stopped ∧ tm'.stop = some st ∧
        st.cause ∈ l.faults.map (·.2.1) ∧ (∀ x ∈ l.faults, st.cause ≤ x.2.1) ∧ st.pc = i.pc ∧ tm'.pc = tm.pc ∧ tm'.inflight = rest)

/-- The active set and spilling of a partition (R17, R42, R43, R68, R450-R452): a partition's clock counts its own clocks and
its next issue is chosen, the ready team whose last issue is oldest; a team blocked for longer than 32 clocks gives its place to a ready one (that the clocks passed are ISSUE_SELECT's operand rests on log entry 72, that one team is current on log
entry 2); the youngest other team
is spilled for one that waits on slots, which may be spilled itself, while every team that runs waits; a spilled team returns once the pool
holds its registers and the slots that its instruction wants, the oldest first, and where all the others wait the oldest that wants nothing
but slots. That a place counts what a team's next instruction wants before it tries to issue is log entry 104, what a
team spilled outside a wait on slots wants and which spilled team returns log entry 105. A team that has issued
its end and whose results are complete is gone, its registers and windows free (R55, R56). -/
def Obligations.PartitionMoves : Prop :=
  ∀ (s : State) (place : Nat),
    let fits (k : Nat) (tm : Team) : Bool := decide (tm.held + max (tm.wait.need.getD 0) tm.wants ≤
      s.slotsFree k { tm with vregs := [], stray := [], inflight := [] })
    let back (P : Nat → Team → Bool) : Option (Nat × Team) := (s.teamsOn place).find? fun x => x.2.spilled && P x.1 x.2
    (∀ clocks, place < 4096 → ∃ t, exec (.issueSelect place clocks) s = .next t ∧ t.clock place = s.clock place + clocks ∧
      (∀ p, p ≠ place → t.clock p = s.clock p) ∧ t.mem = s.mem ∧
      (∀ k tm, s.team? k = some tm → ∃ tm', t.team? k = some tm' ∧ tm'.vregs = tm.vregs ∧ tm'.uregs = tm.uregs ∧ tm'.pc = tm.pc ∧
        tm'.status = tm.status) ∧
      (∀ k tm, s.teamsOn place = [(k, tm)] → s.ready k tm = true → t.cur = k) ∧
      ∀ k tm, (k, tm) ∈ s.teamsOn place → (∀ x ∈ s.teamsOn place, x.2.active = true) → s.ready k tm = true →
        (∀ x ∈ s.teamsOn place, x.1 ≠ k → s.ready x.1 x.2 = true → tm.lastIssue < x.2.lastIssue) → t.cur = k) ∧
    (∀ a b ta tb, s.teamsOn place = [(a, ta), (b, tb)] →
      (ta.active = true → ta.status = .run → s.waits a ta = true → ta.wait.swaps = true → 33 ≤ ta.blocked → tb.active = false → s.ready b tb = true →
        ∃ t ta' tb', exec (.swapToPending place) s = .next t ∧ t.team? a = some ta' ∧ t.team? b = some tb' ∧ ta'.active = false ∧
          tb'.active = true ∧ ta'.vregs = ta.vregs ∧ tb'.vregs = tb.vregs) ∧
      (ta.status = .run → tb.status = .run → ta.spilled = false → tb.spilled = false → s.wantsSlots a ta = true →
        s.waits b tb = true → tb.inflight = [] → exec (.slotSpill place) s =
          .next { (s.updTeam b fun x => { x with spilled := true }) with moves := s.moves + 1 }) ∧
      (ta.spilled = true → tb.status = .run → tb.spilled = false → s.slotsOnly a ta = true → fits a ta = false →
        s.waits b tb = true → tb.inflight = [] → exec (.slotSpill place) s =
          .next { (s.updTeam b fun x => { x with spilled := true }) with moves := s.moves + 1 })) ∧
    (∀ k tm, (if s.allWait place = true ∧ (back s.slotsOnly).isSome = true then back s.slotsOnly else back fun _ _ => true) = some (k, tm) →
      (fits k tm = true →
        exec (.spillRestore place) s = .next { (s.updTeam k fun x => { x with spilled := false }) with moves := s.moves + 1 }) ∧
      (fits k tm = false → exec (.spillRestore place) s = .next s)) ∧
    (∀ k tm f, s.team? k = some tm → tm.status = .ending → tm.inflight = [] → s.fold? tm.fold = some f → f.status = .resident →
      ∃ t tm', exec (.teamEnd k) s = .next t ∧ t.team? k = some tm' ∧ tm'.status = .gone ∧ tm'.vregs = [] ∧ tm'.uregs = [] ∧
        tm'.landings = [] ∧ (s.written = true → s.decoded = [] → t.mem = s.mem))

/-- Host queues (R440-R443, R474, R475, R485): page 0x10000 + 0x1000 i of a function's BAR0 is its i-th context's; a doorbell value
between the queue's tail and its tail plus its size becomes the tail, another value is logged; where the function has no such context,
or before bring-up has ended, the write does nothing; the next packet becomes a job of its queue, a malformed one a job that will fail
with cause 0x1E subcode 1; once an event has been incremented or an interval has ended, waiting jobs whose dependence words have
reached their values become ready. That HQBASE drops the low nine bits written is the model's choice
(log entry 47), as is a malformed packet's waiting job, without events (log entry 70). It is stated with no block held decoded. -/
def Obligations.HostQueues : Prop :=
  ∀ (s : State) (fn i c q : Nat) (v : BitVec 64), (s.ctxsOf fn)[i]? = some c → s.bring = 7 → s.decoded = [] → q < 16 →
    (s.ctx c).hostq.length = 16 →
    let page := 0x10000 + 0x1000 * i
    let h := (s.ctx c).hostq.getD q ⟨0, 0⟩
    let pa := s.hq c q 0 + 128 * (h.read % s.hqSize c q)
    let w (i : Nat) : Nat := s.bus64 (pa + 8 * i)
    let ks := (s.ctx c).kernels
    (s.hqOn c q = true → h.tail ≤ v.toNat → v.toNat ≤ h.tail + s.hqSize c q → ∃ t, exec (.doorbellWrite fn (page + 8 * q) v) s = .next t ∧
      (t.ctx c).hostq.getD q ⟨0, 0⟩ = ⟨v.toNat, h.read⟩) ∧
    ((s.hqOn c q = false ∨ v.toNat < h.tail ∨ h.tail + s.hqSize c q < v.toNat) → s.frozen = false →
      ∃ t e, exec (.doorbellWrite fn (page + 8 * q) v) s = .next t ∧ t.bbox.getLast? = some e ∧ e.event = 9 ∧ e.w3 = v ∧ (t.ctx c).hostq = (s.ctx c).hostq) ∧
    (∃ t, exec (.doorbellWrite fn (page + 0x100) v) s = .next t ∧ (t.ctx c).hqbase = BitVec.ofNat 64 (v.toNat / 512 * 512)) ∧
    (∀ k o, (s.ctxsOf fn).length ≤ k → o < 0x1000 → exec (.doorbellWrite fn (0x10000 + 0x1000 * k + o) v) s = .next s) ∧
    (∀ b o, b ≠ 7 → exec (.doorbellWrite fn o v) { s with bring := b } = .next { s with bring := b }) ∧
    (s.hqOn c q = true → h.read < h.tail → hostMay pa = true →
      let job (j : Job) (P : Job → Prop) : Prop := ∃ t, exec (.packetRead c q) s = .next t ∧ t.jobs = s.jobs ++ [j] ∧ j.ctx = c ∧
        j.queue = q ∧ j.index = h.read ∧ P j ∧ (t.ctx c).hostq.getD q ⟨0, 0⟩ = ⟨h.tail, h.read + 1⟩
      (∀ k, ks[bitsOf (w 0) 15 0]? = some k → launchBad w ks = false → packetBad w k = false →
        ∃ j, job j fun j => j.kernel = bitsOf (w 0) 15 0 ∧ j.prio = bitsOf (w 0) 20 19 ∧ j.failCause = (0, 0) ∧
          (j.status = .ready ↔ j.deps = [])) ∧
      ((∀ k, ks[bitsOf (w 0) 15 0]? = some k → launchBad w ks = true ∨ packetBad w k = true) →
        ∃ j, job j fun j => j.failCause = (0x1E, 1) ∧ j.status = .waiting ∧ j.events = [])) ∧
    ((∀ j ∈ s.jobs, j.status = .waiting → ∀ d ∈ j.deps, ∃ x, s.virt64 0 j.ctx d.1 = .ok x) →
      s.testDue = true → ∃ t, exec .dependenceTest s = .next t ∧ t.mem = s.mem ∧ t.testDue = false ∧ ∀ (n : Nat) (j : Job), s.jobs[n]? = some j → j.status = .waiting →
        j.failCause = (0, 0) → ∃ j', t.jobs[n]? = some j' ∧
          (j'.status = .ready ↔ ∀ d ∈ j.deps, ∃ x, s.virt64 0 j.ctx d.1 = .ok x ∧ d.2.1 ≤ x)) ∧
    (s.testDue = false → exec .dependenceTest s = .next s)

/-- Dispatch and admission (R13, R44, R45, R446-R449): the first job by priority, time and number reads its launch data; its next
fold is admitted to the first paddock of the scan that fits it, with its teams at the kernel's entry and the state of R45, ahead of
no job that comes before it and may begin to dispatch or has a fold that fits; one that fits no paddock is refused, and not
tried again while the refusal stands, the first since an interval boundary counting as that boundary's (R449); a job refused 64 times gets a paddock reserved, the one with the most unclaimed energy. The
launch data is read with no block held decoded. -/
def Obligations.JobsAreAdmitted : Prop :=
  ∀ (s : State) (n : Nat) (j : Job), s.jobs[n]? = some j →
    (∀ x args, s.mayDispatch n j = true → (∀ y ∈ s.jobList, s.mayDispatch y.1 y.2 = true → jobBefore y (n, j) = false) →
      j.nodes = [] → s.decoded = [] → s.launchData j = .ok (x, args) → exec (.jobDispatch n) s = .next { (s.updJob n fun k =>
        { k with status := .dispatching, x := x.1, y := x.2.1, z := x.2.2, argVals := args }) with moves := s.moves + 1 }) ∧
    let first : Prop := ∀ y ∈ s.jobList, jobBefore y (n, j) = true →
      s.mayDispatch y.1 y.2 = false ∧ (y.2.refused = true ∨ s.findPlace y.1 y.2 = none)
    (j.more = true → j.refused = false → first → s.findPlace n j = none → exec (.foldAdmit n) s =
      .next { (s.updJob n fun x => { x with
        refused := true, refusals := if x.tryDue then x.refusals + 1 else x.refusals, tryDue := false }) with moves := s.moves + 1 }) ∧
    (j.refused = true → exec (.foldAdmit n) s = .next s) ∧
    (∀ k p ks sc ac, s.findPlace n j = some (k, p, ks, sc, ac) → j.refused = false → first →
      ∃ t f, exec (.foldAdmit n) s = .next t ∧ t.folds.length = s.folds.length + 1 ∧ t.fold? s.folds.length = some f ∧
        f.paddock = p ∧ f.linear = j.next ∧ f.job = n ∧ f.ctx = j.ctx ∧ f.kernel = k ∧ f.status = .resident ∧ f.scratch = sc ∧
        f.acc = ac ∧ (t.pad p).reserved ≠ some n ∧ (s.written = true → s.decoded = [] → t.mem = s.mem) ∧
        ∀ i m, ks[i]? = some m → ∃ tm, t.team? (s.teams.length + i) = some tm ∧ tm.fold = s.folds.length ∧ tm.idx = i ∧ tm.w = k.w ∧
          tm.core = m / 32 ∧ tm.part = m % 32 ∧ tm.pc = k.entry ∧ tm.fmt = 4#32 ∧ tm.fx = 0#6 ∧ tm.flags = Flags.clear ∧
          tm.slots = List.replicate 4 none ∧ tm.arms = [] ∧ tm.calls = [] ∧ tm.status = .run ∧
          tm.vregs = List.replicate k.vregs (VReg.fresh k.w) ∧ tm.uregs = launchRegs j k i) ∧
    (∀ c, j.more = true → 64 ≤ j.refusals → (∀ p ∈ s.paddocks, p.reserved ≠ some n) → s.paddocks.length = 32 → c < 32 →
      (s.pad c).reserved = none → s.vacates.any (·.mask.getLsbD c) = false →
      ∃ t p, exec (.foldReservation n) s = .next t ∧ p < 32 ∧ (s.pad p).reserved = none ∧ s.vacates.any (·.mask.getLsbD p) = false ∧
        (t.pad p).reserved = some n ∧ ∀ q, q < 32 → (s.pad q).reserved = none → s.vacates.any (·.mask.getLsbD q) = false →
          s.unclaimed q ≤ s.unclaimed p)

/-- Folds and jobs end (R13, R55, R56, R61, R62, R444): a fold whose teams are gone and whose engine work is complete frees what it
held, and the queues it held open are released; a job all of whose folds have ended completes and increments its event's
word; a failed job ends as failed, no paddock reserved for it, with a record in its context's fault queue. The coalescer (R59, R453): a node that has
gathered its coalesce count launches a node team's job over its first records and keeps the rest; when every producer has ended
the remaining records are launched as one smaller batch. That a node's records stand in areas of which a launch takes the first rests
on log entry 71, the order of the flush on log entry 52, the node teams' job on log entry 29. -/
def Obligations.FoldsAndJobsEnd : Prop :=
  (∀ (s : State) (n : Nat),
      (∀ f, s.fold? n = some f → f.status = .resident → (∀ x ∈ s.foldTeams f, x.2.status = .gone) → s.engineBusy n f = false →
        ∃ t f', exec (.foldEnd n) s = .next t ∧ t.fold? n = some f' ∧ f'.status = .ended ∧ f'.recs = [] ∧ f'.chans = [] ∧
          n ∉ (t.pad f.paddock).claims ∧ (s.written = true → s.decoded = [] → t.mem = s.mem)) ∧
      (∀ p q fo f, ((s.pad p).queues.getD q Queue.empty).owner = some fo → s.fold? fo = some f → f.status = .ended →
        (∀ r ∈ s.rows, r.closed = true) → ∃ t, exec (.queueRelease p q) s = .next t ∧
          (t.pad p).queues.getD q Queue.empty = Queue.empty) ∧
      (∀ j, s.jobs[n]? = some j → j.status = .dispatching → j.failCause = (0, 0) → j.total ≤ j.next → s.foldsEnded n = true →
        (∀ x ∈ j.nodes, x.recs = []) → (∀ x ∈ s.children n, x.2.ended = true) →
        ∃ t j', exec (.jobComplete n) s = .next t ∧ t.jobs[n]? = some j' ∧ j'.status = .done ∧ j'.reported = true ∧
          ∀ va pa dr, j.events = [va] → 16 ≤ j.queue → s.translate 0 j.ctx va .write = .ok pa dr → s.decoded = [] →
            regionOf pa = .memory → pa % 8 = 0 → Memory.wf s.mem = true →
            memRead t.mem pa 8 = bytesOf 8 (numOf (memRead s.mem pa 8) + 1)) ∧
      (∀ j, s.jobs[n]? = some j → j.failCause ≠ (0, 0) → j.status ≠ .done → j.status ≠ .failed → j.reported = false →
        s.foldsEnded n = true → j.parent = none → s.children n = [] → j.ctx < s.ctxs.length → s.decoded = [] →
        ∃ t j', exec (.jobFail n) s = .next t ∧ t.jobs[n]? = some j' ∧ j'.status = .failed ∧ j'.reported = true ∧
          (∀ p ∈ t.paddocks, p.reserved ≠ some n) ∧ (t.ctx j.ctx).seqno + (t.ctx j.ctx).pend.length = (s.ctx j.ctx).seqno + (s.ctx j.ctx).pend.length + 1)) ∧
  (∀ (s t : State) (n node : Nat) (j : Job) (x : Node), s.jobs[n]? = some j → j.nodes[node]? = some x → j.parent = none →
      j.failCause = (0, 0) →
      let launches (i : Instr) (k : Nat) : Prop := s.launchNode n j node x k = some t →
        exec i s = .next { t with moves := t.moves + 1 } ∧ t.jobs.length = s.jobs.length + 1 ∧
          (∃ j', t.jobs[n]? = some j' ∧ j'.nodes[node]? = some { x with recs := x.recs.drop k, areas := x.areas.drop 1 }) ∧
          ∃ c, t.jobs.getLast? = some c ∧ c.queue = nodeQueue ∧ c.kernel = x.kernel ∧ c.parent.map (·.1) = some n ∧
            c.argVals.getD 1 0#64 = BitVec.ofNat 64 k
      (0 < x.count → x.count ≤ x.recs.length → launches (.coalescerLaunch n node) x.count) ∧
      (j.status = .dispatching → j.total ≤ j.next → s.foldsEnded n = true → (∀ c ∈ s.children n, c.2.ended = true) → x.recs ≠ [] →
        x.recs.length < x.count → (∀ y ∈ j.nodes.take node, y.recs = []) → launches (.jobFlushLaunch n node) x.recs.length))
/-! ## Moves of other agents: the array, engines, shearers, links, power, preemption, the resident OS and management -/

/-- The array and the decoder port. The port reads a stream-fed entry's header: one whose K and N are the command's makes it
eligible, a fault abandons the command (R304, R307, R269); entries are read in the order in which they became ready. The array
takes the next slice of the entry the arbiter chooses, one of 32 rows for a command of full tiles (R250, R253), and keeps the D rows of one
that accumulates (R260). A tile decoded from the segment that the entry's restart record names feeds the command (R303, R311). A slice that reads no poison
commits its rows and its command has one granted slice less (R250, R256). These are stated with no block held decoded. The integer product of two i8 vectors is their exact
sum of products modulo 2^32 (R257, R259). A block merge stores elements of one block (R341). A block held decoded whose lines leave
the L2 is encoded, one that no store has changed too (log entry 87; R342): its encoded bytes stand in its place, its set is charged, and where the context's sets cannot be written
memory holds those bytes and else what it did. -/
def Obligations.ArrayMoves : Prop :=
  (∀ (s : State) (p i : Nat) (e : ResEntry) (fd : Fold), p < s.paddocks.length → (s.pad p).table[i]? = some e →
    s.fold? e.fold = some fd → fd.status = .resident → fd.paddock = p → s.decoded = [] →
    let x := e.blk
    let tile := bitsOf x.b 47 16
    let c := fd.ctx
    let g := s.dateEntries p
    (∀ (r : Rec) (t : Tile), s.recOfFold fd (bitsOf x.b 11 0) = some r → s.readNext p = some i →
      s.tileOf (pastureOf p) c r tile x.bfmt (x.k, x.n) = .ok t → t.k = x.k ∧ t.n = x.n ∧
      ∃ u e', exec (.streamHeaderRead p i) s = .next u ∧ (u.pad p).table[i]? = some e' ∧ e'.header = some t ∧ e'.live = true ∧
        e'.posts = e.posts ∧ u.mem = s.mem) ∧
    (∀ (r : Rec) (k sub d : Nat), s.recOfFold fd (bitsOf x.b 11 0) = some r → s.readNext p = some i →
      s.tileOf (pastureOf p) c r tile x.bfmt (x.k, x.n) = .error (k, sub, d) →
      ∃ u e', exec (.streamHeaderRead p i) s = .next u ∧ (u.pad p).table[i]? = some e' ∧ e'.live = false ∧
        e'.fault = some (k, sub, dwordOfNat d)) ∧
    (∀ e1 : ResEntry, (s.pad p).running = none → g.choose p = some i → (g.pad p).table[i]? = some e1 →
      (g.sliceList fd e1).any (g.tagBad e1 fd) = false → ∃ u e', exec (.sliceGrant p) s = .next u ∧
        (u.pad p).table[i]? = some e' ∧ (∀ sl ys, g.sliceList fd e1 = sl :: ys → e'.granted = { sl with keep := g.keptRows e1 fd sl } :: ys) ∧
        e'.passed = 0 ∧ e'.posts = e.posts ∧ u.mem = s.mem ∧
        (e.kind ≠ .mmaR → e.stream = false → e.kept = [] → ∀ k, k < e.total → e.left k = true → (∀ m, m < k → e.left m = false) →
          e'.next = k + 1 ∧ ∃ rows, e'.granted = [⟨k, 32 * k, 32, [], (s.pad p).arrctl.getLsbD 0, 0#64, false, 0, rows, []⟩] ∧
            (x.acc = false → rows = []) ∧
            (x.acc = true → (∀ r, r < 32 → s.poisonIn (e.dRow fd (32 * k + r)) (x.rowBytes e.kind) = []) → rows = (List.range 32).map fun r =>
              s.codes fd (e.dRow fd (32 * k + r)) (accSize (accType e.kind x.afmt x.bfmt)) x.n))) ∧
    (∀ (sl : Slice) (r : Rec) (t : Tile) (ys : List Nat), (s.pad p).running = some (i, e, sl) →
      s.recOfFold fd (bitsOf x.b 11 0) = some r → e.stream = true → e.codes = none → fd.victim = false →
      e.header = some t →
      let seg := e.seg
      s.decodeTile (pastureOf p) c r tile t (if e.freqs.isEmpty then (s.ctx c).table t.table else e.freqs) seg = .ok ys →
      ∃ u e', exec (.streamDecode p) s = .next u ∧ (u.pad p).table[i]? = some e' ∧
        e'.codes = some (e.prior.take (seg * t.interval) ++ ys) ∧ u.mem = s.mem) ∧
    (∀ sl : Slice, (s.pad p).running = some (i, e, sl) → (e.stream = true → e.codes ≠ none) → fd.victim = false →
      (∀ r ∈ e.sliceReads fd sl, s.poisonIn r.1 r.2 = []) →
      let conf := sl.conf || sl.replay
      let rows := (List.range sl.rows).map fun r =>
        (e.dRow fd (sl.first + r), (s.sliceRow e fd sl conf (s.bRows e fd) (sl.first + r)).1)
      ∃ u e', exec (.sliceComplete p) s = .next u ∧ u.mem = (s.commitRows (accType e.kind x.afmt x.bfmt) rows).mem ∧
        (u.pad p).table[i]? = some e' ∧ e'.granted.map (fun y => { y with keep := [] }) = (e.granted.drop 1).map fun y => { y with keep := [] })) ∧
  (∀ (conf : Bool) (a b : List Nat), a.length = b.length → 32 ∣ a.length →
    (prodElem .i32 2 2 conf a b none).1 =
      (((a.zip b).map fun y => toI true 8 y.1 * toI true 8 y.2).sum % (2 ^ 32 : Nat)).toNat) ∧
  (∀ (s : State) (c pa rate set : Nat) (es : List (Nat × BitVec 64)), rate < 8 → pa % Nat.gcd (blockBytes rate) 65536 = 0 → es ≠ [] →
    (∀ y ∈ es, y.1 < 16) → regionOf pa = .memory → set < 64 → c < 64 →
    (∀ i, i < 16 → ∃ y ∈ es, y.1 = i) ∨ s.poisonIn pa (blockBytes rate) = [] →
    let t := s.storeBlock c rate set [(pa, blockBytes rate)] (s.drPage c pa) (es.map fun y => (y.1, y.2.toNat))
    exec (.blockMerge c pa rate set es) s = .next { t with moves := t.moves + 1 }) ∧
  (∀ (s : State) (pa : Nat) (b : DecBlock), s.decoded.find? (fun y => (y.segs.head?.map (·.1)) == some pa) = some b →
    (∃ r ∈ b.segs, 0 < r.2) → ∃ t, exec (.decodedBlockEncode pa) s = .next t ∧ b ∉ t.decoded ∧
      let bytes := encodeBlock b.rate (b.vals.map (·.toNat))
      let u := s.encodeHeld b
      (s.decoded = [b] → s.written = true → t.mem = (u.charge (homePasture pa) b.ctx b.set b.loss).mem) ∧
      (s.decoded = [b] → s.written = true → b.segs = [(pa, bytes.length)] → regionOf pa = .memory → Memory.wf s.mem = true →
        memRead u.mem pa bytes.length = bytes ∧ (∀ a, a < pa ∨ pa + bytes.length ≤ a → memGet u.mem a = memGet s.mem a) ∧
        ((∀ tlb va, ∃ k sub, u.translate tlb b.ctx va .write = .fault k sub) → t.mem = u.mem)))

/-- Engine work of a live operation. A counter falls by 1 when the work completes (R268): mzero writes zeros (R277); mdrain writes
its converted elements, an f32 drain to f32 the bytes as they are (R278, R279); wtab sets a table (R283); a copy delivers its
next line of 64 bytes, its channel's pointer rising by as much, and completes once all are delivered (R284-R286). Work that
meets a fault stops its team with a record of kind 3 that names the engine instruction, and its counter stays (R269, R412). -/
def Obligations.EngineMoves : Prop :=
  ∀ (s : State) (n : Nat) (o : EngOp) (f : Fold) (tm : Team) (k : BitVec 16), s.ops[n]? = some o → s.fold? o.fold = some f →
    o.live = true → f.status = .resident → f.victim = false → s.team? o.team = some tm → tm.cc[o.cc]? = some k → k ≠ 0#16 →
    let counter (t : State) (v : BitVec 16) : Prop := ∃ tm', t.team? o.team = some tm' ∧ tm'.cc[o.cc]? = some v
    let ended (t : State) : Prop := counter t (k - 1#16) ∧ ∃ o', t.ops[n]? = some o' ∧ o'.live = false
    let src := sideOf (blk o.block 0)
    let dst := sideOf (blk o.block 1)
    (o.kind = .mzero → o.done = 0 → s.tainted = [] → Memory.wf s.mem = true →
      let pa := f.accPa (descCore (blk o.block 0)) (descOff (blk o.block 0))
      regionOf pa = .memory → ∃ t, exec (.mzeroComplete n) s = .next t ∧ ended t ∧ ∀ a, memGet t.mem a =
        if pa ≤ a ∧ a < pa + bitsOf (blk o.block 1) 20 0 then 0#8 else memGet s.mem a) ∧
    (o.kind = .mdrain → ∀ s' : State, s.drain f o = (s', none) → ∃ t, exec (.mdrainComplete n) s = .next t ∧ t.mem = s'.mem ∧ ended t) ∧
    (o.kind = .mdrain → o.done = 0 → s.tainted = [] → Memory.wf s.mem = true → (∀ a, s.oldByte f a = none) →
      let x := drainBlk o.block
      let len := 4 * (x.rows * x.cols)
      let from_ := f.accPa (descCore x.src) (descOff x.src)
      let into := f.scratchPa (descCore x.dst) (descOff x.dst)
      x.acctype = 0 → x.fmt = 8 → x.toRec = false → x.scales = false → x.status = 0 → s.poisonIn from_ len = [] →
      regionOf into = .memory → (∀ i, i < len → regionOf (from_ + i) = .memory) →
      ∃ t, exec (.mdrainComplete n) s = .next t ∧ ∀ i, i < len → memGet t.mem (into + i) = memGet s.mem (from_ + i)) ∧
    (o.kind = .wtab → f.ctx < s.ctxs.length → ∀ fs : List Nat, (s.tableSettle f o).tableLoad f o = .ok fs → ∃ t, exec (.wtabLoadComplete n) s = .next t ∧
      ended t ∧ (t.ctx f.ctx).table (bitsOf (blk o.block 0) 3 0) = fs ∧
      t.mem = (s.tableSettle f o).mem) ∧
    (o.kind = .copy → o.done < copyLen o → s.copyHeld n o = false →
      let len := min 64 (copyLen o - o.done)
      (∀ (m : Nat) (s' : State), s.copyLine f o = (m, s', none) → ∃ t o' f', exec (.copyLineDeliver n) s = .next t ∧ m = len ∧
        t.mem = s'.mem ∧ t.ops[n]? = some o' ∧ o'.done = o.done + len ∧ o'.live = true ∧ counter t k ∧ t.fold? o.fold = some f' ∧
        f'.chans = f.chans.map fun c => if c.core = o.core ∧ c.ch = o.ring then { c with ptr := c.ptr + len } else c) ∧
      (src.kind = 1 → dst.kind = 1 → s.tainted = [] → Memory.wf s.mem = true →
        let into := f.scratchPa (descCore dst.x) (descOff dst.x + o.done)
        let from_ := f.scratchPa (descCore src.x) (descOff src.x + o.done)
        regionOf into = .memory → (∀ i, i < len → regionOf (from_ + i) = .memory) →
        ∃ t, exec (.copyLineDeliver n) s = .next t ∧ ∀ i, i < len → memGet t.mem (into + i) = memGet s.mem (from_ + i))) ∧
    (o.kind = .copy → copyLen o ≤ o.done → ∃ t, exec (.copyComplete n) s = .next t ∧ ended t ∧ t.mem = s.mem) ∧
    (tm.status = .run → tm.fold = o.fold → ∀ (e : EngErr) (s' : State), s.opMeets n o f = some (e, s') →
      ∃ t tm' st, exec (.engineFault n) s = .next t ∧ t.team? o.team = some tm' ∧ tm'.status = .stopped ∧ tm'.stop = some st ∧
        st.kind = 3 ∧ st.cause = e.1 ∧ st.origin = o.pc ∧ tm'.cc = tm.cc)

/-- The shearers (R386-R394): the chunk taken next is of the next context with work and of the next of its rings with work; a
ring's next request is taken and its head moves on; a step of every operation writes some of its output or ends its request's work
with a status. An element is read from, and written at, its place in scratch or in a plain record. A request of one chunk ends
with status 0 and its output written: a conversion each element converted as its request says (R389), a retile each cell at its
row and column, or transposed (R390), a DEFLATE decode the bytes the stream decodes to, of a stored block its data (R391), an FP64
encode the source's elements into the elements of the coded record's blocks, a decode the other way (R392), a weight stream its
tile and, after it, its index entry (R393), an NVMe read the drive's bytes (R394). A weight stream whose table does not sum to 4,096
ends with status 10 (R393). The completion writes the record of R387, the request is gone, and the counter of its xpost falls
(R288), also where the record's page cannot be written (log entry 32); where a landing window, which context 0 alone addresses, refuses a
byte of it the team stops with cause 0x1B and the counter stays (R317; log entry 114). How the turns are counted rests on log entry 113,
which blocks of a request are stored on log entry 31, the drive's answer as an operand and its chunks on log entries 42 and 30, the
encodings that a side's record may have on log entry 66. -/
def Obligations.ShearerMoves : Prop :=
  ∀ (s : State) (c ring : Nat),
    let r := ringOf ((s.ctx c).ring ring)
    let mine (x : ShReq) : Bool := x.ctx == c && x.ring == ring
    let ends (i : Instr) (P : ShReq → Prop) : Prop := ∃ t, exec i s = .next t ∧ ∀ x ∈ t.shear, mine x = true → x.worked = true ∧ P x
    let goes (i : Instr) : Prop := ∃ t, exec i s = .next t ∧ ∀ x ∈ t.shear, mine x = true →
      x.worked = true ∨ ∃ y ∈ s.shear, mine y = true ∧ y.written < x.written
    let done (i : Instr) (u : State) (n : Nat) : Prop := ∃ t, exec i s = .next t ∧ t.mem = u.mem ∧ t.poison = u.poison ∧
      ∀ x ∈ t.shear, mine x = true → x.worked = true ∧ x.status = 0 ∧ x.written = n
    let only (y : ShReq) : Prop := y.written = 0 ∧ y.made = none ∧ ∀ x ∈ s.shear, mine x = true → x = y
    let off (n last x : Nat) : Nat := (x + n - (last + 1) % n) % n
    (∀ k q, s.shNext = some (k, q) → k < 64 ∧ q < 4 ∧ (s.shWaits k q = true ∨ s.shGoes k q = true) ∧
      ∀ k' q', k' < 64 → q' < 4 → s.shWaits k' q' = true ∨ s.shGoes k' q' = true →
        (k' ≠ k → off 64 s.shCtx k < off 64 s.shCtx k') ∧ (k' = k → off 4 (s.shRings.getD k 3) q ≤ off 4 (s.shRings.getD k 3) q')) ∧
    (∀ n pa dr, c < s.ctxs.length → (s.ctx c).desc.length = 32 → (State.shFill shearers s).shBusy.length < 16 →
      (State.shFill shearers s).shNext = some (c, ring) → s.shWaits c ring = true → s.decoded = [] →
      s.postedOp c ring = some n → s.translate 0 c (r.2.1 + 64 * (r.2.2.1 % r.1)) .read = .ok pa dr →
      ∃ t, exec (.shearerTakeRequest c ring) s = .next t ∧ t.mem = s.mem ∧ (ringOf ((t.ctx c).ring ring)).2.2.1 = (r.2.2.1 + 1) % 2 ^ 32 ∧
        let b := (List.range 8).map fun i => dwordOfNat (s.bus64 (pa + 8 * i))
        t.shear = s.shear ++ [⟨c, ring, some n, b, false, 0, 0, 0, s.shTable c b, none⟩]) ∧
    (∀ k i, (k, i) ∈ [(0, Instr.shearerConvert c ring), (1, .shearerRetile c ring), (2, .shearerDeflateDecode c ring),
        (3, .shearerFp64Encode c ring), (4, .shearerFp64Decode c ring), (5, .shearerWeightStreamEncode c ring)] →
      s.shWork c ring k ≠ none → goes i) ∧
    (∀ y j s0 status data, s.shWork c ring 6 = some (y, j, s0) →
      (y.made = none → status = 0 → data ≠ [] ∧ data.length % (512 * shCount y.block) = 0) → goes (.shearerNvmeRead c ring status data)) ∧
    (∀ (j : ShWork) (d : ShSide) (ks : List Nat) (xs : List (Nat × Nat)), d.record = none → j.f.status = .resident → j.before = [] →
      s.decoded = [] → s.poison = [] → Memory.wf s.mem = true →
      let place (k : Nat) : Nat := j.f.scratchPa (descCore d.x) (descOff d.x + k * d.size)
      let fits (k : Nat) : Prop := inAlloc j.f.scratch (descCore d.x) (descOff d.x + k * d.size) d.size = true ∧
        ∀ i, i < d.size → regionOf (place k + i) = .memory
      ((∀ k ∈ ks, fits k) → (s.shGets j d ks).1 = ks.map (fun k => numOf (memRead s.mem (place k) d.size)) ∧ (s.shGets j d ks).2.2 = 0) ∧
      ((∀ x ∈ xs, fits x.1) → (xs.map (·.1)).Nodup → (s.shPuts j d xs).2 = (xs.length, 0) ∧
        (∀ x ∈ xs, memRead (s.shPuts j d xs).1.mem (place x.1) d.size = bytesOf d.size x.2) ∧
        ∀ a, (∀ x ∈ xs, a < place x.1 ∨ place x.1 + d.size ≤ a) → memGet (s.shPuts j d xs).1.mem a = memGet s.mem a)) ∧
    (∀ (j : ShWork) (d : ShSide) (q : Rec) (k v pa : Nat) (dr : Bool), d.record = some q → q.enc = 0 → q.size = d.size → 0 < d.size →
      j.before = [] → s.decoded = [] → s.poison = [] → Memory.wf s.mem = true → k < q.count → q.addr k % 65536 + d.size ≤ 65536 →
      (∀ i, i < d.size → regionOf (pa + i) = .memory) →
      (s.translate (pastureOf j.f.paddock) j.c (q.addr k) .read = .ok pa dr →
        (s.shGets j d [k]).1 = [numOf (memRead s.mem pa d.size)] ∧ (s.shGets j d [k]).2.2 = 0) ∧
      (s.translate (pastureOf j.f.paddock) j.c (q.addr k) .write = .ok pa dr →
        (s.shPuts j d [(k, v)]).2 = (1, 0) ∧ memRead (s.shPuts j d [(k, v)]).1.mem pa d.size = bytesOf d.size v)) ∧
    (∀ y j s0 s1 s2 s3 src dst codes, s.shWork c ring 1 = some (y, j, s0) → only y →
      let rows := shCount y.block
      let cols := bitsOf (blk y.block 4) 31 0
      s0.shSides j y.block 1 1 (fun x z => x.plain x.rec'.size && z.plain x.rec'.size && shShort (rows * cols) x.rec'.size) =
        (s1, .ok (src, dst)) →
      let size := src.rec'.size
      let cells := List.range (rows * cols)
      let to_ (i : Nat) : Nat := if (blk y.block 4).testBit 32 then i % cols * dst.rec'.extent + i / cols
        else i / cols * dst.rec'.extent + i % cols
      0 < size → rows * cols * size ≤ 65536 →
      s1.shGets j { src with size := size } (cells.map fun i => src.at_ (i / cols * src.rec'.extent + i % cols)) = (codes, s2, 0) →
      s2.shPuts j { dst with size := size } ((cells.map fun i => dst.at_ (to_ i)).zip codes) = (s3, rows * cols, 0) →
      done (.shearerRetile c ring) s3 (rows * cols * size)) ∧
    (∀ y j s0 s1 s2 s3 src dst codes out, s.shWork c ring 2 = some (y, j, s0) → only y →
      s0.shSides j y.block 1 1 (fun x z => x.sized 1 && z.sized 1) = (s1, .ok (src, dst)) →
      s1.shGets j src ((List.range (shCount y.block)).map src.at_) = (codes, s2, 0) →
      inflate (codes.map (BitVec.ofNat 8)) (bitsOf (blk y.block 4) 31 0) = (out, 0) → out.length ≤ 65536 →
      (s2.shKeep c ring out 0).shPuts j dst (((List.range out.length).map dst.at_).zip (out.map (·.toNat))) = (s3, out.length, 0) →
      done (.shearerDeflateDecode c ring) s3 out.length) ∧
    (∀ (data : List Byte) (n : Nat), data.length < 65536 → data.length ≤ n →
      inflate ([1#8] ++ bytesOf 2 data.length ++ bytesOf 2 (65535 - data.length) ++ data) n = (data, 0)) ∧
    (∀ y j s0 s1 s2 s3 src dst codes, s.shWork c ring 3 = some (y, j, s0) → only y →
      s0.shSides j y.block 8 8 (fun a z => a.plain 8 && z.rec'.coded && shShort (shCount y.block) (blockBytes z.rec'.rate)) =
        (s1, .ok (src, dst)) →
      let n := shCount y.block
      let first := bitsOf (blk y.block 4) 31 0
      let es := dst.rec'.elemsOf ((List.range n).map (first + ·))
      16 * (first + n) ≤ dst.rec'.count → n * blockBytes dst.rec'.rate ≤ 65536 → dst.rec'.rate < 8 →
      s1.shGets j src (es.map src.at_) = (codes, s2, 0) → s2.shPuts j dst (es.zip codes) = (s3, 16 * n, 0) →
      done (.shearerFp64Encode c ring) s3 (n * blockBytes dst.rec'.rate)) ∧
    (∀ y j s0 s1 s2 s3 src dst codes, ∀ es' : List Nat, s.shWork c ring 4 = some (y, j, s0) → only y →
      s0.shSides j y.block 8 8 (fun a z => a.rec'.coded && z.plain 8) = (s1, .ok (src, dst)) →
      let n := shCount y.block
      let first := bitsOf (blk y.block 4) 31 0
      let es := src.rec'.elemsOf ((List.range n).map (first + ·))
      16 * (first + n) ≤ src.rec'.count → n * 128 ≤ 65536 →
      es' = (if dst.record = none then es' else es) → es'.Perm es → (dst.record = none → es'.Pairwise (· ≤ ·)) →
      s1.shGets j src es' = (codes, s2, 0) →
      s2.shPuts j dst ((if dst.record = none then List.range (16 * n) else es'.map dst.at_).zip codes) = (s3, 16 * n, 0) →
      done (.shearerFp64Decode c ring) s3 (128 * n)) ∧
    (∀ y j s0 s1 s2 s3 s4 src dst codes tile, s.shWork c ring 5 = some (y, j, s0) → only y →
      s0.shSides j y.block 1 1 (fun x z => x.sized 1 && z.rec'.enc == 3) = (s1, .ok (src, dst)) →
      s1.shGets j src ((List.range (shCount y.block)).map src.at_) = (codes, s2, 0) → y.table.sum = 4096 →
      let a := blk y.block 4
      encodeTile (bitsOf a 15 0) (bitsOf a 31 16) (bitsOf a 39 32) (bitsOf a 43 40) (bitsOf a 47 44) y.table codes = some tile →
      tile.length ≤ 65536 →
      (s2.shKeep c ring tile 0).shPuts j dst (((List.range tile.length).map dst.at_).zip (tile.map (·.toNat))) = (s3, tile.length, 0) →
      s3.shPuts j dst (((List.range 8).map fun i => 8 * bitsOf (blk y.block 5) 31 0 + i).zip
        ((bytesOf 8 (dst.at_ 0 + tile.length * 2 ^ 40)).map (·.toNat))) = (s4, 8, 0) →
      done (.shearerWeightStreamEncode c ring) s4 tile.length) ∧
    (∀ y j s0 s1 s3 d data, s.shWork c ring 6 = some (y, j, s0) → only y → data ≠ [] → data.length % (512 * shCount y.block) = 0 →
      s0.shOpen j (blk y.block 2) true 1 = (s1, .ok d) → (s.ctx c).qpairs.getLsbD (bitsOf (blk y.block 1) 35 32) = true →
      data.length ≤ 65536 →
      let size := (d.record.map (·.size)).getD 1
      let n := data.length / size
      (s1.shKeep c ring data 0).shPuts j { d with size := size } (((List.range n).map d.at_).zip
        ((List.range n).map fun k => numOf ((data.drop (size * k)).take size))) = (s3, n, 0) →
      done (.shearerNvmeRead c ring 0 data) s3 (n * size)) ∧
    (∀ q b j s0, s.shWork c ring 0 = some (q, j, s0) → b = q.block → q.written = 0 → j.before = [] →
      shCount b * outBytes (bitsOf (blk b 0) 43 40) ≤ 65536 → (sideOf (blk b 1)).kind ≠ 0 → (sideOf (blk b 2)).kind ≠ 0 → j.f.status = .resident →
      s.decoded = [] → s.poison = [] → Memory.wf s.mem = true →
      let a := outBytes (bitsOf (blk b 0) 47 44)
      let z := outBytes (bitsOf (blk b 0) 43 40)
      let from_ (i : Nat) : Nat := j.f.scratchPa (descCore (blk b 1)) (descOff (blk b 1) + i * a)
      let into (i : Nat) : Nat := j.f.scratchPa (descCore (blk b 2)) (descOff (blk b 2) + i * z)
      (∀ i, i < shCount b → inAlloc j.f.scratch (descCore (blk b 1)) (descOff (blk b 1) + i * a) a = true ∧
        inAlloc j.f.scratch (descCore (blk b 2)) (descOff (blk b 2) + i * z) z = true ∧ regionOf (into i) = .memory ∧
        ∀ y, y < a → regionOf (from_ i + y) = .memory) →
      ∃ t, exec (.shearerConvert c ring) s = .next t ∧ (∀ x ∈ t.shear, mine x = true → x.worked = true ∧ x.status = 0) ∧
        ∀ i, i < shCount b → memRead t.mem (into i) z = bytesOf z (convert (bitsOf (blk b 0) 43 40) (shRound b i)
          ((blk b 0).testBit 51) (codeVal (bitsOf (blk b 0) 47 44) (numOf (memRead s.mem (from_ i) a)))).code) ∧
    (∀ y j s0 s1 src dst, s.shWork c ring 5 = some (y, j, s0) → y.made = none →
      s0.shSides j y.block 1 1 (fun x y => x.sized 1 && y.rec'.enc == 3) = (s1, .ok (src, dst)) →
      (s1.shGets j src ((List.range (shCount y.block)).map src.at_)).2.2 = 0 → y.table.sum ≠ 4096 → ends (.shearerWeightStreamEncode c ring) fun x => x.status = 10) ∧
    (∀ x, s.shear.find? (fun y => mine y && y.worked) = some x → ∃ t, exec (.shearerCompletion c ring) s = .next t ∧ x ∉ t.shear ∧
      let va := bitsOf (blk x.block 6) 47 0
      let e := (s.virtPutAll 0 c va ((x.words.map (bytesOf 8)).flatten)).2
      (∀ pa dr, s.translate 0 c va .write = .ok pa dr → s.decoded = [] → va % 65536 + 16 ≤ 65536 →
        (∀ i, i < 16 → regionOf (pa + i) = .memory) → runsMeet (s.walked 0 c va) [(pa, 16)] = false →
        Memory.wf s.mem = true → memRead t.mem pa 16 = bytesOf 8 (blk x.block 7) ++
          bytesOf 8 (x.status * 2 ^ 56 + bitsOf (blk x.block 0) 63 56 * 2 ^ 48 + x.detail % 2 ^ 16 * 2 ^ 32 + x.written % 2 ^ 32)) ∧
      ∀ n o tm k, x.op = some n → s.ops[n]? = some o → o.live = true → s.team? o.team = some tm → tm.cc[o.cc]? = some k →
        k ≠ 0#16 → (∀ sub y, e = some (0x1B, sub, y) → c = 0 ∧ (tm.status = .run → ∃ tm' st, t.team? o.team = some tm' ∧
          tm'.cc = tm.cc ∧ tm'.status = .stopped ∧ tm'.stop = some st ∧ st.cause = 0x1B)) ∧
          ((∀ sub y, e ≠ some (0x1B, sub, y)) → ∃ tm', t.team? o.team = some tm' ∧ tm'.cc[o.cc]? = some (k - 1#16)))

/-- The links (R367-R381). Each cell of a row leaves once, on the first up port of its rails, with its payload from scratch; one
without an answer leaves again on the next; with no port up the row ends with cause 0x33 (R370, R371). A bad cell or answer is
dropped and counted (R368); a cell of an open row is written at its place and answered (R375); the last answer completes the
nsend, a refusal ends it with cause 0x26 (R371, R290); which answers are dropped rests on log entry 44. A row whose context is moved is abandoned (R379). A replay that has
caught up clears GO and the redirections (R378). LSTAT's fields follow training, enabling and the counts (R381); how many codewords
FEC has corrected is a free value (log entry 94). -/
def Obligations.LinkMoves : Prop :=
  ∀ (s : State),
    let stops (i : Instr) (o : EngOp) (cause : Nat) : Prop := ∀ tm, s.team? o.team = some tm → tm.status = .run →
      ∃ t tm' st, exec i s = .next t ∧ t.team? o.team = some tm' ∧ tm'.status = .stopped ∧ tm'.stop = some st ∧ st.cause = cause ∧
        st.kind = 3 ∧ tm'.cc = tm.cc
    let leaves (i : Instr) (n : Nat) (o : EngOp) (f : Fold) (c : Nat) (rail : Option Nat) : Prop :=
      let h := s.hdrFor f o c
      let pa := f.scratchPa (descCore (blk o.block 1)) (descOff (blk o.block 1) + 256 * c)
      (∀ p, rail = some p → s.poisonIn pa h.plen = [] → ∃ t o', exec i s = .next t ∧
        t.wire = s.wire ++ [cellOf p h 0 (s.busRead pa h.plen)] ∧ t.ops[n]? = some o' ∧ o'.rails.lookup c = some p ∧ t.mem = s.mem) ∧
      (rail = none → stops i o 0x33)
    (∀ n o f c, s.liveOp n false = some (o, f) → o.kind = .nsend →
      ((List.range (cellsOf o)).find? (fun k => !o.rails.any (·.1 == k)) = some c →
        leaves (.cellTransmit n) n o f c (s.pickRail (railsOf o) ((o.start + c) % max 1 (railsOf o).length))) ∧
      (∀ last, o.acked.contains c = false → o.rails.lookup c = some last →
        leaves (.cellRetransmit n c) n o f c (s.pickRail (railsOf o) ((railsOf o).findIdx (· == last) + 1)))) ∧
    (∀ port pt h0 h1 h2 h3 pay, s.ports[port]? = some pt → s.portUp port = true →
      let h := hdrOf h0.toNat h1.toNat h2.toNat
      let drops (i : Instr) : Prop := ∃ t, exec i s = .next t ∧ t.ports[port]? = some { pt with drop := min 0xFFFF (pt.drop + 1) } ∧
        t.mem = s.mem ∧ t.wire = s.wire ∧ t.rows = s.rows
      (h.kind = 0 ∨ 3 < h.kind → cellBad s.dev h0.toNat h1.toNat h2.toNat h3.toNat pay = true → drops (.cellReceive port h0 h1 h2 h3 pay)) ∧
      (h.kind = 0 → cellBad s.dev h0.toNat h1.toNat h2.toNat h3.toNat pay = false → ∀ i r pad q seq pa,
        s.tooOld h = false → s.rowFor h false = some (i, r) → r.closed = false → h.cseq ∉ r.got → r.target = .queue pad q seq →
        s.slotPa pad q seq = some pa → regionOf (pa + 256 * h.cseq) = .memory → Memory.wf s.mem = true →
        (∃ k, k < r.count ∧ k ∉ h.cseq :: r.got) → ∃ t r', exec (.cellReceive port h0 h1 h2 h3 pay) s = .next t ∧
          memRead t.mem (pa + 256 * h.cseq) pay.length = pay ∧ t.wire = s.wire ++ [ackOf port h 1 0] ∧ t.rows[i]? = some r' ∧
          r'.got = h.cseq :: r.got ∧ r'.closed = false) ∧
      (ackBad s.dev h0.toNat h1.toNat h2.toNat h3.toNat = true → drops (.ackReceive port h0 h1 h2 h3)) ∧
      (ackBad s.dev h0.toNat h1.toNat h2.toNat h3.toNat = false → ∀ n o, s.sender h.sctx h.sdev h.rseq = some (n, o) →
        (h.kind = 3 → stops (.ackReceive port h0 h1 h2 h3) o 0x26) ∧
        (h.kind ≠ 3 → (∀ k, k < cellsOf o → k = h.cseq ∨ k ∈ o.acked) → ∀ tm k, s.team? o.team = some tm → tm.cc[o.cc]? = some k →
          k ≠ 0#16 → ∃ t tm' o', exec (.ackReceive port h0 h1 h2 h3) s = .next t ∧ t.team? o.team = some tm' ∧
            tm'.cc[o.cc]? = some (k - 1#16) ∧ t.ops[n]? = some o' ∧ o'.live = false))) ∧
    (∀ n r, s.rows[n]? = some r → r.openTarget = true → s.mayAbandon r = true → ∃ t r', exec (.rowAbandon n) s = .next t ∧
      t.rows[n]? = some r' ∧ r'.closed = true) ∧
    (∀ c, s.replay.msb = true → bitsOf s.replay.toNat 5 0 = c → (s.ctx c).bounce.2.2.1 ≤ (s.ctx c).bounce.2.2.2 →
      ∃ t, exec (.bounceRingReplay c) s = .next t ∧ t.replay.msb = false ∧
        ∀ e ∈ t.xlate, bitsOf e.2.toNat 60 55 = c → e.2.toNat.testBit 62 = false) ∧
    (∀ port pt, s.ports[port]? = some pt →
      let lstat (i : Instr) (p : Port) : Prop := ∃ t, exec i s = .next t ∧ t.ports[port]? = some p ∧
        (∀ q, q ≠ port → t.ports[q]? = s.ports[q]?) ∧ t.mem = s.mem
      lstat (.portEnable port) { pt with en := true, trn := pt.trn || !pt.up } ∧ lstat (.dropClear port) { pt with drop := 0 } ∧
      lstat (.fecuClear port) { pt with fecu := 0 } ∧ lstat (.uncorrectableCodeword port)
        { pt with fecu := min 0xFF (pt.fecu + 1), fecc := (pt.fecc + Config.freeCount s.moves port) % 2 ^ 32 } ∧
      (pt.en = true → pt.trn = true → (∀ n, n ∈ [1, 2, 4, 8] → lstat (.linkUp port n) { pt with up := true, trn := false, lanes := n }) ∧
        lstat (.linkUp port 0) { pt with trn := false }) ∧
      (pt.en = true → pt.up = true → lstat (.linkDown port) { pt with up := false, lanes := 0 }))

/-- Power and temperature. A boundary advances the time by 4 µs and the interval by 1 (R488, R435), writing to memory no more
than what L1s held dirty (log entry 88); it sets each paddock's overrun by
its budgets (R462), and each domain's thermal level by its hottest sensor, where it makes none suspect: 0 up to 90 °C, 1 from 95,
left 5 below, the part off at 125 (R463); a reading out of range makes its sensor suspect (R465); the drover tests dependences
afterwards (R443). A slot's permits, fall and refill go by R437. The voltage follows guard less offset (R456, R458); the margin
offset steps by the rule of R457; a margin event returns it to 0 and poisons the word, as does an uncorrectable error (R459,
R460). A sensor of which a case of R465 holds leaves its health mask, one of which none held for 16 ms returns; too few healthy ones
cap the domain (R465, R467). The numbering of the words in error rests on log entries 33 and 17, the voltages' codes on log entry 48,
what stuck and disagreeing mean beyond R465's words on log entry 55. -/
def Obligations.PowerMoves : Prop :=
  ∀ (s : State), s.domains.length = 12 → s.paddocks.length = 32 →
    (∀ en te, ∃ t, exec (.intervalBoundary en te) s = .next t ∧ t.usec = s.usec + 4 ∧ t.interval = s.interval + 1 ∧
      (s.off = true ∨ s.written = true → t.mem = s.mem) ∧ (s.off = false → t.testDue = true ∧ (∀ p, p < 32 → (t.pad p).overrun =
          (decide ((s.budget p).1 < (measured en p).1) || decide (1000 * (s.budget p).2 < (measured en p).2))) ∧
        (∀ d rs i y, d < 8 → (s.domain d).temps.length = 4 → (s.domain d).amps.length = 2 → i < 6 → te.lookup d = some rs →
          rs[i]? = some y → inRange i y = false → (t.domain d).good i = false) ∧
        ∀ d T ts, d < 8 → (s.domain d).thealth = 15#4 → (s.domain d).temps.length = 4 → te.lookup d = some ts → ts.length = 4 → T ∈ ts →
          (∀ y ∈ ts, y ≤ T) → (∀ x i, i < 4 → ((s.domain d).sampled x ts).suspicion i = 0) →
          (t.domain d).temp = T ∧ (T ≤ 90 → (t.domain d).level = 0) ∧
          ((s.domain d).level = 0 → 95 ≤ T → T < 105 → (t.domain d).level = 1) ∧
          ((s.domain d).level = 1 → 90 < T → T < 105 → (t.domain d).level = 1) ∧
          (125 ≤ T → (t.domain d).level = 4 ∧ t.off = true))) ∧
    (∀ (p : Nat) (x : Paddock), s.paddocks[p]? = some x → x.done ≤ s.interval →
      let ends (i : Instr) (y : Paddock) : Prop := ∃ t, exec i s = .next t ∧ t.paddocks[p]? = some { y with done := s.interval + 1 } ∧
        (∀ q, q ≠ p → t.paddocks[q]? = s.paddocks[q]?) ∧ t.mem = s.mem
      (x.slot = true → x.fall = false → x.permits = 1 → x.claims ≠ [] →
        ends (.permitsExhausted p) { x with permits := 0, claims := [], fall := true, clock := 1 }) ∧
      (x.fall = true → ends (.fallEnd p) { x with slot := false, fall := false, clock := 0, refill := 0, claims := [] }) ∧
      (x.slot = false → x.fall = false → x.refill % 2 = 1 → x.permits < 64 →
        ends (.permitRefill p) { x with refill := x.refill + 1, permits := x.permits + 1 })) ∧
    (∀ (d : Nat) (x : Domain), s.domains[d]? = some x →
      let now (i : Instr) (P : Domain → Prop) : Prop := ∃ t y, exec i s = .next t ∧ t.domains[d]? = some y ∧ P y ∧ t.mem = s.mem
      now (.voltageReached d) (fun y => y = { x with volt := x.guard - x.offset, wa := decide (d < 8) && decide (x.guard - x.offset < 14) }) ∧
      (∀ n, 256 ≤ x.window → now (.marginWindowEnd d n) fun y => y.window = 0 ∧ y.offset =
        if x.men = false ∨ x.cap = true ∨ x.hold = true then 0
        else if n = 0 ∧ (if d < 8 then 0 else 30) < x.guard - x.offset then x.offset + 1
        else if 4 ≤ n then x.offset - 2 else x.offset) ∧
      (x.hold = true → x.holdLeft = 0 → now (.marginHoldEnd d) fun y => y = { x with hold := false, window := 0 }) ∧
      (∀ unit kind index, kind ≠ 6 → x.offset ≠ 0 → unitOk d unit kind index = true →
        now (.marginEvent d unit kind index) (fun y => y.offset = 0 ∧ y.hold = true ∧ y.holdLeft = 65536) ∧
        ∃ t, exec (.marginEvent d unit kind index) s = .next t ∧ (s.frozen = false → ∃ e ∈ t.bbox, e.event = 1 ∧ e.domain = d) ∧
          (kind = 2 → (scratchAddr (unit * 4 + index / 131072) (8 * (index % 131072)) / 8, Poison.margin) ∈ t.poison) ∧
          (kind = 5 → d < 8 → ∀ k u, (s.heldUnis (unit * 128 + index / Config.poolUniform))[index % Config.poolUniform]? = some (k, .team u) →
            ∃ tm', t.team? k = some tm' ∧ (tm'.getU (.team u)).poison.isSome = true)) ∧
      (∀ unit kind index, kind = 6 ∨ x.offset = 0 → unitOk d unit kind index = true →
        now (.uncorrectableMemoryError d unit kind index) (fun y => y = x) ∧
        ∃ t, exec (.uncorrectableMemoryError d unit kind index) s = .next t ∧ (s.frozen = false → ∃ e ∈ t.bbox, e.event = 6 ∧ e.domain = d) ∧
          (kind = 6 → (index / 8, Poison.plain) ∈ t.poison)) ∧
      (∀ sensor reason reading, d < 8 → sensor < 6 → (x.put sensor reading).because sensor reason = true →
        x.good sensor = true → now (.sensorSuspect d sensor reason reading) fun y => y.good sensor = false ∧
          (healthy y.thealth < 2 ∨ healthy y.ihealth = 0 → y.cap = true)) ∧
      (∀ sensor reading, x.temps.length = 4 → x.amps.length = 2 → sensor < 6 →
        ((x.put sensor reading).because sensor 2 = true ↔ inRange sensor reading = false)) ∧
      (∀ sensor reading, d < 8 → sensor < 6 → (∀ k, k ∈ [1, 2, 3] → (x.put sensor reading).because sensor k = false) →
        4000 ≤ x.clean.getD sensor 0 → x.good sensor = false →
        now (.sensorHealthy d sensor reading) fun y => y.good sensor = true))

/-- Preemption (R423-R428): a vacate request makes victims of the folds on its paddocks, and a fold left in place for an older one stays so outside its mask; a stilled victim moves to the first
paddock that can take it and its teams go on; one that fits nowhere is saved, its stores' pages leaving the paddock and standing
in the save area (its layout is log entry 86); one whose image does not fit there stays and is reported. A saved fold returns on
a paddock that takes it, its pages with it. Requests stand side by side; when no fold is left on its paddocks but those reported, the
oldest is answered. That the teams of a fold that stays go on at once rests on log entry 46, that a request's mask keeps folds away
until the next request on log entry 45, the numbers of the queues at a restore on log entry 53. -/
def Obligations.PreemptMoves : Prop :=
  ∀ (s : State),
    (∀ m, s.bring = 7 → (s.caller 5 [m.toNat] = none → s.fnRings.findIdx? (s.misasks 5) = none) → ∃ t, exec (.vacate m) s = .next t ∧ t.vacates = s.vacates.filter (·.waits) ++ [⟨m, true, 0#32⟩] ∧ t.mem = s.mem ∧
      ∀ n f, s.fold? n = some f → ∃ f', t.fold? n = some f' ∧ f'.status = f.status ∧ f'.paddock = f.paddock ∧
        (f'.left = true ↔ f.left = true ∧ ¬(f.status = .resident ∧ m.getLsbD f.paddock = true)) ∧
        (f'.victim = true ↔ f.victim = true ∨ (f.status = .resident ∧ m.getLsbD f.paddock = true))) ∧
    (∀ (n : Nat) (f : Fold), s.fold? n = some f → s.paddocks.length = 32 → f.paddock < 32 →
      (∀ x ∈ s.foldTeams f, x.2.arrived = none ∧ x.2.reply = none) →
      let apart (ps : List (Nat × Nat)) : Prop := ps.Pairwise fun x y => x.1 + x.2 ≤ y.1 ∨ y.1 + y.2 ≤ x.1
      let on (t : State) : Prop := ∀ k tm st, k ∈ f.teams → s.team? k = some tm → tm.status = .stopped → tm.stop = some st →
        s.haltBegun f = false → st.cause = 0x3C → ∃ tm', t.team? k = some tm' ∧ tm'.status = st.was ∧ tm'.stop = none ∧
          tm'.pc = tm.pc ∧ tm'.vregs = tm.vregs ∧ tm'.uregs = tm.uregs
      (∀ p sc ac, s.stilled n f = true → s.moveTo n f = some (p, sc, ac) → ∃ t f', exec (.victimMigrate n p) s = .next t ∧
        t.fold? n = some f' ∧ f'.paddock = p ∧ f'.scratch = sc ∧ f'.acc = ac ∧ f'.victim = false ∧ f'.status = .resident ∧ on t) ∧
      (s.stilled n f = true → s.moveTo n f = none → s.saveHeld f.ctx + f.imageBytes ≤ (s.ctx f.ctx).saveSize →
        let img := (s.savePages f.ctx).take (f.imageBytes / savePage)
        let from_ := pagesOf f.places
        let into := s.imagePlaces { f with image := img }
        ∃ t f', exec (.foldSave n) s = .next t ∧ t.fold? n = some f' ∧ f'.status = .saved ∧ f'.victim = false ∧ f'.image = img ∧
          (s.written = true → Memory.wf s.mem = true → apart (from_ ++ into) → from_.length ≤ into.length →
            (∀ y ∈ from_.zip into, ∀ i, i < savePage → memGet t.mem (y.2.1 + i) = memGet s.mem (y.1.1 + i)) ∧
            (∀ y ∈ from_, ∀ i, i < savePage → memGet t.mem (y.1 + i) = 0#8) ∧
            ∀ a, (∀ y ∈ from_ ++ into, a < y.1 ∨ y.1 + y.2 ≤ a) → memGet t.mem a = memGet s.mem a)) ∧
      (s.stilled n f = true → s.moveTo n f = none → (s.ctx f.ctx).saveSize < s.saveHeld f.ctx + f.imageBytes →
        ∃ t f', exec (.foldSave n) s = .next t ∧ t.fold? n = some f' ∧ f'.status = .resident ∧ f'.victim = false ∧
          f'.paddock = f.paddock ∧ f'.left = true ∧ on t) ∧
      (∀ p sc ac, f.status = .saved → s.tableRoom n f p = true → s.canRestore f p = some (sc, ac) →
        (s.scan f.ctx).find? (fun q => s.tableRoom n f q && (s.canRestore f q).isSome) = some p →
        ∃ t f', exec (.foldRestore n p) s = .next t ∧ t.fold? n = some f' ∧ f'.status = .resident ∧ f'.paddock = p ∧ f'.scratch = sc ∧
          f'.acc = ac ∧ on t ∧
          (s.written = true → s.decoded = [] → Memory.wf s.mem = true → (∀ y ∈ f'.places, y.2 % savePage = 0) →
            apart (s.imagePlaces f ++ pagesOf f'.places) → ∀ y ∈ (s.imagePlaces f).zip (pagesOf f'.places), ∀ i, i < savePage →
              memGet t.mem (y.2.1 + i) = memGet s.mem (y.1.1 + i)))) ∧
    (∀ (i : Nat) (v : Vacate), s.vacates[i]? = some v → v.waits = true → s.unasked = true →
      (∀ f ∈ s.folds, f.status = .resident → v.mask.getLsbD f.paddock = true → f.left = true) →
      (∀ w ∈ s.vacates.take i, w.waits = true → ∃ f ∈ s.folds, f.status = .resident ∧ w.mask.getLsbD f.paddock = true ∧ f.left = false) →
      exec .vacateComplete s = .next { s with
        vacates := upd s.vacates i fun _ => { v with waits := false, left := s.leftOn v.mask }
        out := s.out ++ [.vacated (s.leftOn v.mask)], moves := s.moves + 1 }) ∧
    (∀ (m : BitVec 32) (p : Nat), p < 32 → ((s.leftOn m).getLsbD p = true ↔
      ∃ f ∈ s.folds, f.status = .resident ∧ f.left = true ∧ f.paddock = p ∧ m.getLsbD p = true))

/-- The resident OS's calls, answered by number and result (R479): a context assigned or released, a writable descriptor word
written, translations dropped (R435), a queue name mapped (R372), a bounce ring's replay begun (R378); the registers REPLAY and
TINV0, which ignore writes while GO reads 1 (R478), TINV0's GO falling once what used a dropped entry has been performed (R435); a
function-level reset, which ends the function's contexts (R476); the steps of bring-up (R485), which a reset begins anew; a
configuration request, answered with retry before bring-up, and a host write to memory, which does nothing before it (R362, R485).
That the jobs of a released context leave it rests on log entry 54, the masking and result of call 3 on log entry 59, the answer of
call 8 at GO on log entry 58, that memory outlives a reset on log entry 35, that a dropped translation's and an invalidated context's dirty lines are written back first on
log entry 57, context 0 as step 6 creates it on log entry 122, a function's configuration word on log entry 10, and that
a call with no request behind it is an ecall's on log entry 96. -/
def Obligations.SystemMoves : Prop :=
  ∀ (s : State), s.ctxs.length = 64 →
    let answers (i : Instr) (k r x : Nat) (P : State → Prop) : Prop :=
      ∃ t, exec i s = .next t ∧ t.out = s.out ++ [.osResult k r x] ∧ P t
    (s.bring = 7 → s.unasked = true →
      (∀ fn c, fn ≤ 16 → s.freeCtx = some c → answers (.assignContext fn) 1 0 c fun t => (t.ctx c).fn = some fn ∧ t.mem = s.mem) ∧
      (∀ fn, fn ≤ 16 → s.freeCtx = none → answers (.assignContext fn) 1 2 0 fun t => t.ctxs = s.ctxs) ∧
      (∀ c, 0 < c → c < 64 → (s.ctx c).fn ≠ none → answers (.releaseContext c) 2 0 0 fun t => t.ctx c = Ctx.empty ∧ t.mem = s.mem ∧
        (∀ f ∈ t.folds, f.ctx = c → f.status = .ended) ∧ ∀ j ∈ t.jobs, j.ctx ≠ c) ∧
      (∀ c, c < 64 → (s.ctx c).fn = none → 0 < c → answers (.releaseContext c) 2 2 0 fun t => t.ctxs = s.ctxs) ∧
      (∀ c w v m, c < 64 → c = 0 ∨ (s.ctx c).fn ≠ none → fieldMask w = some m → w < 6 → w < (s.ctx c).desc.length → (s.ctx c).setsDue = false →
        answers (.writeDescriptorField c w v) 3 0 0 fun t => (t.ctx c).desc.getD w 0#64 = v &&& dwordOfNat m ∧ t.mem = s.mem) ∧
      (∀ c w v, c < 64 → fieldMask w = none → answers (.writeDescriptorField c w v) 3 1 0 fun t => t.ctxs = s.ctxs) ∧
      (∀ c base len, c < 64 → base % 65536 = 0 → base < 2 ^ 48 → len % 65536 = 0 → len < 2 ^ 48 → s.tinv0.msb = false →
        s.accessing c = false → answers (.invalidate c base len) 6 0 0 fun t => t.tinv0.msb = false ∧ t.written = true ∧
          t.tlb = s.tlb.filter fun e => !(e.ctx == c && (len == 0 || (base < e.above && e.below < base + len)))) ∧
      (∀ name v, name < 1024 → answers (.mapQueueName name v) 7 0 0 fun t =>
        t.xlate.lookup name = some (dwordOfNat (v.toNat / 2 ^ 34 * 2 ^ 34)) ∧ ∀ k, k ≠ name → t.xlate.lookup k = s.xlate.lookup k) ∧
      (∀ c, c < 64 → c = 0 ∨ (s.ctx c).fn ≠ none → s.replay.msb = false →
        answers (.replayBounceRing c) 8 0 0 fun t => t.replay = dwordOfNat (2 ^ 63 + c))) ∧
    (∀ v, exec (.replayGo v) s = .next { s with replay := if s.replay.msb then s.replay else v &&& 0x800000000000003F#64, moves := s.moves + 1 }) ∧
    (∀ v, ∃ t, exec (.tinv0Go v) s = .next t ∧ t.mem = s.mem ∧ t.tinv1 = s.tinv1 ∧
      t.tinv0 = if s.tinv0.msb then s.tinv0 else v &&& 0x803FFFFFFFFFFFFF#64) ∧
    (s.tinv0.msb = true → s.accessing (bitsOf s.tinv0.toNat 53 48) = false →
      ∃ t, exec .tlbInvalidationComplete s = .next t ∧ t.written = true ∧ t.tinv0 = s.tinv0 &&& 0x7FFFFFFFFFFFFFFF#64 ∧
        (s.written = true → t = { s with tinv0 := s.tinv0 &&& 0x7FFFFFFFFFFFFFFF#64, moves := s.moves + 1 })) ∧
    (∀ v, exec (.registerWrite (Config.controlBase + 0x20008) v) s =
      .next { s with tinv1 := v &&& 0x0000FFFFFFFFFFFF#64, moves := s.moves + 1 }) ∧
    (∀ fn, s.bring = 7 → ∃ t, exec (.functionLevelReset fn) s = .next t ∧ t.mem = s.mem ∧ ∀ c, c < 64 →
      t.ctx c = if (s.ctx c).fn = some fn then Ctx.empty else s.ctx c) ∧
    (∀ ok, let up (k : Nat) (P : State → Prop) : Prop := ∃ t, exec (.bringUp ok) s = .next t ∧ t.bring = k ∧ t.mem = s.mem ∧ P t
      (s.off = true ∨ s.bring ∉ [1, 2, 3, 5, 6] → up 1 fun t => t.folds = [] ∧ t.teams = [] ∧ t.jobs = [] ∧
        t.ctxs = List.replicate 64 Ctx.empty ∧ t.bbox = s.bbox ∧ t.frozen = s.frozen ∧ t.off = false) ∧
      (s.off = false → (s.bring = 1 → up 2 fun t => ∀ d ∈ (t.domains.drop 8).take 4, d.volt = 50 ∧ d.guard = 50) ∧
        (s.bring = 2 → up 3 fun _ => True) ∧
        (s.bring = 3 → (ok = true → up 5 fun t => (∀ p ∈ t.paddocks, p.arrctl = 0#32) ∧ ∀ d ∈ t.domains.take 8, d.volt = 40) ∧
          (ok = false → up 4 fun t => s.frozen = false → ∃ e ∈ t.bbox, e.event = 8)) ∧
        (s.bring = 5 → up 6 fun t => (∀ c, c ≠ 0 → t.ctx c = s.ctx c) ∧
          (0 < (s.ctx 0).desc.length → ((t.ctx 0).word 0).testBit 63 = true)) ∧ (s.bring = 6 → up 7 fun t => t.caps = capList))) ∧
    (∀ fn reg, exec (.configurationRequest fn reg) s = .next { s with
      out := s.out ++ [if s.bring = 7 then .config false (Config.configWord fn reg) else .config true 0#32], moves := s.moves + 1 }) ∧
    (∀ a data, s.bring ≠ 7 → exec (.hostMemoryWrite a data) s = .next s) ∧
    (∀ a data, s.bring = 7 → a + data.length ≤ Config.controlBase → s.decoded = [] → Memory.wf s.mem = true → ∃ t,
      exec (.hostMemoryWrite a data) s = .next t ∧ memRead t.mem a data.length = data ∧
        ∀ k, k < a ∨ a + data.length ≤ k → memGet t.mem k = memGet s.mem k)

/-- The request rings of the functions (R479), with the counting of log entry 96: a write at BAR0 offset 0x1000, 0x1008 or 0x1010
sets base, size or doorbell; a call that answers a function's oldest request writes the result into its word 7, an assigned
context's number into word 6, a vacate request's mask of paddocks left; a request of call 2, 3, 4, 6, 7 or 8 that names a context not the
function's own is answered 3 and changes no context and no fold, and one of call 4 or 5 with an argument it does not allow, a mask of more than 32 bits for
one, is answered 1. -/
def Obligations.RequestRings : Prop :=
  ∀ (s : State), s.ctxs.length = 64 →
    (∀ fn q v, fn < s.fnRings.length → q < 3 →
      s.bring = 7 → exec (.doorbellWrite fn (0x1000 + 8 * q) v) s = .next { s with
        fnRings := upd s.fnRings fn fun r => if q = 0 then { r with base := v } else if q = 1 then { r with size := v.toNat } else { r with tail := v.toNat }
        moves := s.moves + 1 }) ∧
    (s.decoded = [] → Memory.wf s.mem = true → ∀ fn r, s.fnRings[fn]? = some r → r.wordPa 8 ≤ Config.controlBase →
      let answered (i : Instr) (result : Nat) (P : State → Prop) : Prop := ∃ t, exec i s = .next t ∧
        memRead t.mem (r.wordPa 7) 8 = bytesOf 8 result ∧ t.fnRings = upd s.fnRings fn (fun r => { r with head := r.head + 1 }) ∧ P t
      (s.bring = 7 →
        (∀ g c, g ≤ 16 → s.freeCtx = some c → s.caller 1 [g] = some fn → answered (.assignContext g) 0 fun t =>
          (t.ctx c).fn = some g ∧ memRead t.mem (r.wordPa 6) 8 = bytesOf 8 c) ∧
        (∀ c, 0 < c → c < 64 → (s.ctx c).fn = some fn → s.caller 2 [c] = some fn →
          answered (.releaseContext c) 0 fun t => t.ctx c = Ctx.empty) ∧
        ∀ c, c < 64 → (s.ctx c).fn ≠ some fn →
          (s.caller 2 [c] = some fn → answered (.releaseContext c) 3 fun t => t.ctxs = s.ctxs ∧ t.folds = s.folds) ∧
          (∀ w v, s.caller 3 [c, w, v.toNat] = some fn →
            answered (.writeDescriptorField c w v) 3 fun t => t.ctxs = s.ctxs ∧ t.folds = s.folds) ∧
          (∀ q k i, (k, i) ∈ [(0, Instr.foldResume c q), (1, .foldReplay c q), (2, .foldKill c q)] → s.caller 4 [c, q, k] = some fn →
            answered i 3 fun t => t.ctxs = s.ctxs ∧ t.folds = s.folds ∧ t.teams = s.teams) ∧
          (∀ base len, s.caller 6 [c, base, len] = some fn →
            answered (.invalidate c base len) 3 fun t => t.ctxs = s.ctxs ∧ t.folds = s.folds ∧ t.tlb = s.tlb ∧ t.tinv0 = s.tinv0) ∧
          (∀ name e, e.msb = true → bitsOf e.toNat 60 55 = c → s.caller 7 [name, e.toNat] = some fn →
            answered (.mapQueueName name e) 3 fun t => t.xlate = s.xlate) ∧
          (s.caller 8 [c] = some fn → answered (.replayBounceRing c) 3 fun t => t.ctxs = s.ctxs ∧ t.folds = s.folds ∧ t.replay = s.replay)) ∧
      (s.bring = 7 → ∀ c q, s.caller 4 [c, q, 2] = none → s.fnRings.findIdx? (s.misasks 4) = some fn →
        answered (.foldKill c q) 1 fun t => t.ctxs = s.ctxs ∧ t.folds = s.folds ∧ t.teams = s.teams) ∧
      (s.bring = 7 → ∀ m : BitVec 32, s.caller 5 [m.toNat] = none → s.fnRings.findIdx? (s.misasks 5) = some fn →
        answered (.vacate m) 1 fun t => t.vacates = s.vacates ∧ t.folds = s.folds) ∧
      (∀ i v, s.vacates.findIdx? s.vacantFor = some i → s.vacates[i]? = some v → s.caller 5 [v.mask.toNat] = some fn →
        answered .vacateComplete (s.leftOn v.mask).toNat fun t => (t.vacates[i]?.map (·.waits)) = some false))

/-- The shepherd port (R480-R484): sensors are read, with the numbers, units and code of log entry 36 and, of base domains and the module,
with readings the manual leaves open; a firmware image goes to the other bank and applies at the next reset, where it verifies; SPDM
requests are answered from their stage on, with the codes of log entry 37 and the lengths of log entry 8; the black-box record is read in runs of at most 32
entries and unfrozen. No answer changes anything but the answers and, at an SPDM stage, the stage. -/
def Obligations.ManagementAnswers : Prop :=
  ∀ (s : State),
    let replies (i : Instr) (stage : Nat) (o : Out) : Prop :=
      exec i s = .next { s with spdm := stage, out := s.out ++ [o], moves := s.moves + 1 }
    (∀ n, (n < 8 → replies (.pldmPlatformMonitoring n) s.spdm (.sensor (s.domain n).temp)) ∧
      (24 ≤ n → n < 32 → replies (.pldmPlatformMonitoring n) s.spdm (.sensor (s.domain (n - 24)).amp)) ∧
      (n ≤ 36 → ∃ v, replies (.pldmPlatformMonitoring n) s.spdm (.sensor v)) ∧
      (12 ≤ n → n < 24 → replies (.pldmPlatformMonitoring n) s.spdm (.sensor (550 + 5 * (s.domain (n - 12)).volt : Nat))) ∧
      (36 < n → replies (.pldmPlatformMonitoring n) s.spdm (.mgmt 0x80 []))) ∧
    (∀ image ok, ∃ t, exec (.pldmFirmwareUpdate image ok) s = .next t ∧ t.images.lookup (1 - s.bank) = some image ∧
      t.bankNext = some (1 - s.bank, ok) ∧ t.bank = s.bank) ∧
    (∀ b ok selfTest, s.off = false → s.bring = 1 → s.bankNext = some (b, ok) → ∃ t, exec (.bringUp selfTest) s = .next t ∧
      t.bank = (if ok then b else s.bank) ∧ t.bankNext = none ∧ t.images = s.images) ∧
    (∀ selfTest, s.off = true ∨ s.bring = 7 → ∃ t, exec (.bringUp selfTest) s = .next t ∧ t.bring = 1 ∧ t.bankNext = s.bankNext ∧
      t.bank = s.bank ∧ t.images = s.images) ∧
    replies .getVersion 1 (.mgmt 0x04 [0x13#8]) ∧
    (1 ≤ s.spdm → replies .getCapabilities (max 2 s.spdm) (.mgmt 0x61 (s.mgmtBytes 4))) ∧
    (∀ l, 2 ≤ s.spdm → (2 ∈ l → replies (.negotiateAlgorithms l) 3 (.mgmt 0x63 ([2#8, 1#8] ++ s.mgmtBytes 4))) ∧
      (2 ∉ l → replies (.negotiateAlgorithms l) s.spdm (.mgmt 0x7F [1#8]))) ∧
    (3 ≤ s.spdm → replies .getDigests s.spdm (.mgmt 0x01 (s.mgmtBytes 48)) ∧
      (∀ off len, ∃ bs : List Byte, bs.length = min len 65535 ∧ replies (.getCertificate 0 off len) s.spdm (.mgmt 0x02 bs)) ∧
      (∀ nonce, replies (.challenge 0 nonce) s.spdm (.mgmt 0x03 (s.mgmtBytes 176)) ∧
        replies (.getMeasurements 0 nonce) s.spdm (.mgmt 0x60 [4#8]) ∧
        (∀ k, 1 ≤ k → k ≤ 4 → replies (.getMeasurements k nonce) s.spdm (.mgmt 0x60 (s.mgmtBytes 144))) ∧
        replies (.getMeasurements 255 nonce) s.spdm (.mgmt 0x60 (s.mgmtBytes 288)))) ∧
    (∀ nonce i, s.spdm = 0 → i ∈ [Instr.getCapabilities, .negotiateAlgorithms [2], .getDigests, .getCertificate 0 0 1,
      .challenge 0 nonce, .getMeasurements 1 nonce] → replies i 0 (.mgmt 0x7F [4#8])) ∧
    (∀ first n, ∃ es, replies (.blackBoxRead first n) s.spdm (.bbox es s.bbSeq) ∧
      ∀ e, e ∈ es ↔ e ∈ s.bbox ∧ first ≤ e.seq ∧ e.seq < first + min n 32) ∧
    exec .blackBoxUnfreeze s = .next { s with frozen := false, moves := s.moves + 1 }
end

