-- ==== Sys2Proof/Laws/State.lean ====
section
/-!
SUPPORT. Sys2Proof/Laws/State.lean: every field of the state after each named update, and what stands in an updated list.
-/
namespace Sys2Proof.Machine

/-! ## Lists -/

@[simp] theorem length_upd {α : Type} (l : List α) (n : Nat) (f : α → α) : (upd l n f).length = l.length := by simp [upd]

theorem getElem?_upd {α : Type} (l : List α) (n k : Nat) (f : α → α) : (upd l n f)[k]? = if n = k then l[k]?.map f else l[k]? := by
  simp only [upd, List.getElem?_modify]
  split <;> simp

@[simp] theorem getElem?_upd_self {α : Type} (l : List α) (n : Nat) (f : α → α) : (upd l n f)[n]? = l[n]?.map f := by
  simp [getElem?_upd]

@[simp] theorem getElem?_upd_ne {α : Type} (l : List α) {n k : Nat} (f : α → α) (h : n ≠ k) : (upd l n f)[k]? = l[k]? := by
  simp [getElem?_upd, h]

/-! ## Fields -/

@[simp] theorem State.updTeam_agenda (s : State) (n : Nat) (f : Team → Team) : (s.updTeam n f).agenda = s.agenda := rfl
@[simp] theorem State.updTeam_cur (s : State) (n : Nat) (f : Team → Team) : (s.updTeam n f).cur = s.cur := rfl
@[simp] theorem State.updTeam_overlap (s : State) (n : Nat) (f : Team → Team) : (s.updTeam n f).overlap = s.overlap := rfl
@[simp] theorem State.updTeam_teams (s : State) (n : Nat) (f : Team → Team) : (s.updTeam n f).teams = upd s.teams n f := rfl
@[simp] theorem State.updTeam_folds (s : State) (n : Nat) (f : Team → Team) : (s.updTeam n f).folds = s.folds := rfl
@[simp] theorem State.updTeam_jobs (s : State) (n : Nat) (f : Team → Team) : (s.updTeam n f).jobs = s.jobs := rfl
@[simp] theorem State.updTeam_ctxs (s : State) (n : Nat) (f : Team → Team) : (s.updTeam n f).ctxs = s.ctxs := rfl
@[simp] theorem State.updTeam_paddocks (s : State) (n : Nat) (f : Team → Team) : (s.updTeam n f).paddocks = s.paddocks := rfl
@[simp] theorem State.updTeam_cycles (s : State) (n : Nat) (f : Team → Team) : (s.updTeam n f).cycles = s.cycles := rfl
@[simp] theorem State.updTeam_moves (s : State) (n : Nat) (f : Team → Team) : (s.updTeam n f).moves = s.moves := rfl
@[simp] theorem State.updTeam_ops (s : State) (n : Nat) (f : Team → Team) : (s.updTeam n f).ops = s.ops := rfl
@[simp] theorem State.updTeam_shear (s : State) (n : Nat) (f : Team → Team) : (s.updTeam n f).shear = s.shear := rfl
@[simp] theorem State.updTeam_shCtx (s : State) (n : Nat) (f : Team → Team) : (s.updTeam n f).shCtx = s.shCtx := rfl
@[simp] theorem State.updTeam_shRings (s : State) (n : Nat) (f : Team → Team) : (s.updTeam n f).shRings = s.shRings := rfl
@[simp] theorem State.updTeam_shBusy (s : State) (n : Nat) (f : Team → Team) : (s.updTeam n f).shBusy = s.shBusy := rfl
@[simp] theorem State.updTeam_rows (s : State) (n : Nat) (f : Team → Team) : (s.updTeam n f).rows = s.rows := rfl
@[simp] theorem State.updTeam_wire (s : State) (n : Nat) (f : Team → Team) : (s.updTeam n f).wire = s.wire := rfl
@[simp] theorem State.updTeam_ports (s : State) (n : Nat) (f : Team → Team) : (s.updTeam n f).ports = s.ports := rfl
@[simp] theorem State.updTeam_xlate (s : State) (n : Nat) (f : Team → Team) : (s.updTeam n f).xlate = s.xlate := rfl
@[simp] theorem State.updTeam_dev (s : State) (n : Nat) (f : Team → Team) : (s.updTeam n f).dev = s.dev := rfl
@[simp] theorem State.updTeam_domains (s : State) (n : Nat) (f : Team → Team) : (s.updTeam n f).domains = s.domains := rfl
@[simp] theorem State.updTeam_mem (s : State) (n : Nat) (f : Team → Team) : (s.updTeam n f).mem = s.mem := rfl
@[simp] theorem State.updTeam_poison (s : State) (n : Nat) (f : Team → Team) : (s.updTeam n f).poison = s.poison := rfl
@[simp] theorem State.updTeam_tags (s : State) (n : Nat) (f : Team → Team) : (s.updTeam n f).tags = s.tags := rfl
@[simp] theorem State.updTeam_tainted (s : State) (n : Nat) (f : Team → Team) : (s.updTeam n f).tainted = s.tainted := rfl
@[simp] theorem State.updTeam_decoded (s : State) (n : Nat) (f : Team → Team) : (s.updTeam n f).decoded = s.decoded := rfl
@[simp] theorem State.updTeam_tlb (s : State) (n : Nat) (f : Team → Team) : (s.updTeam n f).tlb = s.tlb := rfl
@[simp] theorem State.updTeam_l1d (s : State) (n : Nat) (f : Team → Team) : (s.updTeam n f).l1d = s.l1d := rfl
@[simp] theorem State.updTeam_l1b (s : State) (n : Nat) (f : Team → Team) : (s.updTeam n f).l1b = s.l1b := rfl
@[simp] theorem State.updTeam_l1i (s : State) (n : Nat) (f : Team → Team) : (s.updTeam n f).l1i = s.l1i := rfl
@[simp] theorem State.updTeam_l2 (s : State) (n : Nat) (f : Team → Team) : (s.updTeam n f).l2 = s.l2 := rfl
@[simp] theorem State.updTeam_usec (s : State) (n : Nat) (f : Team → Team) : (s.updTeam n f).usec = s.usec := rfl
@[simp] theorem State.updTeam_interval (s : State) (n : Nat) (f : Team → Team) : (s.updTeam n f).interval = s.interval := rfl
@[simp] theorem State.updTeam_bbox (s : State) (n : Nat) (f : Team → Team) : (s.updTeam n f).bbox = s.bbox := rfl
@[simp] theorem State.updTeam_bbSeq (s : State) (n : Nat) (f : Team → Team) : (s.updTeam n f).bbSeq = s.bbSeq := rfl
@[simp] theorem State.updTeam_frozen (s : State) (n : Nat) (f : Team → Team) : (s.updTeam n f).frozen = s.frozen := rfl
@[simp] theorem State.updTeam_fnRings (s : State) (n : Nat) (f : Team → Team) : (s.updTeam n f).fnRings = s.fnRings := rfl
@[simp] theorem State.updTeam_replay (s : State) (n : Nat) (f : Team → Team) : (s.updTeam n f).replay = s.replay := rfl
@[simp] theorem State.updTeam_tinv0 (s : State) (n : Nat) (f : Team → Team) : (s.updTeam n f).tinv0 = s.tinv0 := rfl
@[simp] theorem State.updTeam_tinv1 (s : State) (n : Nat) (f : Team → Team) : (s.updTeam n f).tinv1 = s.tinv1 := rfl
@[simp] theorem State.updTeam_vacates (s : State) (n : Nat) (f : Team → Team) : (s.updTeam n f).vacates = s.vacates := rfl
@[simp] theorem State.updTeam_testDue (s : State) (n : Nat) (f : Team → Team) : (s.updTeam n f).testDue = s.testDue := rfl
@[simp] theorem State.updTeam_caps (s : State) (n : Nat) (f : Team → Team) : (s.updTeam n f).caps = s.caps := rfl
@[simp] theorem State.updTeam_bring (s : State) (n : Nat) (f : Team → Team) : (s.updTeam n f).bring = s.bring := rfl
@[simp] theorem State.updTeam_off (s : State) (n : Nat) (f : Team → Team) : (s.updTeam n f).off = s.off := rfl
@[simp] theorem State.updTeam_bank (s : State) (n : Nat) (f : Team → Team) : (s.updTeam n f).bank = s.bank := rfl
@[simp] theorem State.updTeam_bankNext (s : State) (n : Nat) (f : Team → Team) : (s.updTeam n f).bankNext = s.bankNext := rfl
@[simp] theorem State.updTeam_images (s : State) (n : Nat) (f : Team → Team) : (s.updTeam n f).images = s.images := rfl
@[simp] theorem State.updTeam_spdm (s : State) (n : Nat) (f : Team → Team) : (s.updTeam n f).spdm = s.spdm := rfl
@[simp] theorem State.updTeam_out (s : State) (n : Nat) (f : Team → Team) : (s.updTeam n f).out = s.out := rfl

@[simp] theorem State.updFold_agenda (s : State) (n : Nat) (f : Fold → Fold) : (s.updFold n f).agenda = s.agenda := rfl
@[simp] theorem State.updFold_cur (s : State) (n : Nat) (f : Fold → Fold) : (s.updFold n f).cur = s.cur := rfl
@[simp] theorem State.updFold_overlap (s : State) (n : Nat) (f : Fold → Fold) : (s.updFold n f).overlap = s.overlap := rfl
@[simp] theorem State.updFold_teams (s : State) (n : Nat) (f : Fold → Fold) : (s.updFold n f).teams = s.teams := rfl
@[simp] theorem State.updFold_folds (s : State) (n : Nat) (f : Fold → Fold) : (s.updFold n f).folds = upd s.folds n f := rfl
@[simp] theorem State.updFold_jobs (s : State) (n : Nat) (f : Fold → Fold) : (s.updFold n f).jobs = s.jobs := rfl
@[simp] theorem State.updFold_ctxs (s : State) (n : Nat) (f : Fold → Fold) : (s.updFold n f).ctxs = s.ctxs := rfl
@[simp] theorem State.updFold_paddocks (s : State) (n : Nat) (f : Fold → Fold) : (s.updFold n f).paddocks = s.paddocks := rfl
@[simp] theorem State.updFold_cycles (s : State) (n : Nat) (f : Fold → Fold) : (s.updFold n f).cycles = s.cycles := rfl
@[simp] theorem State.updFold_moves (s : State) (n : Nat) (f : Fold → Fold) : (s.updFold n f).moves = s.moves := rfl
@[simp] theorem State.updFold_ops (s : State) (n : Nat) (f : Fold → Fold) : (s.updFold n f).ops = s.ops := rfl
@[simp] theorem State.updFold_shear (s : State) (n : Nat) (f : Fold → Fold) : (s.updFold n f).shear = s.shear := rfl
@[simp] theorem State.updFold_shCtx (s : State) (n : Nat) (f : Fold → Fold) : (s.updFold n f).shCtx = s.shCtx := rfl
@[simp] theorem State.updFold_shRings (s : State) (n : Nat) (f : Fold → Fold) : (s.updFold n f).shRings = s.shRings := rfl
@[simp] theorem State.updFold_shBusy (s : State) (n : Nat) (f : Fold → Fold) : (s.updFold n f).shBusy = s.shBusy := rfl
@[simp] theorem State.updFold_rows (s : State) (n : Nat) (f : Fold → Fold) : (s.updFold n f).rows = s.rows := rfl
@[simp] theorem State.updFold_wire (s : State) (n : Nat) (f : Fold → Fold) : (s.updFold n f).wire = s.wire := rfl
@[simp] theorem State.updFold_ports (s : State) (n : Nat) (f : Fold → Fold) : (s.updFold n f).ports = s.ports := rfl
@[simp] theorem State.updFold_xlate (s : State) (n : Nat) (f : Fold → Fold) : (s.updFold n f).xlate = s.xlate := rfl
@[simp] theorem State.updFold_dev (s : State) (n : Nat) (f : Fold → Fold) : (s.updFold n f).dev = s.dev := rfl
@[simp] theorem State.updFold_domains (s : State) (n : Nat) (f : Fold → Fold) : (s.updFold n f).domains = s.domains := rfl
@[simp] theorem State.updFold_mem (s : State) (n : Nat) (f : Fold → Fold) : (s.updFold n f).mem = s.mem := rfl
@[simp] theorem State.updFold_poison (s : State) (n : Nat) (f : Fold → Fold) : (s.updFold n f).poison = s.poison := rfl
@[simp] theorem State.updFold_tags (s : State) (n : Nat) (f : Fold → Fold) : (s.updFold n f).tags = s.tags := rfl
@[simp] theorem State.updFold_tainted (s : State) (n : Nat) (f : Fold → Fold) : (s.updFold n f).tainted = s.tainted := rfl
@[simp] theorem State.updFold_decoded (s : State) (n : Nat) (f : Fold → Fold) : (s.updFold n f).decoded = s.decoded := rfl
@[simp] theorem State.updFold_tlb (s : State) (n : Nat) (f : Fold → Fold) : (s.updFold n f).tlb = s.tlb := rfl
@[simp] theorem State.updFold_l1d (s : State) (n : Nat) (f : Fold → Fold) : (s.updFold n f).l1d = s.l1d := rfl
@[simp] theorem State.updFold_l1b (s : State) (n : Nat) (f : Fold → Fold) : (s.updFold n f).l1b = s.l1b := rfl
@[simp] theorem State.updFold_l1i (s : State) (n : Nat) (f : Fold → Fold) : (s.updFold n f).l1i = s.l1i := rfl
@[simp] theorem State.updFold_l2 (s : State) (n : Nat) (f : Fold → Fold) : (s.updFold n f).l2 = s.l2 := rfl
@[simp] theorem State.updFold_usec (s : State) (n : Nat) (f : Fold → Fold) : (s.updFold n f).usec = s.usec := rfl
@[simp] theorem State.updFold_interval (s : State) (n : Nat) (f : Fold → Fold) : (s.updFold n f).interval = s.interval := rfl
@[simp] theorem State.updFold_bbox (s : State) (n : Nat) (f : Fold → Fold) : (s.updFold n f).bbox = s.bbox := rfl
@[simp] theorem State.updFold_bbSeq (s : State) (n : Nat) (f : Fold → Fold) : (s.updFold n f).bbSeq = s.bbSeq := rfl
@[simp] theorem State.updFold_frozen (s : State) (n : Nat) (f : Fold → Fold) : (s.updFold n f).frozen = s.frozen := rfl
@[simp] theorem State.updFold_fnRings (s : State) (n : Nat) (f : Fold → Fold) : (s.updFold n f).fnRings = s.fnRings := rfl
@[simp] theorem State.updFold_replay (s : State) (n : Nat) (f : Fold → Fold) : (s.updFold n f).replay = s.replay := rfl
@[simp] theorem State.updFold_tinv0 (s : State) (n : Nat) (f : Fold → Fold) : (s.updFold n f).tinv0 = s.tinv0 := rfl
@[simp] theorem State.updFold_tinv1 (s : State) (n : Nat) (f : Fold → Fold) : (s.updFold n f).tinv1 = s.tinv1 := rfl
@[simp] theorem State.updFold_vacates (s : State) (n : Nat) (f : Fold → Fold) : (s.updFold n f).vacates = s.vacates := rfl
@[simp] theorem State.updFold_testDue (s : State) (n : Nat) (f : Fold → Fold) : (s.updFold n f).testDue = s.testDue := rfl
@[simp] theorem State.updFold_caps (s : State) (n : Nat) (f : Fold → Fold) : (s.updFold n f).caps = s.caps := rfl
@[simp] theorem State.updFold_bring (s : State) (n : Nat) (f : Fold → Fold) : (s.updFold n f).bring = s.bring := rfl
@[simp] theorem State.updFold_off (s : State) (n : Nat) (f : Fold → Fold) : (s.updFold n f).off = s.off := rfl
@[simp] theorem State.updFold_bank (s : State) (n : Nat) (f : Fold → Fold) : (s.updFold n f).bank = s.bank := rfl
@[simp] theorem State.updFold_bankNext (s : State) (n : Nat) (f : Fold → Fold) : (s.updFold n f).bankNext = s.bankNext := rfl
@[simp] theorem State.updFold_images (s : State) (n : Nat) (f : Fold → Fold) : (s.updFold n f).images = s.images := rfl
@[simp] theorem State.updFold_spdm (s : State) (n : Nat) (f : Fold → Fold) : (s.updFold n f).spdm = s.spdm := rfl
@[simp] theorem State.updFold_out (s : State) (n : Nat) (f : Fold → Fold) : (s.updFold n f).out = s.out := rfl

@[simp] theorem State.updJob_agenda (s : State) (n : Nat) (f : Job → Job) : (s.updJob n f).agenda = s.agenda := rfl
@[simp] theorem State.updJob_cur (s : State) (n : Nat) (f : Job → Job) : (s.updJob n f).cur = s.cur := rfl
@[simp] theorem State.updJob_overlap (s : State) (n : Nat) (f : Job → Job) : (s.updJob n f).overlap = s.overlap := rfl
@[simp] theorem State.updJob_teams (s : State) (n : Nat) (f : Job → Job) : (s.updJob n f).teams = s.teams := rfl
@[simp] theorem State.updJob_folds (s : State) (n : Nat) (f : Job → Job) : (s.updJob n f).folds = s.folds := rfl
@[simp] theorem State.updJob_jobs (s : State) (n : Nat) (f : Job → Job) : (s.updJob n f).jobs = upd s.jobs n f := rfl
@[simp] theorem State.updJob_ctxs (s : State) (n : Nat) (f : Job → Job) : (s.updJob n f).ctxs = s.ctxs := rfl
@[simp] theorem State.updJob_paddocks (s : State) (n : Nat) (f : Job → Job) : (s.updJob n f).paddocks = s.paddocks := rfl
@[simp] theorem State.updJob_cycles (s : State) (n : Nat) (f : Job → Job) : (s.updJob n f).cycles = s.cycles := rfl
@[simp] theorem State.updJob_moves (s : State) (n : Nat) (f : Job → Job) : (s.updJob n f).moves = s.moves := rfl
@[simp] theorem State.updJob_ops (s : State) (n : Nat) (f : Job → Job) : (s.updJob n f).ops = s.ops := rfl
@[simp] theorem State.updJob_shear (s : State) (n : Nat) (f : Job → Job) : (s.updJob n f).shear = s.shear := rfl
@[simp] theorem State.updJob_shCtx (s : State) (n : Nat) (f : Job → Job) : (s.updJob n f).shCtx = s.shCtx := rfl
@[simp] theorem State.updJob_shRings (s : State) (n : Nat) (f : Job → Job) : (s.updJob n f).shRings = s.shRings := rfl
@[simp] theorem State.updJob_shBusy (s : State) (n : Nat) (f : Job → Job) : (s.updJob n f).shBusy = s.shBusy := rfl
@[simp] theorem State.updJob_rows (s : State) (n : Nat) (f : Job → Job) : (s.updJob n f).rows = s.rows := rfl
@[simp] theorem State.updJob_wire (s : State) (n : Nat) (f : Job → Job) : (s.updJob n f).wire = s.wire := rfl
@[simp] theorem State.updJob_ports (s : State) (n : Nat) (f : Job → Job) : (s.updJob n f).ports = s.ports := rfl
@[simp] theorem State.updJob_xlate (s : State) (n : Nat) (f : Job → Job) : (s.updJob n f).xlate = s.xlate := rfl
@[simp] theorem State.updJob_dev (s : State) (n : Nat) (f : Job → Job) : (s.updJob n f).dev = s.dev := rfl
@[simp] theorem State.updJob_domains (s : State) (n : Nat) (f : Job → Job) : (s.updJob n f).domains = s.domains := rfl
@[simp] theorem State.updJob_mem (s : State) (n : Nat) (f : Job → Job) : (s.updJob n f).mem = s.mem := rfl
@[simp] theorem State.updJob_poison (s : State) (n : Nat) (f : Job → Job) : (s.updJob n f).poison = s.poison := rfl
@[simp] theorem State.updJob_tags (s : State) (n : Nat) (f : Job → Job) : (s.updJob n f).tags = s.tags := rfl
@[simp] theorem State.updJob_tainted (s : State) (n : Nat) (f : Job → Job) : (s.updJob n f).tainted = s.tainted := rfl
@[simp] theorem State.updJob_decoded (s : State) (n : Nat) (f : Job → Job) : (s.updJob n f).decoded = s.decoded := rfl
@[simp] theorem State.updJob_tlb (s : State) (n : Nat) (f : Job → Job) : (s.updJob n f).tlb = s.tlb := rfl
@[simp] theorem State.updJob_l1d (s : State) (n : Nat) (f : Job → Job) : (s.updJob n f).l1d = s.l1d := rfl
@[simp] theorem State.updJob_l1b (s : State) (n : Nat) (f : Job → Job) : (s.updJob n f).l1b = s.l1b := rfl
@[simp] theorem State.updJob_l1i (s : State) (n : Nat) (f : Job → Job) : (s.updJob n f).l1i = s.l1i := rfl
@[simp] theorem State.updJob_l2 (s : State) (n : Nat) (f : Job → Job) : (s.updJob n f).l2 = s.l2 := rfl
@[simp] theorem State.updJob_usec (s : State) (n : Nat) (f : Job → Job) : (s.updJob n f).usec = s.usec := rfl
@[simp] theorem State.updJob_interval (s : State) (n : Nat) (f : Job → Job) : (s.updJob n f).interval = s.interval := rfl
@[simp] theorem State.updJob_bbox (s : State) (n : Nat) (f : Job → Job) : (s.updJob n f).bbox = s.bbox := rfl
@[simp] theorem State.updJob_bbSeq (s : State) (n : Nat) (f : Job → Job) : (s.updJob n f).bbSeq = s.bbSeq := rfl
@[simp] theorem State.updJob_frozen (s : State) (n : Nat) (f : Job → Job) : (s.updJob n f).frozen = s.frozen := rfl
@[simp] theorem State.updJob_fnRings (s : State) (n : Nat) (f : Job → Job) : (s.updJob n f).fnRings = s.fnRings := rfl
@[simp] theorem State.updJob_replay (s : State) (n : Nat) (f : Job → Job) : (s.updJob n f).replay = s.replay := rfl
@[simp] theorem State.updJob_tinv0 (s : State) (n : Nat) (f : Job → Job) : (s.updJob n f).tinv0 = s.tinv0 := rfl
@[simp] theorem State.updJob_tinv1 (s : State) (n : Nat) (f : Job → Job) : (s.updJob n f).tinv1 = s.tinv1 := rfl
@[simp] theorem State.updJob_vacates (s : State) (n : Nat) (f : Job → Job) : (s.updJob n f).vacates = s.vacates := rfl
@[simp] theorem State.updJob_testDue (s : State) (n : Nat) (f : Job → Job) : (s.updJob n f).testDue = s.testDue := rfl
@[simp] theorem State.updJob_caps (s : State) (n : Nat) (f : Job → Job) : (s.updJob n f).caps = s.caps := rfl
@[simp] theorem State.updJob_bring (s : State) (n : Nat) (f : Job → Job) : (s.updJob n f).bring = s.bring := rfl
@[simp] theorem State.updJob_off (s : State) (n : Nat) (f : Job → Job) : (s.updJob n f).off = s.off := rfl
@[simp] theorem State.updJob_bank (s : State) (n : Nat) (f : Job → Job) : (s.updJob n f).bank = s.bank := rfl
@[simp] theorem State.updJob_bankNext (s : State) (n : Nat) (f : Job → Job) : (s.updJob n f).bankNext = s.bankNext := rfl
@[simp] theorem State.updJob_images (s : State) (n : Nat) (f : Job → Job) : (s.updJob n f).images = s.images := rfl
@[simp] theorem State.updJob_spdm (s : State) (n : Nat) (f : Job → Job) : (s.updJob n f).spdm = s.spdm := rfl
@[simp] theorem State.updJob_out (s : State) (n : Nat) (f : Job → Job) : (s.updJob n f).out = s.out := rfl

@[simp] theorem State.updCtx_agenda (s : State) (n : Nat) (f : Ctx → Ctx) : (s.updCtx n f).agenda = s.agenda := rfl
@[simp] theorem State.updCtx_cur (s : State) (n : Nat) (f : Ctx → Ctx) : (s.updCtx n f).cur = s.cur := rfl
@[simp] theorem State.updCtx_overlap (s : State) (n : Nat) (f : Ctx → Ctx) : (s.updCtx n f).overlap = s.overlap := rfl
@[simp] theorem State.updCtx_teams (s : State) (n : Nat) (f : Ctx → Ctx) : (s.updCtx n f).teams = s.teams := rfl
@[simp] theorem State.updCtx_folds (s : State) (n : Nat) (f : Ctx → Ctx) : (s.updCtx n f).folds = s.folds := rfl
@[simp] theorem State.updCtx_jobs (s : State) (n : Nat) (f : Ctx → Ctx) : (s.updCtx n f).jobs = s.jobs := rfl
@[simp] theorem State.updCtx_ctxs (s : State) (n : Nat) (f : Ctx → Ctx) : (s.updCtx n f).ctxs = upd s.ctxs n f := rfl
@[simp] theorem State.updCtx_paddocks (s : State) (n : Nat) (f : Ctx → Ctx) : (s.updCtx n f).paddocks = s.paddocks := rfl
@[simp] theorem State.updCtx_cycles (s : State) (n : Nat) (f : Ctx → Ctx) : (s.updCtx n f).cycles = s.cycles := rfl
@[simp] theorem State.updCtx_moves (s : State) (n : Nat) (f : Ctx → Ctx) : (s.updCtx n f).moves = s.moves := rfl
@[simp] theorem State.updCtx_ops (s : State) (n : Nat) (f : Ctx → Ctx) : (s.updCtx n f).ops = s.ops := rfl
@[simp] theorem State.updCtx_shear (s : State) (n : Nat) (f : Ctx → Ctx) : (s.updCtx n f).shear = s.shear := rfl
@[simp] theorem State.updCtx_shCtx (s : State) (n : Nat) (f : Ctx → Ctx) : (s.updCtx n f).shCtx = s.shCtx := rfl
@[simp] theorem State.updCtx_shRings (s : State) (n : Nat) (f : Ctx → Ctx) : (s.updCtx n f).shRings = s.shRings := rfl
@[simp] theorem State.updCtx_shBusy (s : State) (n : Nat) (f : Ctx → Ctx) : (s.updCtx n f).shBusy = s.shBusy := rfl
@[simp] theorem State.updCtx_rows (s : State) (n : Nat) (f : Ctx → Ctx) : (s.updCtx n f).rows = s.rows := rfl
@[simp] theorem State.updCtx_wire (s : State) (n : Nat) (f : Ctx → Ctx) : (s.updCtx n f).wire = s.wire := rfl
@[simp] theorem State.updCtx_ports (s : State) (n : Nat) (f : Ctx → Ctx) : (s.updCtx n f).ports = s.ports := rfl
@[simp] theorem State.updCtx_xlate (s : State) (n : Nat) (f : Ctx → Ctx) : (s.updCtx n f).xlate = s.xlate := rfl
@[simp] theorem State.updCtx_dev (s : State) (n : Nat) (f : Ctx → Ctx) : (s.updCtx n f).dev = s.dev := rfl
@[simp] theorem State.updCtx_domains (s : State) (n : Nat) (f : Ctx → Ctx) : (s.updCtx n f).domains = s.domains := rfl
@[simp] theorem State.updCtx_mem (s : State) (n : Nat) (f : Ctx → Ctx) : (s.updCtx n f).mem = s.mem := rfl
@[simp] theorem State.updCtx_poison (s : State) (n : Nat) (f : Ctx → Ctx) : (s.updCtx n f).poison = s.poison := rfl
@[simp] theorem State.updCtx_tags (s : State) (n : Nat) (f : Ctx → Ctx) : (s.updCtx n f).tags = s.tags := rfl
@[simp] theorem State.updCtx_tainted (s : State) (n : Nat) (f : Ctx → Ctx) : (s.updCtx n f).tainted = s.tainted := rfl
@[simp] theorem State.updCtx_decoded (s : State) (n : Nat) (f : Ctx → Ctx) : (s.updCtx n f).decoded = s.decoded := rfl
@[simp] theorem State.updCtx_tlb (s : State) (n : Nat) (f : Ctx → Ctx) : (s.updCtx n f).tlb = s.tlb := rfl
@[simp] theorem State.updCtx_l1d (s : State) (n : Nat) (f : Ctx → Ctx) : (s.updCtx n f).l1d = s.l1d := rfl
@[simp] theorem State.updCtx_l1b (s : State) (n : Nat) (f : Ctx → Ctx) : (s.updCtx n f).l1b = s.l1b := rfl
@[simp] theorem State.updCtx_l1i (s : State) (n : Nat) (f : Ctx → Ctx) : (s.updCtx n f).l1i = s.l1i := rfl
@[simp] theorem State.updCtx_l2 (s : State) (n : Nat) (f : Ctx → Ctx) : (s.updCtx n f).l2 = s.l2 := rfl
@[simp] theorem State.updCtx_usec (s : State) (n : Nat) (f : Ctx → Ctx) : (s.updCtx n f).usec = s.usec := rfl
@[simp] theorem State.updCtx_interval (s : State) (n : Nat) (f : Ctx → Ctx) : (s.updCtx n f).interval = s.interval := rfl
@[simp] theorem State.updCtx_bbox (s : State) (n : Nat) (f : Ctx → Ctx) : (s.updCtx n f).bbox = s.bbox := rfl
@[simp] theorem State.updCtx_bbSeq (s : State) (n : Nat) (f : Ctx → Ctx) : (s.updCtx n f).bbSeq = s.bbSeq := rfl
@[simp] theorem State.updCtx_frozen (s : State) (n : Nat) (f : Ctx → Ctx) : (s.updCtx n f).frozen = s.frozen := rfl
@[simp] theorem State.updCtx_fnRings (s : State) (n : Nat) (f : Ctx → Ctx) : (s.updCtx n f).fnRings = s.fnRings := rfl
@[simp] theorem State.updCtx_replay (s : State) (n : Nat) (f : Ctx → Ctx) : (s.updCtx n f).replay = s.replay := rfl
@[simp] theorem State.updCtx_tinv0 (s : State) (n : Nat) (f : Ctx → Ctx) : (s.updCtx n f).tinv0 = s.tinv0 := rfl
@[simp] theorem State.updCtx_tinv1 (s : State) (n : Nat) (f : Ctx → Ctx) : (s.updCtx n f).tinv1 = s.tinv1 := rfl
@[simp] theorem State.updCtx_vacates (s : State) (n : Nat) (f : Ctx → Ctx) : (s.updCtx n f).vacates = s.vacates := rfl
@[simp] theorem State.updCtx_testDue (s : State) (n : Nat) (f : Ctx → Ctx) : (s.updCtx n f).testDue = s.testDue := rfl
@[simp] theorem State.updCtx_caps (s : State) (n : Nat) (f : Ctx → Ctx) : (s.updCtx n f).caps = s.caps := rfl
@[simp] theorem State.updCtx_bring (s : State) (n : Nat) (f : Ctx → Ctx) : (s.updCtx n f).bring = s.bring := rfl
@[simp] theorem State.updCtx_off (s : State) (n : Nat) (f : Ctx → Ctx) : (s.updCtx n f).off = s.off := rfl
@[simp] theorem State.updCtx_bank (s : State) (n : Nat) (f : Ctx → Ctx) : (s.updCtx n f).bank = s.bank := rfl
@[simp] theorem State.updCtx_bankNext (s : State) (n : Nat) (f : Ctx → Ctx) : (s.updCtx n f).bankNext = s.bankNext := rfl
@[simp] theorem State.updCtx_images (s : State) (n : Nat) (f : Ctx → Ctx) : (s.updCtx n f).images = s.images := rfl
@[simp] theorem State.updCtx_spdm (s : State) (n : Nat) (f : Ctx → Ctx) : (s.updCtx n f).spdm = s.spdm := rfl
@[simp] theorem State.updCtx_out (s : State) (n : Nat) (f : Ctx → Ctx) : (s.updCtx n f).out = s.out := rfl

@[simp] theorem State.updPad_agenda (s : State) (n : Nat) (f : Paddock → Paddock) : (s.updPad n f).agenda = s.agenda := rfl
@[simp] theorem State.updPad_cur (s : State) (n : Nat) (f : Paddock → Paddock) : (s.updPad n f).cur = s.cur := rfl
@[simp] theorem State.updPad_overlap (s : State) (n : Nat) (f : Paddock → Paddock) : (s.updPad n f).overlap = s.overlap := rfl
@[simp] theorem State.updPad_teams (s : State) (n : Nat) (f : Paddock → Paddock) : (s.updPad n f).teams = s.teams := rfl
@[simp] theorem State.updPad_folds (s : State) (n : Nat) (f : Paddock → Paddock) : (s.updPad n f).folds = s.folds := rfl
@[simp] theorem State.updPad_jobs (s : State) (n : Nat) (f : Paddock → Paddock) : (s.updPad n f).jobs = s.jobs := rfl
@[simp] theorem State.updPad_ctxs (s : State) (n : Nat) (f : Paddock → Paddock) : (s.updPad n f).ctxs = s.ctxs := rfl
@[simp] theorem State.updPad_paddocks (s : State) (n : Nat) (f : Paddock → Paddock) : (s.updPad n f).paddocks = upd s.paddocks n f := rfl
@[simp] theorem State.updPad_cycles (s : State) (n : Nat) (f : Paddock → Paddock) : (s.updPad n f).cycles = s.cycles := rfl
@[simp] theorem State.updPad_moves (s : State) (n : Nat) (f : Paddock → Paddock) : (s.updPad n f).moves = s.moves := rfl
@[simp] theorem State.updPad_ops (s : State) (n : Nat) (f : Paddock → Paddock) : (s.updPad n f).ops = s.ops := rfl
@[simp] theorem State.updPad_shear (s : State) (n : Nat) (f : Paddock → Paddock) : (s.updPad n f).shear = s.shear := rfl
@[simp] theorem State.updPad_shCtx (s : State) (n : Nat) (f : Paddock → Paddock) : (s.updPad n f).shCtx = s.shCtx := rfl
@[simp] theorem State.updPad_shRings (s : State) (n : Nat) (f : Paddock → Paddock) : (s.updPad n f).shRings = s.shRings := rfl
@[simp] theorem State.updPad_shBusy (s : State) (n : Nat) (f : Paddock → Paddock) : (s.updPad n f).shBusy = s.shBusy := rfl
@[simp] theorem State.updPad_rows (s : State) (n : Nat) (f : Paddock → Paddock) : (s.updPad n f).rows = s.rows := rfl
@[simp] theorem State.updPad_wire (s : State) (n : Nat) (f : Paddock → Paddock) : (s.updPad n f).wire = s.wire := rfl
@[simp] theorem State.updPad_ports (s : State) (n : Nat) (f : Paddock → Paddock) : (s.updPad n f).ports = s.ports := rfl
@[simp] theorem State.updPad_xlate (s : State) (n : Nat) (f : Paddock → Paddock) : (s.updPad n f).xlate = s.xlate := rfl
@[simp] theorem State.updPad_dev (s : State) (n : Nat) (f : Paddock → Paddock) : (s.updPad n f).dev = s.dev := rfl
@[simp] theorem State.updPad_domains (s : State) (n : Nat) (f : Paddock → Paddock) : (s.updPad n f).domains = s.domains := rfl
@[simp] theorem State.updPad_mem (s : State) (n : Nat) (f : Paddock → Paddock) : (s.updPad n f).mem = s.mem := rfl
@[simp] theorem State.updPad_poison (s : State) (n : Nat) (f : Paddock → Paddock) : (s.updPad n f).poison = s.poison := rfl
@[simp] theorem State.updPad_tags (s : State) (n : Nat) (f : Paddock → Paddock) : (s.updPad n f).tags = s.tags := rfl
@[simp] theorem State.updPad_tainted (s : State) (n : Nat) (f : Paddock → Paddock) : (s.updPad n f).tainted = s.tainted := rfl
@[simp] theorem State.updPad_decoded (s : State) (n : Nat) (f : Paddock → Paddock) : (s.updPad n f).decoded = s.decoded := rfl
@[simp] theorem State.updPad_tlb (s : State) (n : Nat) (f : Paddock → Paddock) : (s.updPad n f).tlb = s.tlb := rfl
@[simp] theorem State.updPad_l1d (s : State) (n : Nat) (f : Paddock → Paddock) : (s.updPad n f).l1d = s.l1d := rfl
@[simp] theorem State.updPad_l1b (s : State) (n : Nat) (f : Paddock → Paddock) : (s.updPad n f).l1b = s.l1b := rfl
@[simp] theorem State.updPad_l1i (s : State) (n : Nat) (f : Paddock → Paddock) : (s.updPad n f).l1i = s.l1i := rfl
@[simp] theorem State.updPad_l2 (s : State) (n : Nat) (f : Paddock → Paddock) : (s.updPad n f).l2 = s.l2 := rfl
@[simp] theorem State.updPad_usec (s : State) (n : Nat) (f : Paddock → Paddock) : (s.updPad n f).usec = s.usec := rfl
@[simp] theorem State.updPad_interval (s : State) (n : Nat) (f : Paddock → Paddock) : (s.updPad n f).interval = s.interval := rfl
@[simp] theorem State.updPad_bbox (s : State) (n : Nat) (f : Paddock → Paddock) : (s.updPad n f).bbox = s.bbox := rfl
@[simp] theorem State.updPad_bbSeq (s : State) (n : Nat) (f : Paddock → Paddock) : (s.updPad n f).bbSeq = s.bbSeq := rfl
@[simp] theorem State.updPad_frozen (s : State) (n : Nat) (f : Paddock → Paddock) : (s.updPad n f).frozen = s.frozen := rfl
@[simp] theorem State.updPad_fnRings (s : State) (n : Nat) (f : Paddock → Paddock) : (s.updPad n f).fnRings = s.fnRings := rfl
@[simp] theorem State.updPad_replay (s : State) (n : Nat) (f : Paddock → Paddock) : (s.updPad n f).replay = s.replay := rfl
@[simp] theorem State.updPad_tinv0 (s : State) (n : Nat) (f : Paddock → Paddock) : (s.updPad n f).tinv0 = s.tinv0 := rfl
@[simp] theorem State.updPad_tinv1 (s : State) (n : Nat) (f : Paddock → Paddock) : (s.updPad n f).tinv1 = s.tinv1 := rfl
@[simp] theorem State.updPad_vacates (s : State) (n : Nat) (f : Paddock → Paddock) : (s.updPad n f).vacates = s.vacates := rfl
@[simp] theorem State.updPad_testDue (s : State) (n : Nat) (f : Paddock → Paddock) : (s.updPad n f).testDue = s.testDue := rfl
@[simp] theorem State.updPad_caps (s : State) (n : Nat) (f : Paddock → Paddock) : (s.updPad n f).caps = s.caps := rfl
@[simp] theorem State.updPad_bring (s : State) (n : Nat) (f : Paddock → Paddock) : (s.updPad n f).bring = s.bring := rfl
@[simp] theorem State.updPad_off (s : State) (n : Nat) (f : Paddock → Paddock) : (s.updPad n f).off = s.off := rfl
@[simp] theorem State.updPad_bank (s : State) (n : Nat) (f : Paddock → Paddock) : (s.updPad n f).bank = s.bank := rfl
@[simp] theorem State.updPad_bankNext (s : State) (n : Nat) (f : Paddock → Paddock) : (s.updPad n f).bankNext = s.bankNext := rfl
@[simp] theorem State.updPad_images (s : State) (n : Nat) (f : Paddock → Paddock) : (s.updPad n f).images = s.images := rfl
@[simp] theorem State.updPad_spdm (s : State) (n : Nat) (f : Paddock → Paddock) : (s.updPad n f).spdm = s.spdm := rfl
@[simp] theorem State.updPad_out (s : State) (n : Nat) (f : Paddock → Paddock) : (s.updPad n f).out = s.out := rfl

@[simp] theorem State.updOp_agenda (s : State) (n : Nat) (f : EngOp → EngOp) : (s.updOp n f).agenda = s.agenda := rfl
@[simp] theorem State.updOp_cur (s : State) (n : Nat) (f : EngOp → EngOp) : (s.updOp n f).cur = s.cur := rfl
@[simp] theorem State.updOp_overlap (s : State) (n : Nat) (f : EngOp → EngOp) : (s.updOp n f).overlap = s.overlap := rfl
@[simp] theorem State.updOp_teams (s : State) (n : Nat) (f : EngOp → EngOp) : (s.updOp n f).teams = s.teams := rfl
@[simp] theorem State.updOp_folds (s : State) (n : Nat) (f : EngOp → EngOp) : (s.updOp n f).folds = s.folds := rfl
@[simp] theorem State.updOp_jobs (s : State) (n : Nat) (f : EngOp → EngOp) : (s.updOp n f).jobs = s.jobs := rfl
@[simp] theorem State.updOp_ctxs (s : State) (n : Nat) (f : EngOp → EngOp) : (s.updOp n f).ctxs = s.ctxs := rfl
@[simp] theorem State.updOp_paddocks (s : State) (n : Nat) (f : EngOp → EngOp) : (s.updOp n f).paddocks = s.paddocks := rfl
@[simp] theorem State.updOp_cycles (s : State) (n : Nat) (f : EngOp → EngOp) : (s.updOp n f).cycles = s.cycles := rfl
@[simp] theorem State.updOp_moves (s : State) (n : Nat) (f : EngOp → EngOp) : (s.updOp n f).moves = s.moves := rfl
@[simp] theorem State.updOp_ops (s : State) (n : Nat) (f : EngOp → EngOp) : (s.updOp n f).ops = upd s.ops n f := rfl
@[simp] theorem State.updOp_shear (s : State) (n : Nat) (f : EngOp → EngOp) : (s.updOp n f).shear = s.shear := rfl
@[simp] theorem State.updOp_shCtx (s : State) (n : Nat) (f : EngOp → EngOp) : (s.updOp n f).shCtx = s.shCtx := rfl
@[simp] theorem State.updOp_shRings (s : State) (n : Nat) (f : EngOp → EngOp) : (s.updOp n f).shRings = s.shRings := rfl
@[simp] theorem State.updOp_shBusy (s : State) (n : Nat) (f : EngOp → EngOp) : (s.updOp n f).shBusy = s.shBusy := rfl
@[simp] theorem State.updOp_rows (s : State) (n : Nat) (f : EngOp → EngOp) : (s.updOp n f).rows = s.rows := rfl
@[simp] theorem State.updOp_wire (s : State) (n : Nat) (f : EngOp → EngOp) : (s.updOp n f).wire = s.wire := rfl
@[simp] theorem State.updOp_ports (s : State) (n : Nat) (f : EngOp → EngOp) : (s.updOp n f).ports = s.ports := rfl
@[simp] theorem State.updOp_xlate (s : State) (n : Nat) (f : EngOp → EngOp) : (s.updOp n f).xlate = s.xlate := rfl
@[simp] theorem State.updOp_dev (s : State) (n : Nat) (f : EngOp → EngOp) : (s.updOp n f).dev = s.dev := rfl
@[simp] theorem State.updOp_domains (s : State) (n : Nat) (f : EngOp → EngOp) : (s.updOp n f).domains = s.domains := rfl
@[simp] theorem State.updOp_mem (s : State) (n : Nat) (f : EngOp → EngOp) : (s.updOp n f).mem = s.mem := rfl
@[simp] theorem State.updOp_poison (s : State) (n : Nat) (f : EngOp → EngOp) : (s.updOp n f).poison = s.poison := rfl
@[simp] theorem State.updOp_tags (s : State) (n : Nat) (f : EngOp → EngOp) : (s.updOp n f).tags = s.tags := rfl
@[simp] theorem State.updOp_tainted (s : State) (n : Nat) (f : EngOp → EngOp) : (s.updOp n f).tainted = s.tainted := rfl
@[simp] theorem State.updOp_decoded (s : State) (n : Nat) (f : EngOp → EngOp) : (s.updOp n f).decoded = s.decoded := rfl
@[simp] theorem State.updOp_tlb (s : State) (n : Nat) (f : EngOp → EngOp) : (s.updOp n f).tlb = s.tlb := rfl
@[simp] theorem State.updOp_l1d (s : State) (n : Nat) (f : EngOp → EngOp) : (s.updOp n f).l1d = s.l1d := rfl
@[simp] theorem State.updOp_l1b (s : State) (n : Nat) (f : EngOp → EngOp) : (s.updOp n f).l1b = s.l1b := rfl
@[simp] theorem State.updOp_l1i (s : State) (n : Nat) (f : EngOp → EngOp) : (s.updOp n f).l1i = s.l1i := rfl
@[simp] theorem State.updOp_l2 (s : State) (n : Nat) (f : EngOp → EngOp) : (s.updOp n f).l2 = s.l2 := rfl
@[simp] theorem State.updOp_usec (s : State) (n : Nat) (f : EngOp → EngOp) : (s.updOp n f).usec = s.usec := rfl
@[simp] theorem State.updOp_interval (s : State) (n : Nat) (f : EngOp → EngOp) : (s.updOp n f).interval = s.interval := rfl
@[simp] theorem State.updOp_bbox (s : State) (n : Nat) (f : EngOp → EngOp) : (s.updOp n f).bbox = s.bbox := rfl
@[simp] theorem State.updOp_bbSeq (s : State) (n : Nat) (f : EngOp → EngOp) : (s.updOp n f).bbSeq = s.bbSeq := rfl
@[simp] theorem State.updOp_frozen (s : State) (n : Nat) (f : EngOp → EngOp) : (s.updOp n f).frozen = s.frozen := rfl
@[simp] theorem State.updOp_fnRings (s : State) (n : Nat) (f : EngOp → EngOp) : (s.updOp n f).fnRings = s.fnRings := rfl
@[simp] theorem State.updOp_replay (s : State) (n : Nat) (f : EngOp → EngOp) : (s.updOp n f).replay = s.replay := rfl
@[simp] theorem State.updOp_tinv0 (s : State) (n : Nat) (f : EngOp → EngOp) : (s.updOp n f).tinv0 = s.tinv0 := rfl
@[simp] theorem State.updOp_tinv1 (s : State) (n : Nat) (f : EngOp → EngOp) : (s.updOp n f).tinv1 = s.tinv1 := rfl
@[simp] theorem State.updOp_vacates (s : State) (n : Nat) (f : EngOp → EngOp) : (s.updOp n f).vacates = s.vacates := rfl
@[simp] theorem State.updOp_testDue (s : State) (n : Nat) (f : EngOp → EngOp) : (s.updOp n f).testDue = s.testDue := rfl
@[simp] theorem State.updOp_caps (s : State) (n : Nat) (f : EngOp → EngOp) : (s.updOp n f).caps = s.caps := rfl
@[simp] theorem State.updOp_bring (s : State) (n : Nat) (f : EngOp → EngOp) : (s.updOp n f).bring = s.bring := rfl
@[simp] theorem State.updOp_off (s : State) (n : Nat) (f : EngOp → EngOp) : (s.updOp n f).off = s.off := rfl
@[simp] theorem State.updOp_bank (s : State) (n : Nat) (f : EngOp → EngOp) : (s.updOp n f).bank = s.bank := rfl
@[simp] theorem State.updOp_bankNext (s : State) (n : Nat) (f : EngOp → EngOp) : (s.updOp n f).bankNext = s.bankNext := rfl
@[simp] theorem State.updOp_images (s : State) (n : Nat) (f : EngOp → EngOp) : (s.updOp n f).images = s.images := rfl
@[simp] theorem State.updOp_spdm (s : State) (n : Nat) (f : EngOp → EngOp) : (s.updOp n f).spdm = s.spdm := rfl
@[simp] theorem State.updOp_out (s : State) (n : Nat) (f : EngOp → EngOp) : (s.updOp n f).out = s.out := rfl

@[simp] theorem State.updPort_agenda (s : State) (n : Nat) (f : Port → Port) : (s.updPort n f).agenda = s.agenda := rfl
@[simp] theorem State.updPort_cur (s : State) (n : Nat) (f : Port → Port) : (s.updPort n f).cur = s.cur := rfl
@[simp] theorem State.updPort_overlap (s : State) (n : Nat) (f : Port → Port) : (s.updPort n f).overlap = s.overlap := rfl
@[simp] theorem State.updPort_teams (s : State) (n : Nat) (f : Port → Port) : (s.updPort n f).teams = s.teams := rfl
@[simp] theorem State.updPort_folds (s : State) (n : Nat) (f : Port → Port) : (s.updPort n f).folds = s.folds := rfl
@[simp] theorem State.updPort_jobs (s : State) (n : Nat) (f : Port → Port) : (s.updPort n f).jobs = s.jobs := rfl
@[simp] theorem State.updPort_ctxs (s : State) (n : Nat) (f : Port → Port) : (s.updPort n f).ctxs = s.ctxs := rfl
@[simp] theorem State.updPort_paddocks (s : State) (n : Nat) (f : Port → Port) : (s.updPort n f).paddocks = s.paddocks := rfl
@[simp] theorem State.updPort_cycles (s : State) (n : Nat) (f : Port → Port) : (s.updPort n f).cycles = s.cycles := rfl
@[simp] theorem State.updPort_moves (s : State) (n : Nat) (f : Port → Port) : (s.updPort n f).moves = s.moves := rfl
@[simp] theorem State.updPort_ops (s : State) (n : Nat) (f : Port → Port) : (s.updPort n f).ops = s.ops := rfl
@[simp] theorem State.updPort_shear (s : State) (n : Nat) (f : Port → Port) : (s.updPort n f).shear = s.shear := rfl
@[simp] theorem State.updPort_shCtx (s : State) (n : Nat) (f : Port → Port) : (s.updPort n f).shCtx = s.shCtx := rfl
@[simp] theorem State.updPort_shRings (s : State) (n : Nat) (f : Port → Port) : (s.updPort n f).shRings = s.shRings := rfl
@[simp] theorem State.updPort_shBusy (s : State) (n : Nat) (f : Port → Port) : (s.updPort n f).shBusy = s.shBusy := rfl
@[simp] theorem State.updPort_rows (s : State) (n : Nat) (f : Port → Port) : (s.updPort n f).rows = s.rows := rfl
@[simp] theorem State.updPort_wire (s : State) (n : Nat) (f : Port → Port) : (s.updPort n f).wire = s.wire := rfl
@[simp] theorem State.updPort_ports (s : State) (n : Nat) (f : Port → Port) : (s.updPort n f).ports = upd s.ports n f := rfl
@[simp] theorem State.updPort_xlate (s : State) (n : Nat) (f : Port → Port) : (s.updPort n f).xlate = s.xlate := rfl
@[simp] theorem State.updPort_dev (s : State) (n : Nat) (f : Port → Port) : (s.updPort n f).dev = s.dev := rfl
@[simp] theorem State.updPort_domains (s : State) (n : Nat) (f : Port → Port) : (s.updPort n f).domains = s.domains := rfl
@[simp] theorem State.updPort_mem (s : State) (n : Nat) (f : Port → Port) : (s.updPort n f).mem = s.mem := rfl
@[simp] theorem State.updPort_poison (s : State) (n : Nat) (f : Port → Port) : (s.updPort n f).poison = s.poison := rfl
@[simp] theorem State.updPort_tags (s : State) (n : Nat) (f : Port → Port) : (s.updPort n f).tags = s.tags := rfl
@[simp] theorem State.updPort_tainted (s : State) (n : Nat) (f : Port → Port) : (s.updPort n f).tainted = s.tainted := rfl
@[simp] theorem State.updPort_decoded (s : State) (n : Nat) (f : Port → Port) : (s.updPort n f).decoded = s.decoded := rfl
@[simp] theorem State.updPort_tlb (s : State) (n : Nat) (f : Port → Port) : (s.updPort n f).tlb = s.tlb := rfl
@[simp] theorem State.updPort_l1d (s : State) (n : Nat) (f : Port → Port) : (s.updPort n f).l1d = s.l1d := rfl
@[simp] theorem State.updPort_l1b (s : State) (n : Nat) (f : Port → Port) : (s.updPort n f).l1b = s.l1b := rfl
@[simp] theorem State.updPort_l1i (s : State) (n : Nat) (f : Port → Port) : (s.updPort n f).l1i = s.l1i := rfl
@[simp] theorem State.updPort_l2 (s : State) (n : Nat) (f : Port → Port) : (s.updPort n f).l2 = s.l2 := rfl
@[simp] theorem State.updPort_usec (s : State) (n : Nat) (f : Port → Port) : (s.updPort n f).usec = s.usec := rfl
@[simp] theorem State.updPort_interval (s : State) (n : Nat) (f : Port → Port) : (s.updPort n f).interval = s.interval := rfl
@[simp] theorem State.updPort_bbox (s : State) (n : Nat) (f : Port → Port) : (s.updPort n f).bbox = s.bbox := rfl
@[simp] theorem State.updPort_bbSeq (s : State) (n : Nat) (f : Port → Port) : (s.updPort n f).bbSeq = s.bbSeq := rfl
@[simp] theorem State.updPort_frozen (s : State) (n : Nat) (f : Port → Port) : (s.updPort n f).frozen = s.frozen := rfl
@[simp] theorem State.updPort_fnRings (s : State) (n : Nat) (f : Port → Port) : (s.updPort n f).fnRings = s.fnRings := rfl
@[simp] theorem State.updPort_replay (s : State) (n : Nat) (f : Port → Port) : (s.updPort n f).replay = s.replay := rfl
@[simp] theorem State.updPort_tinv0 (s : State) (n : Nat) (f : Port → Port) : (s.updPort n f).tinv0 = s.tinv0 := rfl
@[simp] theorem State.updPort_tinv1 (s : State) (n : Nat) (f : Port → Port) : (s.updPort n f).tinv1 = s.tinv1 := rfl
@[simp] theorem State.updPort_vacates (s : State) (n : Nat) (f : Port → Port) : (s.updPort n f).vacates = s.vacates := rfl
@[simp] theorem State.updPort_testDue (s : State) (n : Nat) (f : Port → Port) : (s.updPort n f).testDue = s.testDue := rfl
@[simp] theorem State.updPort_caps (s : State) (n : Nat) (f : Port → Port) : (s.updPort n f).caps = s.caps := rfl
@[simp] theorem State.updPort_bring (s : State) (n : Nat) (f : Port → Port) : (s.updPort n f).bring = s.bring := rfl
@[simp] theorem State.updPort_off (s : State) (n : Nat) (f : Port → Port) : (s.updPort n f).off = s.off := rfl
@[simp] theorem State.updPort_bank (s : State) (n : Nat) (f : Port → Port) : (s.updPort n f).bank = s.bank := rfl
@[simp] theorem State.updPort_bankNext (s : State) (n : Nat) (f : Port → Port) : (s.updPort n f).bankNext = s.bankNext := rfl
@[simp] theorem State.updPort_images (s : State) (n : Nat) (f : Port → Port) : (s.updPort n f).images = s.images := rfl
@[simp] theorem State.updPort_spdm (s : State) (n : Nat) (f : Port → Port) : (s.updPort n f).spdm = s.spdm := rfl
@[simp] theorem State.updPort_out (s : State) (n : Nat) (f : Port → Port) : (s.updPort n f).out = s.out := rfl

@[simp] theorem State.teamNow_agenda (s : State) (tm : Team) : (s.teamNow tm).agenda = s.agenda := rfl
@[simp] theorem State.teamNow_cur (s : State) (tm : Team) : (s.teamNow tm).cur = s.cur := rfl
@[simp] theorem State.teamNow_overlap (s : State) (tm : Team) : (s.teamNow tm).overlap = s.overlap := rfl
@[simp] theorem State.teamNow_teams (s : State) (tm : Team) : (s.teamNow tm).teams = upd s.teams s.cur fun _ => tm := rfl
@[simp] theorem State.teamNow_folds (s : State) (tm : Team) : (s.teamNow tm).folds = s.folds := rfl
@[simp] theorem State.teamNow_jobs (s : State) (tm : Team) : (s.teamNow tm).jobs = s.jobs := rfl
@[simp] theorem State.teamNow_ctxs (s : State) (tm : Team) : (s.teamNow tm).ctxs = s.ctxs := rfl
@[simp] theorem State.teamNow_paddocks (s : State) (tm : Team) : (s.teamNow tm).paddocks = s.paddocks := rfl
@[simp] theorem State.teamNow_cycles (s : State) (tm : Team) : (s.teamNow tm).cycles = s.cycles := rfl
@[simp] theorem State.teamNow_moves (s : State) (tm : Team) : (s.teamNow tm).moves = s.moves + 1 := rfl
@[simp] theorem State.teamNow_ops (s : State) (tm : Team) : (s.teamNow tm).ops = s.ops := rfl
@[simp] theorem State.teamNow_shear (s : State) (tm : Team) : (s.teamNow tm).shear = s.shear := rfl
@[simp] theorem State.teamNow_shCtx (s : State) (tm : Team) : (s.teamNow tm).shCtx = s.shCtx := rfl
@[simp] theorem State.teamNow_shRings (s : State) (tm : Team) : (s.teamNow tm).shRings = s.shRings := rfl
@[simp] theorem State.teamNow_shBusy (s : State) (tm : Team) : (s.teamNow tm).shBusy = s.shBusy := rfl
@[simp] theorem State.teamNow_rows (s : State) (tm : Team) : (s.teamNow tm).rows = s.rows := rfl
@[simp] theorem State.teamNow_wire (s : State) (tm : Team) : (s.teamNow tm).wire = s.wire := rfl
@[simp] theorem State.teamNow_ports (s : State) (tm : Team) : (s.teamNow tm).ports = s.ports := rfl
@[simp] theorem State.teamNow_xlate (s : State) (tm : Team) : (s.teamNow tm).xlate = s.xlate := rfl
@[simp] theorem State.teamNow_dev (s : State) (tm : Team) : (s.teamNow tm).dev = s.dev := rfl
@[simp] theorem State.teamNow_domains (s : State) (tm : Team) : (s.teamNow tm).domains = s.domains := rfl
@[simp] theorem State.teamNow_mem (s : State) (tm : Team) : (s.teamNow tm).mem = s.mem := rfl
@[simp] theorem State.teamNow_poison (s : State) (tm : Team) : (s.teamNow tm).poison = s.poison := rfl
@[simp] theorem State.teamNow_tags (s : State) (tm : Team) : (s.teamNow tm).tags = s.tags := rfl
@[simp] theorem State.teamNow_tainted (s : State) (tm : Team) : (s.teamNow tm).tainted = s.tainted := rfl
@[simp] theorem State.teamNow_decoded (s : State) (tm : Team) : (s.teamNow tm).decoded = s.decoded := rfl
@[simp] theorem State.teamNow_tlb (s : State) (tm : Team) : (s.teamNow tm).tlb = s.tlb := rfl
@[simp] theorem State.teamNow_l1d (s : State) (tm : Team) : (s.teamNow tm).l1d = s.l1d := rfl
@[simp] theorem State.teamNow_l1b (s : State) (tm : Team) : (s.teamNow tm).l1b = s.l1b := rfl
@[simp] theorem State.teamNow_l1i (s : State) (tm : Team) : (s.teamNow tm).l1i = s.l1i := rfl
@[simp] theorem State.teamNow_l2 (s : State) (tm : Team) : (s.teamNow tm).l2 = s.l2 := rfl
@[simp] theorem State.teamNow_usec (s : State) (tm : Team) : (s.teamNow tm).usec = s.usec := rfl
@[simp] theorem State.teamNow_interval (s : State) (tm : Team) : (s.teamNow tm).interval = s.interval := rfl
@[simp] theorem State.teamNow_bbox (s : State) (tm : Team) : (s.teamNow tm).bbox = s.bbox := rfl
@[simp] theorem State.teamNow_bbSeq (s : State) (tm : Team) : (s.teamNow tm).bbSeq = s.bbSeq := rfl
@[simp] theorem State.teamNow_frozen (s : State) (tm : Team) : (s.teamNow tm).frozen = s.frozen := rfl
@[simp] theorem State.teamNow_fnRings (s : State) (tm : Team) : (s.teamNow tm).fnRings = s.fnRings := rfl
@[simp] theorem State.teamNow_replay (s : State) (tm : Team) : (s.teamNow tm).replay = s.replay := rfl
@[simp] theorem State.teamNow_tinv0 (s : State) (tm : Team) : (s.teamNow tm).tinv0 = s.tinv0 := rfl
@[simp] theorem State.teamNow_tinv1 (s : State) (tm : Team) : (s.teamNow tm).tinv1 = s.tinv1 := rfl
@[simp] theorem State.teamNow_vacates (s : State) (tm : Team) : (s.teamNow tm).vacates = s.vacates := rfl
@[simp] theorem State.teamNow_testDue (s : State) (tm : Team) : (s.teamNow tm).testDue = s.testDue := rfl
@[simp] theorem State.teamNow_caps (s : State) (tm : Team) : (s.teamNow tm).caps = s.caps := rfl
@[simp] theorem State.teamNow_bring (s : State) (tm : Team) : (s.teamNow tm).bring = s.bring := rfl
@[simp] theorem State.teamNow_off (s : State) (tm : Team) : (s.teamNow tm).off = s.off := rfl
@[simp] theorem State.teamNow_bank (s : State) (tm : Team) : (s.teamNow tm).bank = s.bank := rfl
@[simp] theorem State.teamNow_bankNext (s : State) (tm : Team) : (s.teamNow tm).bankNext = s.bankNext := rfl
@[simp] theorem State.teamNow_images (s : State) (tm : Team) : (s.teamNow tm).images = s.images := rfl
@[simp] theorem State.teamNow_spdm (s : State) (tm : Team) : (s.teamNow tm).spdm = s.spdm := rfl
@[simp] theorem State.teamNow_out (s : State) (tm : Team) : (s.teamNow tm).out = s.out := rfl

/-! ## The parts of the state after an update -/

theorem State.team?_updTeam (s : State) (n k : Nat) (f : Team → Team) : (s.updTeam n f).team? k = if n = k then (s.team? k).map f else s.team? k :=
  getElem?_upd ..
theorem State.fold?_updFold (s : State) (n k : Nat) (f : Fold → Fold) : (s.updFold n f).fold? k = if n = k then (s.fold? k).map f else s.fold? k :=
  getElem?_upd ..
@[simp] theorem State.fold?_updTeam (s : State) (n k : Nat) (f : Team → Team) : (s.updTeam n f).fold? k = s.fold? k := rfl
@[simp] theorem State.team?_updFold (s : State) (n k : Nat) (f : Fold → Fold) : (s.updFold n f).team? k = s.team? k := rfl
@[simp] theorem State.ctx_updTeam (s : State) (n c : Nat) (f : Team → Team) : (s.updTeam n f).ctx c = s.ctx c := rfl
@[simp] theorem State.ctx_updFold (s : State) (n c : Nat) (f : Fold → Fold) : (s.updFold n f).ctx c = s.ctx c := rfl
@[simp] theorem State.pad_updTeam (s : State) (n p : Nat) (f : Team → Team) : (s.updTeam n f).pad p = s.pad p := rfl
@[simp] theorem State.pad_updFold (s : State) (n p : Nat) (f : Fold → Fold) : (s.updFold n f).pad p = s.pad p := rfl

/-- A context after an update: changed where it is the one and exists. -/
theorem State.ctx_updCtx (s : State) (n c : Nat) (f : Ctx → Ctx) :
    (s.updCtx n f).ctx c = if n = c ∧ c < s.ctxs.length then f (s.ctx c) else s.ctx c := by
  simp only [State.ctx, State.updCtx, List.getD_eq_getElem?_getD, getElem?_upd]
  by_cases h : n = c <;> by_cases hc : c < s.ctxs.length <;> simp [h, hc]

/-- A paddock after an update. -/
theorem State.pad_updPad (s : State) (n p : Nat) (f : Paddock → Paddock) :
    (s.updPad n f).pad p = if n = p ∧ p < s.paddocks.length then f (s.pad p) else s.pad p := by
  simp only [State.pad, State.updPad, List.getD_eq_getElem?_getD, getElem?_upd]
  by_cases h : n = p <;> by_cases hc : p < s.paddocks.length <;> simp [h, hc]

/-- The team that issues, after a step that changed it alone. -/
@[simp] theorem State.team?_teamNow (s : State) (tm : Team) : (s.teamNow tm).team? s.cur = (s.team? s.cur).map fun _ => tm := by
  simp [State.team?, State.teamNow, State.updTeam, getElem?_upd_self]

/-! ## Registers of a team -/

/-- A vector register after another was changed. -/
theorem Team.getV_setV_team (tm : Team) (n k : Nat) (f : VReg → VReg) :
    (tm.setV (.team n) f).getV (.team k) = if n = k ∧ k < tm.vregs.length then f (tm.getV (.team k)) else tm.getV (.team k) := by
  simp only [Team.getV, Team.setV, List.getD_eq_getElem?_getD, getElem?_upd]
  by_cases h : n = k <;> by_cases hc : k < tm.vregs.length <;> simp [h, hc]

/-- A uniform register after another was changed. -/
theorem Team.getU_setU_team (tm : Team) (n k : Nat) (f : UReg → UReg) :
    (tm.setU (.team n) f).getU (.team k) = if n = k ∧ k < tm.uregs.length then f (tm.getU (.team k)) else tm.getU (.team k) := by
  simp only [Team.getU, Team.setU, List.getD_eq_getElem?_getD, getElem?_upd]
  by_cases h : n = k <;> by_cases hc : k < tm.uregs.length <;> simp [h, hc]

end Sys2Proof.Machine
end

