-- ==== Sys2Proof/Laws/Memory.lean ====
section
/-!
SUPPORT. Sys2Proof/Laws/Memory.lean: reading after writing one byte, and the canonical form of memory under every operation
that stores.
-/
namespace Sys2Proof.Machine

/-! ## One byte -/

theorem memGet_cons (a : Nat) (b : Byte) (m : List Host.Cell) (x : Nat) : memGet ((a, b) :: m) x = if a = x then b else memGet m x := by
  simp [memGet]

theorem memSet_lt {a x : Nat} (h : x < a) (b v : Byte) (m : List Host.Cell) :
    memSet ((a, b) :: m) x v = if v = unlisted then (a, b) :: m else (x, v) :: (a, b) :: m := by simp [memSet, h]

theorem memSet_eq (a : Nat) (b v : Byte) (m : List Host.Cell) : memSet ((a, b) :: m) a v = if v = unlisted then m else (a, v) :: m := by
  simp [memSet]

theorem memSet_gt {a x : Nat} (h : a < x) (b v : Byte) (m : List Host.Cell) : memSet ((a, b) :: m) x v = (a, b) :: memSet m x v := by
  simp [memSet, Nat.not_lt.mpr (Nat.le_of_lt h), Nat.ne_of_gt h]

theorem memWfFrom_cons {lo a : Nat} {b : Byte} {m : List Host.Cell} :
    memWfFrom lo ((a, b) :: m) = true ↔ (lo ≤ a ∧ b ≠ unlisted) ∧ memWfFrom (a + 1) m = true := by simp [memWfFrom]

theorem memWfFrom_mono {lo hi : Nat} {m : List Host.Cell} (hl : lo ≤ hi) (h : memWfFrom hi m = true) : memWfFrom lo m = true := by
  cases m with
  | nil => rfl
  | cons c m => exact memWfFrom_cons.mpr ⟨⟨Nat.le_trans hl (memWfFrom_cons.mp h).1.1, (memWfFrom_cons.mp h).1.2⟩, (memWfFrom_cons.mp h).2⟩

/-- Nothing is listed below the first cell. -/
theorem memGet_below {lo : Nat} {m : List Host.Cell} (h : memWfFrom lo m = true) {x : Nat} (hx : x < lo) : memGet m x = unlisted := by
  induction m generalizing lo with
  | nil => rfl
  | cons c m ih =>
    obtain ⟨a, b⟩ := c
    obtain ⟨⟨hlo, -⟩, hm⟩ := memWfFrom_cons.mp h
    rw [memGet_cons, if_neg (by omega), ih hm (by omega)]

/-- A byte read after a write of one byte. -/
theorem memGet_memSet {lo : Nat} {m : List Host.Cell} (h : memWfFrom lo m = true) (x y : Nat) (v : Byte) :
    memGet (memSet m x v) y = if y = x then v else memGet m y := by
  induction m generalizing lo with
  | nil => by_cases hv : v = unlisted <;> by_cases hy : x = y <;> simp [memSet, memGet, hv, hy, eq_comm (a := y)]
  | cons c m ih =>
    obtain ⟨a, b⟩ := c
    obtain ⟨-, hm⟩ := memWfFrom_cons.mp h
    have hbelow := fun hy : y < a + 1 => memGet_below hm hy
    rcases Nat.lt_trichotomy x a with hx | rfl | hx
    · rw [memSet_lt hx]
      by_cases hv : v = unlisted <;> by_cases hy : y = x
      · rw [if_pos hv, if_pos hy, memGet_cons, if_neg (by omega), hbelow (by omega), hv]
      · rw [if_pos hv, if_neg hy]
      · rw [if_neg hv, if_pos hy, memGet_cons, if_pos hy.symm]
      · rw [if_neg hv, if_neg hy, memGet_cons, if_neg (Ne.symm hy)]
    · rw [memSet_eq]
      by_cases hv : v = unlisted <;> by_cases hy : y = x
      · rw [if_pos hv, if_pos hy, hbelow (by omega), hv]
      · rw [if_pos hv, if_neg hy, memGet_cons, if_neg (Ne.symm hy)]
      · rw [if_neg hv, if_pos hy, memGet_cons, if_pos hy.symm]
      · rw [if_neg hv, if_neg hy, memGet_cons, memGet_cons, if_neg (Ne.symm hy), if_neg (Ne.symm hy)]
    · rw [memSet_gt hx, memGet_cons, memGet_cons, ih hm]
      by_cases ha : a = y
      · rw [if_pos ha, if_pos ha, if_neg (by omega)]
      · rw [if_neg ha, if_neg ha]

theorem memSet_wfFrom {lo : Nat} {m : List Host.Cell} (h : memWfFrom lo m = true) {x : Nat} (hx : lo ≤ x) (v : Byte) :
    memWfFrom lo (memSet m x v) = true := by
  induction m generalizing lo with
  | nil => by_cases hv : v = unlisted <;> simp [memSet, memWfFrom, hv, hx]
  | cons c m ih =>
    obtain ⟨a, b⟩ := c
    obtain ⟨⟨hlo, hb⟩, hm⟩ := memWfFrom_cons.mp h
    rcases Nat.lt_trichotomy x a with hxa | rfl | hxa
    · rw [memSet_lt hxa]
      by_cases hv : v = unlisted
      · rwa [if_pos hv]
      · rw [if_neg hv]
        exact memWfFrom_cons.mpr ⟨⟨hx, hv⟩, memWfFrom_cons.mpr ⟨⟨hxa, hb⟩, hm⟩⟩
    · rw [memSet_eq]
      by_cases hv : v = unlisted
      · rw [if_pos hv]
        exact memWfFrom_mono (by omega) hm
      · rw [if_neg hv]
        exact memWfFrom_cons.mpr ⟨⟨hlo, hv⟩, hm⟩
    · rw [memSet_gt hxa]
      exact memWfFrom_cons.mpr ⟨⟨hlo, hb⟩, ih hm hxa⟩

/-! ## The canonical form -/

theorem memSet_wf {m : List Host.Cell} (h : Memory.wf m = true) (x : Nat) (v : Byte) : Memory.wf (memSet m x v) = true :=
  memSet_wfFrom h (Nat.zero_le x) v

/-- A write of bytes keeps the canonical form. -/
theorem memWrite_keeps {m : List Host.Cell} (h : Memory.wf m = true) (a : Nat) (bs : List Byte) : Memory.wf (memWrite m a bs) = true := by
  induction bs generalizing m a with
  | nil => exact h
  | cons b bs ih => exact ih (memSet_wf h a b) (a + 1)

/-- Removing cells keeps the canonical form. -/
theorem filter_wfFrom {lo : Nat} {m : List Host.Cell} (p : Host.Cell → Bool) (h : memWfFrom lo m = true) : memWfFrom lo (m.filter p) = true := by
  induction m generalizing lo with
  | nil => rfl
  | cons c m ih =>
    obtain ⟨a, b⟩ := c
    obtain ⟨hab, hm⟩ := memWfFrom_cons.mp h
    rw [List.filter_cons]
    split
    · exact memWfFrom_cons.mpr ⟨hab, ih hm⟩
    · exact memWfFrom_mono (by omega) (ih hm)

theorem filter_wf {m : List Host.Cell} (p : Host.Cell → Bool) (h : Memory.wf m = true) : Memory.wf (m.filter p) = true := filter_wfFrom p h

theorem reset_mem_wf : Memory.wf State.reset.mem = true := rfl

theorem memStore_wf {s : State} (h : Memory.wf s.mem = true) (pa : Nat) (bs : List Byte) : Memory.wf (s.memStore pa bs).mem = true :=
  memWrite_keeps h pa bs

theorem lift_wf {s : State} (h : Memory.wf s.mem = true) (r : Nat × Nat) : Memory.wf (s.lift r).mem = true := filter_wf _ h

@[simp] theorem length_memRead (m : List Host.Cell) (a n : Nat) : (memRead m a n).length = n := by
  induction n generalizing a with
  | zero => rfl
  | succ n ih => simp [memRead, ih]

@[simp] theorem length_bytesOf (n x : Nat) : (bytesOf n x).length = n := by
  induction n generalizing x with
  | zero => rfl
  | succ n ih => simp [bytesOf, ih]

/-- Reading a number back from its bytes. -/
theorem numOf_bytesOf (n x : Nat) : numOf (bytesOf n x) = x % 256 ^ n := by
  induction n generalizing x with
  | zero => simp [bytesOf, numOf, Nat.mod_one]
  | succ n ih =>
    rw [bytesOf, numOf, ih, BitVec.toNat_ofNat, Nat.pow_succ' (m := 256), Nat.mod_mul]

end Sys2Proof.Machine
end

