-- ==== Sys2Proof/Laws/Keeps.lean ====
section
/-!
SUPPORT. Sys2Proof/Laws/Keeps.lean: operations that keep what `State.inv` says: memory in its canonical form and the numbers of
contexts, paddocks, ports and domains.
-/
namespace Sys2Proof.Machine

/-- What a change of the state keeps of the invariant. -/
structure Keeps (s t : State) : Prop where
  wf : Memory.wf s.mem = true → Memory.wf t.mem = true
  ctxs : t.ctxs.length = s.ctxs.length
  paddocks : t.paddocks.length = s.paddocks.length
  ports : t.ports.length = s.ports.length
  domains : t.domains.length = s.domains.length

theorem Keeps.refl (s : State) : Keeps s s := ⟨id, rfl, rfl, rfl, rfl⟩

theorem Keeps.trans {s t u : State} (h : Keeps s t) (k : Keeps t u) : Keeps s u :=
  ⟨fun w => k.wf (h.wf w), k.ctxs.trans h.ctxs, k.paddocks.trans h.paddocks, k.ports.trans h.ports, k.domains.trans h.domains⟩

/-- A change that keeps it leaves the invariant. -/
theorem Keeps.inv {s t : State} (h : Keeps s t) (i : s.inv = true) : t.inv = true := by
  simp only [State.inv, Bool.and_eq_true, beq_iff_eq] at i ⊢
  obtain ⟨⟨⟨⟨w, c⟩, p⟩, l⟩, d⟩ := i
  exact ⟨⟨⟨⟨h.wf w, h.ctxs.trans c⟩, h.paddocks.trans p⟩, h.ports.trans l⟩, h.domains.trans d⟩

/-- A change of other fields keeps it. -/
theorem Keeps.of_eq {s t : State} (m : t.mem = s.mem) (c : t.ctxs = s.ctxs) (p : t.paddocks = s.paddocks) (l : t.ports = s.ports)
    (d : t.domains = s.domains) : Keeps s t :=
  ⟨fun w => m ▸ w, congrArg _ c, congrArg _ p, congrArg _ l, congrArg _ d⟩

/-! ## The named updates -/

theorem keeps_updTeam (s : State) (n : Nat) (f : Team → Team) : Keeps s (s.updTeam n f) := .of_eq rfl rfl rfl rfl rfl
theorem keeps_updFold (s : State) (n : Nat) (f : Fold → Fold) : Keeps s (s.updFold n f) := .of_eq rfl rfl rfl rfl rfl
theorem keeps_updJob (s : State) (n : Nat) (f : Job → Job) : Keeps s (s.updJob n f) := .of_eq rfl rfl rfl rfl rfl
theorem keeps_updOp (s : State) (n : Nat) (f : EngOp → EngOp) : Keeps s (s.updOp n f) := .of_eq rfl rfl rfl rfl rfl
theorem keeps_teamNow (s : State) (tm : Team) : Keeps s (s.teamNow tm) := .of_eq rfl rfl rfl rfl rfl
theorem keeps_updCtx (s : State) (n : Nat) (f : Ctx → Ctx) : Keeps s (s.updCtx n f) := ⟨id, length_upd .., rfl, rfl, rfl⟩
theorem keeps_updPad (s : State) (n : Nat) (f : Paddock → Paddock) : Keeps s (s.updPad n f) := ⟨id, rfl, length_upd .., rfl, rfl⟩
theorem keeps_updPort (s : State) (n : Nat) (f : Port → Port) : Keeps s (s.updPort n f) := ⟨id, rfl, rfl, length_upd .., rfl⟩
theorem keeps_addJob (s : State) (j : Job) : Keeps s (s.addJob j) := .of_eq rfl rfl rfl rfl rfl
theorem keeps_memStore (s : State) (pa : Nat) (bs : List Byte) : Keeps s (s.memStore pa bs) :=
  ⟨fun w => memStore_wf w pa bs, rfl, rfl, rfl, rfl⟩
theorem keeps_lift (s : State) (r : Nat × Nat) : Keeps s (s.lift r) := ⟨fun w => lift_wf w r, rfl, rfl, rfl, rfl⟩

theorem keeps_log (s : State) (u d e : Nat) (x y : DWord) : Keeps s (s.log u d e x y) := by
  unfold State.log
  split <;> exact .of_eq rfl rfl rfl rfl rfl

/-! ## Writes over the bus -/

theorem keeps_landWrite {s s' : State} {a b c : Nat} {x : Byte} {p : List Poison} {q r : Bool} (h : s.landWrite a b c x p q r = .ok s') :
    Keeps s s' := by
  unfold State.landWrite at h
  split at h
  · cases h
    exact .refl s
  · split at h
    · cases h
      exact .refl s
    · split at h
      · cases h
      · cases h
        exact keeps_updTeam ..

theorem keeps_landWrites (s : State) (p w o : Nat) (bs : List Byte) : Keeps s (s.landWrites p w o bs) := by
  induction bs generalizing s o with
  | nil => exact .refl s
  | cons b bs ih =>
    refine Keeps.trans ?_ (ih _ _)
    split
    · exact keeps_landWrite ‹_›
    · exact .refl s

theorem keeps_coreWrite (s : State) (c o v : Nat) : Keeps s (s.coreWrite c o v) := by
  unfold State.coreWrite
  simp only
  split
  · exact keeps_updPad ..
  · split
    · exact ⟨id, rfl, rfl, rfl, length_upd ..⟩
    · split
      · exact ⟨id, rfl, rfl, rfl, length_upd ..⟩
      · exact .refl s

theorem keeps_writeTinv0 (s : State) (v : DWord) : Keeps s (s.writeTinv0 v) := by
  unfold State.writeTinv0
  split
  · exact .refl s
  · simp only
    split <;> exact .of_eq rfl rfl rfl rfl rfl

theorem keeps_writeReplay (s : State) (v : DWord) : Keeps s (s.writeReplay v) := by
  unfold State.writeReplay
  split <;> exact .of_eq rfl rfl rfl rfl rfl

theorem keeps_portWrite (s : State) (n v : Nat) : Keeps s (s.portWrite n v) := by
  have h : Keeps s { s with ports := upd s.ports n (·.write v) } := ⟨id, rfl, rfl, length_upd .., rfl⟩
  unfold State.portWrite
  simp only
  split
  · exact h.trans (keeps_log ..)
  · exact h

theorem keeps_controlWrite (s : State) (o v : Nat) : Keeps s (s.controlWrite o v) := by
  unfold State.controlWrite
  split
  · split
    · exact keeps_portWrite ..
    · exact .refl s
  · split
    · exact keeps_writeReplay ..
    · split
      · exact .of_eq rfl rfl rfl rfl rfl
      · split
        · exact keeps_writeTinv0 ..
        · split
          · exact .of_eq rfl rfl rfl rfl rfl
          · exact .refl s

/-- A write at a physical address keeps the invariant, whatever stands there. -/
theorem keeps_busWrite (s : State) (pa : Nat) (bs : List Byte) : Keeps s (s.busWrite pa bs) := by
  unfold State.busWrite
  split
  · exact keeps_memStore ..
  · exact keeps_landWrites ..
  · exact keeps_coreWrite ..
  · exact keeps_controlWrite ..
  · exact .refl s

theorem keeps_writeRuns (s : State) (rs : List (Nat × Nat)) (bs : List Byte) : Keeps s (s.writeRuns rs bs) := by
  induction rs generalizing s bs with
  | nil => exact .refl s
  | cons r rs ih => exact (keeps_busWrite ..).trans (ih _ _)

/-! ## Blocks (R182, R340-R345) -/

theorem keeps_bumpSet (s : State) (p c va : Nat) (f : Nat → Nat) : Keeps s (s.bumpSet p c va f) := by
  unfold State.bumpSet
  split
  · exact .refl s
  · exact keeps_busWrite ..

theorem keeps_foldl {α : Type} (f : State → α → State) (h : ∀ s a, Keeps s (f s a)) (l : List α) (s : State) : Keeps s (l.foldl f s) := by
  induction l generalizing s with
  | nil => exact .refl s
  | cons a l ih => exact (h s a).trans (ih _)

theorem keeps_freshSets (s : State) (c : Nat) : Keeps s (s.freshSets c) := by
  unfold State.freshSets
  split
  · exact (keeps_updCtx ..).trans (keeps_foldl _ (fun t _ => (keeps_foldl _ (fun u _ => keeps_bumpSet ..) _ t).trans (keeps_bumpSet ..)) _ _)
  · exact .refl s

theorem keeps_chargeSet (s : State) (p c set : Nat) (l : Option Int) : Keeps s (s.chargeSet p c set l) := by
  refine (keeps_freshSets s c).trans ?_
  unfold State.chargeSet
  simp only
  split
  · exact .refl _
  · split
    · exact keeps_bumpSet ..
    · split
      · exact (((keeps_bumpSet ..).trans (keeps_bumpSet ..)).trans (keeps_bumpSet ..)).trans (keeps_bumpSet ..)
      · exact ((keeps_bumpSet ..).trans (keeps_bumpSet ..)).trans (keeps_bumpSet ..)

theorem keeps_encodeHeld (s : State) (b : DecBlock) : Keeps s (s.encodeHeld b) := by
  have h : Keeps s { s with decoded := s.decoded.filter (· != b) } := .of_eq rfl rfl rfl rfl rfl
  unfold State.encodeHeld
  simp only
  split
  · exact h.trans (keeps_writeRuns ..)
  · exact (h.trans (keeps_writeRuns ..)).trans (.of_eq rfl rfl rfl rfl rfl)

theorem keeps_chargeN (n : Nat) (s : State) (p c set : Nat) (l : Option Int) : Keeps s (State.chargeN n s p c set l) := by
  induction n generalizing s p c set l with
  | zero => exact keeps_chargeSet ..
  | succ n ih =>
    unfold State.chargeN
    refine (keeps_foldl _ (fun t b => ?_) _ s).trans (keeps_chargeSet ..)
    split
    · exact (keeps_encodeHeld t b).trans (ih ..)
    · exact .refl t

theorem keeps_charge (s : State) (p c set : Nat) (l : Option Int) : Keeps s (s.charge p c set l) := keeps_chargeN ..

theorem keeps_encodeAt (s : State) (c r e : Nat) (segs : List (Nat × Nat)) (vs : List Nat) : Keeps s (s.encodeAt c r e segs vs) :=
  (keeps_writeRuns ..).trans (keeps_charge ..)

theorem keeps_dropBlock (s : State) (b : DecBlock) : Keeps s (s.dropBlock b) := (keeps_encodeHeld s b).trans (keeps_charge ..)

theorem keeps_dropBlocks (s : State) (bs : List DecBlock) : Keeps s (s.dropBlocks bs) := by
  induction bs generalizing s with
  | nil => exact .refl s
  | cons b bs ih =>
    refine Keeps.trans ?_ (ih _)
    split
    · exact keeps_dropBlock s b
    · exact .refl s

theorem keeps_settle (s : State) (rs : List (Nat × Nat)) : Keeps s (s.settle rs) := by
  unfold State.settle
  split
  · exact .refl s
  · exact keeps_dropBlocks ..

theorem keeps_walkSettle (s : State) (p c va : Nat) : Keeps s (s.walkSettle p c va) := by
  unfold State.walkSettle
  split
  · exact .refl s
  · exact keeps_settle ..

theorem keeps_settleFor (s : State) (segs : List (Nat × Nat)) (r : Nat) : Keeps s (s.settleFor segs r) := by
  unfold State.settleFor
  split
  · exact .refl s
  · exact keeps_dropBlocks ..

theorem keeps_placeSets (s : State) (c : Nat) : Keeps s (s.placeSets c) := by
  unfold State.placeSets
  split
  · exact (keeps_settle ..).trans (keeps_freshSets ..)
  · exact .refl s

theorem keeps_curePoison (s : State) (segs : List (Nat × Nat)) : Keeps s (s.curePoison segs) := by
  unfold State.curePoison
  split
  · exact .refl s
  · exact .of_eq rfl rfl rfl rfl rfl

theorem keeps_storeBlock (s : State) (c r e : Nat) (segs : List (Nat × Nat)) (d : Bool) (es : List (Nat × Nat)) :
    Keeps s (s.storeBlock c r e segs d es) := by
  unfold State.storeBlock
  simp only
  split
  · split
    · exact ((keeps_settleFor ..).trans (keeps_curePoison ..)).trans (.of_eq rfl rfl rfl rfl rfl)
    · exact (keeps_settleFor ..).trans (.of_eq rfl rfl rfl rfl rfl)
  · exact (keeps_settleFor ..).trans (keeps_encodeAt ..)

/-! ## Translations (R433) -/

theorem keeps_tlbTake (s : State) (p c v : Nat) : Keeps s (s.tlbTake p c v) := by
  unfold State.tlbTake
  split
  · exact .refl s
  · split
    · exact .of_eq rfl rfl rfl rfl rfl
    · split
      · exact .refl s
      · exact .of_eq rfl rfl rfl rfl rfl

theorem keeps_tlbFill (s : State) (p c v : Nat) : Keeps s (s.tlbFill p c v) := by
  unfold State.tlbFill
  refine (keeps_walkSettle s p c (v * 65536)).trans (Keeps.trans ?_ ((keeps_tlbTake ..).trans (keeps_tlbTake ..)))
  split
  · exact keeps_placeSets ..
  · exact .refl _

theorem keeps_tlbFills (s : State) (p c : Nat) (vs : List Nat) : Keeps s (s.tlbFills p c vs) := by
  induction vs generalizing s with
  | nil => exact .refl s
  | cons v vs ih => exact (keeps_tlbFill s p c _).trans (ih _)

theorem keeps_keepRec (s : State) (p n h : Nat) (k : Option (List DWord)) : Keeps s (s.keepRec p n h k) := by
  cases k
  · exact .refl s
  · exact ((keeps_tlbFill ..).trans (keeps_settle ..)).trans (keeps_updFold ..)

theorem keeps_storeBlocks (s : State) (c : Nat) (r : Rec) (bs : List BlockStore) : Keeps s (s.storeBlocks c r bs) := by
  induction bs generalizing s with
  | nil => exact .refl s
  | cons b bs ih => exact (keeps_storeBlock ..).trans (ih _)

/-! ## Caches (R322-R328) -/

theorem putDirty_wf {m : List Host.Cell} (h : Memory.wf m = true) (x : L1Line) (os : List Nat) : Memory.wf (putDirty m x os) = true := by
  induction os generalizing m with
  | nil => exact h
  | cons o os ih => exact ih (memWrite_keeps h ..)

theorem keeps_writeBack (s : State) (x : L1Line) : Keeps s (s.writeBack x) := by
  unfold State.writeBack
  split
  · exact .refl s
  · exact (keeps_settle s _).trans ⟨fun w => putDirty_wf w x x.dirty, rfl, rfl, rfl, rfl⟩

theorem keeps_writeBacks (s : State) (xs : List L1Line) : Keeps s (s.writeBacks xs) := by
  induction xs generalizing s with
  | nil => exact .refl s
  | cons x xs ih => exact (keeps_writeBack s x).trans (ih _)

theorem keeps_flushCore (s : State) (c : Nat) : Keeps s (s.flushCore c) := keeps_writeBacks ..
theorem keeps_writeAll (s : State) : Keeps s s.writeAll := keeps_writeBacks ..

theorem keeps_acquire (s : State) (c : Nat) : Keeps s (s.acquire c) := by
  unfold State.acquire
  split <;> exact .of_eq rfl rfl rfl rfl rfl

theorem keeps_fenceCore (s : State) (c : Nat) : Keeps s (s.fenceCore c) := (keeps_flushCore ..).trans (keeps_acquire ..)

theorem keeps_fences (s : State) (cs : List Nat) : Keeps s (s.fences cs) := by
  induction cs generalizing s with
  | nil => exact .refl s
  | cons c cs ih => exact (keeps_fenceCore s c).trans (ih _)

theorem keeps_dropLines (s : State) (c : Nat) (ls : List Nat) : Keeps s (s.dropLines c ls) := by
  unfold State.dropLines
  simp only
  split
  · exact (keeps_writeBacks s _).trans (.of_eq rfl rfl rfl rfl rfl)
  · exact .refl s
theorem keeps_releaseBy (s : State) (tm : Team) : Keeps s (s.releaseBy tm) := (keeps_flushCore ..).trans (keeps_updFold ..)
theorem keeps_acquireOf (s : State) (t : Nat) (tm : Team) : Keeps s (s.acquireOf t tm) := (keeps_acquire ..).trans (keeps_updTeam ..)
theorem keeps_acquireBy (s : State) (tm : Team) : Keeps s (s.acquireBy tm) := keeps_acquireOf ..

theorem keeps_evictL2 (s : State) (l : Nat) : Keeps s (s.evictL2 l) := by
  refine Keeps.trans (Keeps.trans (keeps_writeBacks s (s.l1d.filter fun x => x.line / 4 == l)) ?_) (keeps_settle ..)
  exact ⟨id, by simp, rfl, rfl, rfl⟩

theorem keeps_makeRoom (s : State) (slice n fuel : Nat) : Keeps s (s.makeRoom slice n fuel) := by
  induction fuel generalizing s with
  | zero => exact .refl s
  | succ fuel ih =>
    unfold State.makeRoom
    split
    · exact .refl s
    · split
      · exact (keeps_evictL2 ..).trans (ih _)
      · exact .refl s

theorem keeps_l2Touch (s : State) (pa : Nat) (c : Bool) : Keeps s (s.l2Touch pa c) := by
  unfold State.l2Touch
  simp only
  split
  · split
    · exact .of_eq rfl rfl rfl rfl rfl
    · exact .refl s
  · split
    · exact (keeps_makeRoom ..).trans (.of_eq rfl rfl rfl rfl rfl)
    · exact keeps_makeRoom ..

theorem keeps_l2Takes (s : State) (c : Bool) (rs : List (Nat × Nat)) : Keeps s (s.l2Takes c rs) :=
  keeps_foldl _ (fun t a => keeps_l2Touch t a c) _ s

theorem keeps_l1Room (s : State) (c n : Nat) : Keeps s (s.l1Room c n) := by
  unfold State.l1Room
  simp only
  split
  · exact .refl s
  · exact (keeps_dropLines ..).trans (.of_eq rfl rfl rfl rfl rfl)

theorem keeps_dropCopies (s : State) (core : Nat) (segs : List (Nat × Nat)) : Keeps s (s.dropCopies core segs) := .of_eq rfl rfl rfl rfl rfl

theorem keeps_l1Put (s : State) (core line : Nat) (c : Bool) (f : L1Line → L1Line) : Keeps s (s.l1Put core line c f) := by
  unfold State.l1Put
  simp only
  split
  · exact (keeps_l2Touch ..).trans (.of_eq rfl rfl rfl rfl rfl)
  · refine ((keeps_l2Touch s (64 * line) c).trans (keeps_dropCopies _ core [(64 * line, 64)])).trans ?_
    split
    · exact (keeps_l1Room ..).trans (.of_eq rfl rfl rfl rfl rfl)
    · exact .refl _

theorem keeps_fillLine (s : State) (core : Nat) (c : Bool) (rs : List (Nat × Nat)) (l : Nat) : Keeps s (s.fillLine core c rs l) := by
  unfold State.fillLine
  exact keeps_l1Put ..

theorem keeps_fillLines (s : State) (core : Nat) (c : Bool) (rs : List (Nat × Nat)) (ls : List Nat) : Keeps s (s.fillLines core c rs ls) := by
  induction ls generalizing s with
  | nil => exact .refl s
  | cons l ls ih => exact (keeps_fillLine s core c rs l).trans (ih _)

theorem keeps_coreFill (s : State) (core : Nat) (c : Bool) (rs : List (Nat × Nat)) : Keeps s (s.coreFill core c rs) := keeps_fillLines ..

theorem keeps_storeLine (s : State) (core : Nat) (c th : Bool) (pa : Nat) (bs : List Byte) (l : Nat) :
    Keeps s (s.storeLine core c th pa bs l) := by
  unfold State.storeLine
  exact keeps_l1Put ..

theorem keeps_storeLines (s : State) (core : Nat) (c th : Bool) (pa : Nat) (bs : List Byte) (ls : List Nat) :
    Keeps s (s.storeLines core c th pa bs ls) := by
  induction ls generalizing s with
  | nil => exact .refl s
  | cons l ls ih => exact (keeps_storeLine s core c th pa bs l).trans (ih _)

theorem keeps_keepOld (s : State) (pa n : Nat) : Keeps s (s.keepOld pa n) := by
  unfold State.keepOld
  simp only
  split <;> exact .of_eq rfl rfl rfl rfl rfl

theorem keeps_keepOlds (s : State) (rs : List (Nat × Nat)) : Keeps s (s.keepOlds rs) := by
  induction rs generalizing s with
  | nil => exact .refl s
  | cons r rs ih => exact (keeps_keepOld ..).trans (ih _)

/-- A store by a core keeps the invariant, whether it stays in the L1 or goes through. -/
theorem keeps_coreStore (s : State) (core : Nat) (c th : Bool) (pa : Nat) (bs : List Byte) : Keeps s (s.coreStore core c th pa bs) := by
  refine (keeps_keepOld s pa bs.length).trans ?_
  unfold State.coreStore
  simp only
  split
  · refine (keeps_storeLines (s.keepOld pa bs.length) core c (th || !(linesOf [(pa, bs.length)]).all fun l =>
      (s.keepOld pa bs.length).l2May (64 * l)) pa bs (linesOf [(pa, bs.length)])).trans ?_
    split
    · exact keeps_busWrite ..
    · exact .refl _
  · exact keeps_busWrite ..

theorem keeps_coreWrites (s : State) (core : Nat) (c th : Bool) (rs : List (Nat × Nat)) (bs : List Byte) :
    Keeps s (s.coreWrites core c th rs bs) := by
  induction rs generalizing s bs with
  | nil => exact .refl s
  | cons r rs ih => exact (keeps_coreStore ..).trans (ih _ _)

theorem keeps_l1Block (s : State) (core : Nat) (segs : List (Nat × Nat)) (rate : Nat) (vs : List Nat) :
    Keeps s (s.l1Block core segs rate vs) := by
  unfold State.l1Block
  simp only
  split
  · exact .refl s
  · refine ((keeps_dropCopies s core segs).trans (keeps_l2Takes _ false segs)).trans ?_
    split
    · exact ((keeps_dropLines ..).trans (keeps_l1Room ..)).trans (.of_eq rfl rfl rfl rfl rfl)
    · exact .refl _

theorem keeps_codeTake (s : State) (core line : Nat) (ps : List (Nat × CodeAddr)) : Keeps s (s.codeTake core line ps) := by
  unfold State.codeTake
  simp only
  split
  · exact .refl s
  · split
    · split
      · exact .refl s
      · exact .of_eq rfl rfl rfl rfl rfl
    · refine ((keeps_l2Touch s (128 * line) false).trans (keeps_settle _ [(128 * line, 128)])).trans ?_
      split
      · exact .refl _
      · split
        · exact .of_eq rfl rfl rfl rfl rfl
        · split
          · exact .of_eq rfl rfl rfl rfl rfl
          · exact .refl _

theorem keeps_dropCode (s : State) (cs : List Nat) : Keeps s (s.dropCode cs) := .of_eq rfl rfl rfl rfl rfl

theorem keeps_pinLine (s : State) (core c : Nat) (e : CodeAddr) (va : Nat) : Keeps s (s.pinLine core c e va) := by
  unfold State.pinLine
  refine (keeps_walkSettle s (coreTlb core) c va).trans ?_
  simp only
  split
  · exact .refl _
  · split
    · exact keeps_codeTake ..
    · exact .refl _

theorem keeps_pinKernel (s : State) (cs : List Nat) (c : Nat) (k : Kernel) : Keeps s (s.pinKernel cs c k) :=
  keeps_foldl _ (fun t _ => keeps_foldl _ (fun u _ => keeps_pinLine u ..) _ t) _ s

theorem keeps_leaveCores (s : State) (f : Fold) : Keeps s (s.leaveCores f) := keeps_foldl _ keeps_flushCore _ s
theorem keeps_enterCores (s : State) (cs : List Nat) (c : Nat) (k : Kernel) : Keeps s (s.enterCores cs c k) :=
  ((keeps_foldl _ keeps_acquire _ s).trans (keeps_dropCode ..)).trans (keeps_pinKernel ..)

theorem keeps_unpin (s : State) : Keeps s s.unpin := by
  unfold State.unpin
  split
  · exact .refl s
  · exact .of_eq rfl rfl rfl rfl rfl

/-! ## Atomics and the pages of a fold -/

theorem keeps_atomAt (s : State) (op : AtOp) (u : Bool) (n pa v w : Nat) : Keeps s (s.atomAt op u n pa v w).2 :=
  ((keeps_settle ..).trans (keeps_keepOld ..)).trans (keeps_busWrite ..)

theorem memSets_wf {m : List Host.Cell} (h : Memory.wf m = true) (f : Nat → Nat) (cs : List Host.Cell) :
    Memory.wf (cs.foldl (fun (m : List Host.Cell) (c : Host.Cell) => memSet m (f c.1) c.2) m) = true := by
  induction cs generalizing m with
  | nil => exact h
  | cons c cs ih => exact ih (memSet_wf h ..)

/-- Pages carried from places to places keep the canonical form. -/
theorem keeps_carry (s : State) (l : List ((Nat × Nat) × (Nat × Nat))) : Keeps s (s.carry l) := by
  induction l generalizing s with
  | nil => exact .refl s
  | cons x l ih =>
    refine Keeps.trans ?_ (ih _)
    refine ((keeps_lift s x.1).trans (keeps_lift _ x.2)).trans ⟨fun w => ?_, rfl, rfl, rfl, rfl⟩
    exact memSets_wf w (fun a => a - x.1.1 + x.2.1) _

end Sys2Proof.Machine
end

