-- ==== Sys2Proof/Laws/Caches.lean ====
section
/-!
SUPPORT. Sys2Proof/Laws/Caches.lean: what accesses, releases and acquires do where no cache holds anything of theirs, so that a
proof about plain memory need not open the caches.
-/
namespace Sys2Proof.Machine

/-! ## Blocks held decoded -/

@[simp] theorem settle_none {s : State} (h : s.decoded = []) (rs : List (Nat × Nat)) : s.settle rs = s := by simp [State.settle, h]

@[simp] theorem settleFor_none {s : State} (h : s.decoded = []) (segs : List (Nat × Nat)) (r : Nat) : s.settleFor segs r = s := by
  simp [State.settleFor, h]

@[simp] theorem curePoison_mem (s : State) (segs : List (Nat × Nat)) : (s.curePoison segs).mem = s.mem := by
  unfold State.curePoison
  split <;> rfl

/-- A store of a block on a page that keeps blocks decoded leaves it in the L2, its values changed, and memory as it is (R342). -/
theorem storeBlock_held {s : State} (h : s.decoded = []) (c r e : Nat) (segs : List (Nat × Nat)) (es : List (Nat × Nat)) :
    (s.storeBlock c r e segs true es).mem = s.mem := by
  simp only [State.storeBlock, settleFor_none h, Bool.true_or, if_true]
  split
  · exact curePoison_mem ..
  · rfl

/-! ## What a core reads (R322) -/

/-- A byte of a line that the core's L1 does not hold is the home's. -/
theorem coreByte_cold {s : State} {core pa : Nat} (h : s.l1Line core (pa / 64) = none) : s.coreByte core pa = s.busByte pa := by
  simp [State.coreByte, State.l1Byte, h]

/-- What is not cached is read from its home. -/
theorem coreByte_uncached {s : State} {core pa : Nat} (h : cacheable pa = false) : s.coreByte core pa = s.busByte pa := by
  simp [State.coreByte, State.l1Byte, h]

/-- A byte that the core's L1 holds valid is read there. -/
theorem coreByte_hit {s : State} {core pa : Nat} {b : Byte} (h : s.l1Byte core pa = some b) : s.coreByte core pa = b := by
  simp [State.coreByte, h]

/-! ## Releases and acquires (R323, R354) -/

theorem writeBack_clean {s : State} {x : L1Line} (h : x.dirty.isEmpty = true) : s.writeBack x = s := by simp [State.writeBack, h]

theorem writeBacks_clean {s : State} {xs : List L1Line} (h : ∀ x ∈ xs, x.dirty.isEmpty = true) : s.writeBacks xs = s := by
  induction xs with
  | nil => rfl
  | cons x xs ih =>
    rw [State.writeBacks, writeBack_clean (h x (List.mem_cons_self ..))]
    exact ih fun y hy => h y (List.mem_cons_of_mem _ hy)

/-- Where no L1 holds a dirty byte a release writes nothing back. -/
theorem flushCore_written {s : State} (h : s.written = true) (core : Nat) : s.flushCore core = s :=
  writeBacks_clean fun _ hx => List.all_eq_true.mp h _ (List.mem_filter.mp hx).1

theorem writeAll_written {s : State} (h : s.written = true) : s.writeAll = s := writeBacks_clean fun _ hx => List.all_eq_true.mp h _ hx

/-- An acquire reads and writes no memory. -/
@[simp] theorem acquire_mem (s : State) (core : Nat) : (s.acquire core).mem = s.mem := by
  unfold State.acquire
  split <;> rfl

@[simp] theorem tidy_core (x : L1Line) : x.tidy.core = x.core := rfl
@[simp] theorem tidy_line (x : L1Line) : x.tidy.line = x.line := rfl
@[simp] theorem tidy_dirty (x : L1Line) : x.tidy.dirty = x.dirty := rfl

/-- Tidying a line makes no byte valid. -/
theorem tidy_none {x : L1Line} {o : Nat} (h : x.bytes.getD o none = none) : x.tidy.bytes.getD o none = none := by
  by_cases h64 : o < 64
  · rw [List.getD_eq_getElem?_getD] at h
    simp [L1Line.tidy, List.getD_eq_getElem?_getD, h64, h]
  · simp [L1Line.tidy, List.getD_eq_getElem?_getD, h64]

/-- After an acquire a byte that the core's L1 holds valid is one it had dirty (R323). -/
theorem acquire_line {s : State} {core : Nat} {x : L1Line} (hx : x ∈ (s.acquire core).l1d) (hc : x.core = core)
    (hs : s.l1d.isEmpty = false) : x.dirty ≠ [] ∧ ∀ o, o ∉ x.dirty → x.bytes.getD o none = none := by
  unfold State.acquire at hx
  simp only [hs, Bool.false_and, Bool.false_eq_true, if_false, List.mem_filter, List.mem_map] at hx
  obtain ⟨⟨y, -, rfl⟩, hd⟩ := hx
  by_cases hy : y.core == core
  · simp only [hy, if_true] at hd hc ⊢
    refine ⟨?_, fun o ho => ?_⟩
    · have hc' : y.core = core := hc
      simpa [hc'] using hd
    · refine tidy_none ?_
      by_cases h64 : o < 64
      · have : ¬ o ∈ y.dirty := ho
        simp [List.getD_eq_getElem?_getD, h64, this]
      · simp [List.getD_eq_getElem?_getD, h64]
  · rw [if_neg hy] at hc
    exact absurd (beq_iff_eq.mpr hc) hy

/-! ## Shearer requests that may read old bytes (R386) -/

/-- Where no shearer request is in progress a write keeps no old bytes. -/
theorem keepOld_none {s : State} (h : s.ops = []) (pa n : Nat) : s.keepOld pa n = s := by simp [State.keepOld, h]

/-- A store to what is not cached reaches its home at once. -/
theorem coreStore_uncached {s : State} (h : s.ops = []) {pa : Nat} (hc : cacheable pa = false) (core : Nat) (c th : Bool) (bs : List Byte) :
    s.coreStore core c th pa bs = s.busWrite pa bs := by simp [State.coreStore, keepOld_none h, hc]

end Sys2Proof.Machine
end

