-- ==== Sys2Proof/Laws/Encode.lean ====
section
/-!
SUPPORT. Sys2Proof/Laws/Encode.lean: what each field of a packed instruction word reads as (R90-R94).
-/
namespace Sys2Proof

@[simp] theorem packLA_op7 (op d a b : BitVec 7) (x y z : Bool) : op7 (packLA op d a b x y z) = op := by
  apply BitVec.eq_of_toNat_eq
  have := op.isLt; have := d.isLt; have := a.isLt; have := b.isLt; have := x.toNat_le; have := y.toNat_le; have := z.toNat_le
  rw [op7, packLA, wordOfNat, BitVec.extractLsb'_toNat, BitVec.toNat_ofNat, Nat.shiftRight_eq_div_pow]; omega
@[simp] theorem packLA_fD (op d a b : BitVec 7) (x y z : Bool) : fD (packLA op d a b x y z) = d := by
  apply BitVec.eq_of_toNat_eq
  have := op.isLt; have := d.isLt; have := a.isLt; have := b.isLt; have := x.toNat_le; have := y.toNat_le; have := z.toNat_le
  rw [fD, packLA, wordOfNat, BitVec.extractLsb'_toNat, BitVec.toNat_ofNat, Nat.shiftRight_eq_div_pow]; omega
@[simp] theorem packLA_fA (op d a b : BitVec 7) (x y z : Bool) : fA (packLA op d a b x y z) = a := by
  apply BitVec.eq_of_toNat_eq
  have := op.isLt; have := d.isLt; have := a.isLt; have := b.isLt; have := x.toNat_le; have := y.toNat_le; have := z.toNat_le
  rw [fA, packLA, wordOfNat, BitVec.extractLsb'_toNat, BitVec.toNat_ofNat, Nat.shiftRight_eq_div_pow]; omega
@[simp] theorem packLA_fB (op d a b : BitVec 7) (x y z : Bool) : fB (packLA op d a b x y z) = b := by
  apply BitVec.eq_of_toNat_eq
  have := op.isLt; have := d.isLt; have := a.isLt; have := b.isLt; have := x.toNat_le; have := y.toNat_le; have := z.toNat_le
  rw [fB, packLA, wordOfNat, BitVec.extractLsb'_toNat, BitVec.toNat_ofNat, Nat.shiftRight_eq_div_pow]; omega
@[simp] theorem packLA_b2 (op d a b : BitVec 7) (x y z : Bool) : b2 (packLA op d a b x y z) = x := by
  have := op.isLt; have := d.isLt; have := a.isLt; have := b.isLt; have := x.toNat_le; have := y.toNat_le; have := z.toNat_le
  rw [b2, packLA, wordOfNat, BitVec.getLsbD, BitVec.toNat_ofNat, Nat.testBit_eq_decide_div_mod_eq]
  cases x <;> simp <;> omega
@[simp] theorem packLA_b1 (op d a b : BitVec 7) (x y z : Bool) : b1 (packLA op d a b x y z) = y := by
  have := op.isLt; have := d.isLt; have := a.isLt; have := b.isLt; have := x.toNat_le; have := y.toNat_le; have := z.toNat_le
  rw [b1, packLA, wordOfNat, BitVec.getLsbD, BitVec.toNat_ofNat, Nat.testBit_eq_decide_div_mod_eq]
  cases y <;> simp <;> omega
@[simp] theorem packLA_b0 (op d a b : BitVec 7) (x y z : Bool) : b0 (packLA op d a b x y z) = z := by
  have := op.isLt; have := d.isLt; have := a.isLt; have := b.isLt; have := x.toNat_le; have := y.toNat_le; have := z.toNat_le
  rw [b0, packLA, wordOfNat, BitVec.getLsbD, BitVec.toNat_ofNat, Nat.testBit_eq_decide_div_mod_eq]
  cases z <;> simp <;> omega
@[simp] theorem packLA_isG (op d a b : BitVec 7) (x y z : Bool) : isG (packLA op d a b x y z) = false := by
  have := op.isLt; have := d.isLt; have := a.isLt; have := b.isLt; have := x.toNat_le; have := y.toNat_le; have := z.toNat_le
  rw [isG, packLA, wordOfNat, BitVec.getLsbD, BitVec.toNat_ofNat, Nat.testBit_eq_decide_div_mod_eq]
  simp; omega

@[simp] theorem packLI_op7 (op d a : BitVec 7) (wa k : Bool) (i : BitVec 8) : op7 (packLI op d a wa k i) = op := by
  apply BitVec.eq_of_toNat_eq
  have := op.isLt; have := d.isLt; have := a.isLt; have := i.isLt; have := wa.toNat_le; have := k.toNat_le
  rw [op7, packLI, wordOfNat, BitVec.extractLsb'_toNat, BitVec.toNat_ofNat, Nat.shiftRight_eq_div_pow]; omega
@[simp] theorem packLI_fD (op d a : BitVec 7) (wa k : Bool) (i : BitVec 8) : fD (packLI op d a wa k i) = d := by
  apply BitVec.eq_of_toNat_eq
  have := op.isLt; have := d.isLt; have := a.isLt; have := i.isLt; have := wa.toNat_le; have := k.toNat_le
  rw [fD, packLI, wordOfNat, BitVec.extractLsb'_toNat, BitVec.toNat_ofNat, Nat.shiftRight_eq_div_pow]; omega
@[simp] theorem packLI_fA (op d a : BitVec 7) (wa k : Bool) (i : BitVec 8) : fA (packLI op d a wa k i) = a := by
  apply BitVec.eq_of_toNat_eq
  have := op.isLt; have := d.isLt; have := a.isLt; have := i.isLt; have := wa.toNat_le; have := k.toNat_le
  rw [fA, packLI, wordOfNat, BitVec.extractLsb'_toNat, BitVec.toNat_ofNat, Nat.shiftRight_eq_div_pow]; omega
@[simp] theorem packLI_isG (op d a : BitVec 7) (wa k : Bool) (i : BitVec 8) : isG (packLI op d a wa k i) = false := by
  have := op.isLt; have := d.isLt; have := a.isLt; have := i.isLt; have := wa.toNat_le; have := k.toNat_le
  rw [isG, packLI, wordOfNat, BitVec.getLsbD, BitVec.toNat_ofNat, Nat.testBit_eq_decide_div_mod_eq]
  simp; omega

@[simp] theorem packG_op7 (op : BitVec 7) (q : BitVec 3) (d a b : BitVec 7) : op7 (packG op q d a b) = op := by
  apply BitVec.eq_of_toNat_eq
  have := op.isLt; have := q.isLt; have := d.isLt; have := a.isLt; have := b.isLt
  rw [op7, packG, packHi, wordOfNat, BitVec.extractLsb'_toNat, BitVec.toNat_ofNat, Nat.shiftRight_eq_div_pow]; omega
@[simp] theorem packG_gQ (op : BitVec 7) (q : BitVec 3) (d a b : BitVec 7) : gQ (packG op q d a b) = q := by
  apply BitVec.eq_of_toNat_eq
  have := op.isLt; have := q.isLt; have := d.isLt; have := a.isLt; have := b.isLt
  rw [gQ, packG, packHi, wordOfNat, BitVec.extractLsb'_toNat, BitVec.toNat_ofNat, Nat.shiftRight_eq_div_pow]; omega
@[simp] theorem packG_gD (op : BitVec 7) (q : BitVec 3) (d a b : BitVec 7) : gD (packG op q d a b) = d := by
  apply BitVec.eq_of_toNat_eq
  have := op.isLt; have := q.isLt; have := d.isLt; have := a.isLt; have := b.isLt
  rw [gD, packG, packHi, wordOfNat, BitVec.extractLsb'_toNat, BitVec.toNat_ofNat, Nat.shiftRight_eq_div_pow]; omega
@[simp] theorem packG_gA (op : BitVec 7) (q : BitVec 3) (d a b : BitVec 7) : gA (packG op q d a b) = a := by
  apply BitVec.eq_of_toNat_eq
  have := op.isLt; have := q.isLt; have := d.isLt; have := a.isLt; have := b.isLt
  rw [gA, packG, packHi, wordOfNat, BitVec.extractLsb'_toNat, BitVec.toNat_ofNat, Nat.shiftRight_eq_div_pow]; omega
@[simp] theorem packG_gB (op : BitVec 7) (q : BitVec 3) (d a b : BitVec 7) : gB (packG op q d a b) = b := by
  apply BitVec.eq_of_toNat_eq
  have := op.isLt; have := q.isLt; have := d.isLt; have := a.isLt; have := b.isLt
  rw [gB, packG, packHi, wordOfNat, BitVec.extractLsb'_toNat, BitVec.toNat_ofNat, Nat.shiftRight_eq_div_pow]; omega
@[simp] theorem packG_isG (op : BitVec 7) (q : BitVec 3) (d a b : BitVec 7) : isG (packG op q d a b) = true := by
  have := op.isLt; have := q.isLt; have := d.isLt; have := a.isLt; have := b.isLt
  rw [isG, packG, packHi, wordOfNat, BitVec.getLsbD, BitVec.toNat_ofNat, Nat.testBit_eq_decide_div_mod_eq]
  simp; omega

@[simp] theorem packGK_op7 (op : BitVec 7) (q : BitVec 3) (d : BitVec 7) (i : BitVec 14) : op7 (packGK op q d i) = op := by
  apply BitVec.eq_of_toNat_eq
  have := op.isLt; have := q.isLt; have := d.isLt; have := i.isLt
  rw [op7, packGK, packHi, wordOfNat, BitVec.extractLsb'_toNat, BitVec.toNat_ofNat, Nat.shiftRight_eq_div_pow]; omega
@[simp] theorem packGK_gQ (op : BitVec 7) (q : BitVec 3) (d : BitVec 7) (i : BitVec 14) : gQ (packGK op q d i) = q := by
  apply BitVec.eq_of_toNat_eq
  have := op.isLt; have := q.isLt; have := d.isLt; have := i.isLt
  rw [gQ, packGK, packHi, wordOfNat, BitVec.extractLsb'_toNat, BitVec.toNat_ofNat, Nat.shiftRight_eq_div_pow]; omega
@[simp] theorem packGK_gD (op : BitVec 7) (q : BitVec 3) (d : BitVec 7) (i : BitVec 14) : gD (packGK op q d i) = d := by
  apply BitVec.eq_of_toNat_eq
  have := op.isLt; have := q.isLt; have := d.isLt; have := i.isLt
  rw [gD, packGK, packHi, wordOfNat, BitVec.extractLsb'_toNat, BitVec.toNat_ofNat, Nat.shiftRight_eq_div_pow]; omega
@[simp] theorem packGK_gK (op : BitVec 7) (q : BitVec 3) (d : BitVec 7) (i : BitVec 14) : gK (packGK op q d i) = i := by
  apply BitVec.eq_of_toNat_eq
  have := op.isLt; have := q.isLt; have := d.isLt; have := i.isLt
  rw [gK, packGK, packHi, wordOfNat, BitVec.extractLsb'_toNat, BitVec.toNat_ofNat, Nat.shiftRight_eq_div_pow]; omega
@[simp] theorem packGK_isG (op : BitVec 7) (q : BitVec 3) (d : BitVec 7) (i : BitVec 14) : isG (packGK op q d i) = true := by
  have := op.isLt; have := q.isLt; have := d.isLt; have := i.isLt
  rw [isG, packGK, packHi, wordOfNat, BitVec.getLsbD, BitVec.toNat_ofNat, Nat.testBit_eq_decide_div_mod_eq]
  simp; omega

@[simp] theorem packGW_op7 (op : BitVec 7) (q : BitVec 3) (g : BitVec 10) (c : BitVec 3) (f : BitVec 8) : op7 (packGW op q g c f) = op := by
  apply BitVec.eq_of_toNat_eq
  have := op.isLt; have := q.isLt; have := g.isLt; have := c.isLt; have := f.isLt
  rw [op7, packGW, packHi, wordOfNat, BitVec.extractLsb'_toNat, BitVec.toNat_ofNat, Nat.shiftRight_eq_div_pow]; omega
@[simp] theorem packGW_gQ (op : BitVec 7) (q : BitVec 3) (g : BitVec 10) (c : BitVec 3) (f : BitVec 8) : gQ (packGW op q g c f) = q := by
  apply BitVec.eq_of_toNat_eq
  have := op.isLt; have := q.isLt; have := g.isLt; have := c.isLt; have := f.isLt
  rw [gQ, packGW, packHi, wordOfNat, BitVec.extractLsb'_toNat, BitVec.toNat_ofNat, Nat.shiftRight_eq_div_pow]; omega
@[simp] theorem packGW_gW (op : BitVec 7) (q : BitVec 3) (g : BitVec 10) (c : BitVec 3) (f : BitVec 8) : gW (packGW op q g c f) = g := by
  apply BitVec.eq_of_toNat_eq
  have := op.isLt; have := q.isLt; have := g.isLt; have := c.isLt; have := f.isLt
  rw [gW, packGW, packHi, wordOfNat, BitVec.extractLsb'_toNat, BitVec.toNat_ofNat, Nat.shiftRight_eq_div_pow]; omega
@[simp] theorem packGW_gC (op : BitVec 7) (q : BitVec 3) (g : BitVec 10) (c : BitVec 3) (f : BitVec 8) : gC (packGW op q g c f) = c := by
  apply BitVec.eq_of_toNat_eq
  have := op.isLt; have := q.isLt; have := g.isLt; have := c.isLt; have := f.isLt
  rw [gC, packGW, packHi, wordOfNat, BitVec.extractLsb'_toNat, BitVec.toNat_ofNat, Nat.shiftRight_eq_div_pow]; omega
@[simp] theorem packGW_gF (op : BitVec 7) (q : BitVec 3) (g : BitVec 10) (c : BitVec 3) (f : BitVec 8) : gF (packGW op q g c f) = f := by
  apply BitVec.eq_of_toNat_eq
  have := op.isLt; have := q.isLt; have := g.isLt; have := c.isLt; have := f.isLt
  rw [gF, packGW, packHi, wordOfNat, BitVec.extractLsb'_toNat, BitVec.toNat_ofNat, Nat.shiftRight_eq_div_pow]; omega
@[simp] theorem packGW_isG (op : BitVec 7) (q : BitVec 3) (g : BitVec 10) (c : BitVec 3) (f : BitVec 8) : isG (packGW op q g c f) = true := by
  have := op.isLt; have := q.isLt; have := g.isLt; have := c.isLt; have := f.isLt
  rw [isG, packGW, packHi, wordOfNat, BitVec.getLsbD, BitVec.toNat_ofNat, Nat.testBit_eq_decide_div_mod_eq]
  simp; omega

@[simp] theorem packGmov_op7 (op : BitVec 7) (q : BitVec 3) (d s : BitVec 10) : op7 (packGmov op q d s) = op := by
  apply BitVec.eq_of_toNat_eq
  have := op.isLt; have := q.isLt; have := d.isLt; have := s.isLt
  rw [op7, packGmov, packHi, wordOfNat, BitVec.extractLsb'_toNat, BitVec.toNat_ofNat, Nat.shiftRight_eq_div_pow]; omega
@[simp] theorem packGmov_gQ (op : BitVec 7) (q : BitVec 3) (d s : BitVec 10) : gQ (packGmov op q d s) = q := by
  apply BitVec.eq_of_toNat_eq
  have := op.isLt; have := q.isLt; have := d.isLt; have := s.isLt
  rw [gQ, packGmov, packHi, wordOfNat, BitVec.extractLsb'_toNat, BitVec.toNat_ofNat, Nat.shiftRight_eq_div_pow]; omega
@[simp] theorem packGmov_gW (op : BitVec 7) (q : BitVec 3) (d s : BitVec 10) : gW (packGmov op q d s) = d := by
  apply BitVec.eq_of_toNat_eq
  have := op.isLt; have := q.isLt; have := d.isLt; have := s.isLt
  rw [gW, packGmov, packHi, wordOfNat, BitVec.extractLsb'_toNat, BitVec.toNat_ofNat, Nat.shiftRight_eq_div_pow]; omega
@[simp] theorem packGmov_gS (op : BitVec 7) (q : BitVec 3) (d s : BitVec 10) : gS (packGmov op q d s) = s := by
  apply BitVec.eq_of_toNat_eq
  have := op.isLt; have := q.isLt; have := d.isLt; have := s.isLt
  rw [gS, packGmov, packHi, wordOfNat, BitVec.extractLsb'_toNat, BitVec.toNat_ofNat, Nat.shiftRight_eq_div_pow]; omega
@[simp] theorem packGmov_isG (op : BitVec 7) (q : BitVec 3) (d s : BitVec 10) : isG (packGmov op q d s) = true := by
  have := op.isLt; have := q.isLt; have := d.isLt; have := s.isLt
  rw [isG, packGmov, packHi, wordOfNat, BitVec.getLsbD, BitVec.toNat_ofNat, Nat.testBit_eq_decide_div_mod_eq]
  simp; omega
@[simp] theorem packGmov_b0 (op : BitVec 7) (q : BitVec 3) (d s : BitVec 10) : b0 (packGmov op q d s) = false := by
  have := op.isLt; have := q.isLt; have := d.isLt; have := s.isLt
  rw [b0, packGmov, packHi, wordOfNat, BitVec.getLsbD, BitVec.toNat_ofNat, Nat.testBit_eq_decide_div_mod_eq]
  simp; omega

@[simp] theorem packTgt_op7 (op : BitVec 7) (q : BitVec 3) (s : BitVec 2) (c : BitVec 4) (a : BitVec 7) : op7 (packTgt op q s c a) = op := by
  apply BitVec.eq_of_toNat_eq
  have := op.isLt; have := q.isLt; have := s.isLt; have := c.isLt; have := a.isLt
  rw [op7, packTgt, packHi, wordOfNat, BitVec.extractLsb'_toNat, BitVec.toNat_ofNat, Nat.shiftRight_eq_div_pow]; omega
@[simp] theorem packTgt_gQ (op : BitVec 7) (q : BitVec 3) (s : BitVec 2) (c : BitVec 4) (a : BitVec 7) : gQ (packTgt op q s c a) = q := by
  apply BitVec.eq_of_toNat_eq
  have := op.isLt; have := q.isLt; have := s.isLt; have := c.isLt; have := a.isLt
  rw [gQ, packTgt, packHi, wordOfNat, BitVec.extractLsb'_toNat, BitVec.toNat_ofNat, Nat.shiftRight_eq_div_pow]; omega
@[simp] theorem packTgt_gA (op : BitVec 7) (q : BitVec 3) (s : BitVec 2) (c : BitVec 4) (a : BitVec 7) : gA (packTgt op q s c a) = a := by
  apply BitVec.eq_of_toNat_eq
  have := op.isLt; have := q.isLt; have := s.isLt; have := c.isLt; have := a.isLt
  rw [gA, packTgt, packHi, wordOfNat, BitVec.extractLsb'_toNat, BitVec.toNat_ofNat, Nat.shiftRight_eq_div_pow]; omega
@[simp] theorem packTgt_isG (op : BitVec 7) (q : BitVec 3) (s : BitVec 2) (c : BitVec 4) (a : BitVec 7) : isG (packTgt op q s c a) = true := by
  have := op.isLt; have := q.isLt; have := s.isLt; have := c.isLt; have := a.isLt
  rw [isG, packTgt, packHi, wordOfNat, BitVec.getLsbD, BitVec.toNat_ofNat, Nat.testBit_eq_decide_div_mod_eq]
  simp; omega

end Sys2Proof
end

