-- ==== Sys2Proof/Laws/Steps.lean ====
section
/-!
SUPPORT. Sys2Proof/Laws/Steps.lean: what a step of the team that issues, of its fold and of another agent can do, what a trap, a wait and the
next address leave in the team, and what an instruction of the part's step runs.
-/
namespace Sys2Proof.Machine

/-! ## Steps of the team that issues -/

/-- A team that runs takes its step. -/
theorem teamStep_next {s : State} {tm : Team} (h : Issues s tm) (f : Env → Team → Team) :
    teamStep s f = .next (s.teamNow (f (s.env s.cur tm) tm)) := by
  simp [teamStep, h.1, h.2, State.teamNow]

/-- All that a step of the team can do: nothing, where no team runs, or change that team. -/
theorem teamStep_cases {s t : State} {f : Env → Team → Team} (h : teamStep s f = .next t) :
    t = s ∨ ∃ tm, Issues s tm ∧ t = s.teamNow (f (s.env s.cur tm) tm) := by
  unfold teamStep at h
  split at h
  · rename_i tm htm
    split at h
    · exact .inr ⟨tm, ⟨htm, eq_of_beq ‹_›⟩, (Host.Outcome.next.inj h).symm⟩
    · exact .inl (Host.Outcome.next.inj h).symm
  · exact .inl (Host.Outcome.next.inj h).symm

theorem teamStep_answers (s : State) (f : Env → Team → Team) : ∃ t, teamStep s f = .next t := by
  unfold teamStep
  split
  · split <;> exact ⟨_, rfl⟩
  · exact ⟨_, rfl⟩

theorem teamStep_keeps {s t : State} {f : Env → Team → Team} (h : teamStep s f = .next t) : Keeps s t := by
  obtain rfl | ⟨tm, -, rfl⟩ := teamStep_cases h
  · exact .refl _
  · exact keeps_teamNow ..

/-- A team that runs in a fold takes its step. -/
theorem foldStep_next {s : State} {fd : Fold} {tm : Team} (h : IssuesIn s fd tm) (f : Env → Fold → Team → Out1) :
    foldStep s f = f (s.env s.cur tm) fd tm := by
  simp [foldStep, h.1.1, h.1.2, h.2]

/-- All that a step of the team with its fold can do. -/
theorem foldStep_cases {s t : State} {f : Env → Fold → Team → Out1} (h : foldStep s f = .next t) :
    t = s ∨ ∃ fd tm, IssuesIn s fd tm ∧ f (s.env s.cur tm) fd tm = .next t := by
  unfold foldStep at h
  split at h
  · rename_i tm htm
    split at h
    · split at h
      · exact .inr ⟨_, tm, ⟨⟨htm, eq_of_beq ‹_›⟩, ‹_›⟩, h⟩
      · exact .inl (Host.Outcome.next.inj h).symm
    · exact .inl (Host.Outcome.next.inj h).symm
  · exact .inl (Host.Outcome.next.inj h).symm

theorem foldStep_keeps {s t : State} {f : Env → Fold → Team → Out1} (h : foldStep s f = .next t)
    (hf : ∀ e fd tm t, f e fd tm = .next t → Keeps s t) : Keeps s t := by
  obtain rfl | ⟨fd, tm, -, hx⟩ := foldStep_cases h
  · exact .refl _
  · exact hf _ _ _ _ hx

/-- A step of another agent counts itself and keeps what its change keeps. -/
theorem moved_keeps {s s' t : State} (k : Keeps s s') (h : moved s' = .next t) : Keeps s t := by
  cases h
  exact k.trans (.of_eq rfl rfl rfl rfl rfl)

theorem stepped_keeps {s s' t : State} {tm : Team} (k : Keeps s s') (h : stepped s' tm = .next t) : Keeps s t := by
  cases h
  exact k.trans (.of_eq rfl rfl rfl rfl rfl)

/-! ## Lane and group instructions on registers -/

/-- A lane instruction of the team that issues: it waits, traps, or writes its registers and goes on. -/
theorem laneStep_cases (tm : Team) (e : Env) (len : Nat) (op : LaneOp) :
    (∃ w, tm.laneIssue e op = .wait w ∧ tm.laneStep e len op = tm.block e w) ∨
    (∃ t, tm.laneIssue e op = .trap t ∧ tm.laneStep e len op = tm.trap e t len none) ∨
    (∃ ws fx, tm.laneIssue e op = .go (ws, fx) ∧ tm.laneStep e len op =
      (({ tm.results e.overlap ws [] false with fx := tm.fx ||| fx }).goto (tm.pc.toNat + len)).retired e) := by
  unfold Team.laneStep
  split
  · exact .inl ⟨_, ‹_›, rfl⟩
  · exact .inr (.inl ⟨_, ‹_›, rfl⟩)
  · exact .inr (.inr ⟨_, _, ‹_›, rfl⟩)

/-- A group instruction on registers: it waits, traps, or completes with its writes and flags. -/
theorem groupStep_cases (tm : Team) (e : Env) (len : Nat) (sq : BitVec 3) (op : GroupOp) :
    (∃ w, tm.groupCheck op.unis op.vecs op.dsts op.typed = .wait w ∧ tm.groupStep e len sq op = tm.block e w) ∨
    (∃ t, tm.groupCheck op.unis op.vecs op.dsts op.typed = .trap t ∧ tm.groupStep e len sq op = tm.trap e t len (some sq)) ∨
    (∃ o, tm.groupCheck op.unis op.vecs op.dsts op.typed = .go o ∧ (let r := op.sem tm.w o.vals o.us
      (op.fxt = true ∧ (fmtEnv tm.fmt).fxt = true ∧ r.fx.getLsbD 0 = true ∧
        tm.groupStep e len sq op = tm.trap e { Trap.of 0x1D with fx := r.fx } len (some sq)) ∨
      tm.groupStep e len sq op = tm.groupDone e len sq (List.zipWith (fun d v => .uni d v) o.dsts r.vals) r.flags r.fx)) := by
  unfold Team.groupStep
  split
  · exact .inl ⟨_, ‹_›, rfl⟩
  · exact .inr (.inl ⟨_, ‹_›, rfl⟩)
  · refine .inr (.inr ⟨_, ‹_›, ?_⟩)
    simp only
    split
    · rename_i h
      simp only [Bool.and_eq_true] at h
      exact .inl ⟨h.1.1, h.1.2, h.2, rfl⟩
    · exact .inr rfl

/-- An instruction with effects beyond the team retires with them, or its SEQ traps and they are discarded (log entry 13). -/
theorem groupEnd_cases (s s' : State) (e : Env) (tm tm' : Team) (len : Nat) (sq : BitVec 3) :
    (∃ t, tm'.seq e sq tm'.flags (tm.pc.toNat + len) = .error t ∧ groupEnd s s' e tm tm' len sq = stepped s (tm.trap e t len (some sq))) ∨
    (∃ t, tm'.seq e sq tm'.flags (tm.pc.toNat + len) = .ok t ∧ groupEnd s s' e tm tm' len sq = stepped s' (t.retired e)) := by
  unfold groupEnd
  split
  · exact .inl ⟨_, ‹_›, rfl⟩
  · exact .inr ⟨_, ‹_›, rfl⟩

theorem groupEnd_keeps {s s' t : State} {e : Env} {tm tm' : Team} {len : Nat} {sq : BitVec 3} (k : Keeps s s')
    (h : groupEnd s s' e tm tm' len sq = .next t) : Keeps s t := by
  rcases groupEnd_cases s s' e tm tm' len sq with ⟨_, -, hx⟩ | ⟨_, -, hx⟩ <;> rw [hx] at h
  · exact stepped_keeps (.refl s) h
  · exact stepped_keeps k h

theorem laneExec_next {s : State} {tm : Team} (h : Issues s tm) (len : Nat) (op : Team → LaneOp) :
    laneExec len op s = .next (s.teamNow (tm.laneStep (s.env s.cur tm) len (op tm))) := teamStep_next h _

theorem groupExec_next {s : State} {tm : Team} (h : Issues s tm) (len : Nat) (sq : BitVec 3) (op : Team → GroupOp) :
    groupExec len sq op s = .next (s.teamNow (tm.groupStep (s.env s.cur tm) len sq (op tm))) := teamStep_next h _

/-! ## What a trap, a wait and the next address leave (R57, R113, R410) -/

@[simp] theorem Team.trap_status (tm : Team) (e : Env) (t : Trap) (n : Nat) (q : Option (BitVec 3)) : (tm.trap e t n q).status = .stopped := rfl
@[simp] theorem Team.trap_pc (tm : Team) (e : Env) (t : Trap) (n : Nat) (q : Option (BitVec 3)) : (tm.trap e t n q).pc = tm.pc := rfl
@[simp] theorem Team.trap_vregs (tm : Team) (e : Env) (t : Trap) (n : Nat) (q : Option (BitVec 3)) : (tm.trap e t n q).vregs = tm.vregs := rfl
@[simp] theorem Team.trap_uregs (tm : Team) (e : Env) (t : Trap) (n : Nat) (q : Option (BitVec 3)) : (tm.trap e t n q).uregs = tm.uregs := rfl
@[simp] theorem Team.trap_flags (tm : Team) (e : Env) (t : Trap) (n : Nat) (q : Option (BitVec 3)) : (tm.trap e t n q).flags = tm.flags := rfl
@[simp] theorem Team.trap_fx (tm : Team) (e : Env) (t : Trap) (n : Nat) (q : Option (BitVec 3)) : (tm.trap e t n q).fx = tm.fx ||| t.fx := rfl
@[simp] theorem Team.trap_cc (tm : Team) (e : Env) (t : Trap) (n : Nat) (q : Option (BitVec 3)) : (tm.trap e t n q).cc = tm.cc := rfl
/-- The stop of a trap names its cause and the address of the instruction. -/
theorem Team.trap_stop (tm : Team) (e : Env) (t : Trap) (n : Nat) (q : Option (BitVec 3)) :
    ∃ st, (tm.trap e t n q).stop = some st ∧ st.cause = t.cause ∧ st.sub = t.sub ∧ st.detail = t.detail ∧ st.pc = tm.pc ∧
      st.kind = 0 ∧ st.was = tm.status ∧ st.seqno = none := ⟨_, rfl, rfl, rfl, rfl, rfl, rfl, rfl, rfl⟩

@[simp] theorem Team.block_pc (tm : Team) (e : Env) (w : Wait) : (tm.block e w).pc = tm.pc := rfl
@[simp] theorem Team.block_vregs (tm : Team) (e : Env) (w : Wait) : (tm.block e w).vregs = tm.vregs := rfl
@[simp] theorem Team.block_uregs (tm : Team) (e : Env) (w : Wait) : (tm.block e w).uregs = tm.uregs := rfl
@[simp] theorem Team.block_status (tm : Team) (e : Env) (w : Wait) : (tm.block e w).status = tm.status := rfl
@[simp] theorem Team.block_wait (tm : Team) (e : Env) (w : Wait) : (tm.block e w).wait = w := rfl

@[simp] theorem Team.goto_pc (tm : Team) (a : Nat) : (tm.goto a).pc = BitVec.ofNat 48 a := rfl
@[simp] theorem Team.goto_lastPc (tm : Team) (a : Nat) : (tm.goto a).lastPc = tm.pc := rfl
@[simp] theorem Team.goto_vregs (tm : Team) (a : Nat) : (tm.goto a).vregs = tm.vregs := rfl
@[simp] theorem Team.goto_uregs (tm : Team) (a : Nat) : (tm.goto a).uregs = tm.uregs := rfl
@[simp] theorem Team.goto_flags (tm : Team) (a : Nat) : (tm.goto a).flags = tm.flags := rfl
@[simp] theorem Team.goto_fx (tm : Team) (a : Nat) : (tm.goto a).fx = tm.fx := rfl
@[simp] theorem Team.goto_fmt (tm : Team) (a : Nat) : (tm.goto a).fmt = tm.fmt := rfl
@[simp] theorem Team.goto_status (tm : Team) (a : Nat) : (tm.goto a).status = tm.status := rfl

/-- A team at which no halt has arrived, of a fold neither halted nor a victim, issues on (R410). -/
theorem Team.skids_eq (tm : Team) (e : Env) (hh : tm.halt = none) (hf : e.halted = false) (hv : e.victim = false) : tm.skids e = tm := by
  simp [Team.skids, hh, hf, hv]

/-- An instruction has retired: without single step and with no halt under way only the waiting ends and the issue is dated. -/
theorem Team.retired_eq (tm : Team) (e : Env) (h : tm.stepOne = false) (hh : tm.halt = none) (hf : e.halted = false)
    (hv : e.victim = false) : tm.retired e = { tm with wait := .none, blocked := 0, lastIssue := e.moves + 1 } := by
  simp [Team.retired, Team.issued, h, Team.skids, hh, hf, hv]

/-- A halt arrives: the team stops at once where it may issue nothing more, else it may issue so many instructions, 64 at most
(R410). -/
theorem Team.haltArrives_cases (tm : Team) (e : Env) (n : Nat) :
    (n = 0 ∧ tm.haltArrives e n = tm.trapAt e (.of e.haltCause) 1 tm.pc tm.origin [] 0 none) ∨
    (n ≠ 0 ∧ tm.haltArrives e n = { tm with halt := some (e.haltCause, min n 64, 0), before := 0 }) := by
  unfold Team.haltArrives
  by_cases h : n = 0 <;> simp [h]

/-- A jump goes to its target inside the extent and traps with cause 0x0C outside it (R57). -/
theorem Team.jump_cases (tm : Team) (e : Env) (a : Nat) :
    (tm.inExtent e a = true ∧ tm.jump e a = .ok (tm.goto a)) ∨ (tm.inExtent e a = false ∧ tm.jump e a = .error (.sub' 0x0C 0)) := by
  unfold Team.jump
  split
  · exact .inl ⟨‹_›, rfl⟩
  · exact .inr ⟨Bool.eq_false_iff.mpr ‹_›, rfl⟩

/-- Where a SEQ fits the instruction completes. -/
theorem seqDone_of_fits {tm w : Team} {e : Env} {sq : BitVec 3} (len : Nat) (h : SeqFits w e sq) : ∃ t, seqDone tm w e len sq = some t := by
  suffices h : ∃ t, w.seq e sq w.flags (tm.pc.toNat + len) = .ok t by
    obtain ⟨t, ht⟩ := h
    exact ⟨t.retired e, by simp [seqDone, ht]⟩
  obtain rfl | ⟨rfl, ha⟩ | ⟨rfl, a, rest, ha, hx⟩ | ⟨rfl, a, rest, ha, hx⟩ | ⟨h1, h4, x, ha, hx⟩ := h
  · exact ⟨_, rfl⟩
  · exact ⟨_, by simp [Team.seq, ha]; rfl⟩
  · refine ⟨({ w with arms := rest, fmt := a.fmt } : Team).goto a.addr.toNat, ?_⟩
    simp only [Team.seq, BitVec.toNat_ofNat, ha]
    exact if_pos hx
  · refine ⟨({ w with calls := rest } : Team).goto a.toNat, ?_⟩
    simp only [Team.seq, BitVec.toNat_ofNat, ha]
    exact if_pos hx
  · have hs : sq = 1#3 ∨ sq = 2#3 ∨ sq = 3#3 ∨ sq = 4#3 :=
      (by decide : ∀ q : BitVec 3, 1#3 ≤ q → q ≤ 4#3 → q = 1#3 ∨ q = 2#3 ∨ q = 3#3 ∨ q = 4#3) sq h1 h4
    by_cases hc : w.flags.holds x.cond = true
    · refine ⟨w.goto x.addr.toNat, ?_⟩
      obtain rfl | rfl | rfl | rfl := hs <;> simp_all [Team.seq, Team.jump]
    · refine ⟨w.goto (tm.pc.toNat + len), ?_⟩
      obtain rfl | rfl | rfl | rfl := hs <;> simp_all [Team.seq]

/-- An instruction that answers `t` wherever its SEQ does not trap completes with it. -/
theorem Completes.of {i : Instr} {s t : State} {tm w : Team} {len : Nat} {sq : BitVec 3}
    (h : ∀ tm', seqDone tm w (s.env s.cur tm) len sq = some tm' → exec i s = .next (t.teamNow tm')) : Completes i s tm len sq t w :=
  ⟨fun f => (seqDone_of_fits len f).imp fun _ ht => ⟨ht, h _ ht⟩, h⟩

/-! ## Calls of the resident OS (R479) -/

theorem caller_unasked {s : State} (h : s.unasked = true) (k : Nat) (args : List Nat) : s.caller k args = none := by
  simp only [State.caller, List.findIdx?_eq_none_iff]
  intro r hr
  have := List.all_eq_true.1 h r hr
  simp_all [State.askedFor]

theorem misasks_unasked {s : State} (h : s.unasked = true) (k : Nat) : s.fnRings.findIdx? (s.misasks k) = none := by
  simp only [List.findIdx?_eq_none_iff]
  intro r hr
  have := List.all_eq_true.1 h r hr
  simp_all [State.misasks]

/-- Where no request stands in a ring, a call is an `ecall`. -/
theorem osCall_ecall {s : State} (hb : s.bring = 7) (h : s.unasked = true) (k : Nat) (args : List Nat) (o : Option Nat) (f : State → Out1) :
    osCall k args o f s = f s := by simp [osCall, State.osRuns, hb, caller_unasked h, misasks_unasked h]

/-- A request that names a context of another function is answered 3. -/
theorem osCall_foreign {s : State} {k c fn : Nat} {args : List Nat} (hb : s.bring = 7) (hc : s.caller k args = some fn)
    (hn : c < Config.contexts) (hf : (s.ctx c).fn ≠ some fn) (f : State → Out1) :
    osCall k args (some c) f s = moved ((s.osResult k 3 0).endRequest fn) := by simp [osCall, State.osRuns, hb, hc, hn, hf]

/-- A request whose call is made is answered as the call is. -/
theorem osCall_request {s t : State} {k fn : Nat} {args : List Nat} {o : Option Nat} {f : State → Out1} (hb : s.bring = 7)
    (hc : s.caller k args = some fn) (ho : ∀ c, o = some c → c < Config.contexts → (s.ctx c).fn = some fn) (hf : f s = .next t)
    (hm : t.moves ≠ s.moves) : osCall k args o f s = .next (t.endRequest fn) := by
  cases o <;> simp_all [osCall, State.osRuns]

/-! ## One step of the part -/

/-- With an agenda a step takes its head: it runs it where the part heeds it, and drops it otherwise. -/
theorem step_agenda {s : State} {i : Instr} {rest : List Instr} (h : s.agenda = i :: rest) :
    step s = if s.heeds i then exec i (State.beforeMove i { s with agenda := rest }) else .next { s with agenda := rest } := by
  simp [step, h]

/-- A look at a team changes that team alone, if anything. -/
theorem look_cases (s : State) (t : Nat) : s.look t = s ∨ ∃ f : Team → Team, s.look t = s.updTeam t f := by
  unfold State.look
  split
  · exact .inl rfl
  · split
    · exact .inl rfl
    · split
      · exact .inr ⟨_, rfl⟩
      · split
        · exact .inl rfl
        · split
          · split
            · exact .inr ⟨_, rfl⟩
            · exact .inl rfl
          · exact .inl rfl

/-- Looking around before a move keeps the invariant. -/
theorem keeps_beforeMove (i : Instr) (s : State) : Keeps s (State.beforeMove i s) := by
  unfold State.beforeMove
  split
  · refine keeps_foldl _ (fun s t => ?_) _ s
    rcases look_cases s t with h | ⟨f, h⟩ <;> rw [h]
    · exact .refl s
    · exact keeps_updTeam ..
  · exact .refl s

/-- A move that asks for no readiness finds the state as it is. -/
theorem beforeMove_id {i : Instr} (h : looksAround i = false) (s : State) : State.beforeMove i s = s := by simp [State.beforeMove, h]

/-- With none, a part that is on takes its next issue. -/
theorem step_issue {s : State} (h : s.agenda = []) (off : s.off = false) :
    step s = match s.nextIssue with | .idle => .next s | .trapped s' => .next s' | .run i s' => exec i s' := by
  cases hn : s.nextIssue <;> simp [step, h, off, hn]

end Sys2Proof.Machine
end

