-- ==== Sys2Proof/Tests/Slice0.lean ====
section
/-!
SUPPORT. Sys2Proof/Tests/Slice0.lean: the model's own tests: ill-formed terms that WellFormed refuses, a word from the spec's
encoding tables for every instruction, for every obligation with hypotheses a state and operands that meet them, and
results taken from the manual.
-/
namespace Sys2Proof.Machine.Tests
open Sys2Proof Sys2Proof.Machine
set_option Elab.async false

/-! ## A small state -/

/-- The state after an answer of `exec` or `step`, the state after reset where there is none. -/
def next (o : Out1) : State := match o with | .next s => s | _ => State.reset

/-- A vector register with the lanes below 32 that a function gives. -/
def reg (f : Nat → Option Nat) : VReg := ⟨(List.range 32).map fun j => (f j).map wordOfNat, true, []⟩

/-- A team of one slot with registers that tell themselves apart: v0 holds lane numbers, v1 the even lanes, v2 is empty. -/
def team : Team :=
  { fold := 0, idx := 0, w := 32, core := 0, part := 0, pc := 0x10000#48, pcOver := false, lastPc := 0x10000#48
    vregs := [reg some, reg fun j => if j % 2 = 0 then some (10 * j + 3) else none] ++ List.replicate 6 (VReg.fresh 32)
    uregs := (List.range 48).map fun n => ⟨BitVec.ofNat 64 (if n = 0 then 0 else 100 + n), true, none⟩
    resv := 8, fmt := 4#32, fx := 0#6, flags := Flags.clear, slots := List.replicate 4 none, arms := [], calls := []
    cc := List.replicate 8 0#16, landings := [], stray := [], inflight := [], late := [], status := .run, stop := none
    wait := .none, waitAt := 0, wants := 0, area := 0, halt := none, before := 0, arrived := none, call := none, reply := none, claim := none, active := true, lastIssue := 0, blocked := 0
    spilled := false, stepOne := false, start := 0, ran := 0, work := 0, unfenced := [] }

/-- A record of plain elements: size code, base, extent, rows, pitch, the other bits of word 0. -/
def plainRec (size base extent rows pitch bits : Nat) : List Byte :=
  bytesOf 8 (bits + size * 2 ^ 48 + base) ++ bytesOf 8 (extent + rows * 2 ^ 32) ++ bytesOf 8 pitch ++ bytesOf 8 0

/-- The state in which the small context is loaded and its one team is `tm`, with a code extent of 64 bytes and 65,536 bytes of
scratch and accumulator on core 0. A data page at 0x20000 holds a table of records: 0 of 32 words, 1 of 4 doublewords, 2 of words on a page that is
not resident, soft, and 3 of FP64 blocks of rate 0; it holds the fault queue and the request rings too. The code page and it
are in the TLB of pasture 0. -/
def part (tm : Team) : State :=
  let s := State.reset.loaded
  let s := s.memStore (loadT0 + 8 * 2) (bytesOf 8 0x30007)
  let s := s.memStore 0x30000 (plainRec 2 0x21000 16 2 64 0 ++ plainRec 3 0x21100 4 1 32 0 ++ plainRec 2 0x50000 16 1 64 (2 ^ 58) ++
    bytesOf 8 (2 ^ 52 + 3 * 2 ^ 48 + 0x21200) ++ bytesOf 8 (32 + 2 ^ 32) ++ bytesOf 8 0 ++ bytesOf 8 0)
  let s := s.updCtx 1 fun c => { c with desc := [(1, 5 * 2 ^ 48 + 0x20000), (3, 16), (4, 0x10020), (5, 2 * 2 ^ 32 + 32), (6, 0x22000), (7, 4),
    (14, 2 ^ 63 + 2 * 2 ^ 48 + 0x24000), (22, 0x25000), (26, 0x20000), (27, 1)].foldl (fun l x => upd l x.1 fun _ => dwordOfNat x.2) c.desc }
  { s with
    teams := [tm]
    tlb := [⟨0, 1, 1, 0x20003#64, none⟩, ⟨0, 1, 2, 0x30007#64, none⟩]
    folds := s.folds.map fun f => { f with kernel := { f.kernel with extent := 64 }, scratch := [⟨0, 0, 65536⟩], acc := [⟨0, 0, 65536⟩] } }

/-- Its fold. -/
def fold : Fold := (part team).folds.headD ⟨0, 0, 0, 0, loadKernel, [], [], [], [], [], 0, 0, [], 0, .ended, false, [], [], [], 0, false, 0,
  0, false, none, [], [], [], [], []⟩

theorem issues (tm : Team) (h : tm.status = .run) : Issues (part tm) tm := ⟨rfl, h⟩

/-- What a group instruction leaves, where SEQ is sequential and nothing stops it. -/
def does (tm tm' : Team) (len : Nat) (sq : BitVec 3) (i : Instr) : Prop :=
  (seqDone tm tm' ((part tm).env 0 tm) len sq).map (fun x => (part tm).teamNow x) = some (next (exec i (part tm)))

/-- The team with a value in a uniform register. -/
def gives (tm : Team) (n : Nat) (v : DWord) : Team := { tm with uregs := upd tm.uregs n fun _ => ⟨v, true, none⟩ }

/-- Flags with Z as given and N, C and V clear. -/
def zflag (z : Bool) : Flags := ⟨z, false, false, false⟩

/-- A team with a taken and an untaken target slot, one outside the extent, an arm, a return address, and Z set. -/
def teamJumps : Team :=
  { team with
    slots := [some ⟨0x10010#48, 1⟩, some ⟨0x10020#48, 2⟩, some ⟨0x20000#48, 0⟩, none], flags := zflag true
    arms := [⟨true, 0x10018#48, 0x84#32⟩], calls := [0x10030#48] }

/-- The cause and subcode of the stop of the team after an instruction. -/
def stops (i : Instr) (s : State) : Option (Nat × Nat) :=
  (((next (exec i s)).team? s.cur).bind (·.stop)).map fun st => (st.cause, st.sub)

/-- The team of a state. -/
def teamOf (s : State) : Team := s.teams.headD team

/-! ## WellFormed: for each check an ill-formed term -/

theorem test_ill_formed : ([
    .vbfx 0#7 0#7 false false 0#5 0#6, .vbfx 0#7 0#7 false false 31#5 2#6, .vbfi 0#7 0#7 0#7 false false false 5#5 28#6,
    .vbfi 0#7 0#7 0#7 false false false 5#5 0#6, .vcvt true 0#7 0#7 12#7 false false, .vunpk 0#7 0#7 0#2 5#4 false false,
    .vunpk 0#7 0#7 0#2 12#4 false false, .vunpk 0#7 0#7 2#2 9#4 false false, .vsplitVector true 0#7 0#7 0#7 false false false 10#4,
    .vsplitUniform true 0#7 0#7 0#7 false false false 10#4, .vsplitImmediate true 0#7 0#7 false false 11#4 0#26,
    .vsplitImmediate true 0#7 0#7 false false 10#4 64#26, .vldAcq 0#7 0#7 0#7 false false 5#3, .vstRel 0#7 0#7 0#7 false false 5#3,
    .vatomAdd 0#7 0#7 0#7 false false false 5#3 false, .vatomAdd 0#7 0#7 0#7 false false true 0#3 false,
    .vatomMin 0#7 0#7 0#7 false false true 0#3 false true, .vatomMax 0#7 0#7 0#7 false false false 6#3 true true,
    .vatomAnd 0#7 0#7 0#7 false false false 7#3 true, .vatomOr 0#7 0#7 0#7 false false true 0#3 false,
    .vatomXor 0#7 0#7 0#7 false false false 5#3 true, .vatomXchg 0#7 0#7 0#7 false false true 0#3 false,
    .vatomCas 0#7 0#7 0#7 false false false 5#3 true, .gsel 0#3 0#7 0#7 0#7 9#4, .gatomAdd 0#3 1#7 0#7 0#7 0#7 0#3 false,
    .gatomMin 0#3 0#7 0#7 0#7 0#7 5#3 true false, .gatomMax 0#3 1#7 0#7 0#7 0#7 0#3 false false,
    .gatomAnd 0#3 0#7 0#7 0#7 0#7 5#3 true, .gatomOr 0#3 1#7 0#7 0#7 0#7 0#3 false, .gatomXor 0#3 0#7 0#7 0#7 0#7 5#3 true,
    .gatomXchg 0#3 1#7 0#7 0#7 0#7 0#3 false, .gatomCas 0#3 0#7 0#7 0#7 0#7 5#3 true, .gtgtGx 0#3 0#2 9#4 0#30,
    .gtgtGa 0#3 0#2 9#4 0#7, .bcase 0#3 0#7 0#7 0#7 0#7, .bcase 5#3 0#7 1#7 2#7 3#7, .bcase 1#3 0#7 1#7 0#7 0#7,
    .bcase 2#3 0#7 1#7 2#7 0#7, .bcase 3#3 0#7 1#7 2#7 3#7, .bcase 2#3 4#7 4#7 0#7 0#7, .bcase 3#3 4#7 5#7 4#7 0#7,
    .bcase 4#3 4#7 5#7 6#7 5#7, .mapget 0#3 0#7 0#7 32#7, .mapset 0#3 0#7 0#7 32#7, .gballot 0#3 0#7 0#7 32#7,
    .grow 0#3 2#7 1#14, .shrink 0#3 2#7 1#14, .fence 0#3 5#3, .waitlt 0#3 0#3 0#14, .launch 0#3 1017#10, .fmove 0#3 0#7 0#7 2#7,
    .gsysRd 0#3 0#7 9#12, .gsysRd 0#3 0#7 36#12, .gsysWr 0#3 0#7 1#12, .gsysCall 0#3 125#7 0#12, .sretTrap 3#6,
    .mma 0#3 1017#10 0#3, .mmaJ 0#3 1017#10 0#3, .mmaR 0#3 1017#10 0#3, .mtrans 0#3 1017#10 0#3, .mperm 0#3 1017#10 0#3,
    .mrsum 0#3 1017#10 0#3, .mzero 0#3 1023#10 0#3, .mdrain 0#3 1021#10 0#3, .wtab 0#3 1023#10 0#3, .copy 0#3 1022#10 0#3,
    .xpost 0#3 1017#10 0#3 0#2, .nsend 0#3 1022#10 0#3, .qtake 0#3 1#7 0#7 0#4, .qtake 0#3 127#7 0#7 0#4] : List Instr).all
    (fun i => !i.wf) = true := by decide +kernel

/-! ## Decoding: words from opcode_table.json and, for pairs, the layouts of R91, R93, R94 and R96 -/

/-- Do the words decode to the instructions beside them? -/
def reads (l : List (Word × Word × Instr)) : Bool :=
  l.all fun x => match decode x.1 x.2.1 with | .ok i => decide (i = x.2.2) | .error _ => false

def words_lane_arithmetic_1 : List (Word × Word × Instr) := [
  (0b0_000000_1_1010011_0100110_1100101_1_0_1#32, 0#32, .vaddLa true 83#7 38#7 101#7 true false true),
  (0b0_000001_1_1010011_0100110_0011010_1_0_1#32, 0#32, .vaddLu true 83#7 38#7 26#7 true false true),
  (0b0_000010_1_1010011_0100110_1_1_10110011#32, 0#32, .vaddLi true 83#7 38#7 true true 179#8),
  (0b0_000100_1_1010011_0100110_1100101_1_0_1#32, 0#32, .vmulLa true 83#7 38#7 101#7 true false true),
  (0b0_000101_1_1010011_0100110_0011010_1_0_1#32, 0#32, .vmulLu true 83#7 38#7 26#7 true false true),
  (0b0_000110_1_1010011_0100110_1_1_10110011#32, 0#32, .vmulLi true 83#7 38#7 true true 179#8),
  (0b0_001000_1_1010011_0100110_1100101_1_0_1#32, 0#32, .vsubLa true 83#7 38#7 101#7 true false true),
  (0b0_001001_1_1010011_0100110_0011010_1_0_1#32, 0#32, .vsubLu true 83#7 38#7 26#7 true false true),
  (0b0_001010_1_1010011_0100110_1_1_10110011#32, 0#32, .vsubLi true 83#7 38#7 true true 179#8),
  (0b0_001011_1_1010011_0100110_1100101_1_0_1#32, 0#32, .vminLa true 83#7 38#7 101#7 true false true),
  (0b0_001100_1_1010011_0100110_0011010_1_0_1#32, 0#32, .vminLu true 83#7 38#7 26#7 true false true),
  (0b0_001101_1_1010011_0100110_1_1_10110011#32, 0#32, .vminLi true 83#7 38#7 true true 179#8),
  (0b0_001110_1_1010011_0100110_1100101_1_0_1#32, 0#32, .vmaxLa true 83#7 38#7 101#7 true false true),
  (0b0_001111_1_1010011_0100110_0011010_1_0_1#32, 0#32, .vmaxLu true 83#7 38#7 26#7 true false true)]

def words_lane_arithmetic_2 : List (Word × Word × Instr) := [
  (0b0_010000_1_1010011_0100110_1_1_10110011#32, 0#32, .vmaxLi true 83#7 38#7 true true 179#8),
  (0b0_010001_1_1010011_0100110_1100101_1_0_1#32, 0#32, .vmulhiLa true 83#7 38#7 101#7 true false true),
  (0b0_010010_1_1010011_0100110_0011010_1_0_1#32, 0#32, .vmulhiLu true 83#7 38#7 26#7 true false true),
  (0b0_010011_1_1010011_0100110_1100101_1_0_1#32, 0#32, .vdivLa true 83#7 38#7 101#7 true false true),
  (0b0_010100_1_1010011_0100110_0011010_1_0_1#32, 0#32, .vdivLu true 83#7 38#7 26#7 true false true),
  (0b0_010101_1_1010011_0100110_1100101_1_0_1#32, 0#32, .vremLa true 83#7 38#7 101#7 true false true),
  (0b0_010110_1_1010011_0100110_0011010_1_0_1#32, 0#32, .vremLu true 83#7 38#7 26#7 true false true),
  (0b0_011001_1_1010011_0100110_0000000_1_0_1#32, 0#32, .vabs true 83#7 38#7 true true),
  (0b0_011001_1_1010011_0100110_0000001_1_0_1#32, 0#32, .vneg true 83#7 38#7 true true),
  (0b0_011001_1_1010011_0100110_0000010_1_0_1#32, 0#32, .vsat true 83#7 38#7 true true),
  (0b0_011010_1_1010011_0100110_0000000_1_0_1#32, 0#32, .vsqrt true 83#7 38#7 true true),
  (0b0_011010_1_1010011_0100110_0000001_1_0_1#32, 0#32, .vrcp true 83#7 38#7 true true),
  (0b0_011010_1_1010011_0100110_0000010_1_0_1#32, 0#32, .vrsq true 83#7 38#7 true true),
  (0b0_011010_1_1010011_0100110_0000011_1_0_1#32, 0#32, .vexp2 true 83#7 38#7 true true)]

def words_lane_arithmetic_3 : List (Word × Word × Instr) := [
  (0b0_011010_1_1010011_0100110_0000100_1_0_1#32, 0#32, .vlog2 true 83#7 38#7 true true),
  (0b0_011100_1_1010011_0100110_0001001_1_0_1#32, 0#32, .vcvt true 83#7 38#7 9#7 true true),
  (0b0_0000111_1010011_0100110_0000000_1_0_1#32, 0b1101111010101101_1011111011101111#32, .vaddLx true 83#7 38#7 true true 0xDEADBEEF#32),
  (0b0_0001111_1010011_0100110_0000000_1_0_1#32, 0b1101111010101101_1011111011101111#32, .vmulLx true 83#7 38#7 true true 0xDEADBEEF#32),
  (0b0_0101111_1010011_0100110_1100101_0_1_1#32, 0b00_1001110_1_0000000000000000000000#32, .vmadVectorC true 83#7 38#7 101#7 false true true 78#7 true),
  (0b0_0101110_1010011_0100110_1100101_1_0_1#32, 0b01_1001110_0_0000000000000000000000#32, .vmadUniformC false 83#7 38#7 101#7 true false true 78#7 false),
  (0b0_0110001_1010011_0100110_1100101_0_1_1#32, 0b00_1001110_1_0000000000000000000000#32, .vclampVectorC true 83#7 38#7 101#7 false true true 78#7 true),
  (0b0_0110000_1010011_0100110_1100101_1_0_1#32, 0b01_1001110_0_0000000000000000000000#32, .vclampUniformC false 83#7 38#7 101#7 true false true 78#7 false),
  (0b0_0110111_1010011_0100110_1100101_1_0_1#32, 0b0111_00_00000000000000000000000000#32, .vsplitVector true 83#7 38#7 101#7 true false true 7#4),
  (0b0_0110110_1010011_0100110_0011010_0_1_0#32, 0b1001_01_00000000000000000000000000#32, .vsplitUniform false 83#7 38#7 26#7 false true false 9#4),
  (0b0_0110111_1010011_0100110_0000000_1_0_0#32, 0b1010_10_00000000000000000000101101#32, .vsplitImmediate true 83#7 38#7 true false 10#4 45#26)]

theorem test_decode_lane_arithmetic : reads (words_lane_arithmetic_1 ++ words_lane_arithmetic_2 ++ words_lane_arithmetic_3) = true := by decide +kernel

def words_lane_bits_and_moves_1 : List (Word × Word × Instr) := [
  (0b0_0111010_1010011_0100110_1100101_1_0_1#32, 0#32, .vandLa 83#7 38#7 101#7 true false true),
  (0b0_0111011_1010011_0100110_0011010_1_0_1#32, 0#32, .vandLu 83#7 38#7 26#7 true false true),
  (0b0_0111101_1010011_0100110_1100101_1_0_1#32, 0#32, .vorLa 83#7 38#7 101#7 true false true),
  (0b0_0111110_1010011_0100110_0011010_1_0_1#32, 0#32, .vorLu 83#7 38#7 26#7 true false true),
  (0b0_1000000_1010011_0100110_1100101_1_0_1#32, 0#32, .vxorLa 83#7 38#7 101#7 true false true),
  (0b0_1000001_1010011_0100110_0011010_1_0_1#32, 0#32, .vxorLu 83#7 38#7 26#7 true false true),
  (0b0_1000011_1010011_0100110_0000000_1_0_1#32, 0#32, .vnot 83#7 38#7 true true),
  (0b0_1000100_1010011_0100110_1100101_1_0_1#32, 0#32, .vshlLa 83#7 38#7 101#7 true false true),
  (0b0_1000101_1010011_0100110_1_1_10110011#32, 0#32, .vshlLi 83#7 38#7 true true 179#8),
  (0b0_1000110_1010011_0100110_1100101_1_0_1#32, 0#32, .vshrLa 83#7 38#7 101#7 true false true),
  (0b0_1000111_1010011_0100110_1_1_10110011#32, 0#32, .vshrLi 83#7 38#7 true true 179#8),
  (0b0_1001000_1010011_0100110_1100101_1_0_1#32, 0#32, .vsraLa 83#7 38#7 101#7 true false true),
  (0b0_1001001_1010011_0100110_1_1_10110011#32, 0#32, .vsraLi 83#7 38#7 true true 179#8),
  (0b0_1001010_1010011_0100110_1100101_1_0_1#32, 0#32, .vrotLa 83#7 38#7 101#7 true false true)]

def words_lane_bits_and_moves_2 : List (Word × Word × Instr) := [
  (0b0_1001011_1010011_0100110_1_1_10110011#32, 0#32, .vrotLi 83#7 38#7 true true 179#8),
  (0b0_1001100_1010011_0100110_0000000_1_0_1#32, 0#32, .vpopc 83#7 38#7 true true),
  (0b0_1001100_1010011_0100110_0000001_1_0_1#32, 0#32, .vclz 83#7 38#7 true true),
  (0b0_1001100_1010011_0100110_0000010_1_0_1#32, 0#32, .vbrev 83#7 38#7 true true),
  (0b0_1100001_1010011_0100110_1100101_1_0_1#32, 0#32, .vpack 83#7 38#7 101#7 true false true),
  (0b0_1100010_1010011_0100110_0_10_1010_1_0_1#32, 0#32, .vunpk 83#7 38#7 2#2 10#4 true true),
  (0b0_1001111_1010011_0100110_1100101_1_0_1#32, 0#32, .vmerge 83#7 38#7 101#7 true false true),
  (0b0_1010000_1010011_0100110_1100101_1_0_1#32, 0#32, .vmask 83#7 38#7 101#7 true false true),
  (0b0_1010001_1010011_0100110_0000000_1_0_1#32, 0#32, .vcompress 83#7 38#7 true true),
  (0b0_1010010_1010011_0100110_1100101_1_0_1#32, 0#32, .vexpand 83#7 38#7 101#7 true false true),
  (0b0_1010011_1010011_0100110_0011010_1_0_0#32, 0#32, .vfillLu 83#7 38#7 26#7 true false),
  (0b0_1010101_1010011_0100110_0011010_1_0_1#32, 0#32, .vfirstLu 83#7 38#7 26#7 true false true),
  (0b0_1010110_1010011_0100110_1_1_10110011#32, 0#32, .vfirstLi 83#7 38#7 true true 179#8),
  (0b0_1010111_1010011_00000000000000000#32, 0#32, .vlane 83#7)]

def words_lane_bits_and_moves_3 : List (Word × Word × Instr) := [
  (0b0_1011000_1010011_0100110_0000000_1_0_1#32, 0#32, .vmov 83#7 38#7 true true),
  (0b0_1011001_1010011_0100110_0000000_1_0_1#32, 0#32, .vkey 83#7 38#7 true true),
  (0b0_1011010_1010011_0100110_0011010_1_0_1#32, 0#32, .vbcastLu 83#7 38#7 26#7 true false true),
  (0b0_1011011_1010011_0100110_1_1_10110011#32, 0#32, .vbcastLi 83#7 38#7 true true 179#8),
  (0b0_1011100_1010011_0100110_1100101_1_0_1#32, 0#32, .vperm 83#7 38#7 101#7 true false true),
  (0b0_1011101_1010011_0100110_1100101_1_0_1#32, 0#32, .vshflLa 83#7 38#7 101#7 true false true),
  (0b0_1100000_1010011_0100110_1_1_10110011#32, 0#32, .vshflLi 83#7 38#7 true true 179#8),
  (0b0_101111_1_1010011_0100110_0000000_1_0_1#32, 0#32, .vscanAdd true 83#7 38#7 true true),
  (0b0_101111_1_1010011_0100110_0000001_1_0_1#32, 0#32, .vscanMin true 83#7 38#7 true true),
  (0b0_101111_1_1010011_0100110_0000010_1_0_1#32, 0#32, .vscanMax true 83#7 38#7 true true),
  (0b0_101111_1_1010011_0100110_0001000_1_0_1#32, 0#32, .vscanAddX true 83#7 38#7 true true),
  (0b0_101111_1_1010011_0100110_0001001_1_0_1#32, 0#32, .vscanMinX true 83#7 38#7 true true),
  (0b0_101111_1_1010011_0100110_0001010_1_0_1#32, 0#32, .vscanMaxX true 83#7 38#7 true true),
  (0b0_110010_1_1010011_0100110_1100101_1_0_1#32, 0#32, .vsad true 83#7 38#7 101#7 true false true)]

def words_lane_bits_and_moves_4 : List (Word × Word × Instr) := [
  (0b0_110011_1_1010011_0100110_1100101_1_0_1#32, 0#32, .vavg true 83#7 38#7 101#7 true false true),
  (0b0_110100_1_1010011_0100110_1100101_1_0_0#32, 0#32, .vdot4 true 83#7 38#7 101#7 true false),
  (0b0_110101_1_1010011_0100110_1100101_1_0_0#32, 0#32, .vdot2 true 83#7 38#7 101#7 true false),
  (0b0_1100011_1010011_0000000_0011010_0_0_0#32, 0#32, .vland 83#7 26#7 false),
  (0b0_0111100_1010011_0100110_0000000_0_0_1#32, 0b1101111010101101_1011111011101111#32, .vandLx 83#7 38#7 false true 0xDEADBEEF#32),
  (0b0_0111111_1010011_0100110_0000000_0_0_1#32, 0b1101111010101101_1011111011101111#32, .vorLx 83#7 38#7 false true 0xDEADBEEF#32),
  (0b0_1000010_1010011_0100110_0000000_0_0_1#32, 0b1101111010101101_1011111011101111#32, .vxorLx 83#7 38#7 false true 0xDEADBEEF#32),
  (0b0_1010100_1010011_0100110_0000000_1_0_0#32, 0b1101111010101101_1011111011101111#32, .vfillLx 83#7 38#7 true 0xDEADBEEF#32),
  (0b0_1101101_1010011_0100110_1100101_0_1_1#32, 0b00_1001110_1_0000000000000000000000#32, .vmed3VectorC true 83#7 38#7 101#7 false true true 78#7 true),
  (0b0_1101100_1010011_0100110_1100101_1_0_1#32, 0b01_1001110_0_0000000000000000000000#32, .vmed3UniformC false 83#7 38#7 101#7 true false true 78#7 false),
  (0b0_1001101_1010011_0100110_0000000_1_0_0#32, 0b10101_001011_000000000000000000000#32, .vbfx 83#7 38#7 true false 21#5 11#6),
  (0b0_1001110_1010011_0100110_1100101_1_0_1#32, 0b01100_010100_000000000000000000000#32, .vbfi 83#7 38#7 101#7 true false true 12#5 20#6)]

theorem test_decode_lane_bits_and_moves : reads (words_lane_bits_and_moves_1 ++ words_lane_bits_and_moves_2 ++ words_lane_bits_and_moves_3 ++ words_lane_bits_and_moves_4) = true := by decide +kernel

def words_lane_memory_1 : List (Word × Word × Instr) := [
  (0b0_1110000_1010011_0110101_0011010_1_0_1#32, 0#32, .vld 83#7 53#7 26#7 true true),
  (0b0_1110001_1010011_0110101_0011010_1_0_1#32, 0#32, .vldR 83#7 53#7 26#7 true true),
  (0b0_1110010_1011001_0110101_0011010_1_0_0#32, 0#32, .vst 89#7 53#7 26#7 true false),
  (0b0_1110011_1010011_0110101_0011010_1_0_1#32, 0#32, .vldwX2 83#7 53#7 26#7 true true),
  (0b0_1110100_1010011_0110101_0011010_1_0_1#32, 0#32, .vldwX4 83#7 53#7 26#7 true true),
  (0b0_1110101_1011001_0110101_0011010_1_0_0#32, 0#32, .vstwX2 89#7 53#7 26#7 true false),
  (0b0_1110110_1011001_0110101_0011010_1_0_0#32, 0#32, .vstwX4 89#7 53#7 26#7 true false),
  (0b0_1111010_0000000_0110101_0011010_1_00#32, 0#32, .vpref 53#7 26#7 true),
  (0b0_1111011_1010011_0110101_0011010_1_0_1#32, 0#32, .vlds 83#7 53#7 26#7 true true),
  (0b0_1111100_1011001_0110101_0011010_1_0_0#32, 0#32, .vsts 89#7 53#7 26#7 true false),
  (0b0_1111101_1010011_0110101_0011010_1_0_1#32, 0#32, .vbld 83#7 53#7 26#7 true true),
  (0b0_1111110_1010011_0110101_0011010_1_0_1#32, 0#32, .vldacc 83#7 53#7 26#7 true true),
  (0b0_1111111_1011001_0110101_0011010_1_0_0#32, 0#32, .vstacc 89#7 53#7 26#7 true false),
  (0b0_1110111_1010011_0110101_0011010_1_0_1#32, 0b011_00000000000000000000000000000#32, .vldAcq 83#7 53#7 26#7 true true 3#3)]

def words_lane_memory_2 : List (Word × Word × Instr) := [
  (0b0_1111000_1011001_0110101_0011010_0_1_0#32, 0b100_00000000000000000000000000000#32, .vstRel 89#7 53#7 26#7 false true 4#3),
  (0b0_1111001_1011001_0110101_0011010_1_0_1#32, 0b000_0000_1_0_00000000000000000000000#32, .vatomAdd 89#7 53#7 26#7 true false true 0#3 true),
  (0b0_1111001_1011001_0110101_0011010_1_0_1#32, 0b001_0001_1_1_00000000000000000000000#32, .vatomMin 89#7 53#7 26#7 true false true 1#3 true true),
  (0b0_1111001_1011001_0110101_0011010_1_0_1#32, 0b010_0010_1_0_00000000000000000000000#32, .vatomMax 89#7 53#7 26#7 true false true 2#3 true false),
  (0b0_1111001_1011001_0110101_0011010_1_0_1#32, 0b011_0011_1_0_00000000000000000000000#32, .vatomAnd 89#7 53#7 26#7 true false true 3#3 true),
  (0b0_1111001_1011001_0110101_0011010_1_0_1#32, 0b100_0100_1_0_00000000000000000000000#32, .vatomOr 89#7 53#7 26#7 true false true 4#3 true),
  (0b0_1111001_1011001_0110101_0011010_1_0_1#32, 0b000_0101_1_0_00000000000000000000000#32, .vatomXor 89#7 53#7 26#7 true false true 0#3 true),
  (0b0_1111001_1011001_0110101_0011010_1_0_1#32, 0b001_0110_1_0_00000000000000000000000#32, .vatomXchg 89#7 53#7 26#7 true false true 1#3 true),
  (0b0_1111001_1011001_0110101_0011010_1_0_1#32, 0b010_0111_1_0_00000000000000000000000#32, .vatomCas 89#7 53#7 26#7 true false true 2#3 true)]

theorem test_decode_lane_memory : reads (words_lane_memory_1 ++ words_lane_memory_2) = true := by decide +kernel

def words_uniform_integers_1 : List (Word × Word × Instr) := [
  (0b1_0000000_101_1010011_0100110_1100101#32, 0#32, .gaddGa 5#3 83#7 38#7 101#7),
  (0b1_0000001_010_1010011_0100110_0110101#32, 0#32, .gaddGi 2#3 83#7 38#7 53#7),
  (0b1_0000010_110_1010011_0100110_1100101#32, 0#32, .gsubGa 6#3 83#7 38#7 101#7),
  (0b1_0000011_001_1010011_0100110_0110101#32, 0#32, .gsubGi 1#3 83#7 38#7 53#7),
  (0b1_0000100_011_1010011_0100110_1100101#32, 0#32, .gmulGa 3#3 83#7 38#7 101#7),
  (0b1_0000101_111_1010011_0100110_0110101#32, 0#32, .gmulGi 7#3 83#7 38#7 53#7),
  (0b1_0000110_100_1010011_0100110_1100101#32, 0#32, .gmulhiGa 4#3 83#7 38#7 101#7),
  (0b1_0000111_000_1010011_0100110_0110101#32, 0#32, .gmulhiGi 0#3 83#7 38#7 53#7),
  (0b1_0001000_101_1010011_0100110_1100101#32, 0#32, .gdivGa 5#3 83#7 38#7 101#7),
  (0b1_0001001_010_1010011_0100110_0110101#32, 0#32, .gdivGi 2#3 83#7 38#7 53#7),
  (0b1_0001010_110_1010011_0100110_1100101#32, 0#32, .gandGa 6#3 83#7 38#7 101#7),
  (0b1_0001011_001_1010011_0100110_0110101#32, 0#32, .gandGi 1#3 83#7 38#7 53#7),
  (0b1_0001100_011_1010011_0100110_1100101#32, 0#32, .gorGa 3#3 83#7 38#7 101#7),
  (0b1_0001101_111_1010011_0100110_0110101#32, 0#32, .gorGi 7#3 83#7 38#7 53#7)]

def words_uniform_integers_2 : List (Word × Word × Instr) := [
  (0b1_0001110_100_1010011_0100110_1100101#32, 0#32, .gxorGa 4#3 83#7 38#7 101#7),
  (0b1_0001111_000_1010011_0100110_0110101#32, 0#32, .gxorGi 0#3 83#7 38#7 53#7),
  (0b1_0010000_101_1010011_0100110_1100101#32, 0#32, .gshlGa 5#3 83#7 38#7 101#7),
  (0b1_0010001_010_1010011_0100110_0110101#32, 0#32, .gshlGi 2#3 83#7 38#7 53#7),
  (0b1_0010010_110_1010011_0100110_1100101#32, 0#32, .gshrGa 6#3 83#7 38#7 101#7),
  (0b1_0010011_001_1010011_0100110_0110101#32, 0#32, .gshrGi 1#3 83#7 38#7 53#7),
  (0b1_0010100_011_1010011_0100110_1100101#32, 0#32, .gsraGa 3#3 83#7 38#7 101#7),
  (0b1_0010101_111_1010011_0100110_0110101#32, 0#32, .gsraGi 7#3 83#7 38#7 53#7),
  (0b1_0010110_100_1010011_0100110_1100101#32, 0#32, .gminGa 4#3 83#7 38#7 101#7),
  (0b1_0010111_000_1010011_0100110_0110101#32, 0#32, .gminGi 0#3 83#7 38#7 53#7),
  (0b1_0011000_101_1010011_0100110_1100101#32, 0#32, .gmaxGa 5#3 83#7 38#7 101#7),
  (0b1_0011001_010_1010011_0100110_0110101#32, 0#32, .gmaxGi 2#3 83#7 38#7 53#7),
  (0b1_0011010_110_0000000_0100110_1100101#32, 0#32, .gcmpGa 6#3 38#7 101#7),
  (0b1_0011011_001_0000000_0100110_0110101#32, 0#32, .gcmpGi 1#3 38#7 53#7)]

def words_uniform_integers_3 : List (Word × Word × Instr) := [
  (0b1_0011101_011_1011010011_0110110101_0#32, 0#32, .gmov 3#3 0x2D3#10 0x1B5#10),
  (0b1_0011110_111_1010011_10110011100101#32, 0#32, .gli 7#3 83#7 0x2CE5#14),
  (0b1_0011100_011_1010011_0100110_1100101#32, 0b0000000000000000000000000000_0110#32, .gsel 3#3 83#7 38#7 101#7 6#4),
  (0b1_0011111_010_1011010011_00000000000#32, 0b1101111010101101_1011111011101111#32, .gliw 2#3 723#10 0xDEADBEEF#32)]

theorem test_decode_uniform_integers : reads (words_uniform_integers_1 ++ words_uniform_integers_2 ++ words_uniform_integers_3) = true := by decide +kernel

def words_uniform_floats_and_memory_1 : List (Word × Word × Instr) := [
  (0b1_0100000_100_1010011_0100110_1100101#32, 0#32, .gfaddF32 4#3 83#7 38#7 101#7),
  (0b1_0100001_000_1010011_0100110_1100101#32, 0#32, .gfaddF64 0#3 83#7 38#7 101#7),
  (0b1_0100010_101_1010011_0100110_1100101#32, 0#32, .gfmulF32 5#3 83#7 38#7 101#7),
  (0b1_0100011_010_1010011_0100110_1100101#32, 0#32, .gfmulF64 2#3 83#7 38#7 101#7),
  (0b1_0100110_110_1010011_0100110_0000000#32, 0#32, .gfcvtF64F32 6#3 83#7 38#7),
  (0b1_0100110_001_1010011_0100110_0000001#32, 0#32, .gfcvtF32F64 1#3 83#7 38#7),
  (0b1_0100110_011_1010011_0100110_0000010#32, 0#32, .gfcvtF64I64 3#3 83#7 38#7),
  (0b1_0100110_111_1010011_0100110_0000011#32, 0#32, .gfcvtI64F64 7#3 83#7 38#7),
  (0b1_0100110_100_1010011_0100110_0000100#32, 0#32, .gfcvtF32I64 4#3 83#7 38#7),
  (0b1_0100110_000_1010011_0100110_0000101#32, 0#32, .gfcvtI64F32 0#3 83#7 38#7),
  (0b1_0100110_101_1010011_0100110_0000110#32, 0#32, .gfcvtF64N64 5#3 83#7 38#7),
  (0b1_0100110_010_1010011_0100110_0000111#32, 0#32, .gfcvtN64F64 2#3 83#7 38#7),
  (0b1_0101000_110_1010011_0100110_1100101#32, 0#32, .gldGa 6#3 83#7 38#7 101#7),
  (0b1_0101001_001_1010011_0100110_0110101#32, 0#32, .gldGi 1#3 83#7 38#7 53#7)]

def words_uniform_floats_and_memory_2 : List (Word × Word × Instr) := [
  (0b1_0101010_011_1011001_0100110_1100101#32, 0#32, .gstGa 3#3 89#7 38#7 101#7),
  (0b1_0101011_111_1011001_0100110_0110101#32, 0#32, .gstGi 7#3 89#7 38#7 53#7),
  (0b1_0101100_000_1010011_0100110_1100101#32, 0b010_0000_1_0_0000000000000000_1001110#32, .gatomAdd 0#3 83#7 38#7 101#7 78#7 2#3 true),
  (0b1_0101100_001_1010011_0100110_1100101#32, 0b011_0001_1_0_0000000000000000_1001110#32, .gatomMin 1#3 83#7 38#7 101#7 78#7 3#3 true false),
  (0b1_0101100_010_1010011_0100110_1100101#32, 0b100_0010_1_1_0000000000000000_1001110#32, .gatomMax 2#3 83#7 38#7 101#7 78#7 4#3 true true),
  (0b1_0101100_011_1010011_0100110_1100101#32, 0b000_0011_1_0_0000000000000000_1001110#32, .gatomAnd 3#3 83#7 38#7 101#7 78#7 0#3 true),
  (0b1_0101100_100_1010011_0100110_1100101#32, 0b001_0100_1_0_0000000000000000_1001110#32, .gatomOr 4#3 83#7 38#7 101#7 78#7 1#3 true),
  (0b1_0101100_101_1010011_0100110_1100101#32, 0b010_0101_1_0_0000000000000000_1001110#32, .gatomXor 5#3 83#7 38#7 101#7 78#7 2#3 true),
  (0b1_0101100_110_1010011_0100110_1100101#32, 0b011_0110_1_0_0000000000000000_1001110#32, .gatomXchg 6#3 83#7 38#7 101#7 78#7 3#3 true),
  (0b1_0101100_111_1010011_0100110_1100101#32, 0b100_0111_1_0_0000000000000000_1001110#32, .gatomCas 7#3 83#7 38#7 101#7 78#7 4#3 true),
  (0b1_0100100_001_1010011_0100110_1100101#32, 0b0000000000000000000000000_1001110#32, .gfmaF32 1#3 83#7 38#7 101#7 78#7),
  (0b1_0100101_100_1010011_0100110_1100101#32, 0b0000000000000000000000000_1001110#32, .gfmaF64 4#3 83#7 38#7 101#7 78#7)]

theorem test_decode_uniform_floats_and_memory : reads (words_uniform_floats_and_memory_1 ++ words_uniform_floats_and_memory_2) = true := by decide +kernel

def words_sequencing_and_maps_1 : List (Word × Word × Instr) := [
  (0b1_0110001_100_10_0110_0_0100110_0000000#32, 0#32, .gtgtGa 4#3 2#2 6#4 38#7),
  (0b1_0110011_0000000000_0100110_0000000#32, 0#32, .gcallGa 38#7),
  (0b1_0110100_000000000000000000000000#32, 0#32, .gend),
  (0b1_0110100_000000000000000000000001#32, 0#32, .gendDrop),
  (0b1_0110110_000_000000000000000000000#32, 0#32, .gnop 0#3),
  (0b1_0111000_101_1010011_0100110_0000000#32, 0#32, .mapcnt 5#3 83#7 38#7),
  (0b1_0111001_010_1010011_0100110_0010011#32, 0#32, .mapget 2#3 83#7 38#7 19#7),
  (0b1_0111010_110_1011001_0100110_0010101#32, 0#32, .mapset 6#3 89#7 38#7 21#7),
  (0b1_0111011_001_0000000_0100110_0000000#32, 0#32, .mapclr 1#3 38#7),
  (0b1_0111100_011_1010011_0100110_0011010#32, 0#32, .gballot 3#3 83#7 38#7 26#7),
  (0b1_0111101_111_1010011_0100110_0000000#32, 0#32, .gfirst 7#3 83#7 38#7),
  (0b1_011111_1_100_1010011_0100110_0000000#32, 0#32, .gredAdd true 4#3 83#7 38#7),
  (0b1_011111_1_000_1010011_0100110_0000001#32, 0#32, .gredMin true 0#3 83#7 38#7),
  (0b1_011111_1_101_1010011_0100110_0000010#32, 0#32, .gredMax true 5#3 83#7 38#7)]

def words_sequencing_and_maps_2 : List (Word × Word × Instr) := [
  (0b1_011111_1_010_1010011_0100110_0000011#32, 0#32, .gredAnd true 2#3 83#7 38#7),
  (0b1_011111_1_110_1010011_0100110_0000100#32, 0#32, .gredOr true 6#3 83#7 38#7),
  (0b1_011111_1_001_1010011_0100110_0000101#32, 0#32, .gredXor true 1#3 83#7 38#7),
  (0b1_0110000_000_10_0111_000000000000000#32, 0b101100111000111100001111000011_00#32, .gtgtGx 0#3 2#2 7#4 0x2CE3C3C3#30),
  (0b1_0110010_000_0000000_0000000_0000000#32, 0b101100111000111100001111000011_00#32, .gcallGx 0x2CE3C3C3#30),
  (0b1_0110101_000_011_000000000000000000#32, 0b0000_1010011_0100110_1100101_0000000#32, .bcase 3#3 83#7 38#7 101#7 0#7)]

theorem test_decode_sequencing_and_maps : reads (words_sequencing_and_maps_1 ++ words_sequencing_and_maps_2) = true := by decide +kernel

def words_system_1 : List (Word × Word × Instr) := [
  (0b1_1000000_011_0000000_10110011100101#32, 0#32, .setfmtGk 3#3 0x2CE5#14),
  (0b1_1000001_111_0000000_0100110_0000000#32, 0#32, .setfmtGa 7#3 38#7),
  (0b1_1000010_100_1010011_00000000000000#32, 0#32, .getfmt 4#3 83#7),
  (0b1_1000011_000_0000001_10110011100101#32, 0#32, .grow 0#3 1#7 0x2CE5#14),
  (0b1_1000100_101_0000001_10110011100101#32, 0#32, .shrink 5#3 1#7 0x2CE5#14),
  (0b1_1000101_010_000000000000000000000#32, 0#32, .fbar 2#3),
  (0b1_1000110_110_000000000000000000_011#32, 0#32, .fence 6#3 3#3),
  (0b1_1000111_001_0000_101_10110011100101#32, 0#32, .waitlt 1#3 5#3 0x2CE5#14),
  (0b1_1001000_011_0000_101_10110011100101#32, 0#32, .ccadd 3#3 5#3 0x2CE5#14),
  (0b1_1001001_111_1010011_0100110_0000000#32, 0#32, .emit 7#3 83#7 38#7),
  (0b1_1001010_100_1011010011_00000000000#32, 0#32, .launch 4#3 0x2D3#10),
  (0b1_1001011_000_1010011_00000000000000#32, 0#32, .phase 0#3 83#7),
  (0b1_1001100_101_1010011_0100110_0000001#32, 0#32, .fmove 5#3 83#7 38#7 1#7),
  (0b1_1001101_010_1010011_00_000000100010#32, 0#32, .gsysRd 2#3 83#7 34#12)]

def words_system_2 : List (Word × Word × Instr) := [
  (0b1_1001101_110_1011001_01_000000000000#32, 0#32, .gsysWr 6#3 89#7 0#12),
  (0b1_1001101_001_1010011_10_101001011100#32, 0#32, .gsysCall 1#3 83#7 0xA5C#12),
  (0b1_1001110_011_0000000_10110011100101#32, 0#32, .gtrap 3#3 0x2CE5#14),
  (0b1_1001111_111_0000000_10110011100101#32, 0#32, .gbrk 7#3 0x2CE5#14),
  (0b1_1010000_000000000000000000000000#32, 0#32, .sret),
  (0b1_1010000_000000000000000000000001#32, 0#32, .sretAgain),
  (0b1_1010000_0000000000_101101_00000010#32, 0#32, .sretTrap 45#6),
  (0b1_1010001_100_1010011_0100110_0000000#32, 0#32, .pwclaim 4#3 83#7 38#7),
  (0b1_1010010_000_1010011_00000000000000#32, 0#32, .pwstat 0#3 83#7)]

theorem test_decode_system : reads (words_system_1 ++ words_system_2) = true := by decide +kernel

def words_engines_and_queues_1 : List (Word × Word × Instr) := [
  (0b1_1011000_101_1011010011_101_00000000#32, 0#32, .mma 5#3 0x2D3#10 5#3),
  (0b1_1011001_010_1011010011_101_00000000#32, 0#32, .mmaJ 2#3 0x2D3#10 5#3),
  (0b1_1011010_110_1011010011_101_00000000#32, 0#32, .mmaR 6#3 0x2D3#10 5#3),
  (0b1_1011011_001_1011010011_101_00000000#32, 0#32, .mtrans 1#3 0x2D3#10 5#3),
  (0b1_1011100_011_1011010011_101_00000000#32, 0#32, .mperm 3#3 0x2D3#10 5#3),
  (0b1_1011101_111_1011010011_101_00000000#32, 0#32, .mrsum 7#3 0x2D3#10 5#3),
  (0b1_1011110_100_1011010011_101_00000000#32, 0#32, .mzero 4#3 0x2D3#10 5#3),
  (0b1_1011111_000_1011010011_101_00000000#32, 0#32, .mdrain 0#3 0x2D3#10 5#3),
  (0b1_1100000_101_000000000000000000000#32, 0#32, .mopfence 5#3),
  (0b1_1100001_010_1011010011_101_00000000#32, 0#32, .wtab 2#3 0x2D3#10 5#3),
  (0b1_1100010_110_1011010011_101_00000000#32, 0#32, .copy 6#3 0x2D3#10 5#3),
  (0b1_1100011_001_1010011_000000000000_10#32, 0#32, .cwp 1#3 83#7 2#2),
  (0b1_1100011_011_1010011_0000000001_10_10#32, 0#32, .cwpCore 3#3 83#7 2#2 2#2),
  (0b1_1100100_111_0000000_0100110_00000_10#32, 0#32, .cwait 7#3 38#7 2#2)]

def words_engines_and_queues_2 : List (Word × Word × Instr) := [
  (0b1_1100100_100_0000000_0100110_001_10_10#32, 0#32, .cwaitCore 4#3 38#7 2#2 2#2),
  (0b1_1100101_000_1011010011_101_000000_10#32, 0#32, .xpost 0#3 0x2D3#10 5#3 2#2),
  (0b1_1100110_101_1011010011_101_00000000#32, 0#32, .nsend 5#3 0x2D3#10 5#3),
  (0b1_1101000_010_1010011_0100110_000_1011#32, 0#32, .qres 2#3 83#7 38#7 11#4),
  (0b1_1101001_110_1010011_0100110_000_1011#32, 0#32, .qresTry 6#3 83#7 38#7 11#4),
  (0b1_1101010_001_0000000_0100110_000_1011#32, 0#32, .qpub 1#3 38#7 11#4),
  (0b1_1101011_011_1010010_0100110_000_1011#32, 0#32, .qtake 3#3 82#7 38#7 11#4),
  (0b1_1101100_111_0000000_0100110_000_1011#32, 0#32, .qrel 7#3 38#7 11#4),
  (0b1_1101101_100_0000000_0100110_000_1011#32, 0#32, .qwait 4#3 38#7 11#4),
  (0b1_1101110_000_00000000000000000_1011#32, 0#32, .qclose 0#3 11#4),
  (0b1_1101111_101_0000000_0100110_000_1011#32, 0#32, .qopen 5#3 38#7 11#4)]

theorem test_decode_engines_and_queues : reads (words_engines_and_queues_1 ++ words_engines_and_queues_2) = true := by decide +kernel

/-- Words that are no instruction, by the cause of R106: an undefined opcode (L 0x6F), a reserved one (G 0x27), vmov with a
must-be-zero field set, bcase with an unused guard set (R104, R107). -/
theorem test_decode_rejects : strayOf 0x6F000000#32 0#32 = some .undefinedOpcode ∧ strayOf 0xA7000000#32 0#32 = some .reservedOpcode ∧
    strayOf 0b0_1011000_0000001_0000010_0000001_000#32 0#32 = some .reservedField ∧
    strayOf 0b1_0110101_000_001_000000000000000000#32 0b0000_0000001_0000010_0000000_0000000#32 = some .reservedField := by
  decide +kernel

/-! ## Obligations: states and operands that meet their hypotheses -/

theorem wit_DecodeEncode : (Instr.vandLx 1#7 2#7 true false 7#32).wf = true ∧ (Instr.vnot 1#7 2#7 true false).wf = true ∧
    (encode (.vandLx 1#7 2#7 true false 7#32)).length = 2 ∧ (encode (.vnot 1#7 2#7 true false)).length = 1 := by decide +kernel

/-- The small state with the words of a program at the team's pc. -/
def coded (ws : List Word) : State := (part team).placeWords ws

/-- Do words at the team's pc, read there, make a step run an instruction? -/
def runs (w y : Word) (i : Instr) (s : State) : Prop :=
  (s.agenda = [] ∧ s.off = false ∧ s.issuer = s.cur ∧ s.team? s.cur = some team ∧ s.fold? 0 = some fold) ∧
  (s.mayIssue fold team = true ∧ team.pcOver = false ∧ team.inExtent (s.env s.cur team) team.pc.toNat = true) ∧
  (s.fetchWord (s.coreOf team) fold.ctx team.pc.toNat).toOption = some w ∧
  (isPair w = true → team.inExtent (s.env s.cur team) (team.pc.toNat + 4) = true ∧
    (s.fetchWord (s.coreOf team) fold.ctx (team.pc.toNat + 4)).toOption = some y) ∧
  instrOf w y = i ∧
  (next (step s)).teams = (next (exec i (s.fetchFill (s.coreOf team) 1 (if isPair w then [0x10000, 0x10004] else [0x10000])))).teams

theorem wit_StepRunsDecoded :
    runs 0x57060000#32 0#32 (.vlane 3#7) (coded [0x57060000#32]) ∧
    (∃ x, runs 0x54020800#32 7#32 (.vfillLx 1#7 2#7 false x) (coded [0x54020800#32, 7#32])) ∧
    runs 0xA7000000#32 0#32 (.stray 0xA7000000#32 0#32) (coded [0xA7000000#32]) := by
  refine ⟨⟨?_, ?_, ?_, ?_, ?_, ?_⟩, ⟨7#32, ?_, ?_, ?_, ?_, ?_, ?_⟩, ⟨?_, ?_, ?_, ?_, ?_, ?_⟩⟩ <;> decide +kernel

theorem wit_AgendaComesFirst : ∀ i ∈ [Instr.vlane 0#7, .linkUp 0 8, .getVersion], ∀ off ∈ [false, true],
    ({ part team with agenda := [i, .getDigests], off := off } : State).heeds i = (i != .vlane 0#7 && (!off || i == .getVersion)) := by
  decide +kernel

theorem wit_StepKeepsInvariant : (coded [0x57000000#32]).inv = true ∧ (next (step (coded [0x57000000#32]))).moves = 1 ∧
    (next (step (coded [0x57000000#32]))).inv = true := by decide +kernel

theorem wit_MemoryReadsWhatWasWritten : Memory.wf [(5, 1#8), (9, 2#8)] = true ∧
    memWrite [(5, 1#8), (9, 2#8)] 5 [0#8, 7#8] = [(6, 7#8), (9, 2#8)] := by decide +kernel

theorem wit_LaneInstructionsComplete : ∃ len op, laneOpOf (.vaddLa true 2#7 0#7 1#7 true false false) = some (len, op) ∧
    Issues (part team) team ∧ LaneReady team ((part team).env 0 team) (op team) ∧
    next (exec (.vaddLa true 2#7 0#7 1#7 true false false) (part team)) =
      (part team).teamNow (laneDone team ((part team).env 0 team) len (op team)) :=
  ⟨_, _, rfl, issues _ rfl, by decide +kernel, by decide +kernel⟩

/-- The team with register v1 in flight, with a poisoned lane in v0, with v1 beyond the allotment. -/
def teamWaits : Team := { team with vregs := upd team.vregs 1 fun r => { r with full := false } }
def teamPoisoned : Team := { team with vregs := upd team.vregs 0 fun r => { r with poison := [(3, .margin)] } }
def teamShort : Team := { team with vregs := team.vregs.take 1 }

theorem wit_LaneIssueChecks : ∃ len op, laneOpOf (.vaddLa true 0#7 0#7 1#7 true false false) = some (len, op) ∧
    laneHeld teamWaits (op teamWaits) = true ∧ laneHeld teamShort (op teamShort) = false ∧
    laneCauses teamShort (op teamShort) ≠ [] ∧ laneHeld teamPoisoned (op teamPoisoned) = false ∧
    laneCauses teamPoisoned (op teamPoisoned) = [] ∧ lanePoison { teamPoisoned with vregs := teamPoisoned.vregs.map fun r =>
      { r with lanes := (reg some).lanes } } (op teamPoisoned) ≠ [] :=
  ⟨_, _, rfl, by decide +kernel, by decide +kernel, by decide +kernel, by decide +kernel, by decide +kernel, by decide +kernel⟩

/-- Under FXT, in f32, with infinities of both signs; and one whose partition has no slot left. -/
def teamInvalid : Team := { team with fmt := 0x2044#32, vregs := [reg fun _ => some 0x7F800000, reg fun _ => some 0xFF800000] ++ List.replicate 6 (VReg.fresh 32) }
def crowded : State := { part team with teams := [team, { team with idx := 1, resv := Config.poolSlots }] }

theorem wit_LaneIssueChecks_late : ∃ len op, laneOpOf (.vaddLa true 2#7 0#7 1#7 true false false) = some (len, op) ∧
    laneHeld teamInvalid (op teamInvalid) = false ∧ laneCauses teamInvalid (op teamInvalid) = [] ∧
    lanePoison teamInvalid (op teamInvalid) = [] ∧ (fmtEnv teamInvalid.fmt).fxt = true ∧ (laneRes teamInvalid (op teamInvalid)).nv ≠ [] ∧
    crowded.team? crowded.cur = some team ∧ laneCauses team (op team) = [] ∧ (fmtEnv team.fmt).fxt = false ∧
    (crowded.env 0 team).slots < slotsDrawn team (laneWrites team (op team)) :=
  ⟨_, _, rfl, by decide +kernel, by decide +kernel, by decide +kernel, by decide +kernel, by decide +kernel, rfl, by decide +kernel,
    by decide +kernel, by decide +kernel⟩

/-- A keep form with no lane in I leaves its destination as it is. -/
theorem test_keep_without_lanes :
    (teamOf (next (exec (.vandLa 0#7 2#7 3#7 true false true) (part team)))).getV (.team 0) = reg some := by decide +kernel

theorem wit_LaneMapsAndKeepForm : ∃ len op, ∃ f : List DWord → List Nat → Nat × Fx, ∃ x, laneOpOf (.vandLa 2#7 0#7 1#7 true false true) = some (len, op) ∧
    (part team).overlap = false ∧ LaneReady team ((part team).env 0 team) (op team) ∧
    (∀ w vals us, (op team).sem w vals us = lanewise w vals (f us)) ∧ (op team).dsts = [x] ∧ x.parts = 1 :=
  ⟨_, _, _, _, rfl, rfl, by decide +kernel, fun _ _ _ => rfl, rfl, rfl⟩

theorem wit_IntegerLanesWrap : ∀ i ∈ [Instr.vaddLa true 2#7 0#7 1#7 true false true, .vaddLu true 2#7 0#7 5#7 true false false,
      .vsubLi true 1#7 0#7 true true 0x80#8, .vmulLx true 2#7 0#7 true false 0x10000#32],
    ∃ sv d a b k f ra rd, wrapRow i = some (sv, d, a, b, k, f) ∧ team.ty sv = (.i32, true) ∧ (fmtEnv team.fmt).sat = false ∧
      (team.vrefs a.toNat 1 1).regs = [ra] ∧ (team.vrefs d.toNat 1 1).regs = [rd] ∧
      ∀ len op, laneOpOf i = some (len, op) → LaneReady team ((part team).env 0 team) (op team) := by
  simp only [List.mem_cons, List.not_mem_nil, or_false, forall_eq_or_imp, forall_eq]
  refine ⟨⟨_, _, _, _, _, _, _, _, rfl, by decide, by decide, rfl, rfl, ?_⟩, ⟨_, _, _, _, _, _, _, _, rfl, by decide, by decide, rfl, rfl, ?_⟩,
    ⟨_, _, _, _, _, _, _, _, rfl, by decide, by decide, rfl, rfl, ?_⟩, ⟨_, _, _, _, _, _, _, _, rfl, by decide, by decide, rfl, rfl, ?_⟩⟩ <;>
  · intro len op h
    cases h
    decide +kernel


/-- Do an instruction with a value claim and lane 2 of its operands meet the hypotheses, under an FMT? -/
def valueWit (i : Instr) (fmt : Word) : Bool :=
  let tm := { team with fmt := fmt }
  match valueRow i, laneOpOf i with
  | some row, some (_, op) =>
    let has (b : ValArg) : Bool := match b with | .lane b => (b.lane tm 2).isSome | .const _ => true
    decide (LaneReady tm ((part tm).env 0 tm) (op tm)) && ((LaneArg.vec row.a).lane tm 2).isSome && has row.b && has row.c &&
      (match row.slot with | some sv => (tm.ty sv).2 && !(tm.ty sv).1.is64 | none => true)
  | _, _ => false

/-- A type in both slots. -/
def fmtOf (t : Nat) : Word := wordOfNat (17 * t)

theorem wit_IntegerLanesWrap_values :
    ([0, 1, 4, 8, 9, 10, 11].all fun t => [Instr.vaddLi true 2#7 0#7 true false 0xFD#8, .vsubLu true 2#7 0#7 5#7 true false false,
      .vmulLx true 2#7 0#7 true true 3#32, .vminLa true 2#7 0#7 1#7 true false false, .vmaxLa true 2#7 0#7 1#7 true false true,
      .vdivLa true 2#7 0#7 1#7 true false false, .vmadVectorC true 2#7 0#7 1#7 true false false 0#7 true,
      .vclampUniformC true 2#7 0#7 1#7 true false false 5#7 true, .vabs true 2#7 1#7 true false, .vneg true 2#7 1#7 true false,
      .vsat true 2#7 1#7 true true].all fun i => valueWit i (fmtOf t)) = true ∧
    ([0, 1, 8, 9, 10, 11].all fun t => [Instr.vmulhiLa true 2#7 0#7 1#7 true false false, .vremLa true 2#7 0#7 1#7 true false false,
      .vavg true 2#7 0#7 1#7 true false false].all fun i => valueWit i (fmtOf t)) = true ∧
    ([Instr.vsqrt true 2#7 1#7 true false, .vrcp true 2#7 1#7 true false, .vrsq true 2#7 1#7 true false, .vexp2 true 2#7 1#7 true false,
      .vlog2 true 2#7 1#7 true false].all fun i => valueWit i (fmtOf 4)) = true ∧
    ([0, 1, 4].all fun t => [0#7, 1#7, 4#7].all fun u => valueWit (.vcvt true 2#7 0#7 u true false) (fmtOf t)) = true ∧
    ([8, 9, 10, 11].all fun t => valueWit (.vpack 2#7 0#7 1#7 true false false) (fmtOf t)) = true ∧
    ([6#4, 7#4, 8#4, 9#4, 10#4, 11#4].all fun t => valueWit (.vunpk 2#7 0#7 1#2 t true false) 0#32) = true ∧
    valueWit (.vkey 2#7 0#7 true false) 0#32 = true ∧
    ([8, 9, 10, 11].all fun t => valueWit (.vsad true 2#7 0#7 1#7 true false true) (fmtOf t)) = true ∧
    ([10, 11].all fun t => valueWit (.vdot4 true 1#7 0#7 1#7 true false) (fmtOf t)) = true ∧
    ([8, 9].all fun t => valueWit (.vdot2 true 1#7 0#7 1#7 true false) (fmtOf t)) = true := by decide +kernel

theorem wit_const_operand : (ValArg.const (-3)).Gives team .i32 2 0xFFFFFFFD#32 ∧ (ValArg.const 1).Gives team .f32 2 0x3F800000#32 ∧
    (ValArg.const 1).Gives team .f16x2 2 0x3C003C00#32 ∧ (ValArg.const 0).Gives team .bf16x2 2 0#32 := by
  refine ⟨fun e h => ?_, ⟨by decide, fun e h => ?_⟩, ⟨by decide, fun e h => ?_⟩, ⟨by decide, fun e h => ?_⟩⟩
  · obtain rfl : e = 0 := by omega
    decide
  · obtain rfl : e = 0 := by omega
    decide +kernel
  · obtain rfl | rfl : e = 0 ∨ e = 1 := by omega
    all_goals decide +kernel
  · obtain rfl | rfl : e = 0 ∨ e = 1 := by omega
    all_goals decide +kernel

/-- Pairs: operands of 64 bits in i64, n64 and f64 meet the hypotheses, and 1/3 in f64 rounds to its nearest code. -/
theorem wit_IntegerLanesWrap_wide :
    ([2, 3, 5].all fun t => [Instr.vaddLi true 4#7 0#7 true false 0xFD#8, .vsubLu true 4#7 0#7 5#7 true false false,
      .vmulLx true 4#7 0#7 true true 3#32, .vminLa true 4#7 0#7 0#7 true false false, .vdivLa true 4#7 0#7 0#7 true false false,
      .vmadVectorC true 4#7 0#7 0#7 true false false 0#7 true, .vabs true 4#7 0#7 true false].all fun i =>
        let tm := { team with fmt := fmtOf t }
        match valueRow i, laneOpOf i with
        | some row, some (_, op) => (wideRel i).isSome && decide (LaneReady tm ((part tm).env 0 tm) (op tm)) &&
            (pairLane tm row.a 2).isSome && (tm.ty true).2 && (tm.ty true).1.is64
        | _, _ => false) = true ∧
    (ValArg.const 3).GivesPair team .f64 2 0x4008000000000000#64 ∧
    RoundsTo 52 .rne false (2 ^ 1074) 3 0x3FD5555555555555 := by
  refine ⟨by decide +kernel, ?_, 0x3FD5555555555555, ?_⟩
  · simp only [ValArg.GivesPair]
    decide +kernel
  · decide +kernel

theorem wit_IntegerLanesWrap_splits :
    (∀ x ∈ [(Instr.vsplitVector true 2#7 0#7 1#7 true false false 2#4, 0), (.vsplitUniform true 2#7 0#7 5#7 true false true 7#4, 1),
        (.vsplitImmediate true 2#7 0#7 true false 0#4 5#26, 4), (.vsplitImmediate true 2#7 0#7 true false 10#4 3#26, 8)],
      let tm := { team with fmt := fmtOf x.2 }
      ∃ sv d a b c k len op r1 r2, splitRow x.1 = some (sv, d, a, b, c, k) ∧ laneOpOf x.1 = some (len, op) ∧
        LaneReady tm ((part tm).env 0 tm) (op tm) ∧ (tm.ty sv).2 = true ∧ (tm.ty sv).1.is64 = false ∧
        (fmtEnv tm.fmt).env.ftz = false ∧ (tm.vrefs d.toNat 2 2).regs = [r1, r2] ∧ ((LaneArg.vec a).lane tm 2).isSome = true) := by
  simp only [List.mem_cons, List.not_mem_nil, or_false, forall_eq_or_imp, forall_eq]
  refine ⟨⟨_, _, _, _, _, _, _, _, _, _, rfl, rfl, ?_, ?_, ?_, ?_, rfl, ?_⟩, ⟨_, _, _, _, _, _, _, _, _, _, rfl, rfl, ?_, ?_, ?_, ?_, rfl, ?_⟩,
    ⟨_, _, _, _, _, _, _, _, _, _, rfl, rfl, ?_, ?_, ?_, ?_, rfl, ?_⟩, ⟨_, _, _, _, _, _, _, _, _, _, rfl, rfl, ?_, ?_, ?_, ?_, rfl, ?_⟩⟩ <;>
    decide +kernel

theorem wit_IntegerLanesWrap_scans :
    (∀ i ∈ [Instr.vscanAdd true 2#7 1#7 true false, .vscanMinX true 2#7 1#7 true false, .vscanMax true 2#7 1#7 true true],
      ∃ o x sv d a len op, scanRow i = some (o, x, sv, d, a) ∧ laneOpOf i = some (len, op) ∧
        LaneReady team ((part team).env 0 team) (op team) ∧ team.ty sv = (.i32, true) ∧ (fmtEnv team.fmt).sat = false ∧
        (LaneArg.vec a).lane team 4 = some 43#32) ∧
    ((teamOf (next (exec (.vscanAdd true 2#7 1#7 true false) (part team)))).getV (.team 2)).lanes.getD 4 none = some 69#32 := by
  simp only [List.mem_cons, List.not_mem_nil, or_false, forall_eq_or_imp, forall_eq]
  refine ⟨⟨⟨_, _, _, _, _, _, _, rfl, rfl, ?_, ?_, ?_, ?_⟩, ⟨_, _, _, _, _, _, _, rfl, rfl, ?_, ?_, ?_, ?_⟩,
    ⟨_, _, _, _, _, _, _, rfl, rfl, ?_, ?_, ?_, ?_⟩⟩, ?_⟩ <;> decide +kernel

/-- 1.5 + 2.25 in f32, the f64 of the f32 1.5, and -2.0 as an i64: exact results. -/
theorem wit_IntegerLanesWrap_floats :
    (∀ x ∈ [(Instr.gfaddF32 0#3 2#7 40#7 41#7, [(0x3FC00000#64 : DWord), 0x40100000#64], (0x40700000#64 : DWord)),
        (.gfcvtF64F32 0#3 2#7 40#7, [0x3FC00000#64], 0x3FF8000000000000#64),
        (.gfcvtI64F64 0#3 2#7 40#7, [0xC000000000000000#64], 0xFFFFFFFFFFFFFFFE#64)],
      let tm := gives (gives team 40 (x.2.1.getD 0 0#64)) 41 (x.2.1.getD 1 0#64)
      ∃ row, floatRow x.1 = some row ∧ OperandsReady tm (row.args.map fun a => ⟨a.toNat, 1⟩) [] [⟨row.d.toNat, 1⟩] ∧
        (fmtEnv tm.fmt).env.ftz = false ∧ groupUs tm (row.args.map fun a => ⟨a.toNat, 1⟩) = x.2.1 ∧
        (row.dst.value x.2.2).isSome = true ∧
        (teamOf (next (exec x.1 (part tm)))).getU (.team 2) = ⟨x.2.2, true, none⟩) := by
  simp only [List.mem_cons, List.not_mem_nil, or_false, forall_eq_or_imp, forall_eq]
  refine ⟨⟨_, rfl, ?_, ?_, ?_, ?_, ?_⟩, ⟨_, rfl, ?_, ?_, ?_, ?_, ?_⟩, ⟨_, rfl, ?_, ?_, ?_, ?_, ?_⟩⟩ <;> decide +kernel

theorem wit_BitLanes : ∀ i ∈ [Instr.vxorLa 2#7 0#7 1#7 true false true, .vandLu 2#7 0#7 5#7 true false false,
      .vsraLi 1#7 0#7 true true 40#8, .vbfx 2#7 0#7 true false 5#5 9#6],
    ∃ d a b k R ra rd, bitRow i = some (d, a, b, k, R) ∧ i.wf = true ∧ (team.vrefs a.toNat 1 1).regs = [ra] ∧
      (team.vrefs d.toNat 1 1).regs = [rd] ∧
      ∀ len op, laneOpOf i = some (len, op) → LaneReady team ((part team).env 0 team) (op team) := by
  simp only [List.mem_cons, List.not_mem_nil, or_false, forall_eq_or_imp, forall_eq]
  refine ⟨⟨_, _, _, _, _, _, _, rfl, rfl, rfl, rfl, ?_⟩, ⟨_, _, _, _, _, _, _, rfl, rfl, rfl, rfl, ?_⟩,
    ⟨_, _, _, _, _, _, _, rfl, rfl, rfl, rfl, ?_⟩, ⟨_, _, _, _, _, _, _, rfl, rfl, rfl, rfl, ?_⟩⟩ <;>
  · intro len op h
    cases h
    decide +kernel

theorem wit_LaneMoves : ∀ i ∈ [Instr.vmov 2#7 0#7 true false, .vmask 2#7 0#7 1#7 true true true, .vmerge 2#7 1#7 0#7 false false true,
      .vlane 2#7, .vfillLu 2#7 1#7 5#7 false false, .vfillLx 2#7 1#7 true 9#32, .vbcastLu 2#7 0#7 0#7 false false true,
      .vbcastLi 2#7 0#7 false true 31#8, .vperm 2#7 0#7 1#7 false false false, .vshflLa 2#7 0#7 1#7 false false false,
      .vshflLi 2#7 0#7 false false 5#8, .vcompress 2#7 1#7 false true, .vexpand 2#7 1#7 0#7 true false false,
      .vfirstLu 2#7 1#7 5#7 false false true, .vfirstLi 2#7 1#7 true false 3#8],
    ((moveRow i).isSome && match laneOpOf i with
      | some x => decide (LaneReady team ((part team).env 0 team) (x.2 team))
      | none => false) = true := by decide +kernel

theorem wit_GroupInstructionsComplete : ∃ len sq op, groupOpOf (.gaddGa 0#3 3#7 1#7 2#7) = some (len, sq, op) ∧
    GroupReady team (op team) ∧ does team (groupWritten team false (op team)) len sq (.gaddGa 0#3 3#7 1#7 2#7) :=
  ⟨_, _, _, rfl, by decide +kernel, by unfold does; decide +kernel⟩

theorem wit_UniformIntegers : ∀ i ∈ [Instr.gsubGa 0#3 3#7 1#7 2#7, .gshrGi 0#3 3#7 1#7 127#7, .gcmpGa 0#3 1#7 2#7],
    ∃ sq d a b row, intRow i = some (sq, d, a, b, row) ∧
      OperandsReady team (⟨a.toNat, 1⟩ :: b.uses) [] (d.toList.map fun x => ⟨x.toNat, 1⟩) ∧
      (seqDone team team ((part team).env 0 team) 4 sq).isSome = true := by
  simp only [List.mem_cons, List.not_mem_nil, or_false, forall_eq_or_imp, forall_eq]
  exact ⟨⟨_, _, _, _, _, rfl, by decide +kernel, by decide +kernel⟩, ⟨_, _, _, _, _, rfl, by decide +kernel, by decide +kernel⟩,
    ⟨_, _, _, _, _, rfl, by decide +kernel, by decide +kernel⟩⟩

theorem wit_MovesAndSelect : OperandsReady team [⟨40, 1⟩] [] [⟨2, 1⟩] ∧ OperandsReady team [⟨1, 1⟩, ⟨2, 1⟩] [] [⟨3, 1⟩] ∧
    does team (gives team 2 140#64) 4 0#3 (.gmov 0#3 2#10 40#10) ∧ does team (gives team 2 0xFFFFFFFFFFFFFFFF#64) 4 0#3 (.gli 0#3 2#7 0x3FFF#14) ∧
    does team (gives team 41 0xFFFFFFFF80000000#64) 8 0#3 (.gliw 0#3 41#10 0x80000000#32) ∧
    does team (gives team 3 101#64) 8 0#3 (.gsel 0#3 3#7 1#7 2#7 0#4) ∧ does team (gives team 3 102#64) 8 0#3 (.gsel 0#3 3#7 1#7 2#7 1#4) := by
  unfold does
  decide +kernel

theorem wit_Condition : Condition 0 team.flags ∧ ¬ Condition 1 team.flags := ⟨trivial, fun h => nomatch h⟩

theorem wit_MapReads : OperandsReady team [] [⟨1, 1, 1, false, .map⟩] [⟨3, 1⟩] ∧ OperandsReady team [] [⟨1, 1, 1, false, .value⟩] [⟨3, 1⟩] ∧
    does team { gives team 3 16#64 with flags := zflag false } 4 0#3 (.mapcnt 0#3 3#7 1#7) ∧
    does team { gives team 3 0x55555555#64 with flags := zflag false } 4 0#3 (.mapget 0#3 3#7 1#7 0#7) ∧
    does team { gives team 3 0#64 with flags := zflag true } 4 0#3 (.mapget 0#3 3#7 1#7 1#7) ∧
    does team { gives team 3 16#64 with flags := zflag false } 4 0#3 (.gballot 0#3 3#7 1#7 0#7) ∧
    does team { gives team 3 0#64 with flags := zflag false } 4 0#3 (.gfirst 0#3 3#7 1#7) ∧
    does team { gives team 3 32#64 with flags := zflag true } 4 0#3 (.gfirst 0#3 3#7 2#7) := by
  unfold does
  decide +kernel

theorem wit_MapWrites : OperandsReady (gives team 3 0x3#64) [⟨3, 1⟩] [⟨1, 1, 1, false, .map⟩] [] ∧
    does (gives team 3 0x3#64) { gives team 3 0x3#64 with
        vregs := upd team.vregs 1 fun _ => reg fun j => if j = 0 then some 3 else if j = 1 then some 0 else none } 4 0#3
      (.mapset 0#3 3#7 1#7 0#7) ∧
    does team { team with vregs := upd team.vregs 1 fun _ => VReg.fresh 32 } 4 0#3 (.mapclr 0#3 1#7) := by
  unfold does
  decide +kernel

theorem wit_Reductions : OperandsReady team [] [⟨1, 1, 1, false, .value⟩] [⟨3, 1⟩] ∧ team.ty true = (.i32, true) ∧
    (team.vrefs 1 1 1).regs = [VRef.team 1] ∧ (redRow (.gredMax true 0#3 3#7 1#7)).isSome = true ∧
    does team { gives team 3 2448#64 with flags := zflag false } 4 0#3 (.gredAdd true 0#3 3#7 1#7) ∧
    does team { gives team 3 0xFFFFFFFFFFFFFFFF#64 with flags := ⟨false, true, false, false⟩ } 4 0#3 (.gredAnd true 0#3 3#7 2#7) := by
  unfold does
  decide +kernel

theorem wit_SequenceField :
    does teamJumps teamJumps 4 0#3 (.gnop 0#3) ∧ (next (exec (.gnop 1#3) (part teamJumps))).teams.map (·.pc) = [0x10010#48] ∧
    (next (exec (.gnop 2#3) (part teamJumps))).teams.map (·.pc) = [0x10004#48] ∧
    (next (exec (.gnop 5#3) (part teamJumps))).teams.map (fun t => (t.pc, t.arms, t.fmt)) = [(0x10018#48, [], 0x84#32)] ∧
    (next (exec (.gnop 6#3) (part teamJumps))).teams.map (fun t => (t.pc, t.calls)) = [(0x10030#48, [])] ∧
    (next (exec (.gnop 7#3) (part team))).teams.map (·.status) = [.ending] := by
  unfold does
  decide +kernel

theorem wit_SequenceFieldTraps : stops (.gnop 4#3) (part teamJumps) = some (0x0C, 2) ∧ stops (.gnop 5#3) (part team) = some (0x09, 1) ∧
    stops (.gnop 6#3) (part team) = some (0x0A, 1) ∧ stops (.gnop 7#3) (part teamJumps) = some (0x0B, 0) ∧
    stops (.gnop 3#3) (part teamJumps) = some (0x0C, 0) := by decide +kernel

theorem wit_TargetSlotsAndCalls :
    does team { team with slots := [none, some ⟨0xFFFC#48, 3⟩, none, none] } 8 0#3 (.gtgtGx 0#3 1#2 3#4 0x3FFFFFFF#30) ∧
    OperandsReady (gives team 1 0x10023#64) [⟨1, 1⟩] [] [] ∧
    does (gives team 1 0x10023#64) { gives team 1 0x10023#64 with slots := [some ⟨0x10020#48, 0⟩, none, none, none] } 4 0#3
      (.gtgtGa 0#3 0#2 0#4 1#7) ∧
    (next (exec (.gcallGx 4#30) (part team))).teams.map (fun t => (t.pc, t.calls)) = [(0x10010#48, [0x10008#48])] ∧
    (next (exec (.gcallGa 1#7) (part (gives team 1 0x10023#64)))).teams.map (fun t => (t.pc, t.calls)) = [(0x10020#48, [0x10004#48])] ∧
    stops (.gcallGx 4#30) (part { team with calls := List.replicate 64 0#48 }) = some (0x0A, 0) ∧
    stops (.gcallGx 16#30) (part team) = some (0x0C, 0) := by
  unfold does
  decide +kernel

/-- Guards v0 (every lane), v1 (even lanes) and v2 (none), with three arms. -/
def teamCase : Team := { team with slots := [some ⟨0x10010#48, 0⟩, some ⟨0x10020#48, 0⟩, some ⟨0x10030#48, 0⟩, none] }

theorem wit_CaseArms : ([1#7, 0#7, 2#7].map fun g : BitVec 7 => (teamCase.vrefs g.toNat 1 1).written) =
      [VRef.team 1, .team 0, .team 2].map (fun r => ⟨[], [r]⟩) ∧ ([VRef.team 1, .team 0, .team 2]).Nodup ∧
    (next (exec (.bcase 3#3 1#7 0#7 2#7 0#7) (part teamCase))).teams.map (fun t => (t.pc, t.arms)) =
      [(0x10010#48, [⟨false, 0x10020#48, 4#32⟩, ⟨true, 0x10008#48, 4#32⟩])] ∧
    (next (exec (.bcase 1#3 2#7 0#7 0#7 0#7) (part teamCase))).teams.map (fun t => (t.pc, t.arms)) = [(0x10008#48, [])] := by
  decide +kernel

theorem wit_FormatsCountersFences : OperandsReady team [⟨1, 1⟩] [] [] ∧ does team (gives team 3 4#64) 4 0#3 (.getfmt 0#3 3#7) ∧
    does team { team with fmt := 0x2AB#32 } 4 0#3 (.setfmtGk 0#3 0x2AB#14) ∧
    does (gives team 1 0x12B#64) { gives team 1 0x12B#64 with fmt := 0x12B#32 } 4 0#3 (.setfmtGa 0#3 1#7) ∧
    stops (.setfmtGk 0#3 0x0C#14) (part team) = some (0x0E, 0) ∧ stops (.setfmtGk 0#3 0xC0#14) (part team) = some (0x0E, 0) ∧
    does team team 4 0#3 (.waitlt 0#3 2#3 1#14) ∧
    (next (exec (.waitlt 0#3 2#3 1#14) (part { team with cc := [0#16, 0#16, 1#16] }))).teams.map (·.wait) = [.counter 2 1] ∧
    does team { team with cc := upd team.cc 2 fun _ => 3#16 } 4 0#3 (.ccadd 0#3 2#3 3#14) ∧
    stops (.ccadd 0#3 2#3 0x3FFF#14) (part team) = some (0x27, 0) ∧ does team team 4 0#3 (.fence 0#3 3#3) := by
  unfold does
  decide +kernel

theorem wit_Allotments : (part team).uniFree team = 4048 ∧ 65536 ≤ (part team).saveRoom team ∧
    does team { team with area := teamArea 32 10 48, vregs := team.vregs ++ [VReg.fresh 32, VReg.fresh 32] } 4 0#3 (.grow 0#3 0#7 2#14) ∧
    does team { team with area := teamArea 32 8 49, uregs := team.uregs ++ [UReg.zero] } 4 0#3 (.grow 0#3 1#7 1#14) ∧
    does team { team with flags := zflag true } 4 0#3 (.grow 0#3 0#7 121#14) ∧
    does team { team with vregs := team.vregs.take 6, resv := 6 } 4 0#3 (.shrink 0#3 0#7 2#14) ∧
    stops (.shrink 0#3 0#7 8#14) (part team) = some (0x04, 1) ∧ stops (.shrink 0#3 1#7 17#14) (part team) = some (0x04, 1) := by
  unfold does
  decide +kernel


theorem wit_Completes : SeqFits team ((part team).env 0 team) 0#3 ∧ SeqFits team ((part team).env 0 team) 7#3 ∧
    SeqFits teamJumps ((part team).env 0 teamJumps) 1#3 ∧ SeqFits teamJumps ((part team).env 0 teamJumps) 5#3 ∧
    SeqFits teamJumps ((part team).env 0 teamJumps) 6#3 :=
  ⟨.inl rfl, .inr (.inl ⟨rfl, rfl⟩), .inr (.inr (.inr (.inr ⟨by decide, by decide, _, rfl, by decide +kernel⟩))),
    .inr (.inr (.inl ⟨rfl, _, _, rfl, by decide +kernel⟩)), .inr (.inr (.inr (.inl ⟨rfl, _, _, rfl, by decide +kernel⟩)))⟩

theorem wit_SpecialRegisters : OperandsReady team [] [] [⟨3, 1⟩] ∧ OperandsReady team [⟨1, 1⟩] [] [] ∧
    (∀ x ∈ [(0, 0), (1, 0), (2, 0), (3, 1), (4, 2 + 8 * 65536), (5, 8 + 48 * 65536), (6, 0), (7, 7 * 65536), (8, 0)],
      next (exec (.gsysRd 0#3 3#7 (BitVec.ofNat 12 x.1)) (part { team with cc := upd team.cc 1 fun _ => 7#16 })) =
        (part { team with cc := upd team.cc 1 fun _ => 7#16 }).teamNow
          { gives team 3 (BitVec.ofNat 64 x.2) with
            cc := upd team.cc 1 fun _ => 7#16, pc := 0x10004#48, lastPc := 0x10000#48, lastIssue := 1 }) ∧
    does team { team with fx := 37#6 } 4 0#3 (.gsysWr 0#3 1#7 0#12) ∧ team.computing = false ∧
    (∀ i ∈ [Instr.gsysRd 0#3 3#7 0#12, .gsysWr 0#3 1#7 0#12], (teamOf (next (exec i (part { team with
      inflight := [⟨0x10000#48, [.uni (.team 5) 0#64], [], [], false⟩] })))).wait = .flags) := by
  unfold does
  decide +kernel

theorem wit_SoftwareTrapsAndEnds : stops (.gtrap 0#3 77#14) (part team) = some (0x0F, 77) ∧ stops (.gbrk 0#3 9#14) (part team) = some (0x38, 9) ∧
    (next (exec .gend (part team))).teams.map (·.status) = [.ending] ∧ stops .gend (part teamJumps) = some (0x0B, 0) ∧
    (next (exec .gendDrop (part teamJumps))).teams.map (fun t => (t.status, t.arms)) = [(.ending, [])] := by decide +kernel

/-- In stray mode at depth 1 of a G-set stray, of an L-set one, and at depth 2. -/
def teamStray : Team := teamOf (next (exec (.stray 0xA7000000#32 0#32) (part team)))
def teamStrayL : Team := teamOf (next (exec (.stray 0x6F000000#32 0#32) (part team)))
def teamStray2 : Team := teamOf (next (exec (.stray 0xA7000000#32 0#32) (part teamStray)))

theorem wit_NoHalt : NoHalt team ((part team).env 0 team) ∧ NoHalt teamStray ((part teamStray).env 0 teamStray) := by
  unfold NoHalt
  decide +kernel

theorem wit_StrayEntry : strayOf 0xA7000000#32 0#32 = some .reservedOpcode ∧ ((part team).env 0 team).hLo = 0x10020 ∧
    (teamStray.pc, teamStray.stray.length, teamStray.status) = (0x10020#48, 1, .run) ∧
    (teamStray2.pc, teamStray2.stray.length) = (0x10020#48, 2) ∧ stops (.stray 0xA7000000#32 0#32) (part teamStray2) = some (0x28, 1) ∧
    (let i := Instr.vmed3VectorC true 2#7 0#7 1#7 false false false 0#7 false; (encode i).length = 2 ∧ strayOf ((encode i).getD 0 0#32) ((encode i).getD 1 0#32) = some (.absentCapability 2) ∧
      (teamOf (next (exec i (part team)))).stray.length = 1) ∧
    (let s := (part team).updCtx 1 (fun c => { c with desc := upd c.desc 4 fun _ => 0#64 }); (s.env 0 team).hLo = 0 ∧ stops (.stray 0xA7000000#32 0#32) s = some (0x29, 1)) := by decide +kernel

theorem wit_StrayReturn : (teamStray.stray.map fun f => (isG f.raw0, gQ f.raw0)) = [(true, 0#3)] ∧
    (teamStrayL.stray.map fun f => isG f.raw0) = [false] ∧
    (∀ t ∈ [teamStray, teamStrayL], (teamOf (next (exec .sret (part t)))).pc = 0x10004#48) ∧
    (teamOf (next (exec .sretAgain (part teamStray)))).pc = 0x10000#48 ∧ stops (.sretTrap 0x3E#6) (part teamStray) = some (0x3E, 0) ∧
    (∀ i ∈ [Instr.sret, .sretAgain, .sretTrap 5#6], stops i (part team) = some (0x2A, 1)) := by decide +kernel

/-! Memory: the team with handles 1, 2 and 3 in g1, g2 and g3, values in v4 and v5, multiples of 4 in v3. -/

def teamMem : Team :=
  { gives (gives (gives team 1 1#64) 2 2#64) 3 3#64 with
    vregs := team.vregs.take 3 ++ [reg fun j => if j < 8 then some (4 * j) else none, reg fun j => some (1000 + j), reg fun j => some (2 ^ 30 + j)] ++ team.vregs.drop 6 }

theorem issuesIn (tm : Team) (h : tm.status = .run) (hf : tm.fold = 0) : IssuesIn (part tm) fold tm := by
  refine ⟨⟨rfl, h⟩, ?_⟩
  rw [hf]
  rfl

/-- Do a lane memory instruction and its operands meet the hypotheses of the statement about it? -/
def memWit (tm : Team) (i : Instr) (left : Bool) : Bool :=
  let s := { part tm with overlap := left }
  match memOpOf i with
  | none => false
  | some m =>
    match s.useRec (s.tlbOf tm) fold (memHandle tm m) with
    | .bad _ _ => false
    | .ok r keep =>
      let fates := memFates (memBegun s tm m keep) fold tm m r
      let ok := goingOn fates
      let s2 := memFetched (memBegun s tm m keep) fold tm m r
      let n := m.n * r.size
      let blank := ok.map fun x => (x.1, List.replicate n (0#8 : Byte))
      let runs := (ok.map laneRuns).flatten
      let core := s2.coreOf tm
      let s3 := if m.kind == .atom then s2.atomBegin tm m.scope r.enc runs else memSeen s2 tm m r ok
      decide (MemReady s fold tm m r keep) && (!left || !ok.isEmpty) && (m.kind == .pref || faultsOf fates == []) &&
        (m.kind == .store || m.kind == .pref || left || s3.arrivalFaults core fold.ctx (if m.kind == .atom then r.size else n) m.strong r ok == []) &&
        (m.kind == .load || m.kind == .pref || s3.refused (ok.map fun x => (x.1, laneRuns x)) == []) &&
        (m.kind != .store || !m.strong || !s2.mix fold.ctx || ok.all fun x => !s2.mixed fold.ctx (pieceAddr x.2.2) n) &&
        (m.kind != .store || ok.all fun x => if r.coded then (s2.coreLeaves core runs).poisonOf x.2.2 == [] else s2.partPoison runs (laneRuns x) == []) &&
        decide (slotsDrawn tm (if m.kind == .atom then atomWrites tm m r blank else loadWrites tm m r fates blank) ≤ (s.env 0 tm).slots)

theorem wit_LaneLoadsComplete : (∀ i ∈ [Instr.vld 2#7 0#7 0#7 false false, .vldR 2#7 0#7 2#7 false false, .vldwX2 2#7 3#7 0#7 false true,
      .vldwX4 4#7 3#7 0#7 false true, .vldAcq 4#7 0#7 3#7 false true 3#3, .vpref 0#7 0#7 false], memWit teamMem i false = true) ∧
    memWit teamMem (.vld 2#7 0#7 0#7 false false) true = true := by decide +kernel


/-- A team whose v6 has lane 5 alone, with index 3. -/
def teamOne : Team := { teamMem with vregs := teamMem.vregs.take 6 ++ [reg fun j => if j = 5 then some 3 else none] ++ teamMem.vregs.drop 7 }

/-- Do a load and its operands meet the hypotheses of the statement about a lane's value, for lane `j` and element `x` at `pa`? -/
def loadWit (tm : Team) (i : Instr) (j x pa : Nat) : Bool :=
  let s := part tm
  match memOpOf i with
  | none => false
  | some m =>
    match s.useRec (s.tlbOf tm) fold (memHandle tm m) with
    | .bad _ _ => false
    | .ok r keep =>
      let s1 := memBegun s tm m keep
      let ok := goingOn (memFates s1 fold tm m r)
      memWit tm i false && decide (m.kind = .load ∧ m.miss = false ∧ s.overlap = false ∧ s.decoded = [] ∧ s.l1d = [] ∧ s.l1b = [] ∧ (s.ctx fold.ctx).setsDue = false ∧
        (j, x) ∈ memLanes tm m r ∧ r.inBounds x m.n = true) &&
        (if r.coded then decide (blocksOf ok = [([(pa, blockBytes r.rate)], false)])
        else decide (r.addr x % 65536 + m.n * r.size ≤ 65536 ∧ s1.translate (s1.tlbOf tm) fold.ctx (r.addr x) .read = .ok pa false))

/-- The lanes `j` of registers of the team after an instruction. -/
def laneAfter (s : State) (i : Instr) (rs : List Nat) (j : Nat) : List (Option Word) :=
  rs.map fun r => ((teamOf (next (exec i s))).getV (.team r)).lanes.getD j none

theorem wit_PlainLoadValue : loadWit teamMem (.vld 2#7 0#7 0#7 false false) 5 5 0x31014 = true ∧
    loadWit teamMem (.vldwX4 4#7 3#7 0#7 false true) 2 8 0x31020 = true ∧ loadWit teamOne (.vld 4#7 6#7 3#7 false false) 5 3 0x31200 = true ∧
    laneAfter ((part teamMem).memStore 0x31020 (bytesOf 8 0x1122334455667788 ++ bytesOf 8 0x99)) (.vldwX4 4#7 3#7 0#7 false true) [4, 5, 6, 7] 2 =
      [some 0x55667788#32, some 0x11223344#32, some 0x99#32, some 0#32] := by decide +kernel

/-- One value in every element of a block stands there and is read back from it. -/
theorem test_coded_load : laneAfter ((part teamOne).memStore 0x31200 (encodeBlock 0 (List.replicate 16 0x3FF0000000000000)))
    (.vld 4#7 6#7 3#7 false false) [4, 5] 5 = [some 0#32, some 0x3FF00000#32] := by decide +kernel

theorem wit_LaneStoresComplete : ∀ i ∈ [Instr.vst 4#7 0#7 0#7 true true, .vst 4#7 0#7 3#7 true true, .vstwX2 4#7 3#7 0#7 true true,
    .vstwX4 0#7 3#7 0#7 true true, .vstRel 4#7 0#7 0#7 true true 3#3], memWit teamMem i false = true := by decide +kernel

theorem wit_PlainStoreFrame : (((part teamMem).ctx fold.ctx).setsDue = false ∧ (part teamMem).decoded = [] ∧ (part teamMem).written = true ∧ fold.ctx ≠ 0) ∧ memWit teamMem (.vst 4#7 3#7 0#7 true true) false = true := by
  decide +kernel

theorem wit_LaneAtomicsComplete : (∀ i ∈ [Instr.vatomAdd 4#7 0#7 0#7 true true false 3#3 true, .vatomCas 4#7 0#7 0#7 false false false 1#3 true,
      .vatomMin 4#7 3#7 0#7 false false false 0#3 false true, .vatomXchg 4#7 3#7 0#7 false false true 4#3 true],
      memWit teamMem i false = true) ∧
    (∀ x ∈ [(AtOp.add, false, 0xFFFFFFF0 + 0x20 - 2 ^ 32), (.and, false, 0x20 &&& 0xFFFFFFF0), (.or, false, 0xFFFFFFF0), (.xor, false, 0xFFFFFFD0),
        (.xchg, false, 0x20), (.cas, false, 0xFFFFFFF0), (.min, true, 0x20), (.max, true, 0xFFFFFFF0), (.min, false, 0xFFFFFFF0), (.max, false, 0x20)],
      let r := ((part team).memStore 0x40 (bytesOf 4 0xFFFFFFF0)).atomAt x.1 x.2.1 4 0x40 0x20 0x77
      r.1 = 0xFFFFFFF0 ∧ numOf (memRead r.2.mem 0x40 4) = x.2.2) := by decide +kernel

/-- Does an access to scratch or the accumulator store meet the hypotheses of the statement about it? -/
def storeWit (tm : Team) (i : Instr) : Bool :=
  match storeOpOf i with
  | none => false
  | some m =>
    let s := part tm
    let b := 4 * widthRegs (storeDesc tm m)
    let ws := colWrites tm m.keep (storeRegs tm m).regs ((List.range (widthRegs (storeDesc tm m))).map
      (colLanes tm.w ((storeLanes tm m).map fun x => (x.1, (List.range b).map fun k => s.busByte (storePa fold tm m x.2 + k)))))
    decide (StoreReady fold tm m) && s.accTouched 0 fold == [] && s.accWritten 0 fold == [] && !(storeLanes tm m).isEmpty &&
      (m.store || ((storeLanes tm m).all fun x => s.poisonIn (storePa fold tm m x.2) b == []) && decide (slotsDrawn tm ws ≤ (s.env 0 tm).slots))

/-- Lane 5 alone in v6, with index 24. -/
def teamLane : Team := { team with vregs := team.vregs.take 6 ++ [reg fun j => if j = 5 then some 24 else none] }

theorem wit_ScratchAccess : (∀ i ∈ [Instr.vlds 2#7 3#7 0#7 false false, .vbld 2#7 0#7 0#7 false true, .vldacc 2#7 3#7 0#7 false false,
      .vsts 0#7 3#7 0#7 false false, .vstacc 0#7 3#7 0#7 false false], storeWit teamMem i = true) ∧
    (∀ i ∈ [Instr.vsts 6#7 6#7 0#7 false false, .vstacc 6#7 6#7 0#7 false false], storeWit teamLane i = true ∧
      ((storeOpOf i).map fun m => storeLanes teamLane m) = some [(5, 24)]) ∧
    memRead (next (exec (.vsts 6#7 6#7 0#7 false false) (part teamLane))).mem (scratchAddr 0 24) 4 = [24#8, 0#8, 0#8, 0#8] := by
  decide +kernel

/-- What becomes of a uniform access whose operands and record are there, as a number: 0 dropped, 1 missing, 2 goes on. -/
def gWit (tm : Team) (i : Instr) : Option Nat :=
  match gmemOf i with
  | none => none
  | some m =>
    match (part tm).useRec ((part tm).tlbOf tm) fold (gmemHandle tm m) with
    | .bad _ _ => none
    | .ok r keep =>
      if decide (GMemReady (part tm) fold tm m r keep) then
        match gmemFate (part tm) fold tm m r keep with
        | .dropped => some 0
        | .missing => some 1
        | .ok ps =>
          let s1 := gmemBegun (part tm) fold tm m r keep
          let runs := (ps.map (·.segs)).flatten
          let s2 := if m.kind == .atom then s1.atomBegin tm m.scope r.enc runs else if m.kind == .store && r.coded then s1.coreLeaves (s1.coreOf tm) runs else s1
          let ill := if m.kind == .store then (if r.coded then s2.poisonOf ps else s2.partPoison runs runs)
            else s2.poisonAtCore (s1.coreOf tm) r ps
          if ill == [] && s2.refused [(0, runs)] == [] && !(m.strong && s2.mix fold.ctx && s2.mixed fold.ctx (pieceAddr ps) r.size)
          then some 2 else none
        | .faults _ => none
      else none

theorem wit_UniformAccess : gWit teamMem (.gldGi 0#3 9#7 0#7 32#7) = some 0 ∧ gWit teamMem (.gldGi 0#3 9#7 2#7 3#7) = some 1 ∧
    gWit teamMem (.gstGi 0#3 9#7 0#7 32#7) = some 0 ∧ gWit teamMem (.gldGa 0#3 9#7 0#7 1#7) = some 2 ∧
    gWit teamMem (.gstGi 0#3 9#7 1#7 3#7) = some 2 ∧ gWit teamMem (.gstGi 0#3 9#7 3#7 3#7) = some 2 ∧
    gWit teamMem (.gatomAdd 0#3 9#7 0#7 40#7 10#7 3#3 true) = some 0 ∧ gWit teamMem (.gatomCas 0#3 9#7 0#7 1#7 10#7 3#3 true) = some 2 ∧
    (teamOf (next (exec (.gldGi 0#3 9#7 2#7 3#7) (part teamMem)))).flags = ⟨false, false, false, true⟩ ∧
    (teamOf (next (exec (.gatomCas 0#3 9#7 0#7 1#7 10#7 3#3 true) (part { gives teamMem 10 0#64 with flags := zflag false })))).flags =
      ⟨true, false, true, false⟩ ∧
    memRead (next (exec (.gstGi 0#3 9#7 1#7 3#7) (part teamMem))).mem 0x31118 8 = bytesOf 8 109 := by decide +kernel

/-! Engines: a team with a block in g16 to g23. -/

def teamBlk (ws : List Nat) : Team := { team with uregs := team.uregs.take 16 ++ ws.map (fun x => ⟨dwordOfNat x, true, none⟩) ++ team.uregs.drop 24 }
/-- A product of i8 matrices of 32 by 32 and 32 by 64 from scratch 0 and 2,048 into accumulator 0. -/
def mmaWords : List Nat := [2 * 2 ^ 52 + 2 * 2 ^ 48 + 32 * 2 ^ 32 + 64 * 2 ^ 16 + 32, 0, 2048, 0, 0, 0, 0, 0]

/-- The checks of an engine instruction of the block in g16: does it pass, is there room? -/
def engWit (s : State) (tm : Team) (i : Instr) : Bool × Bool :=
  match engIssueOf i with
  | none => (false, false)
  | some (_, g, _, x) => (decide (EngReady s fold tm g x), (engOpened s fold tm g x).hasRoom? fold tm (x.room tm (engBlock tm g x.n)))

/-- The small state with every entry of the table of paddock 0 held. -/
def partFull (tm : Team) : State :=
  (part tm).updPad 0 fun p => { p with table := List.replicate 32 (newEntry .mma 0 (arrBlk []) ⟨0, 0, [], 0#48, 0⟩ 0 0) }

theorem wit_EngineInstructionsComplete : engWit (part (teamBlk mmaWords)) (teamBlk mmaWords) (.mma 0#3 16#10 2#3) = (true, true) ∧
    (teamOf (next (exec (.mma 0#3 16#10 2#3) (part (teamBlk mmaWords))))).cc = [0#16, 0#16, 1#16, 0#16, 0#16, 0#16, 0#16, 0#16] ∧
    OperandsReady (teamBlk mmaWords) [⟨16, 8⟩] [] [] ∧
    stops (.mma 0#3 16#10 2#3) (part { teamBlk mmaWords with arms := [⟨true, 0#48, 4#32⟩] }) = some (0x0D, 0) ∧
    ((arrIssue .mma 2#3).checks (part (teamBlk [0, 0, 0, 0, 0, 0, 0, 0])) fold team (List.replicate 8 0#64)).1.map (·.1) = [0x20] ∧
    stops (.mma 0#3 16#10 2#3) (part (teamBlk [0, 0, 0, 0, 0, 0, 0, 0])) = some (0x20, 0) ∧
    engWit (partFull (teamBlk mmaWords)) (teamBlk mmaWords) (.mma 0#3 16#10 2#3) = (true, false) ∧
    (teamOf (next (exec (.mma 0#3 16#10 2#3) (partFull (teamBlk mmaWords))))).wait = .engine (.table none) ∧
    stops (.mma 0#3 16#10 2#3) (part { teamBlk mmaWords with cc := List.replicate 8 65535#16 }) = some (0x27, 0) := by decide +kernel

/-- Is an instruction with a block of zeros accepted? -/
def accepted (i : Instr) : Bool :=
  match engIssueOf i with
  | some (_, _, c, x) => (x.accept ((part team).counted c) fold team (List.replicate x.n 0#64)).toOption.isSome
  | none => false

theorem wit_EngineWorkIsHeld : (∀ i ∈ [Instr.mma 0#3 16#10 2#3, .mtrans 0#3 16#10 2#3, .mperm 0#3 16#10 2#3, .mrsum 0#3 16#10 2#3,
      .mmaJ 0#3 16#10 2#3, .mmaR 0#3 16#10 2#3, .mzero 0#3 16#10 2#3, .mdrain 0#3 16#10 2#3, .wtab 0#3 16#10 2#3, .copy 0#3 16#10 2#3,
      .nsend 0#3 16#10 2#3, .xpost 0#3 16#10 2#3 0#2], accepted i = true) ∧
    (∀ q ∈ ((part team).pad 0).queues, q.bound = none) ∧ ((part team).pad 0).joint 0 0 = none ∧
    (((part team).pad 0).queues[0]?).map (fun q => q.closed) = some false ∧
    0 < (part team).paddocks.length ∧ 1 < (part team).ctxs.length ∧ ((part team).ctx 1).desc.length = 32 := by decide +kernel

/-- The small state with queue 3 of the team's fold as given. -/
def partQ (tm : Team) (q : Queue) : State := (part tm).updPad 0 fun p => { p with queues := upd p.queues 3 fun _ => q }

/-- An open queue of 4 slots of 16 bytes at scratch 0 of core 0, with 3 reserved, 2 arrived, 1 taken and none released. -/
def queue : Queue := { Queue.empty with owner := some 0, t := 3, a := 2, k := 1, h := 0, desc := dwordOfNat (16 * 2 ^ 40 + 2 * 2 ^ 36) }

/-- What a queue instruction leaves in queue 3, and Z of the team. -/
def queueAfter (i : Instr) (tm : Team) (q : Queue) : (Nat × Nat × Nat × Nat) × List Nat × Bool × Wait :=
  let t := next (exec i (partQ tm q))
  let x := (t.pad 0).queues.getD 3 Queue.empty
  ((x.t, x.a, x.k, x.h), x.pub, (teamOf t).flags.z, (teamOf t).wait)

theorem wit_QueueInstructionsComplete : OperandsReady team [⟨1, 1⟩] [] [⟨2, 2⟩] ∧ inAlloc fold.scratch 0 0 (2 ^ 2 * 16) = true ∧
    ∀ x ∈ [(Instr.qres 0#3 2#7 1#7 3#4, 1, queue, (4, 2, 1, 0), false), (.qresTry 0#3 2#7 1#7 3#4, 1, queue, (4, 2, 1, 0), false),
      (.qresTry 0#3 2#7 1#7 3#4, 2, queue, (3, 2, 1, 0), true), (.qtake 0#3 2#7 1#7 3#4, 2, queue, (3, 2, 2, 0), false),
      (.qrel 0#3 1#7 3#4, 1, queue, (3, 2, 1, 1), false), (.qwait 0#3 1#7 3#4, 1, queue, (3, 2, 1, 0), false),
      (.qwait 0#3 1#7 3#4, 2, { queue with closed := true }, (3, 2, 1, 0), true), (.qpub 0#3 1#7 3#4, 2, queue, (3, 3, 1, 0), false),
      (.qpub 0#3 1#7 3#4, 2, { queue with t := 4, pub := [3] }, (4, 4, 1, 0), false), (.qclose 0#3 3#4, 0, queue, (3, 2, 1, 0), false),
      (.qopen 0#3 1#7 3#4, queue.desc.toNat, Queue.empty, (0, 0, 0, 0), false)],
      queueAfter x.1 (gives team 1 (dwordOfNat x.2.1)) x.2.2.1 = (x.2.2.2.1, [], x.2.2.2.2, .none) := by decide +kernel

theorem wit_QueueInstructionsTrap : (∀ x ∈ [(Instr.qres 0#3 2#7 1#7 3#4, 1, { queue with owner := none }, 0),
      (.qopen 0#3 1#7 3#4, 16 * 2 ^ 40, { queue with owner := some 1 }, 1), (.qopen 0#3 1#7 3#4, 16 * 2 ^ 40, queue, 1),
      (.qopen 0#3 1#7 3#4, 8 * 2 ^ 40, Queue.empty, 2), (.qwait 0#3 1#7 3#4, 0, queue, 3), (.qtake 0#3 2#7 1#7 3#4, 5, queue, 3),
      (.qpub 0#3 1#7 3#4, 3, queue, 4), (.qpub 0#3 1#7 3#4, 1, queue, 4), (.qrel 0#3 1#7 3#4, 2, queue, 5),
      (.qresTry 0#3 2#7 1#7 3#4, 1, { queue with closed := true }, 6), (.qtake 0#3 2#7 1#7 3#4, 1, { queue with bound := some 0 }, 7),
      (.qrel 0#3 1#7 3#4, 1, { queue with bound := some 0 }, 7)],
      stops x.1 (partQ (gives team 1 (dwordOfNat x.2.1)) x.2.2.1) = some (0x25, x.2.2.2)) ∧
    (queueAfter (.qres 0#3 2#7 1#7 3#4) (gives team 1 2#64) queue).2.2.2 = .queue 3 .free 2 ∧
    (queueAfter (.qtake 0#3 2#7 1#7 3#4) (gives team 1 1#64) { queue with k := 2 }).2.2.2 = .queue 3 .take 1 ∧
    (queueAfter (.qwait 0#3 1#7 3#4) (gives team 1 2#64) queue).2.2.2 = .queue 3 .count 2 := by decide +kernel


/-- The small state with its fold changed. -/
def partF (tm : Team) (f : Fold → Fold) : State := (part tm).updFold 0 f

theorem wit_PointersFencesPower :
    (∀ x ∈ [(Instr.cwp 0#3 2#7 1#2, 64), (.cwpCore 0#3 2#7 0#2 1#2, 64), (.cwpCore 0#3 2#7 3#2 1#2, 0)],
      (teamOf (next (exec x.1 (partF team fun f => { f with chans := [⟨0, 1, 64⟩] })))).getU (.team 2) = ⟨BitVec.ofNat 64 x.2, true, none⟩) ∧
    (∀ x ∈ [(Instr.cwait 0#3 2#7 1#2, 64, Wait.none), (.cwait 0#3 2#7 1#2, 65, .channel 0 1 65), (.cwaitCore 0#3 2#7 0#2 1#2, 64, .none),
        (.cwaitCore 0#3 2#7 1#2 1#2, 1, .channel 1 1 1)],
      (teamOf (next (exec x.1 (partF (gives team 2 (BitVec.ofNat 64 x.2.1)) fun f => { f with chans := [⟨0, 1, 64⟩] })))).wait = x.2.2) ∧
    (let t := next (exec (.mopfence 0#3) (partF { team with unfenced := [(5, 1#8)] } fun f => { f with shared := [(9, 2#8)] }));
      (teamOf t).unfenced = [] ∧ t.folds.map (·.shared) = [[]]) ∧
    (∀ x ∈ [(0, false, false, [], Wait.none), (1, true, false, [0], .none), (1, false, false, [0], .claim), (1, true, true, [0], .claim)],
      let s := (part (gives team 1 (BitVec.ofNat 64 x.1))).updPad 0 fun p => { p with slot := x.2.1, fall := x.2.2.1, claims := [0] }
      (teamOf (next (exec (.pwclaim 0#3 2#7 1#7) s))).wait = x.2.2.2.2) ∧
    (teamOf (next (exec (.pwstat 0#3 2#7) (part team)))).getU (.team 2) = ⟨BitVec.ofNat 64 (64 + 65536 * 40 + 4 * 2 ^ 24), true, none⟩ := by
  decide +kernel

/-- The team in a system call of number `k` with arguments for records: handle, first element, count. -/
def teamCall (k : Nat) (args : List DWord) : Team := { team with wait := .syscall, call := some (k, args, .team 2, 0#3) }

theorem wit_SystemCalls : OperandsReady team [⟨4, 4⟩] [] [⟨4, 1⟩] ∧
    (teamOf (next (exec (.gsysCall 0#3 4#7 9#12) (part team)))).call = some (9, [104#64, 105#64, 106#64, 107#64], .team 4, 0#3) ∧
    (teamOf (next (exec (.syscallAnswer 0 7#64) (part (teamCall 9 []))))).getU (.team 2) = ⟨BitVec.allOnes 64, true, none⟩ ∧
    (let t := next (exec (.syscallAnswer 0 7#64) (part (teamCall 2 [1#64, 2#64, 3#64, 4#64])));
      (teamOf t).getU (.team 2) = UReg.zero ∧ (t.ctx 1).seqno = 1) ∧
    (∀ a ∈ [[0#64, 30#64, 4#64, 0#64], [0#64, 4#64, 0#64, 0#64], [0#64, 32#64, 1#64, 0#64]],
      (teamOf (next (exec (.syscallAnswer 0 7#64) (part (teamCall 1 a))))).getU (.team 2) = UReg.zero) ∧
    ([30, 31].all fun j => match (part team).useRec 0 fold 0 with
      | .ok rc _ => (part team).elemResident 1 rc j
      | .bad _ _ => false) = true := by decide +kernel

/-- The small state with a second team of the fold, as given. -/
def part2 (tm u : Team) : State :=
  { (part tm).updFold 0 (fun f => { f with teams := [0, 1], kernel := { f.kernel with teams := 2 } }) with teams := [tm, u] }

theorem wit_FoldMeetings : OperandsReady team [⟨1, 1⟩] [] [⟨2, 1⟩] ∧ groupRegs team [⟨2, 1⟩] = [.team 2] ∧ fold.teams = [0] ∧
    fold.kernel.scheds = [] ∧ fold.phases = 0 ∧ team.idx < fold.kernel.teams ∧ (team.getU (.team 2)).full = true ∧
    (let t := teamOf (next (exec (.fbar 0#3) (part team)));
      t.arrived = none ∧ t.wait = .none ∧ t.pc = 0x10004#48) ∧
    (let t := teamOf (next (exec (.phase 0#3 2#7) (part team)));
      t.arrived = none ∧ t.pc = 0x10004#48 ∧ t.getU (.team 2) = UReg.zero) ∧
    (next (exec (.fbar 0#3) (part2 team { team with idx := 1 }))).teams.map (fun t => (t.pc, t.arrived)) =
      [(0x10000#48, some (.fbar, 0#3)), (0x10000#48, none)] := by decide +kernel

/-- The second team at the barrier. -/
def teamAt : Team := { team with idx := 1, wait := .barrier, arrived := some (.fbar, 0#3), pc := 0x10008#48, lastPc := 0x10008#48 }

theorem wit_FoldMeetings_together : (part2 team teamAt).haltBegun { fold with teams := [0, 1] } = false ∧ fold.victim = false ∧
    (∀ f ∈ (part2 team teamAt).folds, f.teams = [0, 1] ∧ f.victim = false ∧ (part2 team teamAt).haltBegun f = false) ∧
    (part2 team teamAt).decoded = [] ∧ (part2 team teamAt).overlap = false ∧
    (next (exec (.fbar 0#3) (part2 team teamAt))).teams.map (fun t => (t.status, t.pc, t.arrived, t.wait)) =
      [(.run, 0x10004#48, none, .none), (.run, 0x1000C#48, none, .none)] := by decide +kernel

/-- The second team at a phase, having spent 900 cycles. -/
def teamPhase : Team := { teamAt with arrived := some (.phase (.team 3), 0#3), work := 900 }

/-- The small state with two teams in the second phase of a fold with the schedules 1+1 and 2+0 of the stage sets. -/
def partPhase : State := (part2 { team with ran := 100 } teamPhase).updFold 0 fun f => { f with
  phases := 1, kernel := { f.kernel with scheds := [[1, 1, 0, 0], [2, 0, 0, 0], [0, 2, 0, 0]] } }

theorem wit_FoldMeetings_phase : OperandsReady teamPhase [] [] [⟨3, 1⟩] ∧ groupRegs teamPhase [⟨3, 1⟩] = [.team 3] ∧
    (next (exec (.phase 0#3 2#7) partPhase)).folds.map (fun f => (f.phases, f.sched)) = [(2, 0)] ∧
    (next (exec (.phase 0#3 2#7) (partPhase.updFold 0 fun f => { f with sched := 2 }))).folds.map (fun f => (f.phases, f.sched)) = [(2, 2)] ∧
    (let t := next (exec (.phase 0#3 2#7) partPhase);
      t.teams.map (fun u => (u.pc, u.arrived, u.getU (.team 2), u.getU (.team 3))) =
        [(0x10004#48, none, ⟨0#64, true, none⟩, team.getU (.team 3)), (0x1000C#48, none, team.getU (.team 2), ⟨1#64, true, none⟩)]) := by
  decide +kernel

/-- The team at an fmove to a paddock. -/
def teamMoves (p : Nat) : Team := { team with wait := .move, arrived := some (.fmove (.team 2) 0 p, 0#3) }

/-- The small state with two teams as given, whose fold has 256 bytes of scratch and accumulator and a byte in each. -/
def partMoves (tm u : Team) : State :=
  let s := (part2 tm u).updFold 0 fun f => { f with
    kernel := { f.kernel with scratch := 256, acc := 256 }, scratch := [⟨0, 0, 256⟩], acc := [⟨0, 0, 256⟩] }
  (s.memStore (scratchAddr 0 5) [7#8]).memStore (accAddr 0 6) [9#8]

/-- At an fmove to paddock 3, both teams. -/
def partGoing : State := partMoves (teamMoves 3) { teamMoves 3 with idx := 1 }

theorem wit_FoldMoves :
    partGoing.folds.map (fun f => ((partGoing.canMove f 3).isSome, f.teams, f.victim, f.status)) = [(true, [0, 1], false, .resident)] ∧
    (∀ f ∈ partGoing.folds, ∀ a ∈ f.scratch ++ f.acc, a.core < 4 ∧ a.size = f.kernel.scratch ∧ a.size = f.kernel.acc ∧
      a.base + a.size ≤ Config.scratchBytes ∧ a.base + a.size ≤ Config.accBytes) ∧
    (∀ q ∈ (partGoing.pad 0).queues, q.owner ≠ some 0) ∧ partGoing.written = true ∧ Memory.wf partGoing.mem = true ∧
    partGoing.decoded = [] := by decide +kernel

theorem wit_FoldMoves_goes :
    (next (exec (.fmoveTransfer 0) partGoing)).teams.map (fun x => (x.status, x.pc, x.arrived.isNone, x.flags)) =
      List.replicate 2 (.run, 0x10004#48, true, zflag false) ∧
    (next (exec (.fmoveTransfer 0) partGoing)).folds.map (fun f => (f.paddock, f.scratch, f.acc)) = [(3, [⟨0, 0, 256⟩], [⟨0, 0, 256⟩])] ∧
    memRead (next (exec (.fmoveTransfer 0) partGoing)).mem (scratchAddr 12 5) 1 = [7#8] ∧
    memRead (next (exec (.fmoveTransfer 0) partGoing)).mem (accAddr 12 6) 1 = [9#8] ∧
    (let t := next (exec (.fmoveTransfer 0) (part (teamMoves 0)));
      (teamOf t).flags = zflag true ∧ t.folds.map (·.paddock) = [0] ∧ (teamOf t).pc = 0x10004#48) ∧
    (next (exec (.fmoveTransfer 0) partGoing)).teams.map (·.getU (.team 2)) = List.replicate 2 ⟨3#64, true, none⟩ ∧
    OperandsReady (teamMoves 3) [] [] [⟨2, 1⟩] := by decide +kernel

/-- The small state whose job has a node of records of 8 bytes, and whose kernel starts with no coalesced batch. -/
def partN (tm : Team) : State :=
  (part tm).updJob 0 fun j => { j with nodes := [⟨8, 16, 0, [], []⟩] }

theorem wit_WorkIsSubmitted : (team.getV (.team 0)).full = true ∧ team.vnumber 4 % 4 = 0 ∧ OperandsReady (gives team 2 0#64) [⟨2, 1⟩] [⟨4, 2, 1, false, .value⟩] [] ∧
    (let t := next (exec (.emit 0#3 2#7 4#7) (partN { gives team 2 0#64 with vregs := teamMem.vregs }));
      (t.jobs.map fun j => j.nodes.map fun n => (n.recs.length, n.recs.getD 3 [])) = [[(32, bytesOf 4 1003 ++ bytesOf 4 (2 ^ 30 + 3))]] ∧
      (teamOf t).pc = 0x10004#48) ∧
    (teamOf (next (exec (.emit 0#3 2#7 4#7) ((partN { gives team 2 0#64 with vregs := teamMem.vregs }).updJob 0 fun j =>
      { j with nodes := [⟨8, 0, 0, [], []⟩] })))).wait = .engine (.node 0 0 4 2) ∧
    (let t := next (exec (.emit 0#3 2#7 4#7) (partN (gives team 2 0#64)));
      (t.jobs.map fun j => j.nodes.map (·.recs)) = [[[]]] ∧ (teamOf t).pc = 0x10004#48) ∧
    (let w := [2 ^ 16, 2 + 2 ^ 32, 1, 0, 0, 0, 0, 0];
      OperandsReady (teamBlk w) [⟨16, 8⟩] [] [] ∧ launchBad (fun i => w.getD i 0) ((part team).ctx 1).kernels = false ∧ (part team).launchHeld 1 < 256 ∧
      (next (exec (.launch 0#3 16#10) (part (teamBlk w)))).jobs.length = 2) ∧
    (let t := teamOf (next (exec (.vland 2#7 3#7 false) (part (gives team 3 (BitVec.ofNat 64 (2048 * 5 + 8))))));
      (t.getV (.team 2)).full = false ∧ t.landings.map (fun l => (l.window, l.n)) = [(5, 8)] ∧ t.pc = 0x10004#48) ∧
    (part team).windowBound 0 5 = false := by decide +kernel


/-- The team stopped by a software trap, with its record not yet posted. -/
def teamStop : Team := teamOf (next (exec (.gtrap 0#3 5#14) (part team)))

/-- Cause, kind and pc of the stop of team 0. -/
def stopOf (s : State) : Option (Nat × Nat × CodeAddr) := ((s.team? 0).bind (·.stop)).map fun st => (st.cause, st.kind, st.pc)

theorem wit_Halts : ((part2 team teamStop).fold? 0).map (fun f => (f.victim, f.status, f.teams, (part2 team teamStop).haltBegun f)) =
      some (false, .resident, [0, 1], true) ∧ (stopOf (next (exec (.haltArrival 0 0) (part2 team teamStop)))) = some (0x3B, 1, 0x10000#48) ∧
    stopOf (next (exec (.haltArrival 0 0) (partF team fun f => { f with victim := true }))) = some (0x3C, 1, 0x10000#48) ∧
    stopOf (next (exec (.externalDebugHalt 0) (part team))) = some (0x3A, 0, 0x10000#48) ∧
    stopOf (next (exec (.victimStop 0) (partF team fun f => { f with victim := true }))) = some (0x3C, 1, 0x10000#48) ∧
    stopOf (next (exec (.fatalUnclassified 0) (part team))) = some (0x3F, 4, 0#48) ∧
    (next (exec (.fatalUnclassified 0) (part team))).frozen = true := by decide +kernel

theorem wit_HaltSkid : (teamOf (next (exec (.haltArrival 0 9) (part2 team teamStop)))).halt = some (0x3B, 9, 0) ∧
    ((teamOf (next (exec (.gnop 0#3) (part2 { team with halt := some (0x3B, 2, 1) } teamStop)))).stop.map fun st => (st.cause, st.skid)) =
      some (0x3B, 2) ∧
    (teamOf (next (exec (.gnop 0#3) (part2 { team with halt := some (0x3B, 3, 1) } teamStop)))).halt = some (0x3B, 3, 2) := by
  decide +kernel

/-- The small state with a halt posted as sequence 0, the part brought up. -/
def partHalt : State := { next (execFaultRunWrite 1 (part teamStop)) with bring := 7 }

theorem wit_HaltsRecords : ((part teamStop).haltRuns 1).map (fun x => (x.1, x.2.map fun y => y.1.map (·.1))) = [(0, [some 0])] ∧
    ((part teamStop).queueRoom 1 1).isSome = true ∧ ((part team).haltRuns 1).isEmpty = true ∧ ((part teamStop).ctx 1).pend = [] ∧
    (partHalt.ctx 1).seqno = 1 ∧ (partHalt.ctx 1).desc.getD 8 0#64 = 1#64 ∧ (teamOf partHalt).stop.map (·.seqno) = some (some 0) ∧
    ((next (exec (.faultQueueHeadWrite 1 1#64) (part team))).ctx 1).desc.getD 9 0#64 = 1#64 := by decide +kernel

theorem wit_FoldControl : (partHalt.haltOf 1 0).map (fun x => (x.1, x.2.1.teams, x.2.1.broken.isEmpty, x.2.2.cause)) = some (0, [0], true, 0x0F) ∧
    (partHalt.haltOf 1 5).isNone = true ∧ (next (exec (.foldKill 1 5) partHalt)).out.getLast? = some (.osResult 4 2 0) ∧
    (teamOf partHalt).stop.map (fun st => (st.kind, st.cause, st.seq, st.was, st.len)) = some (0, 0x0F, some 0#3, .run, 4) ∧
    (teamOf partHalt).late.isEmpty = true ∧ (teamOf partHalt).arrived.isNone = true ∧ (teamOf partHalt).reply.isNone = true ∧ partHalt.unasked = true ∧
    (∀ x ∈ [(Instr.foldResume 1 0, 0x10004#48), (.foldReplay 1 0, 0x10000#48)],
      (teamOf (next (exec x.1 partHalt))).pc = x.2 ∧ (teamOf (next (exec x.1 partHalt))).status = .run) ∧
    (next (exec (.foldKill 1 0) partHalt)).folds.map (·.killedBy) = [some 0] := by decide +kernel

/-- The small state whose fold has made no progress for the one interval that its watchdog allows. -/
def partIdle : State :=
  (partF team fun f => { f with idle := 1 }).updCtx 1 fun c => { c with desc := upd c.desc 24 fun _ => 1#64 }

theorem wit_Watchdog : (partIdle.fold? 0).map (fun f => (f.status, f.killedBy, f.victim, partIdle.haltBegun f)) = some (.resident, none, false, false) ∧
    bitsOf ((partIdle.ctx 1).word 24) 15 0 = 1 ∧ (next (exec (.foldWatchdog 0) partIdle)).folds.map (·.killedBy) = [some 1] ∧
    (next (exec (.foldWatchdog 0) partIdle)).teams.map (·.status) = [.gone] := by decide +kernel

/-- The small state with a load of eight lanes in flight, and with poison in the bytes it read. -/
def partFly : State := next (exec (.vld 2#7 3#7 0#7 false false) { part teamMem with overlap := true })
def partIll : State :=
  next (exec (.vld 2#7 3#7 0#7 false false) { part teamMem with overlap := true, poison := [(0x31000 / 8, .plain)] })

theorem wit_ResultsArrive : (teamOf partFly).inflight.map (fun i => (i.lines.length, i.writes.length)) = [(2, 1)] ∧
    ((teamOf partFly).inflight.map fun i => i.lines.map fun l => (l.faults.isEmpty, l.bytes.map (·.1))) =
      [[(true, [0, 1, 2, 3]), (true, [4, 5, 6, 7])]] ∧
    ((teamOf (next (exec (.loadLineArrival 0) partFly))).inflight.map fun i => i.lines.length) = [1] ∧
    ((teamOf partIll).inflight.map fun i => i.lines.map fun l => l.faults.map (·.2.1)) = [[[0x17], []]] ∧
    stops (.loadLineArrival 0) partIll = some (0x17, 0) ∧
    (let s := next (exec (.loadLineArrival 0) (next (exec (.loadLineArrival 0) partFly)));
      (teamOf s).inflight.map (·.lines.length) = [0] ∧ ((teamOf (next (exec (.instructionComplete 0) s))).getV (.team 2)).full = true) := by
  decide +kernel

/-- A team blocked for 33 clocks. -/
def teamBlocked : Team := { team with wait := .counter 1 1, cc := upd team.cc 1 fun _ => 1#16, blocked := 33 }

theorem wit_PartitionMoves : ((part team).teamsOn 0).map (·.1) = [0] ∧ (part team).ready 0 team = true ∧
    (next (exec (.issueSelect 0 5) (part team))).clock 0 = 5 ∧
    ((part2 teamBlocked { team with active := false }).teamsOn 0).map (·.1) = [0, 1] ∧
    (part2 teamBlocked team).waits 0 teamBlocked = true ∧ teamBlocked.wait.swaps = true ∧ (part2 teamBlocked team).ready 1 team = true ∧
    (next (exec (.issueSelect 0 5) (part2 teamBlocked { team with lastIssue := 3 }))).cur = 1 ∧
    (next (exec (.issueSelect 0 5) (part2 { team with lastIssue := 4 } { team with lastIssue := 3 }))).cur = 1 ∧
    (part2 { team with wait := .slots 2000 } teamBlocked).wantsSlots 0 { team with wait := .slots 2000 } = true ∧
    (part2 team teamBlocked).waits 1 teamBlocked = true ∧
    (next (exec (.swapToPending 0) (part2 teamBlocked { team with active := false }))).teams.map (·.active) = [false, true] ∧
    (next (exec (.slotSpill 0) (part2 { team with wait := .slots 2000 } teamBlocked))).teams.map (·.spilled) = [false, true] ∧
    ((part { team with spilled := true }).teamsOn 0).find? (fun x => x.2.spilled) = some (0, { team with spilled := true }) ∧
    (next (exec (.spillRestore 0) (part { team with spilled := true }))).teams.map (·.spilled) = [false] ∧
    (next (exec (.teamEnd 0) (part { team with status := .ending }))).teams.map (fun t => (t.status, t.vregs.length)) = [(.gone, 0)] := by
  decide +kernel

/-- A spilled team that wants more slots than are free, and one that wants none. -/
def teamOut (n : Nat) : Team := { team with spilled := true, wait := .slots n }

theorem wit_PartitionSpills : (let s := part2 (teamOut 1535) teamBlocked;
      s.slotsOnly 0 (teamOut 1535) = true ∧ s.returns 0 (teamOut 1535) = false ∧ s.waits 1 teamBlocked = true ∧
      (next (exec (.slotSpill 0) s)).teams.map (·.spilled) = [true, true] ∧ (next (exec (.spillRestore 0) s)).teams.map (·.spilled) = [true, false]) ∧
    (let s := part2 { teamBlocked with spilled := true } (teamOut 4);
      s.allWait 0 = true ∧ s.slotsOnly 0 { teamBlocked with spilled := true } = false ∧ s.slotsOnly 1 (teamOut 4) = true ∧
      (next (exec (.spillRestore 0) s)).teams.map (·.spilled) = [true, false]) ∧
    (let s := part2 { teamBlocked with spilled := true } { team with idx := 1 };
      s.allWait 0 = false ∧ (next (exec (.spillRestore 0) s)).teams.map (·.spilled) = [false, false]) := by decide +kernel

/-- The small state with host queue 2 of context 1 enabled at 0x60000, of 4 packets, its table at 0x61000, and one packet of words. -/
def partQueue (ws : List Nat) (tail : Nat) : State :=
  let s := { part team with bring := 7 }.updCtx 1 fun c => { c with fn := some 1, hqbase := 0x61000#64, hostq := upd c.hostq 2 fun _ => ⟨tail, 0⟩ }
  ((s.memStore 0x61040 (bytesOf 8 0x60000)).memStore 0x61048 (bytesOf 8 (2 ^ 63 + 2))).memStore 0x60000 ((ws.map (bytesOf 8)).flatten)

/-- A packet for 2 folds of kernel 0, of the highest priority. -/
def packetWords : List Nat := [3 * 2 ^ 19 + 2 ^ 16, 2, 1]

theorem wit_HostQueues : ((partQueue [] 1).ctxsOf 1)[0]? = some 1 ∧ hostMay 0x60000 = true ∧ ((partQueue [] 1).ctx 1).hostq.length = 16 ∧
    (partQueue [] 1).frozen = false ∧ (partQueue [] 1).hqOn 1 2 = true ∧ (partQueue [] 1).hqSize 1 2 = 4 ∧ (partQueue [] 1).hqOn 1 3 = false ∧
    ((next (exec (.doorbellWrite 1 0x10010 5#64) (partQueue [] 1))).ctx 1).hostq.getD 2 ⟨0, 0⟩ = ⟨5, 0⟩ ∧
    ((next (exec (.doorbellWrite 1 0x10010 6#64) (partQueue [] 1))).bbox.map fun e => (e.event, e.w3)) = [(9, 6#64)] ∧
    ((next (exec (.doorbellWrite 1 0x10100 0x12345#64) (partQueue [] 1))).ctx 1).hqbase = 0x12200#64 ∧
    packetBad (fun i => packetWords.getD i 0) loadKernel = false ∧
    (next (exec (.packetRead 1 2) (partQueue packetWords 1))).jobs.map (fun j => (j.queue, j.prio, j.x, j.status)) =
      [(deviceQueue, 0, 1, .dispatching), (2, 3, 2, .ready)] ∧
    (next (exec (.packetRead 1 2) (partQueue [0] 1))).jobs.map (·.failCause) = [(0, 0), (0x1E, 1)] := by decide +kernel

/-- The small state with one more job, as given. -/
def partJob (f : Job → Job) : State := { part team with jobs := (part team).jobs ++ [f loadJob] }

theorem wit_DependenceTest : (part team).testDue = false ∧ ∀ x ∈ [(5, JobStatus.ready), (6, .waiting)],
    (next (exec .dependenceTest ({ partJob fun j => { j with status := .waiting, deps := [(0x21000, x.1, false)] } with testDue := true }.memStore 0x31000
      (bytesOf 8 5)))).jobs.map (·.status) = [.dispatching, x.2] := by decide +kernel

theorem wit_JobsAreAdmitted :
    (let s := partJob fun j => { j with status := .ready };
      s.jobList.map (fun y => s.mayDispatch y.1 y.2) = [false, true] ∧ (∀ j ∈ s.jobs, (s.launchData j).toOption = some ((1, 1, 1), [])) ∧
      (next (exec (.jobDispatch 1) s)).jobs.map (·.status) = [.dispatching, .dispatching]) ∧
    (let s := partJob id;
      (s.jobList.map fun y => (s.findPlace y.1 y.2).isSome) = [false, true] ∧
      (next (exec (.foldAdmit 1) s)).folds.map (fun f => (f.job, f.paddock, f.linear, f.status)) = [(0, 0, 0, .resident), (1, 1, 0, .resident)] ∧
      (next (exec (.foldAdmit 1) s)).teams.map (fun t => (t.fold, t.pc, t.fmt)) = [(0, 0x10000#48, 4#32), (1, 0x10000#48, 4#32)]) ∧
    (let s := partJob fun j => { j with refusals := 64 };
      (s.jobs.map Job.more) = [false, true] ∧ (∀ p ∈ s.paddocks, p.reserved ≠ some 1) ∧
      ((next (exec (.foldReservation 1) s)).paddocks.map (·.reserved)).take 2 = [some 1, none]) := by decide +kernel

theorem wit_JobsAreRefused :
    (let s := partJob fun j => { j with scratch := 2 ^ 30 };
      (s.jobList.map fun y => (s.findPlace y.1 y.2).isSome) = [false, false] ∧ (s.jobs.map Job.more) = [false, true] ∧
      s.jobs.map (·.refused) = [false, false] ∧ (s.jobList.map fun y => s.mayDispatch y.1 y.2) = [false, false] ∧
      (next (exec (.foldAdmit 1) s)).jobs.map (fun j => (j.refused, j.refusals)) = [(false, 0), (true, 0)]) ∧
    (let s := partJob fun j => { j with scratch := 2 ^ 30, tryDue := true, refusals := 5 };
      (next (exec (.foldAdmit 1) s)).jobs.map (fun j => (j.refused, j.refusals, j.tryDue)) = [(false, 0, loadJob.tryDue), (true, 6, false)] ∧
      (next (exec (.foldAdmit 1) (partJob fun j => { j with refused := true }))).folds.length = 1) := by decide +kernel


theorem wit_FoldsEnd : (let s := part { team with status := .gone };
      (s.foldTeams fold).all (fun x => x.2.status == .gone) = true ∧ s.engineBusy 0 fold = false ∧
      (next (exec (.foldEnd 0) s)).folds.map (·.status) = [.ended]) ∧
    (let s := (partQ team queue).updFold 0 fun f => { f with status := .ended };
      s.rows = [] ∧ ((next (exec (.queueRelease 0 3) s)).pad 0).queues.getD 3 queue = Queue.empty) := by decide +kernel

/-- The small state whose fold has ended, its job's other fields as given. -/
def partEnd (f : Job → Job) : State := ((part team).updFold 0 fun f => { f with status := .ended }).updJob 0 fun j => f { j with next := 1 }

theorem wit_JobsEnd : (let s := partEnd fun j => { j with events := [0x21000] };
      (s.jobs.map fun j => (j.status, decide (j.total ≤ j.next), j.nodes.length, decide (16 ≤ j.queue))) = [(.dispatching, true, 0, true)] ∧
      s.foldsEnded 0 = true ∧ s.children 0 = [] ∧ s.translate 0 1 0x21000 .write = .ok 0x31000 false ∧ regionOf 0x31000 = .memory ∧
      Memory.wf s.mem = true ∧ (next (exec (.jobComplete 0) s)).jobs.map (·.status) = [.done] ∧
      memRead (next (exec (.jobComplete 0) s)).mem 0x31000 8 = bytesOf 8 1) ∧
    (let s := partEnd fun j => { j with failCause := (0x1E, 1) };
      (s.jobs.map fun j => (j.reported, j.parent.isNone)) = [(false, true)] ∧ (next (exec (.jobFail 0) s)).jobs.map (·.status) = [.failed] ∧
      ((next (exec (.jobFail 0) s)).ctx 1).seqno = 1) := by decide +kernel

/-- A node with two records of 8 bytes gathered. -/
def node : Node := ⟨8, 2, 0, [bytesOf 8 1, bytesOf 8 2], [0]⟩

/-- The page of record 4032 and those above it. -/
def mapTop (s : State) : State :=
  { s.memStore (loadT0 + 8 * 3) (bytesOf 8 0x40007) with tlb := s.tlb ++ [⟨0, 1, 3, 0x40007#64, none⟩] }

theorem wit_Coalescer :
    (let s := mapTop ((part team).updJob 0 fun j => { j with nodes := [node] });
      (s.jobs[0]?.bind fun j => s.launchNode 0 j 0 node 2).isSome = true ∧
      (next (exec (.coalescerLaunch 0 0) s)).jobs.map (fun j => (decide (j.queue = nodeQueue), j.nodes.map (·.recs.length))) =
        [(false, [0]), (true, [0])]) := by decide +kernel

theorem wit_CoalescerFlush :
    (let s := mapTop (partEnd fun j => { j with nodes := [{ node with count := 4 }] });
      (s.jobs[0]?.bind fun j => s.launchNode 0 j 0 { node with count := 4 } 2).isSome = true ∧ s.foldsEnded 0 = true ∧
      (s.children 0).isEmpty = true ∧
      (next (exec (.jobFlushLaunch 0 0) s)).jobs.map (fun j => (decide (j.queue = nodeQueue), j.argVals.getD 1 0#64)) =
        [(false, 0#64), (true, 2#64)]) := by decide +kernel

/-- The small state with record 4 a weight stream, whose tile 0 is 32 by 64 i8 symbols of value 0 with a frequency of 4,096, so that no
word follows its states (R299-R303), a table of that frequency, and a product of it in the table of paddock 0. -/
def partStream : State :=
  let tm := teamBlk [2 * 2 ^ 52 + 2 * 2 ^ 48 + 32 * 2 ^ 32 + 64 * 2 ^ 16 + 32, 0, 2 ^ 62 + 4, 0, 0, 0, 0, 0]
  let s := (part tm).memStore 0x30080 (plainRec 0 0x26000 256 1 256 (3 * 2 ^ 52))
  let s := s.memStore 0x36000 (bytesOf 8 (164 * 2 ^ 40 + 32))
  let s := s.memStore 0x36020 ([0x53, 0x57, 1, 0, 2, 0, 32, 0, 64, 0, 11, 0, 1, 0, 0, 0] ++ List.replicate 20 0#8 ++
    (List.replicate 32 [0, 0, 1, 0]).flatten)
  let s := s.updCtx 1 fun c => { c with tables := [(0, 4096 :: List.replicate 255 0)] }
  next (execMma 0#3 16#10 2#3 (s.tlbFills 0 1 [0x20000]))

/-- The fields of the first entry of the table of paddock 0. -/
def entry0 (s : State) : Option ResEntry := (s.pad 0).table[0]?

/-- What the header read, and the decoding of the tile, of the first entry of a table answer: 0 for a fault. -/
def headerOf (s : State) (tile : Nat) : Option Nat :=
  (s.fold? 0).bind fun fd => (s.recOfFold fd 4).map fun r => match s.tileOf 0 1 r tile 2 (32, 64) with | .ok t => t.k + t.n | .error _ => 0

theorem wit_ArrayStreams : (let s := partStream
      (entry0 s).map (fun e => (e.live, e.stream, e.header, e.posts.length, e.count)) = some (true, true, none, 1, 1) ∧
      s.readNext 0 = some 0 ∧ s.decoded = [] ∧ headerOf s 0 = some 96 ∧ ((entry0 (next (exec (.streamHeaderRead 0 0) s))).bind (·.header)).map (fun t => (t.k, t.n)) = some (32, 64)) := by
  decide +kernel

theorem wit_ArrayStreamFault : (let s := partStream.memStore 0x36020 [0x54];
      headerOf s 0 = some 0 ∧ (entry0 (next (exec (.streamHeaderRead 0 0) s))).map (fun e => (e.live, e.fault)) = some (false, some (0x21, 0, 0#64))) := by
  decide +kernel

/-! A segment of one symbol decodes to it throughout. -/

/-- States of 2^16 under a table of one symbol. -/
def ones : List Nat := List.replicate 32 (2 ^ 16)
/-- The table of one symbol. -/
def oneSym : List Nat := 4096 :: List.replicate 255 0
/-- The payload of a segment whose states stay as they start. -/
def zeroPay : List Byte := (List.replicate 32 [0#8, 0#8, 1#8, 0#8]).flatten
theorem upd_ones (q : Nat) : upd ones q (fun _ => 2 ^ 16) = ones := by
  apply List.ext_getElem?
  intro i
  simp only [upd, List.getElem?_modify]
  by_cases h : q = i
  · by_cases hi : i < 32
    · have : ones[i]? = some (2 ^ 16) := by simp only [ones, List.getElem?_replicate, hi, if_true]
      simp [h, this]
    · have : ones[i]? = none := by simp only [ones, List.getElem?_replicate, hi, if_false]
      simp [this]
  · simp [h]
theorem decodeSyms_ones (e n i p : Nat) : decodeSyms oneSym zeroPay e n i ones p = .ok (List.replicate n 0, ones, p) := by
  induction n generalizing i with
  | zero => rfl
  | succ n ih =>
    have hv : ones.getD (i % 32) 0 = 2 ^ 16 := (by decide : ∀ q, q < 32 → ones.getD q 0 = 2 ^ 16) _ (Nat.mod_lt _ (by decide))
    have hs : findSym oneSym 0 0 (2 ^ 16 % 4096) = some (0, 4096, 0) := by decide
    unfold decodeSyms
    simp only [hv, hs]
    rw [show 4096 * (2 ^ 16 / 4096) + 2 ^ 16 % 4096 - 0 = 2 ^ 16 from rfl, upd_ones, ih]
    rfl
theorem decodes (s : State) (c : Nat) (r : Rec) (n : Nat) (t : Tile) (h : s.recPrefix 0 c r (t.at_ + 0) (t.len - 0) = (zeroPay, none)) (hl : t.len = 128)
    (hs : t.starts = [0]) (hi : t.interval = 2048) (hk : t.k * t.n = 2048) :
    s.decodeTile 0 c r n t oneSym 0 = .ok (List.replicate 2048 0) := by
  unfold State.decodeTile
  have hx : initStates zeroPay 0 0 32 = .ok ones := by
    have h : (initStates zeroPay 0 0 32).toOption = some ones := by decide +kernel
    revert h
    cases initStates zeroPay 0 0 32 with
    | error e => simp [Except.toOption]
    | ok x => simp [Except.toOption]
  have hb : (ones.any (· != 2 ^ 16)) = false := by decide
  have hd := decodeSyms_ones 128 2048 0 128
  have h0 : t.starts.getD 0 0 = 0 := by rw [hs]; rfl
  simp only [h0, h]
  rw [hs]
  simp only [List.drop_zero, List.replicate_zero, List.nil_append, decodeSegs, hl, hi, hk, hx, hb, List.headD_nil, Nat.zero_mul, Nat.zero_add, Nat.one_mul, Nat.min_self, Nat.sub_zero, hd,
    bne_self_eq_false, Bool.false_eq_true, if_false, List.append_nil]

/-- The record and the tile of the first entry. -/
def tile0 : Option (Rec × Tile) :=
  (partStream.fold? 0).bind fun fd => (partStream.recOfFold fd 4).bind fun r =>
    match partStream.tileOf 0 1 r 0 2 (32, 64) with | .ok t => some (r, t) | .error _ => none

/-- Are they the tile of one segment whose payload is `zeroPay`, and is the table that of one symbol? -/
def tileIs (r : Rec) (t : Tile) : Bool :=
  partStream.recPrefix 0 1 r (t.at_ + 0) (t.len - 0) == (zeroPay, none) && t.len == 128 && t.starts == [0] &&
    t.interval == 2048 && t.k * t.n == 2048 && (partStream.ctx 1).table t.table == oneSym

theorem tile_is : (tile0.map fun x => tileIs x.1 x.2) = some true := by decide +kernel

theorem wit_ArrayDecodes : ∃ (r : Rec) (t : Tile), tile0 = some (r, t) ∧
    partStream.decodeTile 0 1 r 0 t ((partStream.ctx 1).table t.table) 0 = .ok (List.replicate 2048 0) := by
  have h := tile_is
  cases ht : tile0 with
  | none => simp [ht] at h
  | some x =>
    obtain ⟨r, t⟩ := x
    rw [ht] at h
    simp only [Option.map_some, Option.some.injEq, tileIs, Bool.and_eq_true, beq_iff_eq] at h
    obtain ⟨⟨⟨⟨⟨h1, h2⟩, h3⟩, h4⟩, h5⟩, h6⟩ := h
    refine ⟨r, t, rfl, ?_⟩
    rw [h6]
    exact decodes _ _ _ _ _ h1 h2 h3 h4 h5

/-- A product of i8 matrices waiting in the table of paddock 0, and its slice granted. -/
def partMma : State := next (execMma 0#3 16#10 2#3 (part (teamBlk mmaWords)))
def partSlice : State := next (execSliceGrant 0 partMma)

theorem wit_ArraySlices : (partMma.pad 0).running = none ∧ (partMma.dateEntries 0).choose 0 = some 0 ∧
    (entry0 (partMma.dateEntries 0)).map (fun e => ((partMma.dateEntries 0).sliceList fold e).any ((partMma.dateEntries 0).tagBad e fold)) = some false ∧
    (entry0 partSlice).map (fun e => (e.granted, e.next)) = some ([⟨0, 0, 32, [], true, 0#64, false, 0, [], []⟩], 1) ∧
    (partSlice.pad 0).running.isSome = true ∧ (entry0 partMma).map (fun e => (e.stream, e.kept, e.total, e.left 0)) = some (false, [], 1, true) := by decide +kernel

/-- A product of the same matrices that accumulates over the rows of D in accumulator 0. -/
def partAcc : State := next (execSliceGrant 0 (next (execMma 0#3 16#10 2#3 ((part (teamBlk (upd mmaWords 0 (· + 2 ^ 56)))).memStore (fold.accPa 0 0) [9#8]))))

theorem wit_ArrayKeeps : (entry0 partAcc).map (fun e => e.granted.map fun y => (y.num, y.rows, y.keep.length, (y.keep.headD []).take 2)) =
    some [(0, 32, 32, [9, 0])] ∧ (arrBlk ((upd mmaWords 0 (· + 2 ^ 56)).map dwordOfNat)).acc = true ∧ fold.accPa 0 0 = accAddr 0 0 := by decide +kernel

theorem wit_ArrayProducts : (prodElem .i32 2 2 false (List.replicate 32 0x80) (List.replicate 32 0x80) none).1 = 32 * 16384 ∧
    32 ∣ (List.replicate 32 0x80).length := by decide +kernel

/-- The small state with a block of record 3 held decoded in the L2. -/
def partDecoded : State := { part team with decoded := [⟨[(0x31200, 16)], 1, 0, 0, List.replicate 16 0#64⟩] }

theorem wit_BlockMerges : blockBytes 0 = 16 ∧ 0x31200 % Nat.gcd (blockBytes 0) 65536 = 0 ∧ (part team).poisonIn 0x31200 16 = [] ∧ regionOf 0x31200 = .memory ∧
    (partDecoded.decoded.find? fun y => (y.segs.head?.map (·.1)) == some 0x31200).isSome = true ∧
    (next (exec (.decodedBlockEncode 0x31200) partDecoded)).decoded.isEmpty = true := by decide +kernel

/-- A block of a context that maps nothing: its sets do not translate, so that its encode charges nothing. -/
def heldBlock : DecBlock := ⟨[(0x31200, 16)], 2, 0, 0, List.replicate 16 0x3FF0000000000000#64⟩
def partHeld : State := { part team with decoded := [heldBlock] }

theorem no_page {u : State} {c : Nat} (ht : ∀ t ∈ u.tlb, t.ctx ≠ c) (hv : ((u.ctx c).word 0).testBit 63 = false) (tlb va : Nat) (n : Need) :
    u.translate tlb c va n = .fault 0x13 0 := by
  have hg : ∀ k v, u.tlbGives k c v = none := by
    intro k v
    rw [State.tlbGives, List.findSome?_eq_none_iff]
    intro t h
    simp [TlbEnt.gives, ht t h]
  simp [State.translate, State.page, hg, State.walk, hv]

theorem wit_BlockEncodes : (∀ tlb va, ∃ k sub, (partHeld.encodeHeld heldBlock).translate tlb heldBlock.ctx va .write = .fault k sub) ∧
    partHeld.written = true ∧ Memory.wf partHeld.mem = true ∧ regionOf 0x31200 = .memory ∧
    (encodeBlock heldBlock.rate (heldBlock.vals.map (·.toNat))).length = 16 ∧ heldBlock ∉ (next (exec (.decodedBlockEncode 0x31200) partHeld)).decoded ∧
    memRead (next (exec (.decodedBlockEncode 0x31200) partHeld)).mem 0x31200 16 = encodeBlock heldBlock.rate (heldBlock.vals.map (·.toNat)) := by
  refine ⟨fun tlb va => ⟨_, _, no_page (by decide +kernel) (by decide +kernel) tlb va .write⟩, ?_⟩
  decide +kernel

/-! Moves of other agents. -/

/-- An engine operation of the team on counter 2, of a block of words. -/
def opOf (k : EngKind) (ws : List Nat) : EngOp :=
  { kind := k, fold := 0, team := 0, cc := 2, block := ws.map dwordOfNat, pc := 0x10000#48, core := 0, ring := 0, done := 0, start := 0
    acked := [], rails := [], fault := none, live := true, before := [], held := none }

/-- The small state with that operation in work. -/
def partOp (k : EngKind) (ws : List Nat) : State :=
  { part { team with cc := upd team.cc 2 fun _ => 1#16 } with ops := [opOf k ws] }

/-- Counter 2 and the operation's being live after a step, and the bytes at an address. -/
def opAfter (o : Out1) (pa n : Nat) : Option (BitVec 16) × List Bool × List Byte :=
  ((teamOf (next o)).cc[2]?, (next o).ops.map (·.live), memRead (next o).mem pa n)

theorem wit_EngineMoves : ((partOp .mzero [0, 16]).ops[0]?.map fun o => (o.live, o.fold, o.team, o.cc)) = some (true, 0, 0, 2) ∧
    ((partOp .mzero [0, 16]).fold? 0).map (fun f => (f.status, f.victim)) = some (.resident, false) ∧
    (partOp .mzero [0, 16]).tainted.isEmpty = true ∧ regionOf (fold.accPa 0 0) = .memory ∧
    opAfter (exec (.mzeroComplete 0) ((partOp .mzero [0, 8]).memStore (fold.accPa 0 0) (List.replicate 12 7))) (fold.accPa 0 0) 12 =
      (some 0#16, [false], List.replicate 8 0 ++ List.replicate 4 7) := by decide +kernel

/-- A drain of one row of four f32 elements from accumulator 0 to scratch 64. -/
def partDrain : State := (partOp .mdrain [0, 8 * 2 ^ 32 + 4 * 2 ^ 16 + 1, 64, 0]).memStore (fold.accPa 0 0) [1, 2, 3, 4, 0, 0, 0x80, 0x3F]

theorem wit_EngineDrains : (drainBlk ([0, 8 * 2 ^ 32 + 4 * 2 ^ 16 + 1, 64, 0].map dwordOfNat)).fmt = 8 ∧
    (partDrain.drain fold (opOf .mdrain [0, 8 * 2 ^ 32 + 4 * 2 ^ 16 + 1, 64, 0])).2.isNone = true ∧
    (partDrain.poisonIn (fold.accPa 0 0) 16).isEmpty = true ∧
    opAfter (exec (.mdrainComplete 0) partDrain) (fold.scratchPa 0 64) 8 = (some 0#16, [false], [1, 2, 3, 4, 0, 0, 0x80, 0x3F]) := by decide +kernel

/-- A copy of 80 bytes from scratch 0 to scratch 128. -/
def partCopy (done : Nat) : State :=
  let s := (partOp .copy [2 ^ 62, 2 ^ 62 + 128, 80]).memStore (fold.scratchPa 0 0) [1, 2, 3]
  { s with ops := s.ops.map fun o => { o with done := done } }

theorem wit_EngineCopies : (partCopy 0).copyHeld 0 (opOf .copy [2 ^ 62, 2 ^ 62 + 128, 80]) = false ∧
    copyLen (opOf .copy [2 ^ 62, 2 ^ 62 + 128, 80]) = 80 ∧
    opAfter (exec (.copyLineDeliver 0) (partCopy 0)) (fold.scratchPa 0 128) 4 = (some 1#16, [true], [1, 2, 3, 0]) ∧
    (next (exec (.copyLineDeliver 0) (partCopy 0))).ops.map (·.done) = [64] ∧
    opAfter (exec (.copyComplete 0) (partCopy 80)) (fold.scratchPa 0 128) 4 = (some 0#16, [false], [0, 0, 0, 0]) ∧
    ((partOp .copy [2, 2 ^ 62 + 128, 80]).opMeets 0 (opOf .copy [2, 2 ^ 62 + 128, 80]) fold).map (·.1) = some (0x13, 0, 0x50000) ∧
    ((next (exec (.engineFault 0) (partOp .copy [2, 2 ^ 62 + 128, 80]))).teams.map fun t => (t.cc[2]?, t.stop.map (·.cause))) =
      [(some 1#16, some 0x13)] ∧
    (match (partOp .wtab [3, 9]).tableLoad fold (opOf .wtab [3, 9]) with | .ok l => l.isEmpty | .error _ => false) = true ∧
    (opAfter (exec (.wtabLoadComplete 0) (partOp .wtab [3, 9])) 0 0).2.1 = [false] := by decide +kernel

theorem wit_EngineDrainsOld (a : Nat) : partDrain.oldByte fold a = none := rfl

/-! Shearers -/

/-- The small state with a request on ring 1 of context 1, taken or not: a conversion of two i8 elements from scratch 0 to i8 elements at
scratch 64, or another block. -/
def partShear (taken : Bool) (ws : List Nat) : State :=
  let s := { part { team with cc := upd team.cc 2 fun _ => 1#16 } with ops := [{ opOf .xpost [] with ring := 1 }] }
  let s := s.updCtx 1 fun c => { c with desc := upd (upd c.desc 16 fun _ => dwordOfNat (3 * 2 ^ 48 + 0x27000)) 17 fun _ => 1#64 }
  if taken then { s with shear := [⟨1, 1, some 0, ws.map dwordOfNat, false, 0, 0, 0, List.replicate 256 0, none⟩], ops := s.ops.map fun o => { o with done := 1 } }
  else s.memStore 0x37000 ((ws.map (bytesOf 8)).flatten)

/-- A conversion of two elements. -/
def convWords : List Nat := [2 * 2 ^ 44 + 2 * 2 ^ 40, 2 ^ 62, 2 ^ 62 + 64, 2, 0, 0, 0x21000, 77]

/-- Another operation on one element of record 0. -/
def shWords (op : Nat) : List Nat := [op * 2 ^ 56, 0, 0, 1, 0, 0, 0x21000, 77]

theorem wit_ShearerTakes : (let s := partShear false convWords;
      ringOf ((s.ctx 1).ring 1) = (8, 0x27000, 0, 1) ∧ s.absent 1 = false ∧ s.postedOp 1 1 = some 0 ∧ (s.ctx 1).desc.length = 32 ∧
      s.translate 0 1 0x27000 .read = .ok 0x37000 false ∧ (next (exec (.shearerTakeRequest 1 1) s)).shear.map (·.block) =
        [convWords.map dwordOfNat]) := by decide +kernel

theorem wit_ShearerWorks : ∀ x ∈ [(1, Instr.shearerRetile 1 1), (2, .shearerDeflateDecode 1 1), (3, .shearerFp64Encode 1 1),
      (4, .shearerFp64Decode 1 1), (5, .shearerWeightStreamEncode 1 1), (6, .shearerNvmeRead 1 1 0 (List.replicate 512 0#8)),
      (6, .shearerNvmeRead 1 1 3 [])],
    ((partShear true (shWords x.1)).shWork 1 1 x.1).isSome = true ∧
    (next (exec x.2 (partShear true (shWords x.1)))).shear.map (·.worked) = [true] := by decide +kernel

/-- The conversion with its two elements stored. -/
def partConvert : State := (partShear true convWords).memStore (fold.scratchPa 0 0) [5, 0xFE]

theorem wit_ShearerConvertReady : (partConvert.shWork 1 1 0).map (fun x => (x.1.written, x.2.1.before.isEmpty && x.2.1.f.status == .resident && x.2.1.f.scratch == fold.scratch, shCount x.1.block, (sideOf (blk x.1.block 1)).kind, (sideOf (blk x.1.block 2)).kind)) =
        some (0, true, 2, 1, 1) := by decide +kernel

theorem wit_ShearerConverts : (let s := partConvert
      outBytes 2 = 1 ∧
      inAlloc fold.scratch 0 0 2 = true ∧ inAlloc fold.scratch 0 64 2 = true ∧ (s.decoded.isEmpty && s.poison.isEmpty) = true ∧ regionOf (fold.scratchPa 0 65) = .memory ∧
      (let t := next (exec (.shearerConvert 1 1) s); t.shear.map (fun x => (x.worked, x.status, x.written)) = [(true, 0, 2)] ∧
        memRead t.mem (fold.scratchPa 0 64) 2 = [5, 0xFE])) := by decide +kernel

theorem wit_ShearerEnds : (let s := { partShear true convWords with shear := (partShear true convWords).shear.map fun x => { x with worked := true, status := 2, written := 1 } };
      s.translate 0 1 0x21000 .write = .ok 0x31000 false ∧
      (let t := next (exec (.shearerCompletion 1 1) s); t.shear.isEmpty = true ∧ (teamOf t).cc[2]? = some 0#16 ∧
        memRead t.mem 0x31000 16 = bytesOf 8 77 ++ bytesOf 8 (2 * 2 ^ 56 + 1))) := by decide +kernel

/-- The small state with a worked request of context 0, the completion of which goes to window 5 of the partition of the small team, bound
to a register for four lanes, its first byte arrived or not. -/
def partLands (b : Option Byte) : State :=
  let tm : Team := { team with cc := upd team.cc 2 fun _ => 1#16, landings := [⟨5, .team 2, 4, b :: List.replicate 15 none, [], false, false⟩] }
  let s : State := { part tm with
    folds := (part tm).folds.map fun f => { f with ctx := 0 },
    ops := [{ opOf .xpost [] with ring := 1, done := 1 }],
    tlb := (part tm).tlb ++ [⟨0, 0, 3, dwordOfNat (Config.onChipBase + 0x800007), none⟩] }
  { s with shear := [⟨0, 1, some 0, ([0, 0, 0, 0, 0, 0, 0x35000, 77] : List Nat).map dwordOfNat, true, 2, 0, 1, [], none⟩] }

theorem wit_ShearerLands : (match ((partLands (some 1#8)).virtPutAll 0 0 0x35000 (List.replicate 16 0#8)).2 with | some e => e.1 | none => 0) = 0x1B ∧
    (next (exec (.shearerCompletion 0 1) (partLands (some 1#8)))).teams.map (fun t => (t.cc[2]?, t.stop.map (·.cause))) = [(some 1#16, some 0x1B)] ∧
    (next (exec (.shearerCompletion 0 1) (partLands (some 1#8)))).shear.isEmpty = true ∧
    (next (exec (.shearerCompletion 0 1) (partLands none))).teams.map (fun t => (t.cc[2]?, t.stop.map (·.cause))) = [(some 0#16, none)] := by
  decide +kernel

/-- A request that encodes one element of record 1, of bytes, as a weight stream in record 2 under a table of zeros. -/
def partEncode : State :=
  ((partShear true [5 * 2 ^ 56, 1, 2, 1, 0, 0, 0x21000, 77]).memStore 0x30020 (plainRec 0 0x21000 16 1 16 0)).memStore 0x30040
    (plainRec 0 0x26000 256 1 256 (3 * 2 ^ 52))

theorem wit_ShearerTable : (match partEncode.shWork 1 1 5 with
    | none => false
    | some (y, j, s0) => y.made.isNone &&
      match s0.shSides j y.block 1 1 (fun x y => x.sized 1 && y.rec'.enc == 3) with
      | (_, .error _) => false
      | (s1, .ok (src, _)) => (s1.shGets j src ((List.range (shCount y.block)).map src.at_)).2.2 == 0 && y.table.sum != 4096) = true ∧
    (next (exec (.shearerWeightStreamEncode 1 1) partEncode)).shear.map (fun x => (x.worked, x.status)) = [(true, 10)] := by decide +kernel

/-- The reads and the writes of a request of one chunk on ring 1 of context 1, as the statement about its operation names them: how
many elements were written, and the statuses of the reads and of the writes. -/
def shSteps (s : State) (op : Nat) (ssize dsize : Nat) (suits : ShSide → ShSide → Bool) (whole : Bool)
    (froms : ShReq → ShSide → ShSide → List Nat) (made : ShReq → List Nat → List Nat) (intos : ShReq → ShSide → ShSide → Nat → List Nat) :
    Option (Nat × Nat × Nat) :=
  match s.shWork 1 1 op with
  | none => none
  | some (y, j, s0) =>
    match s0.shSides j y.block ssize dsize suits with
    | (_, .error _) => none
    | (s1, .ok (src, dst)) =>
      let a := if whole then { src with size := src.rec'.size } else src
      let b := if whole then { dst with size := src.rec'.size } else dst
      let g := s1.shGets j a (froms y src dst)
      let out := made y g.1
      let s2 := if op == 2 || op == 5 then g.2.1.shKeep 1 1 (out.map (BitVec.ofNat 8)) 0 else g.2.1
      let w := s2.shPuts j b ((intos y src dst out.length).zip out)
      if y.written == 0 && y.made == none then some (w.2.1, g.2.2, w.2.2) else none

/-- What the requests of ring 1 stand at after a step. -/
def shAfter (i : Instr) (s : State) : List (Bool × Nat × Nat) := (next (exec i s)).shear.map fun x => (x.worked, x.status, x.written)

/-- A retile of 2 by 2 elements of record 0, transposed in place; element 1 holds 7. -/
def partRetile : State := (partShear true [2 ^ 56, 0, 0, 2, 2 ^ 32 + 2, 0, 0x21000, 77]).memStore 0x31004 [7]

theorem wit_ShearerRetiles : shSteps partRetile 1 1 1 (fun x z => x.plain x.rec'.size && z.plain x.rec'.size && shShort 4 x.rec'.size) true
      (fun _ src _ => (List.range 4).map fun i => src.at_ (i / 2 * src.rec'.extent + i % 2)) (fun _ g => g)
      (fun _ _ dst _ => (List.range 4).map fun i => dst.at_ (i % 2 * dst.rec'.extent + i / 2)) = some (4, 0, 0) ∧
    shAfter (.shearerRetile 1 1) partRetile = [(true, 0, 16)] ∧
    memRead (next (exec (.shearerRetile 1 1) partRetile)).mem 0x31040 1 = [7#8] := by decide +kernel

/-- A DEFLATE decode of a stored block of three bytes from scratch 0 to scratch 64. -/
def partInflate : State := (partShear true [2 * 2 ^ 56, 2 ^ 62, 2 ^ 62 + 64, 8, 3, 0, 0x21000, 77]).memStore (fold.scratchPa 0 0) [1, 3, 0, 252, 255, 10, 11, 12]

theorem wit_ShearerInflates : shSteps partInflate 2 1 1 (fun x z => x.sized 1 && z.sized 1) false
      (fun y src _ => (List.range (shCount y.block)).map src.at_) (fun y g => ((inflate (g.map (BitVec.ofNat 8)) (bitsOf (blk y.block 4) 31 0)).1).map (·.toNat))
      (fun _ _ dst n => (List.range n).map dst.at_) = some (3, 0, 0) ∧
    inflate [1, 3, 0, 252, 255, 10, 11, 12] 3 = ([10, 11, 12], 0) ∧ shAfter (.shearerDeflateDecode 1 1) partInflate = [(true, 0, 3)] ∧
    memRead (next (exec (.shearerDeflateDecode 1 1) partInflate)).mem (fold.scratchPa 0 64) 4 = [10#8, 11#8, 12#8, 0#8] := by decide +kernel

/-- An encode of sixteen doubles of scratch into the first block of record 3, and a decode of it to scratch. -/
def partFp64 (op : Nat) : State := partShear true (if op = 3 then [3 * 2 ^ 56, 2 ^ 62, 3, 1, 0, 0, 0x21000, 77] else [4 * 2 ^ 56, 3, 2 ^ 62 + 128, 1, 0, 0, 0x21000, 77])

theorem wit_ShearerFp64 : shSteps (partFp64 3) 3 8 8 (fun a z => a.plain 8 && z.rec'.coded && shShort 1 (blockBytes z.rec'.rate)) false
      (fun _ src dst => (dst.rec'.elemsOf [0]).map src.at_) (fun _ g => g) (fun _ _ dst _ => dst.rec'.elemsOf [0]) = some (16, 0, 0) ∧
    shAfter (.shearerFp64Encode 1 1) (partFp64 3) = [(true, 0, 16)] ∧
    shSteps (partFp64 4) 4 8 8 (fun a z => a.rec'.coded && z.plain 8) false (fun _ src _ => sortBy (fun a b => decide (a ≤ b)) (src.rec'.elemsOf [0]))
      (fun _ g => g) (fun _ _ _ _ => List.range 16) = some (16, 0, 0) ∧
    shAfter (.shearerFp64Decode 1 1) (partFp64 4) = [(true, 0, 128)] := by decide +kernel

/-- A weight stream of two symbols of scratch under a table of one symbol, into record 2. -/
def partWeights : State :=
  let s := (partShear true [5 * 2 ^ 56, 2 ^ 62, 2 + 256 * 2 ^ 12, 2, 10 * 2 ^ 32 + 2 * 2 ^ 16 + 1, 0, 0x21000, 77]).memStore 0x30040
    (plainRec 0 0x26000 512 1 512 (3 * 2 ^ 52))
  { s with shear := s.shear.map fun x => { x with table := oneSym } }

theorem wit_ShearerWeights : shSteps partWeights 5 1 1 (fun x z => x.sized 1 && z.rec'.enc == 3) false
      (fun y src _ => (List.range (shCount y.block)).map src.at_)
      (fun y g => ((encodeTile 1 2 10 0 0 y.table g).getD []).map (·.toNat)) (fun _ _ dst n => (List.range n).map dst.at_) = some (164, 0, 0) ∧
    oneSym.sum = 4096 ∧ shAfter (.shearerWeightStreamEncode 1 1) partWeights = [(true, 0, 164)] ∧
    memRead (next (exec (.shearerWeightStreamEncode 1 1) partWeights)).mem 0x36000 8 = bytesOf 8 (256 + 164 * 2 ^ 40) := by decide +kernel

/-- An NVMe read of one block of 512 bytes into scratch 64, of a context that the queue pair is assigned to. -/
def partDrive : State := (partShear true [6 * 2 ^ 56, 0, 2 ^ 62 + 64, 1, 0, 0, 0x21000, 77]).updCtx 1 fun c => { c with qpairs := 1#16 }

theorem wit_ShearerDrive : ((partDrive.shWork 1 1 6).map fun x => (x.1.written, x.1.made, bitsOf (blk x.1.block 1) 35 32, shCount x.1.block)) = some (0, none, 0, 1) ∧
    (partDrive.ctx 1).qpairs.getLsbD 0 = true ∧ shAfter (.shearerNvmeRead 1 1 0 (5#8 :: List.replicate 511 0#8)) partDrive = [(true, 0, 512)] ∧
    memRead (next (exec (.shearerNvmeRead 1 1 0 (5#8 :: List.replicate 511 0#8)) partDrive)).mem (fold.scratchPa 0 64) 2 = [5#8, 0#8] := by decide +kernel

theorem wit_ShearerTurns : (partShear true convWords).shNext = some (1, 1) ∧ (partShear false convWords).shNext = some (1, 1) ∧
    (State.shFill shearers (partShear false convWords)).shNext = some (1, 1) ∧ (partShear false convWords).shWaits 1 1 = true ∧
    (State.shFill shearers (partShear false convWords)).shBusy = [] := by decide +kernel

/-- The small state with ring 1 of 8 slots on the page of the table of records, one block ahead of its head. -/
def partRing (tm : Team) : State :=
  (part tm).updCtx 1 fun c => { c with desc := upd (upd c.desc 16 fun _ => dwordOfNat (2 ^ 63 + 3 * 2 ^ 48 + 0x27000)) 17 fun _ => 1#64 }

theorem wit_XpostCompletes : (let s := partRing (teamBlk convWords);
    engWit s (teamBlk convWords) (.xpost 0#3 16#10 2#3 1#2) = (true, true) ∧ ringOf ((s.ctx 1).ring 1) = (8, 0x27000, 0, 1) ∧
    s.translate 0 1 (0x27000 + 64) .write = .ok 0x37040 false ∧
    (let t := next (exec (.xpost 0#3 16#10 2#3 1#2) s); (teamOf t).cc.getD 2 0#16 = 1#16 ∧ memRead t.mem 0x37040 8 = bytesOf 8 (convWords.headD 0))) := by
  decide +kernel

/-! Links -/

/-- The small state with ports 2 and 5 up, and a row of 272 bytes from scratch 0 on rails 2 and 5. -/
def partLink (f : EngOp → EngOp) : State :=
  let s := partOp .nsend [(2 ^ 2 + 2 ^ 5) * 2 ^ 32 + 9 * 2 ^ 16 + 3, 2 ^ 62, 272]
  { s with ports := upd (upd s.ports 2 fun p => { p with en := true, up := true }) 5 fun p => { p with en := true, up := true }
           ops := s.ops.map f }

theorem wit_LinkSends : ((partLink id).liveOp 0 false).map (fun x => (cellsOf x.1, railsOf x.1)) = some (2, [2, 5]) ∧
    (partLink id).pickRail [2, 5] 0 = some 2 ∧ ((partLink id).poisonIn (fold.scratchPa 0 0) 256).isEmpty = true ∧
    (let t := next (exec (.cellTransmit 0) (partLink id)); t.wire.map (fun c => (c.port, c.payload.length)) = [(2, 256)] ∧
      t.ops.map (·.rails) = [[(0, 2)]]) ∧
    (next (exec (.cellRetransmit 0 1) (partLink fun o => { o with rails := [(1, 5), (0, 2)] }))).wire.map (fun c => (c.port, c.payload.length)) =
      [(2, 16)] ∧
    (let s := { partLink id with ports := (part team).ports }; s.pickRail [2, 5] 0 = none ∧
      (next (exec (.cellTransmit 0) s)).teams.map (fun t => (t.stop.map (·.cause), t.cc[2]?)) = [(some 0x33, some 1#16)]) := by decide +kernel

/-- A cell of a row of 272 bytes from device 7 for the part, whose device number is 0, and an answer to row 0 of the part. -/
def cellIn0 : Cell := cellOf 2 ⟨9, 0, 3, 7, 0, 2, 1, 5, 1, 16, 272⟩ 0 (List.replicate 16 6#8)
def ackIn (kind seq : Nat) : List DWord := (cellOf 2 ⟨9, kind, 1, 3, 0, 2, seq, 5, 0, 0, 272⟩ 0 []).hdr

/-- The small state with port 2 up, a row open to slot 0 of queue 3 of paddock 0, and no cell of it got. -/
def partRow : State :=
  let s := partQ team { Queue.empty with owner := some 0, t := 1, desc := dwordOfNat (512 * 2 ^ 40) }
  { s with ports := (partLink id).ports, rows := [⟨7, 3, 0, 1, 1, 9, 272, 2, 5, .queue 0 3 0, [], false, false, false⟩] }

theorem wit_LinkReceives : (match cellIn0.hdr.map BitVec.toNat with
    | [a, b, c, d] => (!cellBad 0 a b c d cellIn0.payload) && cellBad 0 (a + 1) b c d cellIn0.payload && (hdrOf a b c).kind == 0
    | _ => false) = true ∧ partRow.dev = 0 ∧ partRow.portUp 2 = true ∧ partRow.slotPa 0 3 0 = some (fold.scratchPa 0 0) ∧
    (match cellIn0.hdr with
      | [a, b, c, d] =>
        let t := next (exec (.cellReceive 2 a b c d cellIn0.payload) partRow)
        let u := next (exec (.cellReceive 2 (a + 1#64) b c d cellIn0.payload) partRow)
        decide (partRow.tooOld (hdrOf a.toNat b.toNat c.toNat) = false ∧ (partRow.rowFor (hdrOf a.toNat b.toNat c.toNat) false).map (·.1) = some 0 ∧
          memRead t.mem (fold.scratchPa 0 256) 2 = [6, 6] ∧ t.rows.map (fun r => (r.got, r.closed)) = [([1], false)] ∧
          t.wire = [ackOf 2 (hdrOf a.toNat b.toNat c.toNat) 1 0] ∧ u.ports.map (·.drop) = [0, 0, 1] ++ List.replicate 13 0)
      | _ => false) = true := by decide +kernel

theorem wit_LinkAnswers : (match ackIn 3 0 with
      | [a, b, c, d] =>
        let h := hdrOf a.toNat b.toNat c.toNat
        !ackBad 0 a.toNat b.toNat c.toNat d.toNat && ackBad 0 (a + 1#64).toNat b.toNat c.toNat d.toNat &&
        decide (((partLink id).sender h.sctx h.sdev h.rseq).map (·.1) = some 0 ∧
          (next (exec (.ackReceive 2 a b c d) (partLink id))).teams.map (fun t => t.stop.map (·.cause)) = [some 0x26])
      | _ => false) = true ∧
    (match ackIn 1 1 with
      | [a, b, c, d] => decide ((teamOf (next (exec (.ackReceive 2 a b c d) (partLink fun o => { o with acked := [0] })))).cc[2]? = some 0#16)
      | _ => false) = true := by decide +kernel

theorem wit_LinkRows : (let s := { partRow with xlate := [(9, dwordOfNat (2 ^ 63 + 2 ^ 62 + 2 ^ 55))] };
      s.rows.map (fun r => (r.openTarget, s.mayAbandon r)) = [(true, true)] ∧ (next (exec (.rowAbandon 0) s)).rows.map (·.closed) = [true]) ∧
    (let s := { partRow with replay := 0x8000000000000001#64, xlate := [(9, dwordOfNat (2 ^ 63 + 2 ^ 62 + 2 ^ 55))] };
      (s.ctx 1).bounce.2.2 = (0, 0) ∧ bitsOf s.replay.toNat 5 0 = 1 ∧
      (next (exec (.bounceRingReplay 1) s)).xlate = [(9, dwordOfNat (2 ^ 63 + 2 ^ 55))]) ∧
    (let s := next (exec (.portEnable 3) (part team));
      (s.ports[3]?).map (fun p => (p.en, p.trn, p.up)) = some (true, true, false) ∧
      ((next (exec (.linkUp 3 4) s)).ports[3]?).map (fun p => (p.up, p.trn, p.lanes)) = some (true, false, 4) ∧
      ((next (exec (.linkDown 3) (next (exec (.linkUp 3 4) s)))).ports[3]?).map (·.up) = some false) := by decide +kernel

/-! Power -/

/-- The small state with domain 0 as given. -/
def partDom (f : Domain → Domain) : State := { part team with domains := upd (part team).domains 0 f }

/-- Domain 0 after a step. -/
def dom (o : Out1) : Option Domain := (next o).domains[0]?

theorem wit_PowerBoundary : (part team).domains.length = 12 ∧ (part team).paddocks.length = 32 ∧ (part team).off = false ∧
    ((part team).domain 0).thealth = 15#4 ∧ (part team).budget 3 = (200000, 80) ∧ (part team).written = true ∧
    (∀ ts ∈ [[90, 96, 92, 94], [124, 126, 120, 122], [91, 88, 90, 89], [90, 88, 86, 87]], ∀ i < 4,
      (((part team).domain 0).sampled 0 ts).suspicion i = 0) ∧
    ((dom (exec (.intervalBoundary [] [(0, [90, 151, 92, 94])]) (part team))).map fun d => (d.good 1, d.good 0)) = some (false, true) ∧
    (let t := next (exec (.intervalBoundary [(3, 10 ^ 9, 10 ^ 9)] [(0, [90, 96, 92, 94])]) (part team));
      t.usec = (part team).usec + 4 ∧ (t.domain 0).temp = 96 ∧ (t.domain 0).level = 1 ∧ (t.pad 3).overrun = true ∧ (t.pad 4).overrun = false) ∧
    (next (exec (.intervalBoundary [] [(0, [124, 126, 120, 122])]) (part team))).off = true ∧
    (dom (exec (.intervalBoundary [] [(0, [91, 88, 90, 89])]) (partDom fun d => { d with level := 1 }))).map (·.level) = some 1 ∧
    (dom (exec (.intervalBoundary [] [(0, [90, 88, 86, 87])]) (partDom fun d => { d with level := 1 }))).map (·.level) = some 0 := by
  decide +kernel

/-- The small state with paddock 5 as given. -/
def partPad (f : Paddock → Paddock) : State := { part team with paddocks := upd (part team).paddocks 5 f }

theorem wit_PowerSlots : (let s := partPad fun p => { p with slot := true, permits := 1, claims := [0] };
      ((next (exec (.permitsExhausted 5) s)).paddocks[5]?).map (fun p => (p.fall, p.permits, p.claims, p.done)) = some (true, 0, [], 1) ∧
      (s.paddocks[5]?).map (·.done) = some 0 ∧ s.interval = 0) ∧
    ((next (exec (.fallEnd 5) (partPad fun p => { p with slot := true, fall := true }))).paddocks[5]?).map (fun p => (p.slot, p.fall)) = some (false, false) ∧
    ((next (exec (.permitRefill 5) (partPad fun p => { p with refill := 1, permits := 3 }))).paddocks[5]?).map (fun p => (p.permits, p.refill)) =
      some (4, 2) := by decide +kernel

theorem wit_PowerMargins : (dom (exec (.voltageReached 0) (partDom fun d => { d with guard := 20, offset := 8 }))).map (fun d => (d.volt, d.wa)) = some (12, true) ∧
    (∀ x ∈ [(0, 3), (1, 2), (4, 0)], (dom (exec (.marginWindowEnd 0 x.1) (partDom fun d => { d with window := 256, men := true, cap := false, hold := false, offset := 2 }))).map
      (fun d => (d.window, d.offset)) = some (0, x.2)) ∧
    (dom (exec (.marginHoldEnd 0) (partDom fun d => { d with hold := true, holdLeft := 0 }))).map (·.hold) = some false ∧
    unitOk 0 1 2 7 = true ∧ domainOf 1 = 0 ∧ (part team).frozen = false ∧
    (let t := next (exec (.marginEvent 0 1 2 7) (partDom fun d => { d with offset := 2 }));
      (t.domain 0).offset = 0 ∧ (t.domain 0).hold = true ∧ t.bbox.map (fun e => (e.event, e.domain)) = [(1, 0)] ∧
      t.poison = [(scratchAddr 4 56 / 8, .margin)]) ∧
    unitOk 9 3 6 0x31000 = true ∧ ((next (exec (.uncorrectableMemoryError 9 3 6 0x31000) (part team))).poison = [(0x31000 / 8, .plain)]) ∧
    inRange 1 151 = false ∧ (Domain.reset.put 1 151).because 1 2 = true ∧ Domain.reset.good 1 = true ∧ (Domain.reset.temps.length, Domain.reset.amps.length) = (4, 2) ∧
    (∀ k ∈ [1, 2, 3], ({ Domain.reset with thealth := 13#4, clean := upd Domain.reset.clean 1 fun _ => 4000 }.put 1 5).because 1 k = false) ∧
    unitOk 0 0 5 3 = true ∧ ((part team).heldUnis 0)[3]? = some (0, .team 3) ∧
    ((teamOf (next (exec (.marginEvent 0 0 5 3) (partDom fun d => { d with offset := 2 })))).getU (.team 3)).poison = some .margin ∧ (dom (exec (.sensorSuspect 0 1 2 151) (part team))).map (·.thealth) = some 13#4 ∧
    (dom (exec (.sensorHealthy 0 1 5) (partDom fun d => { d with thealth := 13#4, clean := upd d.clean 1 fun _ => 4000 }))).map (·.thealth) = some 15#4 := by decide +kernel

/-! Preemption -/

/-- The small state whose fold is a victim whose team has stopped; queue 3 open, or not; save area of so many units. -/
def partStill (open_ : Bool) (area : Nat) : State :=
  let s := next (execVictimStop 0 ((partF team fun f => { f with victim := true }).updCtx 1 fun c => { c with desc := upd (upd c.desc 3 fun _ => dwordOfNat area) 2 fun _ => 0x1000000#64 }))
  if open_ then s.updPad 0 fun p => { p with queues := upd p.queues 3 fun _ => { Queue.empty with owner := some 0 } } else s

/-- The small state after the fold was saved. -/
def partSaved : State := next (execFoldSave 0 ((partStill true 16).memStore (fold.scratchPa 0 8) [7]))

theorem wit_PreemptMoves : (let s := { part team with bring := 7 }; (next (exec (.vacate 1#32) s)).folds.map (·.victim) = [true] ∧
      (next (exec (.vacate 2#32) s)).folds.map (·.victim) = [false]) ∧
    (let s := partStill false 16;
      (s.fold? 0).map (fun f => (s.stilled 0 f, (s.moveTo 0 f).map (·.1), f.paddock)) = some (true, some 1, 0) ∧
      (s.teams.map fun t => (t.status, t.stop.map (·.cause), t.arrived.isSome)) = [(.stopped, some 0x3C, false)] ∧
      (let t := next (exec (.victimMigrate 0 1) s); t.folds.map (fun f => (f.paddock, f.victim)) = [(1, false)] ∧ t.teams.map (·.status) = [.run])) ∧
    (let s := partStill true 1; (s.fold? 0).map (fun f => (s.stilled 0 f, (s.moveTo 0 f).isNone, decide ((s.ctx 1).saveSize < s.saveHeld 1 + f.imageBytes))) =
        some (true, true, true) ∧ (let t := next (exec (.foldSave 0) s); t.folds.map (fun f => (f.paddock, f.victim)) = [(0, false)] ∧ t.folds.map (·.left) = [true])) := by
  decide +kernel

theorem wit_PreemptSaves : ((partStill true 16).fold? 0).map (fun f => ((partStill true 16).stilled 0 f, ((partStill true 16).moveTo 0 f).isNone,
      decide ((partStill true 16).saveHeld 1 + f.imageBytes ≤ ((partStill true 16).ctx 1).saveSize))) = some (true, true, true) ∧
    partSaved.folds.map (fun f => (f.status, f.victim, f.image.length)) = [(.saved, false, 48)] ∧ memGet partSaved.mem (fold.scratchPa 0 8) = 0 ∧
    (partSaved.fold? 0).map (fun f => (partSaved.imagePlaces f).headD (0, 0)) = some (0x10EF000, 4096) ∧ memGet partSaved.mem 0x10EF008 = 7 ∧
    (let s := { partSaved with paddocks := (part team).paddocks, folds := partSaved.folds.map fun f => { f with kernel := { f.kernel with scratch := 65536, acc := 65536 } } };
      (s.fold? 0).map (fun f => ((s.scan 1).find? (fun q => s.tableRoom 0 f q && (s.canRestore f q).isSome), s.tableRoom 0 f 1, (s.canRestore f 1).isSome)) =
        some (some 1, true, true) ∧
      (let t := next (exec (.foldRestore 0 1) s); t.folds.map (fun f => (f.status, f.paddock)) = [(.resident, 1)] ∧ t.teams.map (·.status) = [.run] ∧
        memGet t.mem (scratchAddr 4 8) = 7)) ∧
    (let s := { part team with vacates := [⟨1#32, true, 0#32⟩, ⟨2#32, true, 0#32⟩] };
      (next (exec .vacateComplete s)).out = [.vacated 0#32] ∧ (next (exec .vacateComplete s)).vacates.map (·.waits) = [true, false]) := by decide +kernel

/-! The resident OS and management -/

theorem wit_SystemMoves : (let s := { part team with bring := 7 };
      s.ctxs.length = 64 ∧ s.freeCtx = some 2 ∧ ((next (exec (.assignContext 5) s)).ctx 2).fn = some 5 ∧
      (s.ctx 1).fn.isSome = true ∧ (next (exec (.releaseContext 1) s)).folds.map (·.status) = [.ended] ∧ (s.ctx 3).fn = none ∧
      fieldMask 5 = some (2 ^ 39 - 1) ∧ 5 < (s.ctx 1).desc.length ∧ fieldMask 8 = none ∧ s.tinv0.msb = false ∧ s.replay.msb = false ∧
      s.accessing 1 = false ∧ (next (exec (.mapQueueName 9 0xA000000000000001#64) s)).xlate = [(9, 0xA000000000000000#64)] ∧
      (next (exec (.replayBounceRing 1) s)).replay = 0x8000000000000001#64) ∧
    (let s := { part team with bring := 7, ctxs := List.replicate 64 { Ctx.empty with fn := some 0 } }; s.freeCtx = none) ∧
    (let s := { part team with tinv0 := 0x8001000000000000#64, ctxs := List.replicate 64 Ctx.empty };
      s.accessing (bitsOf s.tinv0.toNat 53 48) = false ∧ (next (exec .tlbInvalidationComplete s)).tinv0 = 0x0001000000000000#64) ∧
    ((part team).decoded = [] ∧ memRead (next (exec (.hostMemoryWrite 0x40000 [1, 2]) { part team with bring := 7 })).mem 0x40000 2 = [1, 2]) ∧
    ((part team).ctx 1).setsDue = false ∧ (part team).unasked = true ∧ (part team).off = false := by decide +kernel

/-- The small state with call 2 for a context posted to the request ring of function 0. -/
def partAsks (c : Nat) : State :=
  { ((part team).memStore 0x70000 (bytesOf 8 2)).memStore 0x70008 (bytesOf 8 c) with
    bring := 7, fnRings := upd (part team).fnRings 0 fun _ => ⟨0x70000#64, 4, 1, 0⟩ }

theorem wit_RequestRings : (partAsks 3).ctxs.length = 64 ∧ (partAsks 3).decoded = [] ∧ Memory.wf (partAsks 3).mem = true ∧ (partAsks 3).unasked = false ∧
    (part team).unasked = true ∧ (partAsks 3).caller 2 [3] = some 0 ∧ ((partAsks 3).ctx 3).fn = none ∧
    memRead (next (exec (.releaseContext 3) (partAsks 3))).mem 0x70038 1 = [3] ∧
    (partAsks 1).caller 2 [1] = some 0 ∧ ((partAsks 1).ctx 1).fn = some 0 ∧
    (next (exec (.releaseContext 1) (partAsks 1))).fnRings.headD ⟨0#64, 0, 0, 0⟩ = ⟨0x70000#64, 4, 1, 1⟩ ∧
    (let s := { (part team).memStore 0x70000 (bytesOf 8 1) with bring := 7, fnRings := upd (part team).fnRings 5 fun _ => ⟨0x70000#64, 1, 1, 0⟩ };
      s.caller 1 [0] = some 5 ∧ s.freeCtx = some 2 ∧ memRead (next (exec (.assignContext 0) s)).mem 0x70030 1 = [2]) ∧
    (let s := { (part team).memStore 0x70000 (bytesOf 8 5) with vacates := [⟨0#32, true, 0#32⟩], fnRings := upd (part team).fnRings 5 fun _ => ⟨0x70000#64, 1, 1, 0⟩ };
      s.caller 5 [0] = some 5 ∧ s.vacates.findIdx? s.vacantFor = some 0 ∧ (next (exec .vacateComplete s)).vacates.map (·.waits) = [false]) ∧
    ((next (exec (.doorbellWrite 2 0x1010 7#64) { part team with bring := 7 })).fnRings.getD 2 ⟨0#64, 0, 0, 0⟩).tail = 7 ∧
    (part team).descWord 1 25 = 1 ∧ (part team).descWord 3 25 = 0 := by decide +kernel

/-- The small state with a call of words posted to the request ring of function 5. -/
def partCalls (ws : List Nat) : State :=
  { (part team).memStore 0x70000 ((ws.map (bytesOf 8)).flatten) with bring := 7, fnRings := upd (part team).fnRings 5 fun _ => ⟨0x70000#64, 4, 1, 0⟩ }

/-- The result that a request of function 5 gets. -/
def called (i : Instr) (ws : List Nat) : List Byte := memRead (next (exec i (partCalls ws))).mem 0x70038 1

theorem wit_RequestRingsForeign : ((part team).ctx 1).fn = some 0 ∧
    (partCalls [3, 1, 2, 7]).caller 3 [1, 2, 7] = some 5 ∧ called (.writeDescriptorField 1 2 7#64) [3, 1, 2, 7] = [3] ∧
    (partCalls [4, 1, 0, 0]).caller 4 [1, 0, 0] = some 5 ∧ called (.foldResume 1 0) [4, 1, 0, 0] = [3] ∧
    (partCalls [4, 1, 0, 1]).caller 4 [1, 0, 1] = some 5 ∧ called (.foldReplay 1 0) [4, 1, 0, 1] = [3] ∧
    (partCalls [4, 1, 0, 2]).caller 4 [1, 0, 2] = some 5 ∧ called (.foldKill 1 0) [4, 1, 0, 2] = [3] ∧
    (partCalls [6, 1, 0, 0]).caller 6 [1, 0, 0] = some 5 ∧ called (.invalidate 1 0 0) [6, 1, 0, 0] = [3] ∧
    (partCalls [8, 1]).caller 8 [1] = some 5 ∧ called (.replayBounceRing 1) [8, 1] = [3] ∧
    (partCalls [4, 1, 0, 9]).caller 4 [1, 0, 2] = none ∧ (partCalls [4, 1, 0, 9]).fnRings.findIdx? ((partCalls [4, 1, 0, 9]).misasks 4) = some 5 ∧
    called (.foldKill 1 0) [4, 1, 0, 9] = [1] := by decide +kernel

theorem wit_RequestRingsVacate : (partCalls [5, 2 ^ 32 + 1]).caller 5 [1] = none ∧
    (partCalls [5, 2 ^ 32 + 1]).fnRings.findIdx? ((partCalls [5, 2 ^ 32 + 1]).misasks 5) = some 5 ∧
    called (.vacate 1#32) [5, 2 ^ 32 + 1] = [1] ∧ (next (exec (.vacate 1#32) (partCalls [5, 2 ^ 32 + 1]))).vacates.length = 0 ∧
    (part team).caller 5 [1] = none ∧ (part team).fnRings.findIdx? ((part team).misasks 5) = none := by decide +kernel

theorem wit_SystemBringUp : (let s := { part team with bring := 5 };
    (s.ctx 0).desc.length = 32 ∧ ((s.ctx 0).word 0).testBit 63 = false ∧ ((next (exec (.bringUp true) s)).bring = 6) ∧
      (((next (exec (.bringUp true) s)).ctx 0).word 0).testBit 63 = true) := by decide +kernel

theorem wit_RequestRingsName : (let e : DWord := dwordOfNat (2 ^ 63 + 2 ^ 55)
    e.msb = true ∧ bitsOf e.toNat 60 55 = 1 ∧ (partCalls [7, 9, e.toNat]).caller 7 [9, e.toNat] = some 5 ∧
      called (.mapQueueName 9 e) [7, 9, e.toNat] = [3]) := by decide +kernel

theorem wit_ManagementAnswers : ∀ x ∈ [(Instr.getVersion, 0, 1), (.getCapabilities, 1, 2), (.negotiateAlgorithms [2], 2, 3), (.negotiateAlgorithms [1], 2, 2),
      (.getDigests, 3, 3), (.getCertificate 0 0 8, 3, 3), (.getMeasurements 0 0, 3, 3), (.getCapabilities, 0, 0), (.getDigests, 0, 0)],
    (next (exec x.1 { part team with spdm := x.2.1 })).spdm = x.2.2 := by decide +kernel


/-- Do regions keep apart? -/
def apart (ps : List (Nat × Nat)) : Bool := decide (ps.Pairwise fun x y => x.1 + x.2 ≤ y.1 ∨ y.1 + y.2 ≤ x.1)

theorem wit_PreemptPages : (let s := (partStill true 16).memStore (fold.scratchPa 0 8) [7]
    s.written = true ∧ Memory.wf s.mem = true ∧ (s.fold? 0).map (fun f =>
      let into := s.imagePlaces { f with image := (s.savePages f.ctx).take (f.imageBytes / savePage) }
      (apart (pagesOf f.places ++ into), decide ((pagesOf f.places).length ≤ into.length))) = some (true, true)) ∧
    partSaved.written = true ∧ partSaved.decoded.isEmpty = true ∧ Memory.wf partSaved.mem = true ∧
    (partSaved.fold? 0).map (fun f => apart (partSaved.imagePlaces f ++ pagesOf fold.places)) = some true ∧
    fold.places.all (fun y => y.2 % savePage == 0) = true := by decide +kernel

/-! ## Values -/

/-- Lanes 13, 5 and 6 of the record that opens 06_lane_memory; lanes from 18 on are out of its bounds. -/
theorem test_record_addresses : (let r := recOf [2 * 2 ^ 48 + 0x30000000, 3 * 2 ^ 32 + 6, 32, 0];
    [13, 5, 6].map r.addr = [0x30000044, 0x30000014, 0x30000020] ∧
      (List.range 32).filter (fun i => r.inBounds i 1) = List.range 18) := by decide +kernel

/-- The check value of CRC-32C: its polynomial's value of the characters 1 to 9. -/
theorem test_crc : crc32c [0x31, 0x32, 0x33, 0x34, 0x35, 0x36, 0x37, 0x38, 0x39] = 0xE3069283#32 := by decide +kernel

/-- 1.5 + 2.25 is 3.75; 1 + 2^-24 is a tie that goes to even and is inexact (R226, R227); the root of 4; 2 to the 3; log2 of 8. -/
theorem test_f32 : arithLane .add .f32 (fmtEnv 4#32) 0x3FC00000 0x40100000 = (0x40700000, 0#6) ∧
    arithLane .add .f32 (fmtEnv 4#32) 0x3F800000 0x33800000 = (0x3F800000, fxNX) ∧
    funLane .sqrt .f32 (fmtEnv 4#32) 0x40800000 = (0x40000000, 0#6) ∧ (funLane .exp2 .f32 (fmtEnv 4#32) 0x40400000).1 = 0x41000000 ∧
    (funLane .log2 .f32 (fmtEnv 4#32) 0x41000000).1 = 0x40400000 := by decide +kernel

/-- Integer lanes wrap, division rounds to zero, and a shift by the width or more leaves 0 or the sign. -/
theorem test_i32 : (arithLane .add .i32 (fmtEnv 0#32) 0x7FFFFFFF 1).1 = 0x80000000 ∧ (arithLane .div .i32 (fmtEnv 0#32) (2 ^ 32 - 7) 2).1 = 2 ^ 32 - 3 ∧
    (arithLane .rem .i32 (fmtEnv 0#32) (2 ^ 32 - 7) 2).1 = 2 ^ 32 - 1 ∧ shlW 1#32 32 = 0#32 ∧ sraW 0x80000000#32 99 = 0xFFFFFFFF#32 ∧
    clzW 0#32 = 32 := by decide +kernel

end Sys2Proof.Machine.Tests
end

section
/-!
SUPPORT. Every step keeps the invariant of the state (O6). `Keeps s t` says that a state `t` keeps what `State.inv` asks of `s`, and
`OutKeeps s o` that whatever next state an outcome answers does. Each operation of the model has a lemma of the first kind, each
instruction and each move one of the second; bring-up alone has to be proved for the invariant itself, since a reset is among its steps.
-/
namespace Sys2Proof.Machine

/-! ## How `Keeps` is put together -/

/-- The outermost change of a chain first: what it keeps of the state it is made in, after what that state keeps. -/
theorem Keeps.after {s t u : State} (k : Keeps t u) (h : Keeps s t) : Keeps s u := h.trans k

theorem keeps_ite {s t u : State} {c : Prop} [Decidable c] (h : Keeps s t) (k : Keeps s u) : Keeps s (if c then t else u) := by
  split
  · exact h
  · exact k

/-- A change made under a condition. -/
theorem keeps_when {s t : State} {c : Prop} [Decidable c] (h : Keeps s t) : Keeps s (if c then t else s) := keeps_ite h (.refl s)
theorem keeps_unless {s t : State} {c : Prop} [Decidable c] (h : Keeps s t) : Keeps s (if c then s else t) := keeps_ite (.refl s) h

/-- The state of a result that is taken apart. -/
theorem Keeps.fst {α : Type} {s t : State} {p : State × α} {x : α} (h : p = (t, x)) (k : Keeps s p.1) : Keeps s t := by
  simpa only [h] using k

theorem Keeps.snd {α : Type} {s t : State} {p : α × State} {x : α} (h : p = (x, t)) (k : Keeps s p.2) : Keeps s t := by
  simpa only [h] using k

theorem Keeps.snd_fst {α β : Type} {s t : State} {p : α × State × β} {n : α} {x : β} (h : p = (n, t, x)) (k : Keeps s p.2.1) :
    Keeps s t := by simpa only [h] using k

theorem Keeps.of_ok {ε α : Type} {s t u : State} {x y : α} (k : Keeps s t) (h : (.ok (x, t) : Except ε (α × State)) = .ok (y, u)) :
    Keeps s u := by
  cases h
  exact k

theorem Keeps.of_error {α β : Type} {s t u : State} {x y : α} (k : Keeps s t)
    (h : (.error (x, t) : Except (α × State) β) = .error (y, u)) : Keeps s u := by
  cases h
  exact k

/-! ### Changes of one field that `State.inv` does not speak of -/

theorem keeps_setTeams (s : State) (x : List Team) : Keeps s { s with teams := x } := .of_eq rfl rfl rfl rfl rfl
theorem keeps_setFolds (s : State) (x : List Fold) : Keeps s { s with folds := x } := .of_eq rfl rfl rfl rfl rfl
theorem keeps_setJobs (s : State) (x : List Job) : Keeps s { s with jobs := x } := .of_eq rfl rfl rfl rfl rfl
theorem keeps_setOps (s : State) (x : List EngOp) : Keeps s { s with ops := x } := .of_eq rfl rfl rfl rfl rfl
theorem keeps_setOut (s : State) (x : List Out) : Keeps s { s with out := x } := .of_eq rfl rfl rfl rfl rfl
theorem keeps_setMoves (s : State) (x : Nat) : Keeps s { s with moves := x } := .of_eq rfl rfl rfl rfl rfl
theorem keeps_setCur (s : State) (x : Nat) : Keeps s { s with cur := x } := .of_eq rfl rfl rfl rfl rfl
theorem keeps_setRows (s : State) (x : List Row) : Keeps s { s with rows := x } := .of_eq rfl rfl rfl rfl rfl
theorem keeps_setWire (s : State) (x : List Cell) : Keeps s { s with wire := x } := .of_eq rfl rfl rfl rfl rfl
theorem keeps_setShear (s : State) (x : List ShReq) : Keeps s { s with shear := x } := .of_eq rfl rfl rfl rfl rfl
theorem keeps_setTainted (s : State) (x : List Nat) : Keeps s { s with tainted := x } := .of_eq rfl rfl rfl rfl rfl
theorem keeps_setTags (s : State) (x : List (Nat × AccTag)) : Keeps s { s with tags := x } := .of_eq rfl rfl rfl rfl rfl
theorem keeps_setPoison (s : State) (x : List (Nat × Poison)) : Keeps s { s with poison := x } := .of_eq rfl rfl rfl rfl rfl
theorem keeps_setTestDue (s : State) (x : Bool) : Keeps s { s with testDue := x } := .of_eq rfl rfl rfl rfl rfl
theorem keeps_setTinv0 (s : State) (x : DWord) : Keeps s { s with tinv0 := x } := .of_eq rfl rfl rfl rfl rfl
theorem keeps_setOff (s : State) (x : Bool) : Keeps s { s with off := x } := .of_eq rfl rfl rfl rfl rfl
theorem keeps_setFnRings (s : State) (x : List FnRing) : Keeps s { s with fnRings := x } := .of_eq rfl rfl rfl rfl rfl

/-! ## What outcomes keep -/

/-- Whatever next state an outcome answers keeps the invariant of `s`. -/
structure OutKeeps (s : State) (o : Out1) : Prop where
  next : ∀ t, o = .next t → Keeps s t

theorem outKeeps_next {s t : State} (k : Keeps s t) : OutKeeps s (.next t) := ⟨fun _ h => Host.Outcome.next.inj h ▸ k⟩
theorem outKeeps_stay (s : State) : OutKeeps s (.next s) := outKeeps_next (.refl s)
theorem outKeeps_moved {s t : State} (k : Keeps s t) : OutKeeps s (moved t) := ⟨fun _ => moved_keeps k⟩
theorem outKeeps_stepped {s t : State} {tm : Team} (k : Keeps s t) : OutKeeps s (stepped t tm) := ⟨fun _ => stepped_keeps k⟩

theorem outKeeps_ite {s : State} {a b : Out1} {c : Prop} [Decidable c] (h : OutKeeps s a) (k : OutKeeps s b) :
    OutKeeps s (if c then a else b) := by
  split
  · exact h
  · exact k

/-- An outcome of a state that keeps the invariant of `s`. -/
theorem OutKeeps.from {s t : State} {o : Out1} (h : OutKeeps t o) (k : Keeps s t) : OutKeeps s o := ⟨fun u hu => k.trans (h.next u hu)⟩

theorem outKeeps_teamStep (s : State) (f : Env → Team → Team) : OutKeeps s (teamStep s f) := ⟨fun _ => teamStep_keeps⟩

theorem outKeeps_foldStep {s : State} {f : Env → Fold → Team → Out1} (h : ∀ e fd tm, OutKeeps s (f e fd tm)) :
    OutKeeps s (foldStep s f) := ⟨fun _ ht => foldStep_keeps ht fun e fd tm => (h e fd tm).next⟩

/-- The end of a group instruction made in a state that keeps it, with effects that keep it. -/
theorem outKeeps_groupEnd {s t u : State} {e : Env} {tm tm' : Team} {len : Nat} {sq : BitVec 3} (h : Keeps s t) (k : Keeps t u) :
    OutKeeps s (groupEnd t u e tm tm' len sq) := .from ⟨fun _ => groupEnd_keeps k⟩ h

/-! ## Blocks and lines that cores read (R328-R343) -/

theorem keeps_mapName (s : State) (n : Nat) (v : DWord) : Keeps s (s.mapName n v) := .of_eq rfl rfl rfl rfl rfl
theorem keeps_walkSettles (s : State) (p c : Nat) (vas : List Nat) : Keeps s (s.walkSettles p c vas) :=
  keeps_unless (keeps_foldl _ (fun t _ => keeps_walkSettle t p c _) _ s)
theorem keeps_readSettle (s : State) (p c va n : Nat) : Keeps s (s.readSettle p c va n) :=
  keeps_unless ((keeps_settle ..).after (keeps_settle ..))
theorem keeps_hold (s : State) (c r e : Nat) (segs : List (Nat × Nat)) (d : Bool) : Keeps s (s.hold c r e segs d) :=
  keeps_unless (.of_eq rfl rfl rfl rfl rfl)
theorem keeps_compress (s : State) (e : Nat) (rs : List (Nat × Nat)) : Keeps s (s.compress e rs) := keeps_when (keeps_l2Takes ..)
theorem keeps_readPlain (s : State) (core : Nat) (c : Bool) (rs : List (Nat × Nat)) : Keeps s (s.readPlain core c rs).2 :=
  (keeps_coreFill ..).after (keeps_settle ..)

theorem keeps_plainLanes (s : State) (core : Nat) (c : Bool) (xs : List (Nat × Nat × List Piece)) :
    Keeps s (s.plainLanes core c xs).2 := by
  induction xs generalizing s with
  | nil => exact .refl s
  | cons x xs ih => exact (ih _).after (keeps_readPlain ..)

theorem keeps_readBlocks (s : State) (core c : Nat) (r : Rec) (bs : List (List (Nat × Nat) × Bool)) :
    Keeps s (s.readBlocks core c r bs).2 := by
  induction bs generalizing s with
  | nil => exact .refl s
  | cons b bs ih =>
    unfold State.readBlocks
    split
    · exact ih s
    · exact (ih _).after <| (keeps_l1Block ..).after <| (keeps_hold ..).after <| (keeps_settleFor ..).after (keeps_dropLines ..)

theorem keeps_readLanes (s : State) (core c : Nat) (r : Rec) (xs : List (Nat × Nat × List Piece)) :
    Keeps s (s.readLanes core c r xs).2 := by
  unfold State.readLanes
  split
  · exact keeps_readBlocks ..
  · exact keeps_plainLanes ..

theorem keeps_opens (s : State) (core : Nat) (r : Rec) (xs : List (Nat × Nat × List Piece)) : Keeps s (s.opens core r xs) :=
  keeps_when (keeps_dropLines ..)

theorem keeps_noteStrong (s : State) (c : Nat) (xs : List (Nat × Nat)) : Keeps s (s.noteStrong c xs) := keeps_updCtx ..

theorem keeps_note (s : State) (c : Nat) (st : Bool) (b : Nat) (ok : List (Nat × Nat × List Piece)) : Keeps s (s.note c st b ok) :=
  keeps_when ((keeps_noteStrong ..).after (keeps_foldl _ (fun _ _ => keeps_l2Touch ..) ..))

theorem keeps_clearPoison (s : State) (rs : List (Nat × Nat)) : Keeps s (s.clearPoison rs) :=
  keeps_unless (.of_eq rfl rfl rfl rfl rfl)

theorem keeps_writeLanes (s : State) (core : Nat) (c th : Bool) (xs : List (List (Nat × Nat) × List Byte)) :
    Keeps s (s.writeLanes core c th xs) := by
  induction xs generalizing s with
  | nil => exact .refl s
  | cons x xs ih => exact (ih _).after <| (keeps_coreWrites ..).after (keeps_settle ..)

theorem keeps_putAll {s t : State} {pa : Nat} {bs : List Byte} (h : s.putAll pa bs = .ok t) : Keeps s t := by
  unfold State.putAll at h
  split at h
  · cases h
  · cases h
    exact (keeps_clearPoison ..).after <| (keeps_busWrite ..).after (keeps_settle ..)

theorem keeps_coreLeaves (s : State) (core : Nat) (rs : List (Nat × Nat)) : Keeps s (s.coreLeaves core rs) :=
  (keeps_dropCopies ..).after (keeps_dropLines ..)

theorem keeps_coreBlocks (s : State) (core c : Nat) (r : Rec) (bs : List BlockStore) : Keeps s (s.coreBlocks core c r bs) :=
  (keeps_storeBlocks ..).after <| (keeps_keepOlds ..).after (keeps_coreLeaves ..)

theorem keeps_atomBegin (s : State) (tm : Team) (sc e : Nat) (rs : List (Nat × Nat)) : Keeps s (s.atomBegin tm sc e rs) :=
  (keeps_when ((keeps_acquireBy ..).after (keeps_releaseBy ..))).after <| (keeps_compress ..).after (keeps_coreLeaves ..)

theorem outKeeps_gmemExec (m : GMem) (s : State) : OutKeeps s (gmemExec m s) := by
  unfold gmemExec
  refine outKeeps_foldStep fun e fd tm => ?_
  extract_lets store atom dest trap ixs srcs us d1 early named handle o h i tlb
  refine outKeeps_ite (outKeeps_stepped (.refl s)) ?_
  split
  · exact outKeeps_stepped (.refl s)
  split
  · exact outKeeps_stepped (keeps_keepRec ..)
  extract_lets s1 n rs rs' access causes refs give ill fate s2 s3 now tm' none?
  have k1 : Keeps s s1 := keeps_keepRec ..
  have k2 : Keeps s s2 := (keeps_unless (keeps_tlbFills ..)).after k1
  have absent (v : Bool) : OutKeeps s (none? v) := outKeeps_groupEnd ((keeps_when (keeps_atomBegin ..)).after k2) (.refl _)
  refine outKeeps_ite (outKeeps_stepped k1) ?_
  split
  · exact outKeeps_stepped k1
  split
  · exact outKeeps_stepped k2
  clear_value fate
  split
  · exact absent _
  · exact absent _
  · exact outKeeps_next k2
  extract_lets xs runs s4 mix bad lands through plain s5 _ q s6
  have k4 : Keeps s s4 :=
    (keeps_ite (keeps_atomBegin ..) (keeps_ite (keeps_coreLeaves ..) (keeps_unless (keeps_opens ..)))).after k2
  have k5 : Keeps s4 s5 := keeps_ite (keeps_coreBlocks ..) ((keeps_when (keeps_clearPoison ..)).after (keeps_writeLanes ..))
  have k6 : Keeps s4 s6 := (keeps_note ..).after (keeps_atomAt ..)
  clear_value lands
  split
  · exact outKeeps_stepped k4
  split
  · split
    · exact outKeeps_stepped (k5.after k4)
    · exact outKeeps_groupEnd k4 k5
  · split
    · exact outKeeps_stepped (k6.after k4)
    · exact outKeeps_groupEnd k4 k6
  · exact outKeeps_groupEnd k4 (keeps_readLanes ..)

/-! ## Fault records and halts (21_traps) -/

theorem keeps_putRecords (s : State) (c : Nat) (xs : List (Nat × List DWord)) : Keeps s (s.putRecords c xs) := by
  induction xs generalizing s with
  | nil => exact .refl s
  | cons x xs ih => exact (ih _).after <| (keeps_updCtx ..).after <| (keeps_busWrite ..).after (keeps_settle ..)

theorem keeps_postRun {s t : State} {c : Nat} {rs : List (List DWord)} (h : s.postRun c rs = some t) : Keeps s t := by
  unfold State.postRun at h
  extract_lets s1 at h
  split at h
  · cases h
  · cases h
    exact (keeps_setOut ..).after <| (keeps_putRecords ..).after (keeps_foldl _ (fun _ _ => keeps_walkSettle ..) ..)

theorem keeps_drainList (s : State) (c : Nat) (rs : List (List DWord)) : Keeps s (s.drainList c rs) := by
  induction rs generalizing s with
  | nil => exact .refl s
  | cons r rs ih =>
    unfold State.drainList
    split
    · exact .refl s
    · exact (ih _).after <| (keeps_updCtx ..).after (keeps_postRun ‹_›)

theorem keeps_drainPend (s : State) (c : Nat) : Keeps s (s.drainPend c) := keeps_drainList ..
theorem keeps_postAsync (s : State) (c : Nat) (r : FaultRec) : Keeps s (s.postAsync c r) := (keeps_drainPend ..).after (keeps_updCtx ..)

theorem keeps_markPosted (s : State) (run n : Nat) (xs : List (Option (Nat × Team × Stop))) : Keeps s (s.markPosted run n xs) := by
  induction xs generalizing s n with
  | nil => exact .refl s
  | cons x xs ih =>
    cases x with
    | none => exact ih ..
    | some x => exact (ih ..).after (keeps_updTeam ..)

theorem keeps_postHalt (s : State) (c : Nat) (rs : List (Nat × List RunItem)) : Keeps s (s.postHalt c rs) := by
  induction rs generalizing s with
  | nil => exact .refl s
  | cons r rs ih =>
    unfold State.postHalt
    split
    · exact ih s
    · exact (keeps_updFold ..).after <| (keeps_markPosted ..).after (keeps_postRun ‹_›)

theorem keeps_faultRun (s : State) (c : Nat) : Keeps s (s.faultRun c) := (keeps_unless (keeps_postHalt ..)).after (keeps_drainPend ..)

theorem keeps_haltTeam (s : State) (t cause kind : Nat) : Keeps s (s.haltTeam t cause kind) := by
  unfold State.haltTeam
  split
  · exact .refl s
  · exact keeps_unless (keeps_updTeam ..)

theorem keeps_haltFold (s : State) (cause kind : Nat) (ts : List Nat) : Keeps s (s.haltFold cause kind ts) := by
  induction ts generalizing s with
  | nil => exact .refl s
  | cons t ts ih => exact (ih _).after (keeps_haltTeam ..)

theorem outKeeps_haltArrival (team skid : Nat) (s : State) : OutKeeps s (execHaltArrival team skid s) := by
  unfold execHaltArrival
  split
  · exact outKeeps_stay s
  · exact outKeeps_ite (outKeeps_stay s) (outKeeps_moved (keeps_updTeam ..))

theorem outKeeps_externalDebugHalt (fold : Nat) (s : State) : OutKeeps s (execExternalDebugHalt fold s) := by
  unfold execExternalDebugHalt
  split
  · exact outKeeps_ite (outKeeps_moved (keeps_haltFold ..)) (outKeeps_stay s)
  · exact outKeeps_stay s

/-! ## Meetings (R63-R67) -/

theorem keeps_leaveBarrier (s : State) (sc : Option Nat) (k : Kernel) (t : Nat) (tm : Team) : Keeps s (s.leaveBarrier sc k t tm) := by
  unfold State.leaveBarrier
  split
  · exact .refl s
  · exact keeps_updTeam ..

theorem keeps_leaveAll (s : State) (sc : Option Nat) (k : Kernel) (xs : List (Nat × Team)) : Keeps s (s.leaveAll sc k xs) := by
  induction xs generalizing s with
  | nil => exact .refl s
  | cons x xs ih => exact (ih _).after (keeps_leaveBarrier ..)

theorem keeps_shareWrites (s : State) (n : Nat) (f : Fold) : Keeps s (s.shareWrites n f) := .of_eq rfl rfl rfl rfl rfl

theorem keeps_meetCheck (s : State) (n : Nat) : Keeps s (s.meetCheck n) := by
  unfold State.meetCheck
  split
  · exact .refl s
  · refine keeps_unless (Keeps.after (keeps_ite ?_ (keeps_leaveAll ..)) ((keeps_fences ..).after (keeps_shareWrites ..)))
    exact (keeps_setTeams ..).after ((keeps_leaveAll ..).after (keeps_updFold ..))

theorem outKeeps_arrive (s : State) (e : Env) (tm : Team) (a : Arrival) (w : Wait) (sq : BitVec 3) : OutKeeps s (arrive s e tm a w sq) :=
  outKeeps_ite (outKeeps_stepped (.refl s)) <| outKeeps_ite (outKeeps_stepped (.refl s)) <|
    outKeeps_next <| (keeps_setMoves ..).after <| (keeps_meetCheck ..).after (keeps_updTeam ..)

theorem outKeeps_phase (sq : BitVec 3) (d : BitVec 7) (s : State) : OutKeeps s (execPhase sq d s) := by
  refine outKeeps_foldStep fun e fd tm => ?_
  split
  · exact outKeeps_stepped (.refl s)
  · exact outKeeps_stepped (.refl s)
  · exact outKeeps_arrive ..

theorem outKeeps_fmove (sq : BitVec 3) (d a m : BitVec 7) (s : State) : OutKeeps s (execFmove sq d a m s) := by
  refine outKeeps_foldStep fun e fd tm => ?_
  split
  · exact outKeeps_stepped (.refl s)
  · exact outKeeps_stepped (.refl s)
  · exact outKeeps_arrive ..

theorem keeps_rebase (s : State) (n p : Nat) : Keeps s (s.rebase n p) := .of_eq rfl rfl rfl rfl rfl

theorem keeps_joinSets (s : State) (f : Fold) : Keeps s (s.joinSets f) := by
  refine Keeps.after (keeps_foldl _ (fun t n => ?_) ..) (keeps_foldl _ (fun _ _ => keeps_updTeam ..) ..)
  split
  · exact keeps_when (keeps_updTeam ..)
  · exact .refl t

theorem keeps_moveFold (s : State) (n : Nat) (f : Fold) (p : Nat) (sc ac : List Alloc) : Keeps s (s.moveFold n f p sc ac) :=
  (keeps_joinSets ..).after <| (keeps_enterCores ..).after <| (keeps_unpin ..).after <| (keeps_updFold ..).after <|
    (keeps_rebase ..).after <| (keeps_updPad ..).after <| (keeps_carry ..).after (keeps_leaveCores ..)

theorem keeps_leaveMove (s : State) (b : Bool) (p t : Nat) (tm : Team) : Keeps s (s.leaveMove b p t tm) := by
  unfold State.leaveMove
  split
  · exact keeps_updTeam ..
  · exact .refl s

theorem keeps_leaveMoves (s : State) (b : Bool) (p : Nat) (xs : List (Nat × Team)) : Keeps s (s.leaveMoves b p xs) := by
  induction xs generalizing s with
  | nil => exact .refl s
  | cons x xs ih => exact (ih _).after (keeps_leaveMove ..)

/-- The state in which an fmove's target is known, or its trap is taken. -/
theorem keeps_moveTarget_ok {s t : State} {n : Nat} {f : Fold} {mode val : Nat} {p : Option Nat}
    (h : s.moveTarget n f mode val = .ok (p, t)) : Keeps s t := by
  revert h
  fun_cases State.moveTarget s n f mode val
  · nofun
  · exact (Keeps.refl s).of_ok
  · nofun
  · exact ((keeps_tlbFill ..).after (keeps_keepRec ..)).of_ok
  · exact ((keeps_tlbFill ..).after (keeps_keepRec ..)).of_ok
  · nofun

theorem keeps_moveTarget_error {s t : State} {n : Nat} {f : Fold} {mode val : Nat} {x : Trap}
    (h : s.moveTarget n f mode val = .error (x, t)) : Keeps s t := by
  revert h
  fun_cases State.moveTarget s n f mode val
  · exact (Keeps.refl s).of_error
  · nofun
  · exact (keeps_keepRec ..).of_error
  · nofun
  · nofun
  · exact ((keeps_tlbFill ..).after (keeps_keepRec ..)).of_error

/-! ## Accumulator tags and engine writes (R188, R262) -/

theorem keeps_untag (s : State) (pa n : Nat) : Keeps s (s.untag pa n) := keeps_setTags ..
theorem keeps_untaint (s : State) : Keeps s s.untaint := keeps_setTainted ..
theorem keeps_overwritten (s : State) (pa n : Nat) : Keeps s (s.overwritten pa n) := .of_eq rfl rfl rfl rfl rfl
theorem keeps_engineWrite (s : State) (pa : Nat) (bs : List Byte) : Keeps s (s.engineWrite pa bs) :=
  (keeps_ite (keeps_busWrite ..) (keeps_busWrite ..)).after (keeps_overwritten ..)

/-! ## Reservation tables (R252-R255, R269) -/

theorem keeps_arrAccept (k : ArrKind) (c : Nat) (s : State) (fd : Fold) (tm : Team) (b : List DWord) :
    Keeps s (arrAccept k c s fd tm b) := by
  fun_cases arrAccept k c s fd tm b
  · exact keeps_updPad ..
  · exact keeps_updPad ..

theorem keeps_dateEntries (s : State) (p : Nat) : Keeps s (s.dateEntries p) := keeps_updPad ..

theorem keeps_repostOp (s : State) (fd : Fold) (n : Nat) : Keeps s (s.repostOp fd n).1 := by
  fun_cases State.repostOp s fd n
  · exact .refl s
  · exact keeps_setOps ..
  · exact .refl s
  · exact (keeps_setOps ..).after (keeps_updCtx ..)

theorem keeps_repostJoint (s : State) (fd : Fold) (n : Nat) (ps : List Post) : Keeps s (s.repostJoint fd n ps) := by
  cases ps with
  | nil => exact .refl s
  | cons p ps => exact keeps_updPad ..

theorem keeps_repost (s : State) (fd : Fold) (all bs : List Broken) : Keeps s (s.repost fd all bs).1 := by
  induction bs generalizing s with
  | nil => exact .refl s
  | cons b bs ih =>
    cases b with
    | op n => exact (ih _).after (keeps_repostOp ..)
    | arr k p i =>
      unfold State.repost
      extract_lets full r s1
      have k1 : Keeps s s1 := by
        unfold s1
        split
        · exact .refl s
        · exact keeps_ite (keeps_repostJoint ..) ((keeps_setCur ..).after <| (keeps_arrAccept ..).after (keeps_setCur ..))
      split
      · exact ih s
      · split
        · exact ih s
        · exact (ih _).after k1

theorem keeps_retryFold (s : State) (n : Nat) : Keeps s (s.retryFold n) := by
  fun_cases State.retryFold s n
  · exact .refl s
  · exact .refl s
  · exact keeps_dateEntries ..
  · exact (keeps_dateEntries ..).after <| (keeps_updFold ..).after (keeps_repost ..)

theorem keeps_retryWaits (s : State) : Keeps s s.retryWaits := keeps_unless (keeps_foldl _ (fun _ _ => keeps_retryFold ..) ..)

theorem keeps_repostBroken (s : State) (n : Nat) (fd : Fold) : Keeps s (s.repostBroken n fd) :=
  (keeps_dateEntries ..).after <| (keeps_updFold ..).after (keeps_repost ..)

theorem keeps_ccFall (s : State) (t c : Nat) : Keeps s (s.ccFall t c) := (keeps_untaint ..).after (keeps_updTeam ..)

theorem keeps_freeEntry (s : State) (p i : Nat) (fall : List Post) : Keeps s (s.freeEntry p i fall) :=
  (keeps_retryWaits ..).after <| (keeps_foldl _ (fun _ _ => keeps_ccFall ..) ..).after (keeps_updPad ..)

theorem keeps_raggedCheck (s : State) (p q : Nat) : Keeps s (s.raggedCheck p q) := by
  fun_cases State.raggedCheck s p q
  · exact .refl s
  · exact .refl s
  · exact (keeps_updFold ..).after (keeps_freeEntry ..)
  · exact .refl s

/-! ## Engine instructions (R265-R289) -/

theorem keeps_engRec (s : State) (n h : Nat) (r w : Bool) : Keeps s (s.engRec n h r w).2.2 := by
  fun_cases State.engRec s n h r w
  · exact .refl s
  · exact keeps_keepRec ..
  · exact keeps_keepRec ..

/-- A record that an instruction names only where it takes one. -/
theorem keeps_engRec_if (s : State) (x : Bool) (n h : Nat) (r w : Bool) :
    Keeps s (if x then s.engRec n h r w else (none, [], s)).2.2 := by
  cases x
  · exact .refl s
  · exact keeps_engRec ..

/-- What the checks and the acceptance of an engine instruction keep. -/
structure EngIssue.Keeps (i : EngIssue) : Prop where
  checks : ∀ s fd tm b, Machine.Keeps s (i.checks s fd tm b).2
  accept : ∀ s fd tm b t, i.accept s fd tm b = .ok t → Machine.Keeps s t

theorem outKeeps_engStep {i : EngIssue} (k : i.Keeps) (sq : BitVec 3) (g : BitVec 10) (c : BitVec 3) (s : State) :
    OutKeeps s (engStep i sq g c s) := by
  refine outKeeps_foldStep fun e fd tm => ?_
  extract_lets trap
  split
  · exact outKeeps_stepped (.refl s)
  · exact outKeeps_stepped (.refl s)
  refine outKeeps_ite (outKeeps_stepped (.refl s)) ?_
  extract_lets r s1
  have k1 : Keeps s s1 := k.checks ..
  split
  · exact outKeeps_stepped k1
  refine outKeeps_ite (outKeeps_stepped k1) (outKeeps_ite (outKeeps_stepped k1) ?_)
  split
  · exact outKeeps_stepped k1
  · exact outKeeps_groupEnd k1 ((k.accept _ _ _ _ _ ‹_›).after (keeps_updTeam ..))

theorem arrIssue_keeps (k : ArrKind) (c : BitVec 3) : (arrIssue k c).Keeps where
  checks s fd tm b := keeps_engRec_if ..
  accept s fd tm b t h := by
    cases h
    exact (keeps_dateEntries ..).after <| (keeps_raggedCheck ..).after <| (keeps_arrAccept ..).after (keeps_when (keeps_flushCore ..))

theorem mzeroIssue_keeps (c : BitVec 3) : (mzeroIssue c).Keeps where
  checks s _ _ _ := .refl s
  accept s fd tm b t h := by
    cases h
    exact keeps_setOps ..

theorem mdrainIssue_keeps (c : BitVec 3) : (mdrainIssue c).Keeps where
  checks s fd tm b := (keeps_engRec_if ..).after (keeps_engRec_if ..)
  accept s fd tm b t h := by
    cases h
    exact keeps_setOps ..

theorem wtabIssue_keeps (c : BitVec 3) : (wtabIssue c).Keeps where
  checks s fd tm b := keeps_engRec ..
  accept s fd tm b t h := by
    cases h
    exact (keeps_setOps ..).after (keeps_flushCore ..)

theorem copyIssue_keeps (c : BitVec 3) : (copyIssue c).Keeps where
  checks s fd tm b := (keeps_engRec_if ..).after (keeps_engRec_if ..)
  accept s fd tm b t h := by
    cases h
    exact (keeps_setOps ..).after <| (keeps_flushCore ..).after (keeps_unless (keeps_updFold ..))

theorem xpostIssue_keeps (c : BitVec 3) (r : Nat) : (xpostIssue c r).Keeps where
  checks s _ _ _ := .refl s
  accept s fd tm b t h := by
    simp only [xpostIssue] at h
    split at h
    · cases h
    split at h
    · cases h
    cases h
    exact (keeps_setOps ..).after <| (keeps_updCtx ..).after <| (keeps_putAll ‹_›).after <|
      (keeps_releaseBy ..).after (keeps_walkSettle ..)

theorem nsendIssue_keeps (c : BitVec 3) : (nsendIssue c).Keeps where
  checks s _ _ _ := .refl s
  accept s fd tm b t h := by
    cases h
    exact (keeps_setOps ..).after (keeps_updCtx ..)

theorem outKeeps_cwpStep (sq : BitVec 3) (d : BitVec 7) (core : Option Nat) (ch : Nat) (s : State) :
    OutKeeps s (cwpStep sq d core ch s) := by
  refine outKeeps_foldStep fun e fd tm => ?_
  split
  · exact outKeeps_stepped (.refl s)
  · exact outKeeps_stepped (.refl s)
  · exact outKeeps_stepped (keeps_acquire ..)

theorem outKeeps_cwaitStep (sq : BitVec 3) (a : BitVec 7) (core : Option Nat) (ch : Nat) (s : State) :
    OutKeeps s (cwaitStep sq a core ch s) := by
  refine outKeeps_foldStep fun e fd tm => ?_
  split
  · exact outKeeps_stepped (.refl s)
  · exact outKeeps_stepped (.refl s)
  · exact outKeeps_ite (outKeeps_stepped (keeps_acquire ..)) (outKeeps_stepped (.refl s))

/-! ## Queues (R291-R296) -/

theorem keeps_shareRange (s : State) (n : Nat) (f : Fold) (rs : List (Nat × Nat)) : Keeps s (s.shareRange n f rs) :=
  (keeps_setTeams ..).after (keeps_updFold ..)

theorem outKeeps_queueStep (op : QueueOp) (sq : BitVec 3) (n : Nat) (s : State) : OutKeeps s (queueStep op sq n s) := by
  refine outKeeps_foldStep fun e fd tm => ?_
  split
  · exact outKeeps_stepped (.refl s)
  · exact outKeeps_stepped (.refl s)
  extract_lets q
  split
  · split
    · exact outKeeps_stepped (.refl s)
    · exact outKeeps_stay s
  · exact outKeeps_stepped (.refl s)
  · exact outKeeps_groupEnd (.refl s) <| (keeps_unless ((keeps_acquireBy ..).after (keeps_shareRange ..))).after <|
      (keeps_when (keeps_releaseBy ..)).after <| (keeps_dateEntries ..).after <| (keeps_raggedCheck ..).after (keeps_updPad ..)

/-! ## Records as engines use them, and weight streams (R299-R309) -/

theorem keeps_virtPut {s t : State} {p c va : Nat} {x : Byte} (h : s.virtPut p c va x = .ok t) : Keeps s t := by
  unfold State.virtPut at h
  extract_lets s1 at h
  split at h
  · cases h
  split at h
  · cases h
  · cases h
    exact (keeps_busWrite ..).after <| (keeps_settle ..).after (keeps_walkSettle ..)

theorem keeps_recPut (s : State) (p c : Nat) (r : Rec) (b : Nat) (xs : List Byte) : Keeps s (s.recPut p c r b xs).1 := by
  induction xs generalizing s b with
  | nil => exact .refl s
  | cons x xs ih =>
    unfold State.recPut
    split
    · exact .refl s
    · exact (ih ..).after (keeps_virtPut ‹_›)

theorem keeps_virtPutAll (s : State) (p c va : Nat) (xs : List Byte) : Keeps s (s.virtPutAll p c va xs).1 := by
  induction xs generalizing s va with
  | nil => exact .refl s
  | cons x xs ih =>
    unfold State.virtPutAll
    split
    · exact .refl s
    · exact (ih ..).after (keeps_virtPut ‹_›)

theorem keeps_settleRec (s : State) (p c : Nat) (r : Rec) (b n : Nat) : Keeps s (s.settleRec p c r b n) :=
  (keeps_when (keeps_compress ..)).after (keeps_unless ((keeps_settle ..).after (keeps_walkSettles ..)))

theorem keeps_recWrite (s : State) (p c : Nat) (r : Rec) (b : Nat) (bs : List Byte) : Keeps s (s.recWrite p c r b bs).1 :=
  (keeps_when (keeps_clearPoison ..)).after <| (keeps_when (keeps_compress ..)).after (keeps_recPut ..)

theorem keeps_tileSettle (s : State) (p c : Nat) (r : Rec) (t : Nat) : Keeps s (s.tileSettle p c r t) := by
  fun_cases State.tileSettle s p c r t
  · exact .refl s
  · exact keeps_settleRec ..
  · exact (keeps_settleRec ..).after (keeps_settleRec ..)
  · exact (keeps_settleRec ..).after <| (keeps_settleRec ..).after (keeps_settleRec ..)

/-! ## The array (R249-R275) -/

theorem keeps_engineStop (s : State) (t cause sub : Nat) (d : DWord) (pc : CodeAddr) (block : List DWord) (br : Broken) :
    Keeps s (s.engineStop t cause sub d pc block br) := by
  fun_cases State.engineStop s t cause sub d pc block br
  · exact .refl s
  · exact (keeps_updTeam ..).after (keeps_updFold ..)
  · exact (keeps_updTeam ..).after (keeps_updFold ..)
  · exact (keeps_updTeam ..).after <| (keeps_when (keeps_postAsync ..)).after (keeps_updFold ..)
  · exact (keeps_updFold ..).after (keeps_updFold ..)
  · exact (keeps_postAsync ..).after (keeps_updFold ..)
  · exact (keeps_updTeam ..).after (keeps_updFold ..)

theorem keeps_entryFault (s : State) (p i cause sub : Nat) (d : DWord) : Keeps s (s.entryFault p i cause sub d) := by
  fun_cases State.entryFault s p i cause sub d
  · exact .refl s
  · exact (keeps_foldl _ (fun _ _ => keeps_engineStop ..) ..).after <| (keeps_updPad ..).after (keeps_freeEntry ..)

theorem keeps_setTag (s : State) (pa n : Nat) (ty : AccTag) : Keeps s (s.setTag pa n ty) := (keeps_setTags ..).after (keeps_untag ..)

theorem keeps_commitRows (s : State) (ty : AccTag) (rs : List (Nat × List Nat)) : Keeps s (s.commitRows ty rs) := by
  induction rs generalizing s with
  | nil => exact .refl s
  | cons r rs ih => exact (ih _).after <| (keeps_setTag ..).after <| (keeps_clearPoison ..).after (keeps_engineWrite ..)

theorem keeps_grant (s : State) (p i : Nat) (e : ResEntry) (fd : Fold) : Keeps s (s.grant p i e fd) :=
  keeps_ite (keeps_entryFault ..) (keeps_updPad ..)

theorem keeps_bringRows (s : State) (p : Nat) : Keeps s (s.bringRows p) := by
  fun_cases State.bringRows s p
  · exact .refl s
  · exact .refl s
  · exact keeps_updPad ..

theorem keeps_sliceDone (s : State) (p i : Nat) (e : ResEntry) (sl : Slice) : Keeps s (s.sliceDone p i e sl) := by
  unfold State.sliceDone
  extract_lets owner posts fell gone e' s1 s2 q done s3
  have k2 : Keeps s s2 := (keeps_updFold ..).after (keeps_updPad ..)
  have k3 : Keeps s2 s3 := by
    unfold s3
    split
    · exact keeps_when (keeps_ccFall ..)
    · exact .refl s2
  exact keeps_ite ((keeps_when (keeps_freeEntry ..)).after k2) ((keeps_when (keeps_freeEntry ..)).after (k3.after k2))

theorem outKeeps_sliceGrant (p : Nat) (s : State) : OutKeeps s (execSliceGrant p s) := by
  fun_cases execSliceGrant p s
  · exact outKeeps_stay s
  · exact outKeeps_next (keeps_dateEntries ..)
  · exact outKeeps_next (keeps_dateEntries ..)
  · exact outKeeps_next (keeps_dateEntries ..)
  · exact outKeeps_moved ((keeps_bringRows ..).after <| (keeps_grant ..).after (keeps_dateEntries ..))

theorem outKeeps_streamHeaderRead (p n : Nat) (s : State) : OutKeeps s (execStreamHeaderRead p n s) := by
  fun_cases execStreamHeaderRead p n s
  · exact outKeeps_stay s
  · exact outKeeps_stay s
  · exact outKeeps_stay s
  · exact outKeeps_stay s
  · exact outKeeps_moved ((keeps_entryFault ..).after (keeps_tileSettle ..))
  · exact outKeeps_moved ((keeps_dateEntries ..).after <| (keeps_updPad ..).after (keeps_tileSettle ..))

theorem outKeeps_streamDecode (p : Nat) (s : State) : OutKeeps s (execStreamDecode p s) := by
  fun_cases execStreamDecode p s
  · exact outKeeps_stay s
  · exact outKeeps_stay s
  · exact outKeeps_stay s
  · exact outKeeps_moved ((keeps_entryFault ..).after (keeps_settleRec ..))
  · exact outKeeps_moved ((keeps_updPad ..).after (keeps_settleRec ..))
  · exact outKeeps_stay s

theorem outKeeps_sliceComplete (p : Nat) (s : State) : OutKeeps s (execSliceComplete p s) := by
  fun_cases execSliceComplete p s
  · exact outKeeps_stay s
  · exact outKeeps_stay s
  · exact outKeeps_stay s
  · exact outKeeps_moved (keeps_entryFault ..)
  · exact outKeeps_moved ((keeps_bringRows ..).after <| (keeps_sliceDone ..).after <| (keeps_updFold ..).after (keeps_commitRows ..))

/-! ## Lane loads, stores and atomics (06_lane_memory) -/

theorem keeps_memIssue (s : State) (fd : Fold) (tm : Team) (m : MemOp) : Keeps s (s.memIssue fd tm m).2 := by
  fun_cases State.memIssue s fd tm m
  · exact .refl s
  · exact .refl s
  · exact keeps_keepRec ..
  · exact keeps_keepRec ..
  · exact keeps_keepRec ..
  · exact keeps_keepRec ..

theorem outKeeps_memLoad (s : State) (e : Env) (fd : Fold) (tm : Team) (m : MemOp) (a : MemArgs) (fates : List (Nat × Nat × LaneFate)) :
    OutKeeps s (s.memLoad e fd tm m a fates) := by
  have h core st b ok good : Keeps s
      ((((if m.strong then s.acquireBy tm else s).opens core a.r ok).readLanes core fd.ctx a.r good).2.note fd.ctx st b good) :=
    (keeps_note ..).after <| (keeps_readLanes ..).after <| (keeps_opens ..).after (keeps_when (keeps_acquireBy ..))
  fun_cases State.memLoad s e fd tm m a fates
  · exact outKeeps_stepped (.refl s)
  · exact outKeeps_stepped (h ..)
  · exact outKeeps_stepped (h ..)
  · exact outKeeps_stepped (h ..)

theorem outKeeps_memStoreLanes (s : State) (e : Env) (fd : Fold) (tm : Team) (m : MemOp) (a : MemArgs) (fates : List (Nat × Nat × LaneFate)) :
    OutKeeps s (s.memStoreLanes e fd tm m a fates) := by
  fun_cases State.memStoreLanes s e fd tm m a fates
  · exact outKeeps_stepped <| (keeps_note ..).after <| (keeps_coreBlocks ..).after <| (keeps_when (keeps_releaseBy ..)).after
      (keeps_when (keeps_coreLeaves ..))
  · exact outKeeps_stepped <| (keeps_note ..).after <| (keeps_coreBlocks ..).after <| (keeps_when (keeps_releaseBy ..)).after
      (keeps_when (keeps_coreLeaves ..))
  · exact outKeeps_stepped <| (keeps_note ..).after <| (keeps_when (keeps_clearPoison ..)).after <| (keeps_writeLanes ..).after <|
      (keeps_when (keeps_releaseBy ..)).after (keeps_when (keeps_coreLeaves ..))
  · exact outKeeps_stepped <| (keeps_note ..).after <| (keeps_when (keeps_clearPoison ..)).after <| (keeps_writeLanes ..).after <|
      (keeps_when (keeps_releaseBy ..)).after (keeps_when (keeps_coreLeaves ..))

theorem keeps_atomLanes (s : State) (op : AtOp) (u : Bool) (n : Nat) (xs : List (Nat × Nat × Nat × Nat)) :
    Keeps s (s.atomLanes op u n xs).2 := by
  induction xs generalizing s with
  | nil => exact .refl s
  | cons x xs ih => exact (ih _).after (keeps_atomAt ..)

theorem outKeeps_memAtom (s : State) (e : Env) (fd : Fold) (tm : Team) (m : MemOp) (a : MemArgs) (fates : List (Nat × Nat × LaneFate)) :
    OutKeeps s (s.memAtom e fd tm m a fates) := by
  fun_cases State.memAtom s e fd tm m a fates
  · exact outKeeps_stepped (.refl s)
  · exact outKeeps_stepped <| (keeps_note ..).after <| (keeps_atomLanes ..).after (keeps_atomBegin ..)
  · exact outKeeps_stepped <| (keeps_note ..).after <| (keeps_atomLanes ..).after (keeps_atomBegin ..)

theorem outKeeps_memExec (m : MemOp) (s : State) : OutKeeps s (memExec m s) := by
  refine outKeeps_foldStep fun e fd tm => ?_
  have k := keeps_memIssue s fd tm m
  split
  · rename_i h
    rw [h] at k
    exact outKeeps_stepped k
  · rename_i h
    rw [h] at k
    exact outKeeps_stepped k
  rename_i a s1 h
  rw [h] at k
  extract_lets tlb lanes lanes' fates s2
  have k2 : Keeps s s2 := (keeps_tlbFills ..).after k
  split
  · exact outKeeps_stepped k2
  split
  · exact (outKeeps_memLoad ..).from k2
  · exact (outKeeps_memStoreLanes ..).from k2
  · exact (outKeeps_memAtom ..).from k2
  · exact outKeeps_stepped <| (keeps_ite (keeps_readLanes ..) (keeps_readPlain ..)).after <| (keeps_opens ..).after k2

/-! ## Scratch and the accumulator store (R184-R188) -/

theorem keeps_putLanes (s : State) (cs : List (Nat × Nat)) (w : Nat → Bool) (xs : List (Nat × List Byte)) :
    Keeps s (s.putLanes cs w xs) := by
  induction xs generalizing s with
  | nil => exact .refl s
  | cons x xs ih => exact (keeps_setTainted ..).after <| (ih _).after (keeps_busWrite ..)

theorem outKeeps_storeExec (m : StoreOp) (s : State) : OutKeeps s (storeExec m s) := by
  refine outKeeps_foldStep fun e fd tm => ?_
  extract_lets
  refine outKeeps_ite (outKeeps_stepped (.refl s)) ?_
  split
  · exact outKeeps_stepped (.refl s)
  split
  · exact outKeeps_stepped (.refl s)
  refine outKeeps_ite (outKeeps_stepped ?_) ?_
  · exact (keeps_when (keeps_foldl _ (fun _ _ => keeps_untag ..) ..)).after <| (keeps_clearPoison ..).after <|
      (keeps_putLanes ..).after (keeps_keepOlds ..)
  split
  · exact outKeeps_stepped (.refl s)
  · exact outKeeps_ite (outKeeps_stepped (.refl s)) (outKeeps_stepped (.refl s))

/-! ## Fences, calls and submitted work -/

theorem outKeeps_strayStep (ws : Word × Word) (s : State) : OutKeeps s (strayStep ws s) := by
  fun_cases strayStep ws s
  · exact outKeeps_stay s
  · exact outKeeps_teamStep ..

theorem outKeeps_fence (sq sc : BitVec 3) (s : State) : OutKeeps s (execFence sq sc s) :=
  outKeeps_foldStep fun _ _ _ => outKeeps_ite (outKeeps_stepped (.refl s)) <|
    outKeeps_groupEnd (.refl s) (keeps_unless ((keeps_acquireBy ..).after (keeps_releaseBy ..)))

theorem keeps_seeEngines (s : State) : Keeps s s.seeEngines := by
  fun_cases State.seeEngines s
  · exact keeps_acquire ..
  · exact .refl s

theorem keeps_submit (s : State) (c : Nat) (w : Nat → Nat) (k : Kernel) : Keeps s (s.submit c w k) :=
  (keeps_addJob ..).after (keeps_updCtx ..)

theorem keeps_virtPuts {s t : State} {c va : Nat} {bs : List Byte} (h : s.virtPuts c va bs = some t) : Keeps s t := by
  induction bs generalizing s va with
  | nil =>
    cases h
    exact .refl _
  | cons b bs ih =>
    unfold State.virtPuts at h
    split at h
    · exact (ih h).after (keeps_virtPut ‹_›)
    · cases h

theorem keeps_putRecs {s t : State} {c count size : Nat} {areas : List Nat} {i : Nat} {rs : List (List Byte)}
    (h : s.putRecs c count size areas i rs = some t) : Keeps s t := by
  induction rs generalizing s i with
  | nil =>
    cases h
    exact .refl _
  | cons r rs ih =>
    obtain ⟨u, hu, ht⟩ := Option.bind_eq_some_iff.mp h
    exact (ih ht).after (keeps_virtPuts hu)

theorem keeps_gather {s t : State} {job n c : Nat} {x : Node} {rs : List (List Byte)} (h : s.gather job n c x rs = some t) :
    Keeps s t := by
  unfold State.gather at h
  simp only at h
  split at h
  · cases h
  split at h
  · cases h
    exact .refl s
  split at h
  · cases h
  obtain ⟨more, -, h⟩ := Option.bind_eq_some_iff.mp h
  obtain ⟨u, hu, rfl⟩ := Option.map_eq_some_iff.mp h
  exact (keeps_updJob ..).after (keeps_putRecs hu)

theorem keeps_answer (s : State) (t : Nat) (tm : Team) (d : URef) (sq : BitVec 3) (v : DWord) : Keeps s (s.answer t tm d sq v) :=
  keeps_ite ((keeps_acquireOf ..).after (keeps_updTeam ..)) (keeps_updTeam ..)

theorem keeps_deliver (s : State) (t : Nat) : Keeps s (s.deliver t) := by
  fun_cases State.deliver s t
  · exact .refl s
  · exact (keeps_answer ..).after (keeps_setTeams ..)
  · exact .refl s

theorem outKeeps_emit (sq : BitVec 3) (d a : BitVec 7) (s : State) : OutKeeps s (execEmit sq d a s) := by
  refine outKeeps_foldStep fun e fd tm => ?_
  extract_lets gd root x? node r bad
  refine outKeeps_ite (outKeeps_stepped (.refl s)) ?_
  split
  · exact outKeeps_stepped (.refl s)
  · exact outKeeps_stepped (.refl s)
  clear_value node
  split
  · split
    · exact outKeeps_stepped (.refl s)
    · exact outKeeps_groupEnd (.refl s) ((keeps_releaseBy ..).after (keeps_gather ‹_›))
  · exact outKeeps_stepped (.refl s)

theorem outKeeps_launch (sq : BitVec 3) (g : BitVec 10) (s : State) : OutKeeps s (execLaunch sq g s) := by
  refine outKeeps_foldStep fun e fd tm => ?_
  split
  · exact outKeeps_stepped (.refl s)
  · exact outKeeps_stepped (.refl s)
  refine outKeeps_ite (outKeeps_stepped (.refl s)) (outKeeps_ite (outKeeps_stepped (.refl s)) ?_)
  split
  · exact outKeeps_stepped (.refl s)
  · exact outKeeps_groupEnd (.refl s) ((keeps_submit ..).after (keeps_releaseBy ..))

theorem outKeeps_gsysCall (sq : BitVec 3) (d : BitVec 7) (n : BitVec 12) (s : State) : OutKeeps s (execGsysCall sq d n s) := by
  refine outKeeps_foldStep fun e fd tm => outKeeps_ite (outKeeps_stepped (.refl s)) ?_
  split
  · exact outKeeps_stepped (.refl s)
  · exact outKeeps_stepped (.refl s)
  · exact outKeeps_stepped (keeps_releaseBy ..)

theorem outKeeps_syscallAnswer (team : Nat) (v : BitVec 64) (s : State) : OutKeeps s (execSyscallAnswer team v s) := by
  fun_cases execSyscallAnswer team v s
  · exact outKeeps_stay s
  · exact outKeeps_stay s
  · exact outKeeps_moved (keeps_answer ..)
  · exact outKeeps_stay s
  · exact outKeeps_moved ((keeps_answer ..).after (keeps_postAsync ..))
  · exact outKeeps_moved (keeps_answer ..)
  · exact outKeeps_stay s

theorem keeps_withdraw (s : State) (n p : Nat) : Keeps s (s.withdraw n p) := keeps_setTeams ..

theorem outKeeps_pwclaim (sq : BitVec 3) (d a : BitVec 7) (s : State) : OutKeeps s (execPwclaim sq d a s) := by
  refine outKeeps_foldStep fun e fd tm => ?_
  split
  · exact outKeeps_stepped (.refl s)
  · exact outKeeps_stepped (.refl s)
  · exact outKeeps_ite (outKeeps_stepped (.refl s)) <|
      outKeeps_ite (outKeeps_groupEnd (.refl s) ((keeps_updPad ..).after (keeps_withdraw ..))) <|
        outKeeps_ite (outKeeps_groupEnd (.refl s) (keeps_updPad ..)) (outKeeps_stepped (.refl s))

theorem outKeeps_pwstat (sq : BitVec 3) (d : BitVec 7) (s : State) : OutKeeps s (execPwstat sq d s) := by
  refine outKeeps_foldStep fun e fd tm => ?_
  split
  · exact outKeeps_stepped (.refl s)
  · exact outKeeps_stepped (.refl s)
  · exact outKeeps_stepped (.refl s)

theorem outKeeps_mopfence (sq : BitVec 3) (s : State) : OutKeeps s (execMopfence sq s) :=
  outKeeps_foldStep fun _ _ _ => outKeeps_groupEnd (.refl s) <| (keeps_flushCore ..).after <| (keeps_setTeams ..).after (keeps_updFold ..)

/-! ## Partitions (R27, R43-R56, R450-R452) -/

theorem outKeeps_instructionComplete (team : Nat) (s : State) : OutKeeps s (execInstructionComplete team s) := by
  fun_cases execInstructionComplete team s
  · exact outKeeps_stay s
  · exact outKeeps_stay s
  · exact outKeeps_moved (keeps_updTeam ..)

theorem keeps_lateTrap (s : State) (t : Nat) (tm : Team) (tr : Trap) (pc : CodeAddr) : Keeps s (s.lateTrap t tm tr pc) := by
  fun_cases State.lateTrap s t tm tr pc
  · exact keeps_updTeam ..
  · exact keeps_updTeam ..
  · exact (keeps_updTeam ..).after (keeps_when (keeps_postAsync ..))
  · exact (keeps_updFold ..).after (keeps_updTeam ..)
  · exact (keeps_postAsync ..).after (keeps_updTeam ..)
  · exact keeps_updTeam ..

theorem outKeeps_loadLineArrival (team : Nat) (s : State) : OutKeeps s (execLoadLineArrival team s) := by
  fun_cases execLoadLineArrival team s
  · exact outKeeps_stay s
  · exact outKeeps_stay s
  · exact outKeeps_stay s
  · exact outKeeps_moved (keeps_lateTrap ..)
  · exact outKeeps_moved (keeps_updTeam ..)

theorem keeps_fillActive (s : State) (p : Nat) : Keeps s (s.fillActive p) := keeps_foldl _ (fun _ _ => keeps_updTeam ..) ..
theorem keeps_fillPlaces (s : State) (ps : List Nat) : Keeps s (s.fillPlaces ps) := keeps_foldl _ (fun _ _ => keeps_fillActive ..) ..

theorem outKeeps_issueSelect (p n : Nat) (s : State) : OutKeeps s (execIssueSelect p n s) := by
  have h (x : List (Nat × Nat)) : Keeps s { s with cycles := x } := .of_eq rfl rfl rfl rfl rfl
  refine outKeeps_ite (outKeeps_stay s) (outKeeps_moved ?_)
  exact (keeps_setCur ..).after <| (keeps_fillActive ..).after <| (keeps_foldl _ (fun _ _ => keeps_when (keeps_updTeam ..)) ..).after (h _)

theorem outKeeps_swapToPending (p : Nat) (s : State) : OutKeeps s (execSwapToPending p s) := by
  fun_cases execSwapToPending p s
  · exact outKeeps_stay s
  · exact outKeeps_moved ((keeps_foldl _ (fun _ _ => keeps_updTeam ..) ..).after (keeps_updTeam ..))

theorem outKeeps_slotSpill (p : Nat) (s : State) : OutKeeps s (execSlotSpill p s) := by
  fun_cases execSlotSpill p s
  · exact outKeeps_stay s
  · exact outKeeps_stay s
  · exact outKeeps_stay s
  · exact outKeeps_moved (keeps_updTeam ..)
  · exact outKeeps_stay s

theorem outKeeps_spillRestore (p : Nat) (s : State) : OutKeeps s (execSpillRestore p s) := by
  fun_cases execSpillRestore p s
  · exact outKeeps_stay s
  · exact outKeeps_moved (keeps_updTeam ..)
  · exact outKeeps_stay s

theorem keeps_endTeam (s : State) (t : Nat) : Keeps s (s.endTeam t) := (keeps_setRows ..).after (keeps_updTeam ..)

theorem outKeeps_teamEnd (team : Nat) (s : State) : OutKeeps s (execTeamEnd team s) := by
  fun_cases execTeamEnd team s
  · exact outKeeps_stay s
  · exact outKeeps_stay s
  · exact outKeeps_moved ((keeps_meetCheck ..).after <| (keeps_fillActive ..).after (keeps_endTeam ..))

theorem outKeeps_fmoveTransfer (fold : Nat) (s : State) : OutKeeps s (execFmoveTransfer fold s) := by
  fun_cases execFmoveTransfer fold s
  · exact outKeeps_stay s
  · exact outKeeps_stay s
  · exact outKeeps_stay s
  · exact outKeeps_moved ((keeps_updTeam ..).after (keeps_moveTarget_error ‹_›))
  · exact outKeeps_moved ((keeps_leaveMoves ..).after (keeps_moveTarget_ok ‹_›))
  · exact outKeeps_moved ((keeps_leaveMoves ..).after (keeps_moveTarget_ok ‹_›))
  · exact outKeeps_moved ((keeps_leaveMoves ..).after (keeps_moveTarget_ok ‹_›))
  · exact outKeeps_moved ((keeps_fillPlaces ..).after <| (keeps_leaveMoves ..).after <| (keeps_moveFold ..).after (keeps_moveTarget_ok ‹_›))
  · exact outKeeps_stay s

/-! ## Host queues and dependences (R440-R443, R474) -/

theorem keeps_hqSettle (s : State) (c q : Nat) : Keeps s (s.hqSettle c q) := keeps_settle ..

theorem keeps_ringBell (s : State) (fn c q : Nat) (v : BitVec 64) : Keeps s (s.ringBell fn c q v) :=
  (keeps_ite ((keeps_busWrite ..).after (keeps_updCtx ..)) (keeps_log ..)).after (keeps_hqSettle ..)

theorem outKeeps_doorbellWrite (fn o : Nat) (v : BitVec 64) (s : State) : OutKeeps s (execDoorbellWrite fn o v s) := by
  fun_cases execDoorbellWrite fn o v s
  · exact outKeeps_stay s
  · exact outKeeps_moved (keeps_setFnRings ..)
  · exact outKeeps_stay s
  · exact outKeeps_stay s
  · exact outKeeps_moved (keeps_updCtx ..)
  · exact outKeeps_moved (keeps_ringBell ..)
  · exact outKeeps_stay s

theorem outKeeps_packetRead (c q : Nat) (s : State) : OutKeeps s (execPacketRead c q s) := by
  fun_cases execPacketRead c q s
  · exact outKeeps_stay s
  · exact outKeeps_moved ((keeps_addJob ..).after <| (keeps_updCtx ..).after <| (keeps_settle ..).after (keeps_hqSettle ..))
  · exact outKeeps_moved ((keeps_addJob ..).after <| (keeps_updCtx ..).after <| (keeps_settle ..).after (keeps_hqSettle ..))

theorem keeps_testDep (s : State) (c : Nat) (told : List Nat) (d : Nat × Nat × Bool) : Keeps s (s.testDep c told d).2.2 := by
  fun_cases State.testDep s c told d
  · exact keeps_readSettle ..
  · exact (keeps_unless (keeps_postAsync ..)).after (keeps_readSettle ..)

theorem keeps_testDeps (s : State) (c : Nat) (told : List Nat) (ds : List (Nat × Nat × Bool)) : Keeps s (s.testDeps c told ds).2.2 := by
  induction ds generalizing s told with
  | nil => exact .refl s
  | cons d ds ih => exact (ih ..).after (keeps_testDep ..)

theorem keeps_testJob (s : State) (n : Nat) : Keeps s (s.testJob n) := by
  fun_cases State.testJob s n
  · exact .refl s
  · exact .refl s
  · exact (keeps_updJob ..).after (keeps_testDeps ..)

theorem keeps_testJobs (s : State) : Keeps s s.testJobs := keeps_foldl _ (fun _ _ => keeps_testJob ..) ..

theorem outKeeps_dependenceTest (s : State) : OutKeeps s (execDependenceTest s) :=
  outKeeps_ite (outKeeps_moved ((keeps_setTestDue ..).after (keeps_testJobs ..))) (outKeeps_stay s)

/-! ## Jobs and folds (R442-R453) -/

theorem keeps_launchSettle (s : State) (j : Job) : Keeps s (s.launchSettle j) :=
  keeps_unless (keeps_foldl _ (fun _ _ => keeps_readSettle ..) ..)

theorem keeps_unreserve (s : State) (job : Nat) : Keeps s (s.unreserve job) := ⟨id, rfl, List.length_map .., rfl, rfl⟩

theorem keeps_doom (s : State) (job : Nat) (cause : Nat × Nat) : Keeps s (s.doom job cause) := by
  fun_cases State.doom s job cause
  · exact (keeps_updJob ..).after <| (keeps_unreserve ..).after <| (keeps_updJob ..).after (keeps_unreserve ..)
  · exact (keeps_updJob ..).after (keeps_unreserve ..)

theorem outKeeps_jobDispatch (job : Nat) (s : State) : OutKeeps s (execJobDispatch job s) := by
  fun_cases execJobDispatch job s
  · exact outKeeps_stay s
  · exact outKeeps_stay s
  · exact outKeeps_moved (keeps_doom ..)
  · exact outKeeps_moved ((keeps_doom ..).after (keeps_launchSettle ..))
  · exact outKeeps_moved ((keeps_updJob ..).after (keeps_launchSettle ..))

theorem keeps_addTeams (s : State) (n p : Nat) (j : Job) (k : Kernel) (i : Nat) (qs : List Nat) : Keeps s (s.addTeams n p j k i qs) := by
  induction qs generalizing s i with
  | nil => exact .refl s
  | cons q qs ih => exact (ih ..).after (keeps_setTeams ..)

theorem keeps_seat (s : State) (n : Nat) (j : Job) (k : Kernel) (p : Nat) (ks : List Nat) (sc ac : List Alloc) :
    Keeps s (s.seat n j k p ks sc ac) :=
  (keeps_enterCores ..).after <| (keeps_unreserve ..).after <| (keeps_foldl _ (fun _ _ => keeps_untag ..) ..).after <|
    (keeps_updCtx ..).after <| (keeps_updJob ..).after <| (keeps_addTeams ..).after (keeps_setFolds ..)

theorem keeps_retryJobs (s : State) : Keeps s s.retryJobs := keeps_setJobs ..
theorem keeps_tryFolds (s : State) : Keeps s s.tryFolds := (keeps_retryJobs ..).after (keeps_setJobs ..)

theorem outKeeps_foldAdmit (job : Nat) (s : State) : OutKeeps s (execFoldAdmit job s) := by
  fun_cases execFoldAdmit job s
  · exact outKeeps_stay s
  · exact outKeeps_stay s
  · exact outKeeps_moved (keeps_updJob ..)
  · exact outKeeps_moved (keeps_seat ..)

theorem outKeeps_foldReservation (job : Nat) (s : State) : OutKeeps s (execFoldReservation job s) := by
  fun_cases execFoldReservation job s
  · exact outKeeps_stay s
  · exact outKeeps_stay s
  · exact outKeeps_stay s
  · exact outKeeps_moved (keeps_updPad ..)

theorem keeps_freeBatch (s : State) (job : Nat) : Keeps s (s.freeBatch job) := by
  fun_cases State.freeBatch s job
  · exact (keeps_updJob ..).after (keeps_updCtx ..)
  · exact .refl s
  · exact .refl s

theorem keeps_killFold (s : State) (n : Nat) (f : Fold) (sub : Nat) : Keeps s (s.killFold n f sub) := by
  refine (keeps_fillPlaces ..).after <| (keeps_retryWaits ..).after <| (keeps_doom ..).after <|
    (keeps_ite ((keeps_retryJobs ..).after (keeps_freeBatch ..)) (keeps_unpin ..)).after <| (keeps_updFold ..).after <|
      (keeps_updPad ..).after <| (keeps_when (keeps_foldl _ (fun _ _ => keeps_freeEntry ..) ..)).after <| (keeps_setOps ..).after <|
        keeps_foldl _ (fun u t => ?_) ..
  split
  · exact keeps_unless (keeps_endTeam ..)
  · exact .refl u

theorem outKeeps_foldEnd (fold : Nat) (s : State) : OutKeeps s (execFoldEnd fold s) := by
  fun_cases execFoldEnd fold s
  · exact outKeeps_stay s
  · exact outKeeps_stay s
  · exact outKeeps_moved ((keeps_retryJobs ..).after <| (keeps_freeBatch ..).after <| (keeps_updPad ..).after <|
      (keeps_unpin ..).after <| (keeps_updFold ..).after (keeps_leaveCores ..))

theorem outKeeps_queueRelease (p q : Nat) (s : State) : OutKeeps s (execQueueRelease p q s) :=
  outKeeps_ite (outKeeps_stay s) (outKeeps_moved (keeps_updPad ..))

theorem keeps_bumpEvent (s : State) (c va : Nat) : Keeps s (s.bumpEvent c va) := by
  fun_cases State.bumpEvent s c va
  · exact (keeps_setTestDue ..).after <| (keeps_busWrite ..).after <| (keeps_settle ..).after (keeps_walkSettle ..)
  · exact (keeps_postAsync ..).after (keeps_walkSettle ..)

theorem keeps_report (s : State) (c q : Nat) : Keeps s (s.report c q) :=
  keeps_unless ((keeps_busWrite ..).after <| (keeps_settle ..).after (keeps_hqSettle ..))

theorem outKeeps_jobComplete (job : Nat) (s : State) : OutKeeps s (execJobComplete job s) := by
  fun_cases execJobComplete job s
  · exact outKeeps_stay s
  · exact outKeeps_stay s
  · exact outKeeps_moved ((keeps_report ..).after <| (keeps_updJob ..).after (keeps_foldl _ (fun _ _ => keeps_bumpEvent ..) ..))

theorem keeps_dropChild (s : State) (x : Nat × Job) : Keeps s (s.dropChild x) :=
  (keeps_unless ((keeps_when (keeps_freeBatch ..)).after <| (keeps_updJob ..).after (keeps_unreserve ..))).after
    (keeps_foldl _ (fun _ _ => keeps_when (keeps_killFold ..)) ..)

theorem keeps_failJob (s : State) (job : Nat) (j : Job) : Keeps s (s.failJob job j) :=
  (keeps_ite (keeps_when (keeps_freeBatch ..)) (keeps_postAsync ..)).after <| (keeps_updJob ..).after <| (keeps_unreserve ..).after <|
    (keeps_foldl _ keeps_dropChild ..).after (keeps_foldl _ (fun _ _ => keeps_when (keeps_killFold ..)) ..)

theorem outKeeps_jobFail (job : Nat) (s : State) : OutKeeps s (execJobFail job s) := by
  fun_cases execJobFail job s
  · exact outKeeps_stay s
  · exact outKeeps_stay s
  · exact outKeeps_moved ((keeps_report ..).after <| (keeps_updJob ..).after (keeps_unless (keeps_failJob ..)))
  · exact outKeeps_stay s
  · exact outKeeps_moved (keeps_unless (keeps_failJob ..))

theorem keeps_launchNode {s t : State} {job node n : Nat} {j : Job} {x : Node} (h : s.launchNode job j node x n = some t) : Keeps s t := by
  simp only [State.launchNode] at h
  split at h
  · split at h
    · cases h
    · cases h
      exact (keeps_addJob ..).after <| (keeps_updCtx ..).after <| (keeps_updJob ..).after (keeps_virtPuts ‹_›)
  · cases h

theorem outKeeps_coalescerLaunch (job node : Nat) (s : State) : OutKeeps s (execCoalescerLaunch job node s) := by
  fun_cases execCoalescerLaunch job node s
  · exact outKeeps_stay s
  · exact outKeeps_stay s
  · exact outKeeps_stay s
  · exact outKeeps_moved (keeps_launchNode ‹_›)
  · exact outKeeps_stay s

theorem outKeeps_jobFlushLaunch (job node : Nat) (s : State) : OutKeeps s (execJobFlushLaunch job node s) := by
  fun_cases execJobFlushLaunch job node s
  · exact outKeeps_stay s
  · exact outKeeps_stay s
  · exact outKeeps_stay s
  · exact outKeeps_moved (keeps_launchNode ‹_›)
  · exact outKeeps_stay s

/-! ## Operations of the other engines (R277-R289) -/

theorem keeps_opDone (s : State) (n : Nat) (o : EngOp) : Keeps s (s.opDone n o) :=
  (keeps_retryWaits ..).after <| (keeps_updFold ..).after <| (keeps_ccFall ..).after (keeps_updOp ..)

theorem keeps_opFault (s : State) (n : Nat) (o : EngOp) (cause sub : Nat) (d : DWord) : Keeps s (s.opFault n o cause sub d) :=
  (keeps_retryWaits ..).after <| (keeps_engineStop ..).after (keeps_updOp ..)

theorem keeps_addPoison (s : State) (xs : List (Nat × List Poison)) : Keeps s (s.addPoison xs) := by
  induction xs generalizing s with
  | nil => exact .refl s
  | cons x xs ih => exact (ih _).after (keeps_setPoison ..)

theorem keeps_zeroUpTo (s : State) (f : Fold) (o : EngOp) (n : Nat) : Keeps s (s.zeroUpTo f o n) :=
  keeps_unless ((keeps_untag ..).after <| (keeps_clearPoison ..).after (keeps_engineWrite ..))

theorem outKeeps_mzeroComplete (op : Nat) (s : State) : OutKeeps s (execMzeroComplete op s) := by
  fun_cases execMzeroComplete op s
  · exact outKeeps_stay s
  · exact outKeeps_stay s
  · exact outKeeps_moved ((keeps_opDone ..).after <| (keeps_updFold ..).after (keeps_zeroUpTo ..))

theorem keeps_putCoded (s : State) (p c : Nat) (r : Rec) (first : Nat) (codes : List Nat) : Keeps s (s.putCoded p c r first codes).1 :=
  (keeps_storeBlocks ..).after (keeps_walkSettles ..)

theorem keeps_drainOut (s : State) (f : Fold) (o : EngOp) (vs : List Conv) : Keeps s (s.drainOut f o vs).1 := by
  fun_cases State.drainOut s f o vs
  · exact .refl s
  · exact keeps_putCoded ..
  · exact keeps_recWrite ..
  · exact (keeps_clearPoison ..).after (keeps_engineWrite ..)

theorem keeps_putWord (s : State) (p c va x : Nat) : Keeps s (s.putWord p c va x).1 := by
  fun_cases State.putWord s p c va x
  · exact (keeps_clearPoison ..).after (keeps_virtPutAll ..)
  · exact keeps_virtPutAll ..

theorem keeps_scaleSettle (s : State) (f : Fold) (o : EngOp) : Keeps s (s.scaleSettle f o) := by
  fun_cases State.scaleSettle s f o
  · exact .refl s
  · exact keeps_settleRec ..
  · exact .refl s

theorem keeps_drain (s : State) (f : Fold) (o : EngOp) : Keeps s (s.drain f o).1 := by
  fun_cases State.drain s f o
  · exact keeps_scaleSettle ..
  · exact (Keeps.fst ‹_› (keeps_drainOut ..)).after (keeps_scaleSettle ..)
  · exact (Keeps.fst ‹_› (keeps_drainOut ..)).after (keeps_scaleSettle ..)
  · exact (keeps_putWord ..).after <| (Keeps.fst ‹_› (keeps_drainOut ..)).after (keeps_scaleSettle ..)

theorem outKeeps_mdrainComplete (op : Nat) (s : State) : OutKeeps s (execMdrainComplete op s) := by
  fun_cases execMdrainComplete op s
  · exact outKeeps_stay s
  · exact outKeeps_stay s
  · exact outKeeps_stay s
  · exact outKeeps_moved ((keeps_opDone ..).after (.fst ‹_› (keeps_drain ..)))

theorem keeps_tableSettle (s : State) (f : Fold) (o : EngOp) : Keeps s (s.tableSettle f o) := by
  fun_cases State.tableSettle s f o
  · exact keeps_settleRec ..
  · exact .refl s

theorem outKeeps_wtabLoadComplete (op : Nat) (s : State) : OutKeeps s (execWtabLoadComplete op s) := by
  fun_cases execWtabLoadComplete op s
  · exact outKeeps_stay s
  · exact outKeeps_stay s
  · exact outKeeps_stay s
  · exact outKeeps_moved ((keeps_opDone ..).after <| (keeps_updCtx ..).after (keeps_tableSettle ..))

theorem keeps_landLine (s : State) (place win off n : Nat) (xs : List (Byte × List Poison)) :
    Keeps s (s.landLine place win off n xs).2.1 := by
  induction xs generalizing s off with
  | nil => exact .refl s
  | cons x xs ih =>
    unfold State.landLine
    extract_lets mine one
    have k t (h : one = .ok t) : Keeps s t := by
      unfold one at h
      clear_value mine
      split at h
      · cases h
        exact .refl s
      · cases h
      · exact keeps_landWrite h
    clear_value one
    split
    · exact .refl s
    · exact (ih ..).after (k _ rfl)

theorem keeps_recDeliver (s : State) (f : Fold) (r : Rec) (b : Nat) (xs : List (Byte × List Poison)) :
    Keeps s (s.recDeliver f r b xs).2.1 := by
  induction xs generalizing s b with
  | nil => exact .refl s
  | cons x xs ih =>
    unfold State.recDeliver
    extract_lets p
    split
    · exact .refl s
    · exact (ih ..).after (keeps_virtPut ‹_›)

theorem keeps_sideWrite (s : State) (n : Nat) (f : Fold) (x : Side) (b : Nat) (bs : List (Byte × List Poison)) :
    Keeps s (s.sideWrite n f x b bs).2.1 := by
  unfold State.sideWrite
  extract_lets bytes onCore
  have core (pa : Nat) (acc : Bool) : Keeps s (onCore pa acc) :=
    (keeps_when (keeps_untag ..)).after <| (keeps_updFold ..).after <| (keeps_addPoison ..).after <| (keeps_clearPoison ..).after
      (keeps_engineWrite ..)
  clear_value onCore
  split
  · split
    · exact .refl s
    · exact (keeps_addPoison ..).after <| (keeps_clearPoison ..).after <| (keeps_when (keeps_compress ..)).after (keeps_recDeliver ..)
  · exact core ..
  · exact core ..
  · exact keeps_landLine ..

theorem keeps_advance (s : State) (o : EngOp) (n : Nat) : Keeps s (s.advance o n) := keeps_updFold ..

theorem keeps_copyLine (s : State) (f : Fold) (o : EngOp) : Keeps s (s.copyLine f o).2.1 := by
  unfold State.copyLine
  extract_lets n src s1
  have k1 : Keeps s s1 := by
    unfold s1
    split
    · split
      · exact keeps_settleRec ..
      · exact .refl s
    · exact .refl s
  split
  · exact k1
  · exact (keeps_advance ..).after <| (keeps_sideWrite ..).after k1

theorem outKeeps_copyLineDeliver (op : Nat) (s : State) : OutKeeps s (execCopyLineDeliver op s) := by
  fun_cases execCopyLineDeliver op s
  · exact outKeeps_stay s
  · exact outKeeps_stay s
  · exact outKeeps_stay s
  · exact outKeeps_moved ((keeps_updOp ..).after (.snd_fst ‹_› (keeps_copyLine ..)))

theorem outKeeps_copyComplete (op : Nat) (s : State) : OutKeeps s (execCopyComplete op s) := by
  fun_cases execCopyComplete op s
  · exact outKeeps_stay s
  · exact outKeeps_moved (keeps_opDone ..)
  · exact outKeeps_stay s

theorem keeps_opMeets {s t : State} {n : Nat} {o : EngOp} {f : Fold} {e : EngErr} (h : s.opMeets n o f = some (e, t)) : Keeps s t := by
  unfold State.opMeets at h
  split at h
  · split at h
    · cases h
      exact .fst ‹_› (keeps_drain ..)
    · cases h
  · split at h
    · cases h
      exact keeps_tableSettle ..
    · cases h
  · split at h
    · cases h
    split at h
    · cases h
      exact .snd_fst ‹_› (keeps_copyLine ..)
    · cases h
  · cases h

theorem outKeeps_engineFault (op : Nat) (s : State) : OutKeeps s (execEngineFault op s) := by
  fun_cases execEngineFault op s
  · exact outKeeps_stay s
  · exact outKeeps_stay s
  · exact outKeeps_stay s
  · exact outKeeps_moved ((keeps_opFault ..).after (keeps_opMeets ‹_›))

theorem outKeeps_blockMerge (c pa r e : Nat) (es : List (Nat × BitVec 64)) (s : State) : OutKeeps s (execBlockMerge c pa r e es s) :=
  outKeeps_ite (outKeeps_stay s) (outKeeps_ite (outKeeps_stay s) (outKeeps_moved (keeps_storeBlock ..)))

theorem outKeeps_decodedBlockEncode (pa : Nat) (s : State) : OutKeeps s (execDecodedBlockEncode pa s) := by
  fun_cases execDecodedBlockEncode pa s
  · exact outKeeps_stay s
  · exact outKeeps_moved ((keeps_settle ..).after (keeps_foldl _ (fun _ _ => keeps_unless (keeps_evictL2 ..)) ..))

/-! ## Links (R367-R381) -/

theorem keeps_sendCell (s : State) (n : Nat) (o : EngOp) (f : Fold) (c : Nat) (rail : Option Nat) : Keeps s (s.sendCell n o f c rail) := by
  fun_cases State.sendCell s n o f c rail
  · exact keeps_opFault ..
  · exact keeps_opFault ..
  · exact (keeps_setWire ..).after (keeps_updOp ..)

theorem outKeeps_cellTransmit (op : Nat) (s : State) : OutKeeps s (execCellTransmit op s) := by
  fun_cases execCellTransmit op s
  · exact outKeeps_stay s
  · exact outKeeps_stay s
  · exact outKeeps_moved (keeps_sendCell ..)

theorem outKeeps_cellRetransmit (op cell : Nat) (s : State) : OutKeeps s (execCellRetransmit op cell s) := by
  fun_cases execCellRetransmit op cell s
  · exact outKeeps_stay s
  · exact outKeeps_stay s
  · exact outKeeps_moved (keeps_sendCell ..)

theorem keeps_corrected (s : State) (port : Nat) : Keeps s (s.corrected port) := keeps_updPort ..
theorem keeps_dropCell (s : State) (port : Nat) : Keeps s (s.dropCell port) := keeps_updPort ..

theorem outKeeps_ackReceive (port : Nat) (h0 h1 h2 h3 : BitVec 64) (s : State) : OutKeeps s (execAckReceive port h0 h1 h2 h3 s) := by
  fun_cases execAckReceive port h0 h1 h2 h3 s
  · exact outKeeps_stay s
  · exact outKeeps_moved (keeps_dropCell ..)
  · exact outKeeps_moved (keeps_corrected ..)
  · exact outKeeps_moved ((keeps_opFault ..).after (keeps_corrected ..))
  · exact outKeeps_moved ((keeps_opDone ..).after <| (keeps_updOp ..).after (keeps_corrected ..))
  · exact outKeeps_moved ((keeps_updOp ..).after (keeps_corrected ..))

theorem keeps_forget (s : State) (h : CellHdr) : Keeps s (s.forget h) := keeps_setRows ..

theorem keeps_addRow (s : State) (h : CellHdr) (c : Nat) (tg : RowTarget) (r : Bool) : Keeps s (s.addRow h c tg r) := by
  fun_cases State.addRow s h c tg r
  · exact (keeps_updPad ..).after <| (keeps_forget ..).after (keeps_setRows ..)
  · exact (keeps_updTeam ..).after <| (keeps_forget ..).after (keeps_setRows ..)
  · exact (keeps_forget ..).after (keeps_setRows ..)

theorem keeps_landRow (s : State) (t win off : Nat) (bs : List Byte) : Keeps s (s.landRow t win off bs) := by
  induction bs generalizing s off with
  | nil => exact .refl s
  | cons b bs ih =>
    unfold State.landRow
    refine (ih ..).after ?_
    split
    · exact .refl s
    · split
      · exact .refl s
      · exact keeps_updTeam ..

theorem keeps_putCell (s : State) (tg : RowTarget) (n : Nat) (pay : List Byte) : Keeps s (s.putCell tg n pay) := by
  fun_cases State.putCell s tg n pay
  · exact (keeps_clearPoison ..).after (keeps_busWrite ..)
  · exact .refl s
  · exact keeps_landRow ..
  · exact .refl s

theorem keeps_closeRow (s : State) (i : Nat) (r : Row) : Keeps s (s.closeRow i r) := by
  unfold State.closeRow
  extract_lets s1
  have k1 : Keeps s s1 := keeps_setRows ..
  split
  · extract_lets s2
    have k2 : Keeps s1 s2 := by
      unfold s2
      split
      · exact keeps_busWrite ..
      · exact .refl s1
    exact (keeps_dateEntries ..).after <| (keeps_updPad ..).after (k2.after k1)
  · exact k1

theorem keeps_bouncePut {s t : State} {c port : Nat} {hdr : List DWord} {pay : List Byte} (h : s.bouncePut c port hdr pay = some t) :
    Keeps s t := by
  unfold State.bouncePut at h
  simp only at h
  split at h
  · cases h
  · cases h
    exact (keeps_updCtx ..).after <| (keeps_busWrite ..).after (keeps_settle ..)

theorem keeps_rowCell (s : State) (port : Nat) (hdr : List DWord) (h : CellHdr) (pay : List Byte) (i : Nat) (r : Row) :
    Keeps s (s.rowCell port hdr h pay i r).2 := by
  fun_cases State.rowCell s port hdr h pay i r
  · exact .refl s
  · exact .refl s
  · exact keeps_bouncePut ‹_›
  · exact .refl s
  · exact (keeps_when (keeps_closeRow ..)).after <| (keeps_setRows ..).after (keeps_putCell ..)

theorem keeps_cellIn (s : State) (port : Nat) (hdr : List DWord) (h : CellHdr) (pay : List Byte) (rp : Option Nat) :
    Keeps s (s.cellIn port hdr h pay rp).2 := by
  fun_cases State.cellIn s port hdr h pay rp
  · exact .refl s
  · exact .refl s
  · exact keeps_rowCell ..
  · exact .refl s
  · exact keeps_addRow ..
  · exact (keeps_rowCell ..).after (keeps_addRow ..)

theorem outKeeps_cellReceive (port : Nat) (h0 h1 h2 h3 : BitVec 64) (pay : List (BitVec 8)) (s : State) :
    OutKeeps s (execCellReceive port h0 h1 h2 h3 pay s) := by
  fun_cases execCellReceive port h0 h1 h2 h3 pay s
  · exact outKeeps_stay s
  · exact outKeeps_moved (keeps_dropCell ..)
  · exact outKeeps_moved ((Keeps.snd ‹_› (keeps_cellIn ..)).after (keeps_corrected ..))
  · exact outKeeps_moved ((keeps_setWire ..).after <| (Keeps.snd ‹_› (keeps_cellIn ..)).after (keeps_corrected ..))

theorem outKeeps_rowAbandon (row : Nat) (s : State) : OutKeeps s (execRowAbandon row s) := by
  fun_cases execRowAbandon row s
  · exact outKeeps_stay s
  · exact outKeeps_stay s
  · exact outKeeps_moved ((keeps_postAsync ..).after (keeps_setRows ..))

theorem keeps_replayEnd (s : State) (c : Nat) : Keeps s (s.replayEnd c) := .of_eq rfl rfl rfl rfl rfl

theorem keeps_replayOne {s t : State} {c : Nat} (h : s.replayOne c = some t) : Keeps s t := by
  unfold State.replayOne at h
  simp only at h
  split at h
  · cases h
  split at h
  · cases h
  · cases h
    exact (keeps_when (keeps_postAsync ..)).after <| (keeps_updCtx ..).after <| (Keeps.snd ‹_› (keeps_cellIn ..)).after
      (keeps_settle ..)

theorem outKeeps_bounceRingReplay (c : Nat) (s : State) : OutKeeps s (execBounceRingReplay c s) := by
  fun_cases execBounceRingReplay c s
  · exact outKeeps_stay s
  · exact outKeeps_moved (keeps_replayEnd ..)
  · exact outKeeps_stay s
  · exact outKeeps_moved ((keeps_when (keeps_replayEnd ..)).after (keeps_replayOne ‹_›))

theorem outKeeps_linkUp (port lanes : Nat) (s : State) : OutKeeps s (execLinkUp port lanes s) := by
  fun_cases execLinkUp port lanes s
  · exact outKeeps_stay s
  · exact outKeeps_stay s
  · exact outKeeps_moved (keeps_updPort ..)
  · exact outKeeps_moved ((keeps_log ..).after (keeps_updPort ..))
  · exact outKeeps_stay s

theorem outKeeps_linkDown (port : Nat) (s : State) : OutKeeps s (execLinkDown port s) :=
  outKeeps_ite (outKeeps_moved ((keeps_log ..).after (keeps_updPort ..))) (outKeeps_stay s)

/-! ## Power (R437, R455-R468, R488) -/

theorem keeps_updDom (s : State) (d : Nat) (f : Domain → Domain) : Keeps s (s.updDom d f) := ⟨id, rfl, rfl, rfl, length_upd ..⟩

theorem keeps_endPad (s : State) (p : Nat) : Keeps s (s.endPad p) := keeps_updPad ..

theorem outKeeps_padEvent (p : Nat) (c : Paddock → Bool) (s : State) : OutKeeps s (padEvent p c s) := by
  fun_cases padEvent p c s
  · exact outKeeps_stay s
  · exact outKeeps_moved (keeps_endPad ..)
  · exact outKeeps_stay s

theorem keeps_suspect (s : State) (d n r : Nat) : Keeps s (s.suspect d n r) :=
  (keeps_when ((keeps_log ..).after (keeps_updDom ..))).after <| (keeps_log ..).after (keeps_updDom ..)

theorem keeps_takeOverruns (s : State) (en : List (Nat × Nat × Nat)) : Keeps s (s.takeOverruns en) :=
  keeps_foldl _ (fun _ _ => (keeps_when (keeps_log ..)).after (keeps_updPad ..)) ..

theorem keeps_sample (s : State) (en : List (Nat × Nat × Nat)) (rd : List (Nat × List Int)) (d : Nat) : Keeps s (s.sample en rd d) :=
  (keeps_when ((keeps_setOff ..).after (keeps_log ..))).after <| (keeps_unless (keeps_log ..)).after <| (keeps_updDom ..).after <|
    (keeps_foldl _ (fun _ _ => keeps_suspect ..) ..).after (keeps_updDom ..)

theorem keeps_liftCap (s : State) (d : Nat) : Keeps s (s.liftCap d) := keeps_when ((keeps_log ..).after (keeps_updDom ..))
theorem keeps_release (s : State) (p : Nat) : Keeps s (s.release p) := keeps_when (keeps_updPad ..)
theorem keeps_grantSlot (s : State) (ts : List (Nat × Team)) (p : Nat) : Keeps s (s.grantSlot ts p) := keeps_updPad ..

theorem keeps_answerClaim (s : State) (won : List Nat) (x : Nat × Team) : Keeps s (s.answerClaim won x) := by
  fun_cases State.answerClaim s won x
  · exact .refl s
  · exact keeps_updTeam ..

theorem keeps_decide (s : State) : Keeps s s.decide :=
  (keeps_foldl _ (fun _ _ => keeps_answerClaim ..) ..).after (keeps_foldl _ (fun _ _ => keeps_grantSlot ..) ..)

theorem keeps_setGuard (s : State) (d : Nat) : Keeps s (s.setGuard d) := keeps_updDom ..

theorem outKeeps_intervalBoundary (en : List (Nat × Nat × Nat)) (temps : List (Nat × List Int)) (s : State) :
    OutKeeps s (execIntervalBoundary en temps s) := by
  have ticked (t : State) : Keeps t { t with domains := t.domains.map Domain.tick } := ⟨id, rfl, rfl, rfl, List.length_map ..⟩
  have counted (t : State) (fs : List Fold) (b : Bool) : Keeps t { t with folds := fs, testDue := b } := .of_eq rfl rfl rfl rfl rfl
  unfold execIntervalBoundary
  extract_lets clock s1 s2 s3 s4 s5 s6 s7
  have clocked t : Keeps t (clock t) := .of_eq rfl rfl rfl rfl rfl
  have k1 : Keeps s s1 := (keeps_takeOverruns ..).after (keeps_writeAll ..)
  have k2 : Keeps s1 s2 := keeps_foldl _ (fun _ _ => (keeps_liftCap ..).after (keeps_sample ..)) ..
  have k4 : Keeps s2 s4 := (keeps_foldl _ keeps_release ..).after (keeps_foldl _ keeps_endPad ..)
  have k5 : Keeps s4 s5 := (keeps_foldl _ keeps_setGuard ..).after (keeps_decide ..)
  have k6 : Keeps s5 s6 := ticked s5
  have k7 : Keeps s s7 := (keeps_tryFolds ..).after <| k6.after <| k5.after <| k4.after <| k2.after k1
  exact outKeeps_ite (outKeeps_moved (clocked s)) (outKeeps_moved ((clocked _).after <| (counted s7 ..).after k7))

theorem outKeeps_voltageReached (d : Nat) (s : State) : OutKeeps s (execVoltageReached d s) :=
  outKeeps_ite (outKeeps_moved (keeps_updDom ..)) (outKeeps_stay s)

theorem outKeeps_marginWindowEnd (d n : Nat) (s : State) : OutKeeps s (execMarginWindowEnd d n s) := by
  fun_cases execMarginWindowEnd d n s
  · exact outKeeps_stay s
  · exact outKeeps_stay s
  · exact outKeeps_moved (keeps_updDom ..)

theorem outKeeps_marginHoldEnd (d : Nat) (s : State) : OutKeeps s (execMarginHoldEnd d s) := by
  fun_cases execMarginHoldEnd d s
  · exact outKeeps_stay s
  · exact outKeeps_moved (keeps_updDom ..)
  · exact outKeeps_stay s

theorem keeps_poisonSlot (s : State) (place k : Nat) (p : Poison) : Keeps s (s.poisonSlot place k p) := by
  fun_cases State.poisonSlot s place k p
  · exact .refl s
  · exact keeps_updTeam ..

theorem keeps_poisonUni (s : State) (place k : Nat) (p : Poison) : Keeps s (s.poisonUni place k p) := by
  fun_cases State.poisonUni s place k p
  · exact .refl s
  · exact keeps_updTeam ..

theorem keeps_poisonAt (s : State) (pa : Nat) (p : Poison) : Keeps s (s.poisonAt pa p) := keeps_addPoison ..

theorem keeps_poisonL1 (s : State) (pad i : Nat) (p : Poison) : Keeps s (s.poisonL1 pad i p) := by
  fun_cases State.poisonL1 s pad i p
  · exact .of_eq rfl rfl rfl rfl rfl
  · exact .of_eq rfl rfl rfl rfl rfl
  · exact .of_eq rfl rfl rfl rfl rfl

theorem keeps_poisonWord (s : State) (d u k i : Nat) (p : Poison) : Keeps s (s.poisonWord d u k i p) := by
  unfold State.poisonWord
  split
  · exact keeps_poisonSlot ..
  · exact keeps_poisonL1 ..
  · exact keeps_poisonAt ..
  · exact keeps_poisonAt ..
  · exact keeps_poisonAt ..
  · exact keeps_ite (keeps_when (keeps_poisonAt ..)) (keeps_poisonUni ..)
  · exact keeps_poisonAt ..
  · exact .refl s

theorem keeps_replaySlices (s : State) (d : Nat) : Keeps s (s.replaySlices d) :=
  ⟨id, rfl, by simp [State.replaySlices], rfl, rfl⟩

theorem outKeeps_marginEvent (d u k i : Nat) (s : State) : OutKeeps s (execMarginEvent d u k i s) :=
  outKeeps_ite (outKeeps_stay s) <| outKeeps_moved <| (keeps_poisonWord ..).after <| (keeps_when (keeps_replaySlices ..)).after <|
    (keeps_updDom ..).after (keeps_log ..)

theorem outKeeps_uncorrectableMemoryError (d u k i : Nat) (s : State) : OutKeeps s (execUncorrectableMemoryError d u k i s) :=
  outKeeps_ite (outKeeps_stay s) (outKeeps_moved ((keeps_poisonWord ..).after (keeps_log ..)))

theorem outKeeps_sensorSuspect (d n r : Nat) (x : Int) (s : State) : OutKeeps s (execSensorSuspect d n r x s) :=
  outKeeps_ite (outKeeps_stay s) (outKeeps_moved ((keeps_suspect ..).after (keeps_updDom ..)))

theorem outKeeps_sensorHealthy (d n : Nat) (x : Int) (s : State) : OutKeeps s (execSensorHealthy d n x s) :=
  outKeeps_ite (outKeeps_stay s) (outKeeps_moved ((keeps_log ..).after (keeps_updDom ..)))

/-! ## Management (R480-R485) -/

theorem keeps_chooseBank (s : State) : Keeps s s.chooseBank := by
  have h (b : Nat) : Keeps s { s with bank := b, bankNext := none } := .of_eq rfl rfl rfl rfl rfl
  fun_cases State.chooseBank s
  · exact .refl s
  · exact (keeps_log ..).after (h _)

theorem keeps_startDoms (s : State) (a b v : Nat) : Keeps s (s.startDoms a b v) := ⟨id, rfl, rfl, rfl, by simp [State.startDoms]⟩

theorem outKeeps_respond (s : State) (c : Nat) (bs : List Byte) : OutKeeps s (s.respond c bs) := outKeeps_moved (keeps_setOut ..)
theorem outKeeps_spdmError (s : State) (c : Nat) : OutKeeps s (s.spdmError c) := outKeeps_respond ..

theorem outKeeps_atStage {s : State} (n : Nat) {o : Out1} (h : OutKeeps s o) : OutKeeps s (s.atStage n o) :=
  outKeeps_ite h (outKeeps_spdmError ..)

/-- An answer of the responder that goes to another stage. -/
theorem outKeeps_stage (s : State) (n c : Nat) (bs : List Byte) : OutKeeps s ({ s with spdm := n }.respond c bs) :=
  (outKeeps_respond ..).from (.of_eq rfl rfl rfl rfl rfl)

theorem outKeeps_negotiateAlgorithms (as : List Nat) (s : State) : OutKeeps s (execNegotiateAlgorithms as s) :=
  outKeeps_atStage _ (outKeeps_ite (outKeeps_stage ..) (outKeeps_spdmError ..))

theorem outKeeps_getCertificate (n o l : Nat) (s : State) : OutKeeps s (execGetCertificate n o l s) :=
  outKeeps_atStage _ (outKeeps_ite (outKeeps_spdmError ..) (outKeeps_respond ..))

theorem outKeeps_challenge (n : Nat) (x : BitVec 256) (s : State) : OutKeeps s (execChallenge n x s) :=
  outKeeps_atStage _ (outKeeps_ite (outKeeps_spdmError ..) (outKeeps_respond ..))

theorem outKeeps_getMeasurements (n : Nat) (x : BitVec 256) (s : State) : OutKeeps s (execGetMeasurements n x s) :=
  outKeeps_atStage _ <| outKeeps_ite (outKeeps_respond ..) <| outKeeps_ite (outKeeps_respond ..) <|
    outKeeps_ite (outKeeps_respond ..) (outKeeps_spdmError ..)

/-- A reset puts as many contexts, paddocks, ports and domains in place as the part has, and leaves memory as it is (R485). -/
theorem powerOn_inv {s : State} (i : s.inv = true) : s.powerOn.inv = true := by
  simp only [State.inv, Bool.and_eq_true] at i ⊢
  obtain ⟨⟨⟨⟨wf, -⟩, -⟩, -⟩, -⟩ := i
  exact ⟨⟨⟨⟨wf, rfl⟩, rfl⟩, rfl⟩, rfl⟩

/-- A step of bring-up keeps the invariant, though a reset is among them. -/
theorem bringUp_inv {s : State} (i : s.inv = true) (b : Bool) : ∀ t, execBringUp b s = .next t → t.inv = true := by
  have k {t u : State} (k : Keeps t u) (i : t.inv = true) : ∀ v, moved u = .next v → v.inv = true := fun _ h => (moved_keeps k h).inv i
  have brought (t : State) (n : Nat) : Keeps t { t with bring := n } := .of_eq rfl rfl rfl rfl rfl
  have ready (t : State) (c : List DWord) (n : Nat) : Keeps t { t with caps := c, bring := n } := .of_eq rfl rfl rfl rfl rfl
  have started (t : State) (f : Domain → Domain) (g : Paddock → Paddock) (n : Nat) :
      Keeps t { t with domains := t.domains.map f, paddocks := t.paddocks.map g, bring := n } :=
    ⟨id, rfl, List.length_map .., rfl, List.length_map ..⟩
  fun_cases execBringUp b s
  · exact k ((brought ..).after <| (keeps_startDoms ..).after (keeps_chooseBank ..)) i
  · exact k (brought ..) i
  · exact k ((started ..).after (keeps_startDoms ..)) i
  · exact k ((brought ..).after <| (keeps_log ..).after (keeps_startDoms ..)) i
  · exact k ((keeps_updCtx ..).after (brought ..)) i
  · exact k (ready ..) i
  · exact k (brought s.powerOn 1) (powerOn_inv i)

/-! ## Fold control and system calls (R415, R479) -/

theorem keeps_osResult (s : State) (n r x : Nat) : Keeps s (s.osResult n r x) := keeps_setOut ..

theorem keeps_fillRequest (s : State) (fn r : Nat) (x : Option Nat) : Keeps s (s.fillRequest fn r x) := by
  unfold State.fillRequest
  split
  · exact .refl s
  · extract_lets s1 s2
    have k2 : Keeps s1 s2 := by
      unfold s2
      split
      · exact .refl s1
      · exact keeps_busWrite ..
    exact (keeps_setFnRings ..).after <| (keeps_busWrite ..).after <| k2.after (keeps_settle ..)

theorem keeps_endRequest (s : State) (fn : Nat) : Keeps s (s.endRequest fn) := by
  fun_cases State.endRequest s fn
  · exact keeps_fillRequest ..
  · exact .refl s

/-- A call of the resident OS, answered or refused in its ring. -/
theorem outKeeps_osCall {n : Nat} {args : List Nat} {o : Option Nat} {f : State → Out1} {s : State} (h : OutKeeps s (f s)) :
    OutKeeps s (osCall n args o f s) := by
  fun_cases osCall n args o f s
  · exact outKeeps_stay s
  · exact outKeeps_moved ((keeps_endRequest ..).after (keeps_osResult ..))
  · exact h
  · exact outKeeps_moved ((keeps_endRequest ..).after (keeps_osResult ..))
  · exact outKeeps_next ((keeps_unless (keeps_endRequest ..)).after (h.next _ ‹_›))
  · exact h

theorem keeps_resumeTeam (s : State) (b : Bool) (x : Nat × Team × Stop) : Keeps s (s.resumeTeam b x) := by
  fun_cases State.resumeTeam s b x
  · exact keeps_updTeam ..
  · exact keeps_updTeam ..
  · exact keeps_updTeam ..
  · exact keeps_updTeam ..

theorem keeps_reread (s : State) (core c : Nat) (b : Bool) (l : LoadLine) : Keeps s (s.reread core c b l).2 :=
  (keeps_when (keeps_noteStrong ..)).after (keeps_readPlain ..)

theorem keeps_rereads (s : State) (core c : Nat) (b : Bool) (ls : List LoadLine) : Keeps s (s.rereads core c b ls).2 := by
  induction ls generalizing s with
  | nil => exact .refl s
  | cons l ls ih => exact (ih _).after (keeps_reread ..)

theorem keeps_replayLoad (s : State) (t : Nat) (i : InFlight) : Keeps s (s.replayLoad t i) := by
  fun_cases State.replayLoad s t i
  · exact .refl s
  · exact keeps_lateTrap ..
  · exact (keeps_updTeam ..).after <| (keeps_rereads ..).after <| (keeps_tlbFills ..).after (keeps_when (keeps_acquireOf ..))

theorem keeps_replayTeam (s : State) (b : Bool) (x : Nat × Team × Stop) : Keeps s (s.replayTeam b x) :=
  (keeps_foldl _ (fun _ _ => keeps_replayLoad ..) ..).after (keeps_updTeam ..)

theorem keeps_settleBroken (s : State) (bs : List Broken) : Keeps s (s.settleBroken bs) := by
  induction bs generalizing s with
  | nil => exact .refl s
  | cons b bs ih =>
    cases b with
    | op n =>
      unfold State.settleBroken
      refine (ih _).after ?_
      split
      · exact keeps_ccFall ..
      · exact .refl s
    | arr k p i => exact (ih _).after (keeps_ccFall ..)

theorem keeps_freshIdle (s : State) (n : Nat) : Keeps s (s.freshIdle n) := keeps_updFold ..

theorem keeps_answerHalt (s : State) (n : Nat) (f : Fold) (lead : Stop) (replay : Bool) : Keeps s (s.answerHalt n f lead replay) :=
  (keeps_retryFold ..).after <| (keeps_meetCheck ..).after <| (keeps_foldl _ (fun _ _ => keeps_deliver ..) ..).after <|
    (keeps_when (keeps_updFold ..)).after <|
      (keeps_when ((keeps_freshIdle ..).after (keeps_ite (keeps_repostBroken ..) ((keeps_updFold ..).after (keeps_settleBroken ..))))).after <|
        (keeps_foldl _ (fun _ _ => keeps_ite (keeps_replayTeam ..) (keeps_resumeTeam ..)) ..).after <|
          (keeps_foldl _ (fun _ _ => keeps_updTeam ..) ..).after (keeps_dropCode ..)

theorem keeps_foldControl (s : State) (c n a : Nat) : Keeps s (s.foldControl c n a) := by
  fun_cases State.foldControl s c n a
  · exact keeps_osResult ..
  · exact keeps_osResult ..
  · exact keeps_osResult ..
  · exact (keeps_osResult ..).after (keeps_killFold ..)
  · exact (keeps_osResult ..).after (keeps_answerHalt ..)

theorem outKeeps_foldWatchdog (n : Nat) (s : State) : OutKeeps s (execFoldWatchdog n s) := by
  fun_cases execFoldWatchdog n s
  · exact outKeeps_stay s
  · exact outKeeps_stay s
  · exact outKeeps_moved ((keeps_killFold ..).after (keeps_postAsync ..))

theorem outKeeps_fatalUnclassified (n : Nat) (s : State) : OutKeeps s (execFatalUnclassified n s) := by
  fun_cases execFatalUnclassified n s
  · exact outKeeps_stay s
  · exact outKeeps_stay s
  · exact outKeeps_stay s
  · exact outKeeps_moved ((keeps_log ..).after (keeps_updTeam ..))

theorem keeps_vacate (s : State) (m : BitVec 32) : Keeps s (s.vacate m) := .of_eq rfl rfl rfl rfl rfl

theorem outKeeps_vacate (m : BitVec 32) (s : State) : OutKeeps s (execVacate m s) := by
  fun_cases execVacate m s
  · exact outKeeps_stay s
  · exact outKeeps_moved ((keeps_endRequest ..).after (keeps_osResult ..))
  · exact outKeeps_moved (keeps_vacate ..)

/-! ## Preemption (R423-R428) -/

theorem keeps_haltArray (s : State) (n : Nat) (f : Fold) : Keeps s (s.haltArray n f) := (keeps_updFold ..).after (keeps_updPad ..)

/-- The work of one operation as far as it has come (R424). -/
theorem keeps_haltOps (s : State) (n : Nat) (f : Fold) : Keeps s (s.haltOps n f) := by
  refine keeps_foldl _ (fun s i => ?_) ..
  split
  · exact .refl s
  · refine keeps_unless ?_
    split
    · exact (keeps_updOp ..).after (keeps_zeroUpTo ..)
    · split
      · exact .refl s
      · extract_lets x n upto now
        split
        · exact .refl s
        · exact (keeps_updOp ..).after (.fst ‹_› (keeps_drainOut ..))
    · exact .refl s

theorem outKeeps_victimStop (n : Nat) (s : State) : OutKeeps s (execVictimStop n s) := by
  fun_cases execVictimStop n s
  · exact outKeeps_stay s
  · exact outKeeps_stay s
  · exact outKeeps_moved ((keeps_haltOps ..).after <| (keeps_haltArray ..).after <| (keeps_foldl _ (fun _ _ => keeps_updTeam ..) ..).after
      (keeps_haltFold ..))

theorem keeps_postEntries (s : State) (p n : Nat) (es : List ResEntry) : Keeps s (s.postEntries p n es) := by
  induction es generalizing s with
  | nil => exact .refl s
  | cons e es ih => exact (ih _).after (keeps_updPad ..)

theorem keeps_dropEntries (s : State) (p n : Nat) : Keeps s (s.dropEntries p n) := keeps_updPad ..

theorem keeps_goOn (s : State) (n : Nat) : Keeps s (s.goOn n) := by
  fun_cases State.goOn s n
  · exact .refl s
  · exact (keeps_retryFold ..).after (keeps_updFold ..)
  · exact (keeps_retryFold ..).after <| (keeps_meetCheck ..).after <| (keeps_foldl _ keeps_deliver ..).after <|
      (keeps_foldl _ (fun _ _ => keeps_updTeam ..) ..).after (keeps_updFold ..)

theorem outKeeps_victimMigrate (n p : Nat) (s : State) : OutKeeps s (execVictimMigrate n p s) := by
  fun_cases execVictimMigrate n p s
  · exact outKeeps_stay s
  · exact outKeeps_stay s
  · exact outKeeps_stay s
  · exact outKeeps_stay s
  · exact outKeeps_moved ((keeps_fillPlaces ..).after <| (keeps_dateEntries ..).after <| (keeps_goOn ..).after <| (keeps_updCtx ..).after <|
      (keeps_postEntries ..).after <| (keeps_moveFold ..).after (keeps_dropEntries ..))

theorem outKeeps_foldSave (n : Nat) (s : State) : OutKeeps s (execFoldSave n s) := by
  fun_cases execFoldSave n s
  · exact outKeeps_stay s
  · exact outKeeps_stay s
  · exact outKeeps_moved ((keeps_updFold ..).after (keeps_goOn ..))
  · exact outKeeps_moved ((keeps_fillPlaces ..).after <| (keeps_unpin ..).after <| (keeps_updFold ..).after <| (keeps_setTeams ..).after <|
      (keeps_updPad ..).after <| (keeps_carry ..).after <| (keeps_foldl _ (fun _ _ => keeps_untag ..) ..).after (keeps_leaveCores ..))

theorem outKeeps_foldRestore (n p : Nat) (s : State) : OutKeeps s (execFoldRestore n p s) := by
  have seated (t : State) (ts : List (Nat × AccTag)) (tm : List Team) : Keeps t { t with tags := ts, teams := tm } :=
    .of_eq rfl rfl rfl rfl rfl
  fun_cases execFoldRestore n p s
  · exact outKeeps_stay s
  · exact outKeeps_stay s
  · exact outKeeps_stay s
  · exact outKeeps_moved ((keeps_dateEntries ..).after <| (keeps_joinSets ..).after <| (keeps_goOn ..).after <| (keeps_enterCores ..).after <|
      (keeps_updCtx ..).after <| (keeps_postEntries ..).after <| (keeps_updPad ..).after <| (seated ..).after <| (keeps_carry ..).after <|
        (keeps_foldl _ keeps_lift ..).after <| (keeps_updFold ..).after (keeps_dropEntries ..))

theorem keeps_vacated (s : State) (i : Nat) (v : Vacate) : Keeps s (s.vacated i v) := by
  have h (vs : List Vacate) (o : List Out) : Keeps s { s with vacates := vs, out := o } := .of_eq rfl rfl rfl rfl rfl
  fun_cases State.vacated s i v
  · exact h ..
  · exact (keeps_fillRequest ..).after (h ..)

theorem outKeeps_vacateComplete (s : State) : OutKeeps s (execVacateComplete s) := by
  fun_cases execVacateComplete s
  · exact outKeeps_stay s
  · exact outKeeps_moved (keeps_vacated ..)
  · exact outKeeps_stay s

/-! ## Shearers (R386-R394) -/

theorem keeps_shTake (s : State) (c r : Nat) : Keeps s (s.shTake c r) := .of_eq rfl rfl rfl rfl rfl

theorem keeps_shFill (n : Nat) (s : State) : Keeps s (s.shFill n) := by
  induction n generalizing s with
  | zero => exact .refl s
  | succ n ih =>
    unfold State.shFill
    split
    · exact .refl s
    · split
      · exact keeps_when ((ih _).after (keeps_shTake ..))
      · exact .refl s

theorem outKeeps_shearerTakeRequest (c r : Nat) (s : State) : OutKeeps s (execShearerTakeRequest c r s) := by
  fun_cases execShearerTakeRequest c r s
  · exact outKeeps_stay s
  · exact outKeeps_moved <| (keeps_setShear ..).after <| (keeps_updOp ..).after <| (keeps_updCtx ..).after <|
      (keeps_readSettle ..).after <| (keeps_shTake ..).after (keeps_shFill ..)
  · exact outKeeps_stay s

theorem keeps_shWork {s t : State} {c r op : Nat} {x : ShReq} {j : ShWork} (h : s.shWork c r op = some (x, j, t)) : Keeps s t := by
  unfold State.shWork at h
  extract_lets t' at h
  have k : Keeps s t' := keeps_shFill ..
  clear_value t'
  split at h
  · cases h
  · split at h
    · cases h; exact k
    · cases h

/-- A chunk of a request's work is done in a state that keeps the invariant of `s`. -/
theorem outKeeps_shStep {s t : State} (k : Keeps s t) (c r status detail n : Nat) (last : Bool) :
    OutKeeps s (t.shStep c r status detail n last) := by
  have h (u : State) (b : List (Nat × Nat)) (x : List ShReq) : Keeps u { u with shBusy := b, shear := x } := .of_eq rfl rfl rfl rfl rfl
  exact outKeeps_moved ((h ..).after k)

theorem outKeeps_shEnd {s t : State} (k : Keeps s t) (c r status detail n : Nat) : OutKeeps s (t.shEnd c r status detail n) :=
  outKeeps_shStep k ..

theorem keeps_shOpen (s : State) (j : ShWork) (x : Nat) (w : Bool) (n : Nat) : Keeps s (s.shOpen j x w n).1 := by
  fun_cases State.shOpen s j x w n
  · exact .refl s
  · exact keeps_keepRec ..
  · exact keeps_keepRec ..

theorem keeps_shGet (s : State) (j : ShWork) (r : Rec) (p : Piece) : Keeps s (s.shGet j r p).2 := by
  fun_cases State.shGet s j r p
  · exact (keeps_hold ..).after (keeps_settleFor ..)
  · exact (keeps_compress ..).after (keeps_settle ..)

theorem keeps_shWalks (s : State) (j : ShWork) (d : ShSide) (is : List Nat) : Keeps s (s.shWalks j d is) := by
  unfold State.shWalks
  split
  · exact keeps_walkSettles ..
  · exact .refl s

theorem keeps_shGets (s : State) (j : ShWork) (d : ShSide) (is : List Nat) : Keeps s (s.shGets j d is).2.1 := by
  induction is generalizing s with
  | nil => exact .refl s
  | cons i is ih =>
    have k := keeps_shWalks s j d [i]
    unfold State.shGets
    extract_lets t
    split
    · exact k
    · split
      · exact k
      · exact (ih _).after <| (keeps_shGet ..).after k

theorem keeps_shPuts (s : State) (j : ShWork) (d : ShSide) (xs : List (Nat × Nat)) : Keeps s (s.shPuts j d xs).1 := by
  unfold State.shPuts
  extract_lets s1 _ _ ps _ s2 s3
  have k1 : Keeps s s1 := keeps_shWalks ..
  have k2 : Keeps s1 s2 := (keeps_clearPoison ..).after <| keeps_foldl _ (fun _ _ => (keeps_writeRuns ..).after (keeps_settle ..)) ps s1
  have k3 : Keeps s1 s3 := (keeps_compress ..).after k2
  exact (keeps_ite (keeps_storeBlocks ..) (keeps_ite k3 ((keeps_updFold ..).after k3))).after k1

theorem keeps_shMove (s : State) (j : ShWork) (a b : ShSide) (cs : List (Nat × Nat)) : Keeps s (s.shMove j a b cs).1 :=
  (keeps_shPuts ..).after (keeps_shGets ..)

theorem keeps_shSides (s : State) (j : ShWork) (b : List DWord) (m n : Nat) (f : ShSide → ShSide → Bool) :
    Keeps s (s.shSides j b m n f).1 := by
  fun_cases State.shSides s j b m n f
  · exact keeps_shOpen ..
  · exact (keeps_shOpen ..).after (keeps_shOpen ..)
  · exact (keeps_shOpen ..).after (keeps_shOpen ..)

theorem keeps_shKeep (s : State) (c r : Nat) (out : List Byte) (n : Nat) : Keeps s (s.shKeep c r out n) := keeps_setShear ..

theorem keeps_shOut (s : State) (j : ShWork) (d : ShSide) (n : Nat) (out : List Byte) : Keeps s (s.shOut j d n out).1 := keeps_shPuts ..

theorem keeps_shInflate (s : State) (j : ShWork) (x : ShReq) (d : ShSide) : Keeps s (s.shInflate j x d).1 := by
  unfold State.shInflate
  split
  · exact .refl s
  · exact keeps_shGets ..

theorem keeps_shTile (s : State) (j : ShWork) (x : ShReq) (d : ShSide) : Keeps s (s.shTile j x d).1 := by
  fun_cases State.shTile s j x d
  · exact .refl s
  · exact keeps_shGets ..
  · exact keeps_shGets ..

/-- The state in which the sides of a request under way stand opened, or refused. -/
theorem keeps_shBegin {s t u : State} {c r op m n : Nat} {x : ShReq} {j : ShWork} {b : List DWord} {f : ShSide → ShSide → Bool}
    {e : Except Nat (ShSide × ShSide)} (h : s.shWork c r op = some (x, j, t)) (k : t.shSides j b m n f = (u, e)) : Keeps s u :=
  .fst k ((keeps_shSides ..).after (keeps_shWork h))

theorem outKeeps_shearerConvert (c r : Nat) (s : State) : OutKeeps s (execShearerConvert c r s) := by
  fun_cases execShearerConvert c r s
  · exact outKeeps_stay s
  · exact outKeeps_shEnd (keeps_shBegin ‹_› ‹_›) ..
  · exact outKeeps_shStep ((keeps_shPuts ..).after <| (keeps_shGets ..).after (keeps_shBegin ‹_› ‹_›)) ..

theorem outKeeps_shearerRetile (c r : Nat) (s : State) : OutKeeps s (execShearerRetile c r s) := by
  fun_cases execShearerRetile c r s
  · exact outKeeps_stay s
  · exact outKeeps_shEnd (keeps_shBegin ‹_› ‹_›) ..
  · exact outKeeps_shStep ((keeps_shMove ..).after (keeps_shBegin ‹_› ‹_›)) ..

theorem outKeeps_shearerDeflateDecode (c r : Nat) (s : State) : OutKeeps s (execShearerDeflateDecode c r s) := by
  fun_cases execShearerDeflateDecode c r s
  · exact outKeeps_stay s
  · exact outKeeps_shEnd (keeps_shBegin ‹_› ‹_›) ..
  · exact outKeeps_shStep
      ((keeps_shOut ..).after <| (keeps_shKeep ..).after <| (keeps_shInflate ..).after (keeps_shBegin ‹_› ‹_›)) ..

theorem outKeeps_shearerFp64Encode (c r : Nat) (s : State) : OutKeeps s (execShearerFp64Encode c r s) := by
  fun_cases execShearerFp64Encode c r s
  · exact outKeeps_stay s
  · exact outKeeps_shEnd (keeps_shBegin ‹_› ‹_›) ..
  · exact outKeeps_shStep ((keeps_shPuts ..).after <| (keeps_shGets ..).after (keeps_shBegin ‹_› ‹_›)) ..

theorem outKeeps_shearerFp64Decode (c r : Nat) (s : State) : OutKeeps s (execShearerFp64Decode c r s) := by
  fun_cases execShearerFp64Decode c r s
  · exact outKeeps_stay s
  · exact outKeeps_shEnd (keeps_shBegin ‹_› ‹_›) ..
  · exact outKeeps_shStep ((keeps_shMove ..).after (keeps_shBegin ‹_› ‹_›)) ..

theorem outKeeps_shearerWeightStreamEncode (c r : Nat) (s : State) : OutKeeps s (execShearerWeightStreamEncode c r s) := by
  have written {t u : State} {j : ShWork} {x : ShReq} {d e : ShSide} {n : Nat} {out : List Byte} {v : Except Nat (List Byte)}
      (h : t.shTile j x e = (u, v)) (k : Keeps s t) : Keeps s ((u.shKeep c r out 0).shOut j d n out).1 :=
    (keeps_shOut ..).after <| (keeps_shKeep ..).after <| .fst h ((keeps_shTile ..).after k)
  fun_cases execShearerWeightStreamEncode c r s
  · exact outKeeps_stay s
  · exact outKeeps_shEnd (keeps_shBegin ‹_› ‹_›) ..
  · exact outKeeps_shEnd (.fst ‹_› ((keeps_shTile ..).after (keeps_shBegin ‹_› ‹_›))) ..
  · exact outKeeps_shStep (written ‹_› (keeps_shBegin ‹_› ‹_›)) ..
  · exact outKeeps_shEnd ((keeps_shPuts ..).after (written ‹_› (keeps_shBegin ‹_› ‹_›))) ..

theorem outKeeps_nvmeOut {s t : State} (k : Keeps s t) (c r : Nat) (x : ShReq) (j : ShWork) (d : ShSide) (out : List Byte) (m n : Nat) :
    OutKeeps s (t.nvmeOut c r x j d out m n) :=
  outKeeps_shStep ((keeps_shPuts ..).after <| (keeps_shKeep ..).after k) ..

theorem outKeeps_shearerNvmeRead (c r n : Nat) (d : List (BitVec 8)) (s : State) : OutKeeps s (execShearerNvmeRead c r n d s) := by
  have opened {t : State} {x : ShReq} {j : ShWork} {b : Nat} (h : s.shWork c r 6 = some (x, j, t)) : Keeps s (t.shOpen j b true 1).1 :=
    (keeps_shOpen ..).after (keeps_shWork h)
  fun_cases execShearerNvmeRead c r n d s
  · exact outKeeps_stay s
  · exact outKeeps_shEnd (opened ‹_›) ..
  · exact outKeeps_nvmeOut (opened ‹_›) ..
  · exact outKeeps_shEnd (opened ‹_›) ..
  · exact outKeeps_stay s
  · exact outKeeps_shEnd (opened ‹_›) ..
  · exact outKeeps_nvmeOut (opened ‹_›) ..

theorem outKeeps_shearerCompletion (c r : Nat) (s : State) : OutKeeps s (execShearerCompletion c r s) := by
  unfold execShearerCompletion
  split
  · exact outKeeps_stay s
  · extract_lets w s1 s2
    have k1 : Keeps s s1 := by
      unfold s1
      split
      · exact (keeps_clearPoison ..).after (keeps_virtPutAll ..)
      · exact .refl s
    have k2 : Keeps s s2 := (keeps_setShear ..).after k1
    clear_value s2
    split
    · exact outKeeps_moved ((keeps_when (keeps_opFault ..)).after k2)
    · exact outKeeps_moved ((keeps_when (keeps_opDone ..)).after k2)
    · exact outKeeps_moved k2

/-! ## Contexts, translations and queue names (R435, R474-R479) -/

theorem keeps_resetCtx (s : State) (c : Nat) : Keeps s (s.resetCtx c) := by
  unfold State.resetCtx
  extract_lets s1
  have k1 : Keeps s s1 := keeps_foldl _ (fun _ _ => keeps_when (keeps_killFold ..)) _ s
  clear_value s1
  refine (keeps_unpin ..).after (.after (t := s1) ?_ k1)
  exact ⟨id, length_upd .., List.length_map .., rfl, rfl⟩

theorem outKeeps_assignContext (fn : Nat) (s : State) : OutKeeps s (execAssignContext fn s) := by
  refine outKeeps_osCall ?_
  split
  · exact outKeeps_moved (keeps_osResult ..)
  · split
    · exact outKeeps_moved (keeps_osResult ..)
    · exact outKeeps_moved ((keeps_osResult ..).after (keeps_updCtx ..))

theorem outKeeps_releaseContext (c : Nat) (s : State) : OutKeeps s (execReleaseContext c s) :=
  outKeeps_osCall <| outKeeps_ite (outKeeps_moved (keeps_osResult ..)) <| outKeeps_ite (outKeeps_moved (keeps_osResult ..)) <|
    outKeeps_moved ((keeps_osResult ..).after (keeps_resetCtx ..))

theorem outKeeps_functionLevelReset (fn : Nat) (s : State) : OutKeeps s (execFunctionLevelReset fn s) :=
  outKeeps_ite (outKeeps_stay s) (outKeeps_moved (keeps_foldl _ keeps_resetCtx ..))

theorem keeps_newSets (s : State) (c w : Nat) : Keeps s (s.newSets c w) :=
  keeps_ite ((keeps_placeSets ..).after (keeps_updCtx ..)) (keeps_when (keeps_placeSets ..))

theorem outKeeps_writeDescriptorField (c w : Nat) (v : BitVec 64) (s : State) : OutKeeps s (execWriteDescriptorField c w v s) := by
  refine outKeeps_osCall ?_
  split
  · exact outKeeps_moved (keeps_osResult ..)
  · split
    · exact outKeeps_moved (keeps_osResult ..)
    · refine outKeeps_ite (outKeeps_moved (keeps_osResult ..)) (outKeeps_moved ?_)
      exact (keeps_osResult ..).after <| (keeps_when (keeps_faultRun ..)).after <| (keeps_newSets ..).after (keeps_updCtx ..)

theorem outKeeps_tlbInvalidationComplete (s : State) : OutKeeps s (execTlbInvalidationComplete s) :=
  outKeeps_ite (outKeeps_stay s) (outKeeps_moved ((keeps_setTinv0 ..).after (keeps_writeAll ..)))

theorem outKeeps_invalidate (c b n : Nat) (s : State) : OutKeeps s (execInvalidate c b n s) := by
  have length (x : DWord) : Keeps s { s with tinv1 := x } := .of_eq rfl rfl rfl rfl rfl
  exact outKeeps_osCall <| outKeeps_ite (outKeeps_moved (keeps_osResult ..)) <| outKeeps_ite (outKeeps_stay s) <| outKeeps_moved <|
    (keeps_osResult ..).after <| (keeps_setTinv0 ..).after <| (keeps_writeAll ..).after <| (keeps_writeTinv0 ..).after (length _)

theorem outKeeps_mapQueueName (n : Nat) (v : BitVec 64) (s : State) : OutKeeps s (execMapQueueName n v s) :=
  outKeeps_osCall <| outKeeps_ite (outKeeps_moved (keeps_osResult ..)) (outKeeps_moved ((keeps_osResult ..).after (keeps_mapName ..)))

theorem outKeeps_replayBounceRing (c : Nat) (s : State) : OutKeeps s (execReplayBounceRing c s) :=
  outKeeps_osCall <| outKeeps_ite (outKeeps_stay s) <| outKeeps_ite (outKeeps_moved (keeps_osResult ..)) <|
    outKeeps_ite (outKeeps_moved (keeps_osResult ..)) (outKeeps_moved ((keeps_osResult ..).after (keeps_writeReplay ..)))

/-! ## Registers and host writes (R362, R477) -/

theorem outKeeps_registerWrite (pa : Nat) (v : BitVec 64) (s : State) : OutKeeps s (execRegisterWrite pa v s) := by
  fun_cases execRegisterWrite pa v s
  · exact outKeeps_moved (keeps_busWrite ..)
  · exact outKeeps_stay s
  · exact outKeeps_moved (keeps_busWrite ..)
  · exact outKeeps_stay s
  · exact outKeeps_stay s

theorem outKeeps_hostMemoryWrite (a : Nat) (d : List (BitVec 8)) (s : State) : OutKeeps s (execHostMemoryWrite a d s) :=
  outKeeps_ite (outKeeps_stay s) (outKeeps_moved ((keeps_memStore ..).after (keeps_settle ..)))

/-! ## Every step (log entry 1) -/

/-- What a window tells a load that lands, what room a register file has and what a special register reads are looked up first. -/
theorem outKeeps_vland (d g : BitVec 7) (wb : Bool) (s : State) : OutKeeps s (execVland d g wb s) := by
  unfold execVland
  split
  · exact outKeeps_teamStep ..
  · exact outKeeps_stay s

theorem outKeeps_grow (sq : BitVec 3) (a : BitVec 7) (n : BitVec 14) (s : State) : OutKeeps s (execGrow sq a n s) := by
  unfold execGrow
  split
  · exact outKeeps_teamStep ..
  · exact outKeeps_stay s

theorem outKeeps_gsysRd (sq : BitVec 3) (d : BitVec 7) (n : BitVec 12) (s : State) : OutKeeps s (execGsysRd sq d n s) := by
  unfold execGsysRd
  split
  · exact outKeeps_teamStep ..
  · exact outKeeps_stay s

theorem outKeeps_controlCall (c n a : Nat) (s : State) :
    OutKeeps s (osCall 4 [c, n, a] (some c) (fun t => moved (t.foldControl c n a)) s) :=
  outKeeps_osCall (outKeeps_moved (keeps_foldControl ..))

theorem outKeeps_laneExec (len : Nat) (op : Team → LaneOp) (s : State) : OutKeeps s (laneExec len op s) := outKeeps_teamStep ..

theorem outKeeps_groupExec (len : Nat) (sq : BitVec 3) (op : Team → GroupOp) (s : State) : OutKeeps s (groupExec len sq op s) :=
  outKeeps_teamStep ..

/-- Every instruction and every move but a step of bring-up keeps the invariant field by field; what is not named is a lane
instruction on registers. -/
theorem outKeeps_exec (i : Instr) (h : ∀ b, i ≠ .bringUp b) (s : State) : OutKeeps s (exec i s) := by
  cases i with
  | vland => exact outKeeps_vland ..
  | grow => exact outKeeps_grow ..
  | gsysRd => exact outKeeps_gsysRd ..
  | gaddGa | gaddGi | gsubGa | gsubGi | gmulGa | gmulGi | gmulhiGa | gmulhiGi | gdivGa | gdivGi | gandGa | gandGi | gorGa |
    gorGi | gxorGa | gxorGi | gshlGa | gshlGi | gshrGa | gshrGi | gsraGa | gsraGi | gminGa | gminGi | gmaxGa | gmaxGi | gcmpGa |
    gcmpGi | gsel | gmov | gli | gliw | gfaddF32 | gfaddF64 | gfmulF32 | gfmulF64 | gfmaF32 | gfmaF64 | gfcvtF64F32 | gfcvtF32F64
    | gfcvtF64I64 | gfcvtI64F64 | gfcvtF32I64 | gfcvtI64F32 | gfcvtF64N64 | gfcvtN64F64 | mapcnt | mapget | gballot | gfirst |
    gredAdd | gredMin | gredMax | gredAnd | gredOr | gredXor | getfmt => exact outKeeps_groupExec ..
  | gtgtGx => exact (outKeeps_teamStep .. : OutKeeps s (execGtgtGx _ _ _ _ s))
  | gtgtGa => exact (outKeeps_teamStep .. : OutKeeps s (execGtgtGa _ _ _ _ s))
  | gcallGx => exact (outKeeps_teamStep .. : OutKeeps s (execGcallGx _ s))
  | gcallGa => exact (outKeeps_teamStep .. : OutKeeps s (execGcallGa _ s))
  | gend => exact (outKeeps_teamStep .. : OutKeeps s (execGend s))
  | gendDrop => exact (outKeeps_teamStep .. : OutKeeps s (execGendDrop s))
  | bcase => exact (outKeeps_teamStep .. : OutKeeps s (execBcase _ _ _ _ _ s))
  | gnop => exact (outKeeps_teamStep .. : OutKeeps s (execGnop _ s))
  | mapset => exact (outKeeps_teamStep .. : OutKeeps s (execMapset _ _ _ _ s))
  | mapclr => exact (outKeeps_teamStep .. : OutKeeps s (execMapclr _ _ s))
  | setfmtGk => exact (outKeeps_teamStep .. : OutKeeps s (execSetfmtGk _ _ s))
  | setfmtGa => exact (outKeeps_teamStep .. : OutKeeps s (execSetfmtGa _ _ s))
  | shrink => exact (outKeeps_teamStep .. : OutKeeps s (execShrink _ _ _ s))
  | ccadd => exact (outKeeps_teamStep .. : OutKeeps s (execCcadd _ _ _ s))
  | gsysWr => exact (outKeeps_teamStep .. : OutKeeps s (execGsysWr _ _ _ s))
  | gtrap => exact (outKeeps_teamStep .. : OutKeeps s (execGtrap _ _ s))
  | gbrk => exact (outKeeps_teamStep .. : OutKeeps s (execGbrk _ _ s))
  | sret => exact (outKeeps_teamStep .. : OutKeeps s (execSret s))
  | sretAgain => exact (outKeeps_teamStep .. : OutKeeps s (execSretAgain s))
  | sretTrap => exact (outKeeps_teamStep .. : OutKeeps s (execSretTrap _ s))
  | vmed3VectorC | vmed3UniformC | stray => exact outKeeps_strayStep ..
  | vld | vldR | vst | vldwX2 | vldwX4 | vstwX2 | vstwX4 | vldAcq | vstRel | vatomAdd | vatomMin | vatomMax | vatomAnd | vatomOr
    | vatomXor | vatomXchg | vatomCas | vpref => exact outKeeps_memExec ..
  | vlds | vsts | vbld | vldacc | vstacc => exact outKeeps_storeExec ..
  | gldGa | gldGi | gstGa | gstGi | gatomAdd | gatomMin | gatomMax | gatomAnd | gatomOr | gatomXor | gatomXchg | gatomCas =>
    exact outKeeps_gmemExec ..
  | mma | mmaJ | mmaR | mtrans | mperm | mrsum => exact outKeeps_engStep (arrIssue_keeps ..) ..
  | mzero => exact outKeeps_engStep (mzeroIssue_keeps ..) ..
  | mdrain => exact outKeeps_engStep (mdrainIssue_keeps ..) ..
  | wtab => exact outKeeps_engStep (wtabIssue_keeps ..) ..
  | copy => exact outKeeps_engStep (copyIssue_keeps ..) ..
  | xpost => exact outKeeps_engStep (xpostIssue_keeps ..) ..
  | nsend => exact outKeeps_engStep (nsendIssue_keeps ..) ..
  | cwp | cwpCore => exact outKeeps_cwpStep ..
  | cwait | cwaitCore => exact outKeeps_cwaitStep ..
  | qres | qresTry | qpub | qtake | qrel | qwait | qopen => exact outKeeps_queueStep ..
  | qclose => exact (outKeeps_queueStep .. : OutKeeps s (execQclose _ _ s))
  | fbar => exact (outKeeps_foldStep fun _ _ _ => outKeeps_arrive .. : OutKeeps s (execFbar _ s))
  | fence => exact outKeeps_fence ..
  | waitlt => exact ((outKeeps_teamStep ..).from (keeps_seeEngines s) : OutKeeps s (execWaitlt _ _ _ s))
  | emit => exact outKeeps_emit ..
  | launch => exact outKeeps_launch ..
  | phase => exact outKeeps_phase ..
  | fmove => exact outKeeps_fmove ..
  | gsysCall => exact outKeeps_gsysCall ..
  | pwclaim => exact outKeeps_pwclaim ..
  | pwstat => exact outKeeps_pwstat ..
  | mopfence => exact outKeeps_mopfence ..
  | haltArrival => exact outKeeps_haltArrival ..
  | faultRunWrite => exact outKeeps_moved (keeps_faultRun ..)
  | instructionComplete => exact outKeeps_instructionComplete ..
  | loadLineArrival => exact outKeeps_loadLineArrival ..
  | issueSelect => exact outKeeps_issueSelect ..
  | swapToPending => exact outKeeps_swapToPending ..
  | slotSpill => exact outKeeps_slotSpill ..
  | spillRestore => exact outKeeps_spillRestore ..
  | teamEnd => exact outKeeps_teamEnd ..
  | foldEnd => exact outKeeps_foldEnd ..
  | queueRelease => exact outKeeps_queueRelease ..
  | fmoveTransfer => exact outKeeps_fmoveTransfer ..
  | coalescerLaunch => exact outKeeps_coalescerLaunch ..
  | jobFlushLaunch => exact outKeeps_jobFlushLaunch ..
  | streamHeaderRead => exact outKeeps_streamHeaderRead ..
  | sliceGrant => exact outKeeps_sliceGrant ..
  | streamDecode => exact outKeeps_streamDecode ..
  | sliceComplete => exact outKeeps_sliceComplete ..
  | mzeroComplete => exact outKeeps_mzeroComplete ..
  | mdrainComplete => exact outKeeps_mdrainComplete ..
  | wtabLoadComplete => exact outKeeps_wtabLoadComplete ..
  | copyLineDeliver => exact outKeeps_copyLineDeliver ..
  | copyComplete => exact outKeeps_copyComplete ..
  | engineFault => exact outKeeps_engineFault ..
  | blockMerge => exact outKeeps_blockMerge ..
  | decodedBlockEncode => exact outKeeps_decodedBlockEncode ..
  | shearerTakeRequest => exact outKeeps_shearerTakeRequest ..
  | shearerConvert => exact outKeeps_shearerConvert ..
  | shearerRetile => exact outKeeps_shearerRetile ..
  | shearerDeflateDecode => exact outKeeps_shearerDeflateDecode ..
  | shearerFp64Encode => exact outKeeps_shearerFp64Encode ..
  | shearerFp64Decode => exact outKeeps_shearerFp64Decode ..
  | shearerWeightStreamEncode => exact outKeeps_shearerWeightStreamEncode ..
  | shearerNvmeRead => exact outKeeps_shearerNvmeRead ..
  | shearerCompletion => exact outKeeps_shearerCompletion ..
  | cellTransmit => exact outKeeps_cellTransmit ..
  | cellRetransmit => exact outKeeps_cellRetransmit ..
  | cellReceive => exact outKeeps_cellReceive ..
  | ackReceive => exact outKeeps_ackReceive ..
  | rowAbandon => exact outKeeps_rowAbandon ..
  | bounceRingReplay => exact outKeeps_bounceRingReplay ..
  | portEnable | dropClear | fecuClear => exact outKeeps_moved (keeps_updPort ..)
  | linkUp => exact outKeeps_linkUp ..
  | linkDown => exact outKeeps_linkDown ..
  | uncorrectableCodeword => exact outKeeps_moved ((keeps_updPort ..).after (keeps_corrected ..))
  | intervalBoundary => exact outKeeps_intervalBoundary ..
  | permitsExhausted | fallEnd | permitRefill => exact outKeeps_padEvent ..
  | voltageReached => exact outKeeps_voltageReached ..
  | marginWindowEnd => exact outKeeps_marginWindowEnd ..
  | marginHoldEnd => exact outKeeps_marginHoldEnd ..
  | marginEvent => exact outKeeps_marginEvent ..
  | uncorrectableMemoryError => exact outKeeps_uncorrectableMemoryError ..
  | sensorSuspect => exact outKeeps_sensorSuspect ..
  | sensorHealthy => exact outKeeps_sensorHealthy ..
  | foldWatchdog => exact outKeeps_foldWatchdog ..
  | doorbellWrite => exact outKeeps_doorbellWrite ..
  | packetRead => exact outKeeps_packetRead ..
  | dependenceTest => exact outKeeps_dependenceTest ..
  | jobDispatch => exact outKeeps_jobDispatch ..
  | foldAdmit => exact outKeeps_foldAdmit ..
  | foldReservation => exact outKeeps_foldReservation ..
  | jobComplete => exact outKeeps_jobComplete ..
  | jobFail => exact outKeeps_jobFail ..
  | victimStop => exact outKeeps_victimStop ..
  | victimMigrate => exact outKeeps_victimMigrate ..
  | foldSave => exact outKeeps_foldSave ..
  | foldRestore => exact outKeeps_foldRestore ..
  | vacateComplete => exact outKeeps_vacateComplete ..
  | syscallAnswer => exact outKeeps_syscallAnswer ..
  | assignContext => exact outKeeps_assignContext ..
  | releaseContext => exact outKeeps_releaseContext ..
  | writeDescriptorField => exact outKeeps_writeDescriptorField ..
  | foldResume | foldReplay | foldKill => exact outKeeps_controlCall ..
  | vacate => exact outKeeps_vacate ..
  | invalidate => exact outKeeps_invalidate ..
  | mapQueueName => exact outKeeps_mapQueueName ..
  | replayBounceRing => exact outKeeps_replayBounceRing ..
  | replayGo => exact outKeeps_moved (keeps_writeReplay ..)
  | tinv0Go => exact outKeeps_moved (keeps_writeTinv0 ..)
  | tlbInvalidationComplete => exact outKeeps_tlbInvalidationComplete ..
  | faultQueueHeadWrite => exact outKeeps_moved ((keeps_faultRun ..).after (keeps_updCtx ..))
  | registerWrite => exact outKeeps_registerWrite ..
  | functionLevelReset => exact outKeeps_functionLevelReset ..
  | bringUp => exact absurd rfl (h _)
  | externalDebugHalt => exact outKeeps_externalDebugHalt ..
  | pldmPlatformMonitoring | blackBoxRead | configurationRequest => exact outKeeps_moved (keeps_setOut ..)
  | pldmFirmwareUpdate => exact outKeeps_moved (.of_eq rfl rfl rfl rfl rfl)
  | getVersion => exact outKeeps_stage ..
  | getCapabilities => exact outKeeps_atStage _ (outKeeps_stage ..)
  | negotiateAlgorithms => exact outKeeps_negotiateAlgorithms ..
  | getDigests => exact outKeeps_atStage _ (outKeeps_respond ..)
  | getCertificate => exact outKeeps_getCertificate ..
  | challenge n x => exact outKeeps_challenge n x s
  | getMeasurements n x => exact outKeeps_getMeasurements n x s
  | blackBoxUnfreeze => exact outKeeps_moved (.of_eq rfl rfl rfl rfl rfl)
  | hostMemoryWrite => exact outKeeps_hostMemoryWrite ..
  | fatalUnclassified => exact outKeeps_fatalUnclassified ..
  | _ => exact outKeeps_laneExec ..

theorem exec_inv {i : Instr} {s t : State} (hs : s.inv = true) (h : exec i s = .next t) : t.inv = true := by
  by_cases hb : ∃ b, i = .bringUp b
  · obtain ⟨b, rfl⟩ := hb
    exact bringUp_inv hs b t h
  · exact ((outKeeps_exec i (fun b e => hb ⟨b, e⟩) s).next t h).inv hs

/-! ## A step (R57, R452, R463) -/

theorem keeps_fetchFill (s : State) (core c : Nat) (vas : List Nat) : Keeps s (s.fetchFill core c vas) := by
  induction vas generalizing s with
  | nil => exact .refl s
  | cons va vas ih =>
    unfold State.fetchFill
    extract_lets s1
    refine (ih _).after (.after (t := s1) ?_ (keeps_tlbFill ..))
    split
    · exact keeps_codeTake ..
    · exact .refl s1

theorem keeps_nextIssue_trapped {s t : State} (h : s.nextIssue = .trapped t) : Keeps s t := by
  revert h
  fun_cases State.nextIssue s
  · nofun
  · nofun
  · nofun
  · intro h
    cases h
    exact (keeps_setMoves ..).after <| (keeps_updTeam ..).after (keeps_setCur ..)
  · nofun

theorem keeps_nextIssue_run {s t : State} {i : Instr} (h : s.nextIssue = .run i t) : Keeps s t := by
  revert h
  fun_cases State.nextIssue s
  · nofun
  · nofun
  · nofun
  · nofun
  · intro h
    cases h
    exact (keeps_fetchFill ..).after (keeps_setCur ..)

/-- Settles O6, for the move at the head of the agenda and for the instruction that a team issues: each changes memory and the
lists of parts through operations that keep them, and a step of bring-up puts new ones of the same sizes in place. -/
theorem stepKeepsInvariant : Obligations.StepKeepsInvariant := by
  unfold Obligations.StepKeepsInvariant
  intro s t hs h
  cases ha : s.agenda with
  | cons i rest =>
    have k : Keeps s { s with agenda := rest } := .of_eq rfl rfl rfl rfl rfl
    rw [step_agenda ha] at h
    split at h
    · exact exec_inv (((keeps_beforeMove ..).after k).inv hs) h
    · cases h
      exact k.inv hs
  | nil =>
    by_cases off : s.off
    · simp [step, ha, off] at h
    · rw [step_issue ha (by simpa using off)] at h
      split at h
      · cases h
        exact hs
      next hi =>
        cases h
        exact (keeps_nextIssue_trapped hi).inv hs
      next hi => exact exec_inv ((keeps_nextIssue_run hi).inv hs) h

end Sys2Proof.Machine
end
